-- ==== Sys2Proof/Word.lean ====
section
/-! DEFINITION. The widths the spec names: 32-bit registers (10_state R69), byte, int16 and bit-sequence
elements (20_memory R124, 00_scope R16). -/

namespace Sys2Proof

/-- A 32-bit register or bus word (10_state R69). A binary32 value is held as its IEEE 754 pattern. -/
abbrev Word := BitVec 32

/-- A byte element (20_memory R124). -/
abbrev Byte := BitVec 8

/-- A PCM sample: int16, two's complement (20_memory R127). -/
abbrev Sample := BitVec 16

/-- A bit sequence, index 0 first in time (00_scope R16). -/
abbrev Bits := List Bool

end Sys2Proof
end

