-- ==== Sys2Proof/Config.lean ====
section
/-! DEFINITION. What an implementation fixes (the hardware parameters of 00_scope R12, taken by the model as
data) and the free values of 93_implementation_defined (constants without a body: nothing can evaluate them). -/

namespace Sys2Proof

/-- The hardware parameters of 00_scope R12. "A model takes each one as an argument": State holds one such
record, which no step writes (notes/assumptions/1.md). -/
structure Params where
  /-- CRC generator polynomial, bit 16 = coefficient of x^16 (41_crc R250). -/
  gen : BitVec 17
  /-- Elements of PBUF. -/
  maxPayload : Nat
  /-- Elements of BBUF and RXBITS. -/
  maxBits : Nat
  /-- Elements of INBUF. -/
  maxIn : Nat
  /-- Ring buffer capacity limit, elements of WBUF. -/
  maxRb : Nat
  /-- Elements of PCMBUF. -/
  maxPcm : Nat
  /-- Elements of SPECBUF. -/
  maxSpec : Nat
  /-- Event-queue entries. -/
  evqDepth : Nat
  /-- Largest Butterworth prototype order. -/
  maxOrder : Nat
  deriving DecidableEq, Repr

/-- The reference values of 00_scope R12. `GEN` is OPEN there; this is the illustrative `G_EX` of 41_crc,
"not a claim about the hardware" (DESIGN CHOICE, notes/assumptions/1.md). -/
def Params.reference : Params where
  gen := 0x11021#17
  maxPayload := 8192
  maxBits := 65536
  maxIn := 262144
  maxRb := 1048576
  maxPcm := 1048576
  maxSpec := 4194304
  evqDepth := 8
  maxOrder := 16

/-- A free value: the answer of `cap_open` where the environment has delivered none (20_memory R150, I11). -/
opaque Config.freeCapOpen : Nat → Bool

/-- A free value: the samples `cap_read` returns where the environment has delivered none (I11). -/
opaque Config.freeCapRead : Nat → List Sample

/-- A free value: the binary digits, most significant first, of the phase of the `n`-th draw as a part of a turn
(43_synth R324, I4). Every real phase of `[0, 2π)` has such digits (notes/assumptions/8.md). -/
opaque Config.freePhase : Nat → Nat → Bool

/-- A free value: which of the allowed outcomes of a near-tie is taken (I5, I6, I7). -/
opaque Config.freePick : Nat → Nat

/-- A free value: the decode latency of a MESSAGE (I8). -/
opaque Config.freeLatency : Nat → Word

end Sys2Proof
end

