-- ==== Sys2Proof/Syntax.lean ====
section
/-! DEFINITION. The command set: one constructor per row of spec/opcode_table.json (30_encoding R173).
A command word has no register or immediate field (R172), so no constructor has an argument. -/

namespace Sys2Proof

/-- The twenty-four commands of 30_encoding R173, in the opcode map's order. -/
inductive Instr where
  | nop          -- 0x00, R443
  | cfgCommit    -- 0x01, R441
  | byteToBits   -- 0x10, R202
  | bitsToByte   -- 0x11, R203
  | pack         -- 0x12, R206
  | unpack       -- 0x13, R209
  | split        -- 0x14, R212
  | invert       -- 0x15, R214
  | crcParity    -- 0x20, R254
  | crcCheck     -- 0x21, R256
  | rbInit       -- 0x30, R281
  | rbAdd        -- 0x31, R283
  | rbSnapshot   -- 0x32, R285
  | rbFirst      -- 0x33, R287
  | rbLast       -- 0x34, R288
  | synBlock     -- 0x40, R319
  | buildSignal  -- 0x41, R322
  | syncTest     -- 0x50, R358
  | decode       -- 0x60, R402
  | rxStart      -- 0x70, R444
  | rxStop       -- 0x71, R445
  | rxCancel     -- 0x72, R446
  | txSend       -- 0x78, R447
  | evqPop       -- 0x7F, R448
  deriving DecidableEq, Repr

end Sys2Proof
end

