-- ==== Sys2Proof/WellFormed.lean ====
section
/-! DEFINITION. The checks on what stands outside the machine: a command word (30_encoding R170, R174), the
hardware parameters (00_scope R12, 20_memory R123). -/

namespace Sys2Proof

/-- The reserved opcode values, as 30_encoding R174 lists them. -/
def reservedOpcode (n : Nat) : Bool :=
  (0x02 ≤ n && n ≤ 0x0F) || (0x16 ≤ n && n ≤ 0x1F) || (0x22 ≤ n && n ≤ 0x2F) || (0x35 ≤ n && n ≤ 0x3F) ||
  (0x42 ≤ n && n ≤ 0x4F) || (0x51 ≤ n && n ≤ 0x5F) || (0x61 ≤ n && n ≤ 0x6F) || (0x73 ≤ n && n ≤ 0x77) ||
  (0x79 ≤ n && n ≤ 0x7E) || (0x80 ≤ n && n ≤ 0xFF)

/-- A command word is well formed when `RSV` is 0 and its `OPC` is not reserved (30_encoding R170, R174). -/
def wordWellFormed (w : Word) : Bool :=
  w.extractLsb' 8 24 == 0#24 && !reservedOpcode (w.extractLsb' 0 8).toNat

/-- Every command is well formed: a command word has no operand field that could be out of range
(30_encoding R172). Operand registers are checked by each command when it runs. -/
def Instr.wellFormed (_ : Instr) : Bool := true

/-- The constraints of 00_scope R12 on the hardware parameters, with the bounds of 20_memory R123 under which
no region overlaps the next. -/
def Params.wellFormed (p : Params) : Bool :=
  p.gen.getLsbD 16 && p.gen.getLsbD 0 &&
  decide (p.maxBits / 8 ≤ p.maxPayload) && decide (16 ≤ p.maxBits) && decide (1 ≤ p.maxIn) &&
  decide (8 ≤ p.maxRb) && decide (p.maxRb ≤ p.maxPcm) && decide (1 ≤ p.maxSpec) &&
  decide (2 ≤ p.evqDepth) && decide (8 ≤ p.maxOrder) &&
  decide (p.maxPayload ≤ 2 ^ 18) && decide (p.maxBits ≤ 2 ^ 18) && decide (p.maxIn ≤ 2 ^ 20) &&
  decide (p.maxRb ≤ 2 ^ 21) && decide (p.maxPcm ≤ 2 ^ 22) && decide (p.maxSpec ≤ 2 ^ 23)

end Sys2Proof
end

