-- ==== Sys2Proof/Decode.lean ====
section
/-! DEFINITION. The command decoder and the encoder of 30_encoding. -/

namespace Sys2Proof

/-- Why a command word is illegal (30_encoding R171, R174); both raise ILLEGAL_COMMAND. -/
inductive DecodeError where
  /-- `RSV ≠ 0` (R171). -/
  | reservedBits
  /-- An `OPC` that R173 does not list (R174). -/
  | unassignedOpcode
  deriving DecidableEq, Repr

/-- The opcode map of 30_encoding R173, by the value of `OPC`. -/
def decodeOpcode : Nat → Except DecodeError Instr
  | 0x00 => .ok .nop
  | 0x01 => .ok .cfgCommit
  | 0x10 => .ok .byteToBits
  | 0x11 => .ok .bitsToByte
  | 0x12 => .ok .pack
  | 0x13 => .ok .unpack
  | 0x14 => .ok .split
  | 0x15 => .ok .invert
  | 0x20 => .ok .crcParity
  | 0x21 => .ok .crcCheck
  | 0x30 => .ok .rbInit
  | 0x31 => .ok .rbAdd
  | 0x32 => .ok .rbSnapshot
  | 0x33 => .ok .rbFirst
  | 0x34 => .ok .rbLast
  | 0x40 => .ok .synBlock
  | 0x41 => .ok .buildSignal
  | 0x50 => .ok .syncTest
  | 0x60 => .ok .decode
  | 0x70 => .ok .rxStart
  | 0x71 => .ok .rxStop
  | 0x72 => .ok .rxCancel
  | 0x78 => .ok .txSend
  | 0x7F => .ok .evqPop
  | _ => .error .unassignedOpcode

/-- The decode procedure of 30_encoding R179: the zero test of bits 31:8, then bits 7:0. -/
def decodeWord (w : Word) : Except DecodeError Instr :=
  if w.extractLsb' 8 24 = 0#24 then decodeOpcode (w.extractLsb' 0 8).toNat else .error .reservedBits

/-- The bytes of a command word in the order a byte-mapped host bus stores them, little-endian
(20_memory R125): the decoder on bytes, with the bytes that follow. -/
def decodeBytes : List Byte → Option (Except DecodeError Instr × List Byte)
  | b0 :: b1 :: b2 :: b3 :: rest => some (decodeWord (b3 ++ b2 ++ b1 ++ b0), rest)
  | _ => none

/-- The opcode of each command (30_encoding R173). -/
def Instr.opcode : Instr → Byte
  | .nop => 0x00#8
  | .cfgCommit => 0x01#8
  | .byteToBits => 0x10#8
  | .bitsToByte => 0x11#8
  | .pack => 0x12#8
  | .unpack => 0x13#8
  | .split => 0x14#8
  | .invert => 0x15#8
  | .crcParity => 0x20#8
  | .crcCheck => 0x21#8
  | .rbInit => 0x30#8
  | .rbAdd => 0x31#8
  | .rbSnapshot => 0x32#8
  | .rbFirst => 0x33#8
  | .rbLast => 0x34#8
  | .synBlock => 0x40#8
  | .buildSignal => 0x41#8
  | .syncTest => 0x50#8
  | .decode => 0x60#8
  | .rxStart => 0x70#8
  | .rxStop => 0x71#8
  | .rxCancel => 0x72#8
  | .txSend => 0x78#8
  | .evqPop => 0x7F#8

/-- The command word: `OPC` in bits 7:0, `RSV` = 0 (30_encoding R170). -/
def encode (i : Instr) : Word := 0#24 ++ i.opcode

/-- The instruction the decoder reads from a table row's word: its `nbits` low bits, the bits above them zero,
as one 32-bit command word stored little-endian and read back byte by byte. -/
def decodeTableWord (nbits w : Nat) : Option Instr :=
  let v : Word := BitVec.ofNat 32 (w % 2 ^ nbits)
  match decodeBytes [v.extractLsb' 0 8, v.extractLsb' 8 8, v.extractLsb' 16 8, v.extractLsb' 24 8] with
  | some (.ok i, _) => some i
  | _ => none

end Sys2Proof
end

