-- ==== Sys2Proof/Machine/Numeric.lean ====
section
/-! DEFINITION. Enclosures of the real numbers of the DSP rules (00_scope R18, 92_eei_decisions D28: "exact real
arithmetic defines every result"). At precision `p` a real or complex number is held between bounds at the scale 2^-p,
every operation rounds outward, and a larger `p` gives tighter bounds, so a function of `p` names one exact number as
closely as asked. A verdict or a rounding is read off the bounds at the first precision at which they settle it
(`settle`); what the spec's near-tie bands leave open (43_synth R325, 44_framesync R360, 45_decoder R405) is a free
choice (notes/assumptions/9.md). -/

namespace Sys2Proof.Machine

/-- The precision tried first: the scale 2^-256. -/
def firstPrec : Nat := 256

/-- The number 1 at precision `p`. -/
def fixOne (p : Nat) : Nat := 2 ^ p

/-- Division rounded up, for a positive divisor. -/
def ceilDivInt (a : Int) (b : Nat) : Int := -((-a) / (b : Int))

/-- Division rounded up on naturals: `ceil_div` of 00_scope R17. -/
def ceilDiv (a b : Nat) : Nat := (a + b - 1) / b

/-- `round_half_up(p / q)` of 00_scope R17. -/
def roundHalfUp (p q : Nat) : Nat := (2 * p + q) / (2 * q)

/-- Square root rounded down, on base-4 digits; `fuel` is at least the number of digits. -/
def isqrtGo : Nat → Nat → Nat
  | 0, _ => 0
  | fuel + 1, n =>
    if n = 0 then 0
    else
      let r := 2 * isqrtGo fuel (n / 4)
      if (r + 1) * (r + 1) ≤ n then r + 1 else r

/-- Square root rounded down. -/
def isqrt (n : Nat) : Nat := isqrtGo (n.log2 / 2 + 1) n

/-! ## Real numbers between bounds -/

/-- A real number between two bounds at the scale 2^-p, or, where `known` is false, any real number. -/
structure Ival where
  lo : Int
  hi : Int
  known : Bool
  deriving DecidableEq, Repr

/-- Nothing is known of the number. -/
def Ival.unknown : Ival := ⟨0, 0, false⟩

/-- The exact 0. -/
def Ival.zero : Ival := ⟨0, 0, true⟩

/-- The rational `n / d`, `d` positive. -/
def Ival.ofRat (p : Nat) (n : Int) (d : Nat) : Ival := ⟨n * fixOne p / (d : Int), ceilDivInt (n * fixOne p) d, true⟩

def Ival.add (a b : Ival) : Ival := ⟨a.lo + b.lo, a.hi + b.hi, a.known && b.known⟩

def Ival.neg (a : Ival) : Ival := ⟨-a.hi, -a.lo, a.known⟩

def Ival.sub (a b : Ival) : Ival := a.add b.neg

/-- The product with the rational `n / d`, `0 ≤ n`, `0 < d`; exactly 0 for `n = 0`. -/
def Ival.scale (a : Ival) (n d : Nat) : Ival :=
  if n = 0 then .zero else ⟨a.lo * n / (d : Int), ceilDivInt (a.hi * n) d, a.known⟩

def Ival.abs (a : Ival) : Ival :=
  if 0 ≤ a.lo then a else if a.hi ≤ 0 then a.neg else ⟨0, max (-a.lo) a.hi, a.known⟩

/-- The larger of two numbers. -/
def Ival.larger (a b : Ival) : Ival := ⟨max a.lo b.lo, max a.hi b.hi, a.known && b.known⟩

/-- The number brought into [-1, 1]. -/
def Ival.clip (p : Nat) (a : Ival) : Ival :=
  let f (v : Int) : Int := max (-(fixOne p : Int)) (min (fixOne p) v)
  ⟨f a.lo, f a.hi, a.known⟩

/-- The quotient by a positive `b`. -/
def Ival.divPos (p : Nat) (a b : Ival) : Ival :=
  let q (x y : Int) : Int := x * fixOne p / y
  let c (x y : Int) : Int := ceilDivInt (x * fixOne p) y.toNat
  ⟨min (q a.lo b.lo) (q a.lo b.hi), max (c a.hi b.lo) (c a.hi b.hi), a.known && b.known⟩

/-- The quotient; nothing is known where the divisor's bounds hold 0. -/
def Ival.div (p : Nat) (a b : Ival) : Ival :=
  if 0 < b.lo then a.divPos p b else if b.hi < 0 then a.neg.divPos p b.neg else .unknown

/-! ## π, ln 2 and the logarithm -/

/-- Bits carried beyond the precision while a constant is computed. -/
def guardBits (p : Nat) : Nat := p.log2 + 8

/-- `Σ (-1)^k / (n^(2k+1) (2k+1))` from the `k`-th term on, where `t` is `1 / n^(2k+1)`. -/
def arctanGo (n2 : Nat) : Nat → Nat → Int → Int
  | 0, _, _ => 0
  | fuel + 1, k, t => t / (2 * k + 1 : Nat) - arctanGo n2 fuel (k + 1) (t / (n2 : Int))

/-- `arctan (1 / n)` at precision `p`. -/
def arctanInv (p n : Nat) : Int := arctanGo (n * n) (p / 4 + 1) 0 (fixOne p / n : Nat)

/-- π at precision `p`, `4 (4 arctan (1/5) - arctan (1/239))`; its digits are written out for the first precision. -/
def piFix (p : Nat) : Nat :=
  if p = firstPrec then 363771576891766324280234942777729862653393377328392429958772151117938894466185
  else
    let q := p + guardBits p
    (4 * (4 * arctanInv q 5 - arctanInv q 239) / (fixOne (guardBits p) : Int)).toNat

/-- Horner steps of `Σ z^(2k) / (2k + 1)` at precision `p`, with `z2 = z²`. -/
def artanhGo (p : Nat) (z2 : Int) : Nat → Nat → Int
  | 0, _ => 0
  | fuel + 1, k => (fixOne p : Int) / (2 * k + 1 : Nat) + z2 * artanhGo p z2 fuel (k + 1) / fixOne p

/-- `2 artanh z` at precision `p`, for `0 ≤ z ≤ 1/3`. -/
def twoArtanh (p : Nat) (z : Int) : Int := 2 * z * artanhGo p (z * z / fixOne p) (p / 3 + 11) 0 / fixOne p

/-- ln 2 at precision `p`, `2 artanh (1/3)`; its digits are written out for the first precision. -/
def ln2Fix (p : Nat) : Nat :=
  if p = firstPrec then 80260960185991308862233904206310070533990667611589946606122867505419956976171
  else
    let q := p + guardBits p
    (twoArtanh q (fixOne q / 3 : Nat) / (fixOne (guardBits p) : Int)).toNat

/-- `ln (a / 2^p)` at precision `p`, within `lnError`, for `0 < a < 2^(p+1)`: with `a = 2^e t / 2^p`, `1 ≤ t / 2^p < 2`, it
is `(e - p) ln 2 + 2 artanh ((t - 1) / (t + 1))`. -/
def lnFix (p a : Nat) : Int :=
  let e := a.log2
  let t : Int := a * 2 ^ (p - e)
  let z := (t - fixOne p) * fixOne p / (t + fixOne p)
  ((e : Int) - p) * ln2Fix p + twoArtanh p z

def lnError (p : Nat) : Int := 4 * p

/-- The natural logarithm of a number that is positive and less than 2; nothing is known of any other. -/
def Ival.ln (p : Nat) (a : Ival) : Ival :=
  if 0 < a.lo ∧ a.hi < 2 * fixOne p then
    ⟨lnFix p a.lo.toNat - lnError p, lnFix p a.hi.toNat + lnError p, a.known⟩
  else .unknown

/-! ## Complex numbers in discs -/

/-- A complex number within `rad` of the centre `re + i im`, all at the scale 2^-p, or, where `known` is false, any
complex number. -/
structure Disc where
  re : Int
  im : Int
  rad : Nat
  known : Bool
  deriving DecidableEq, Repr

/-- Nothing is known of the number. -/
def Disc.unknown : Disc := ⟨0, 0, 0, false⟩

/-- The exact 0. -/
def Disc.zero : Disc := ⟨0, 0, 0, true⟩

/-- An integer as a disc. -/
def Disc.ofInt (p : Nat) (n : Int) : Disc := ⟨n * fixOne p, 0, 0, true⟩

/-- An upper bound on the centre's modulus, cheap. -/
def Disc.norm1 (a : Disc) : Nat := a.re.natAbs + a.im.natAbs

/-- The centre's modulus rounded down. -/
def Disc.modulus (a : Disc) : Nat := isqrt (a.re * a.re + a.im * a.im).toNat

def Disc.add (a b : Disc) : Disc := ⟨a.re + b.re, a.im + b.im, a.rad + b.rad, a.known && b.known⟩

def Disc.neg (a : Disc) : Disc := ⟨-a.re, -a.im, a.rad, a.known⟩

def Disc.sub (a b : Disc) : Disc := a.add b.neg

/-- Division of a disc by the integer `d`, rounding outward; exact where both parts divide. -/
def Disc.divNat (a : Disc) (d : Nat) : Disc :=
  let exact := a.re % (d : Int) = 0 ∧ a.im % (d : Int) = 0
  ⟨a.re / (d : Int), a.im / (d : Int), ceilDiv a.rad d + (if exact then 0 else 2), a.known⟩

/-- The product with an integer. -/
def Disc.mulInt (a : Disc) (n : Int) : Disc := ⟨a.re * n, a.im * n, a.rad * n.natAbs, a.known⟩

/-- The product, where `|a| ≤ bound` holds for every number `a` of the first disc. -/
def Disc.mulBound (p bound : Nat) (a b : Disc) : Disc :=
  Disc.divNat ⟨a.re * b.re - a.im * b.im, a.re * b.im + a.im * b.re, bound * b.rad + b.norm1 * a.rad,
    a.known && b.known⟩ (fixOne p)

def Disc.mul (p : Nat) (a b : Disc) : Disc := Disc.mulBound p (a.norm1 + a.rad) a b

/-- The quotient: its centre is rounded, and its radius is read off the exact remainder; nothing is known where the
divisor's disc may hold 0. -/
def Disc.div (p : Nat) (a b : Disc) : Disc :=
  let bb := b.re * b.re + b.im * b.im
  let m := b.modulus
  if m ≤ b.rad then .unknown
  else
    let qre := (a.re * b.re + a.im * b.im) * fixOne p / bb
    let qim := (a.im * b.re - a.re * b.im) * fixOne p / bb
    let rre := a.re * fixOne p - (qre * b.re - qim * b.im)
    let rim := a.im * fixOne p - (qre * b.im + qim * b.re)
    ⟨qre, qim,
      ceilDiv (a.rad * fixOne p + (qre.natAbs + qim.natAbs) * b.rad + rre.natAbs + rim.natAbs) (m - b.rad),
      a.known && b.known⟩

/-- A square root (of each number of the disc one of its two): the radius is read off the exact residual of the
rounded centre; about a centre that rounds to 0 it is a bound on the roots themselves. -/
def Disc.sqrt (p : Nat) (a : Disc) : Disc :=
  let m : Int := a.modulus
  let c : Int × Int :=
    if 0 ≤ a.re then
      let x : Int := isqrt ((m + a.re) * fixOne p / 2).toNat
      (x, if x = 0 then 0 else a.im * fixOne p / (2 * x))
    else
      let y : Int := isqrt ((m - a.re) * fixOne p / 2).toNat
      (if y = 0 then 0 else a.im * fixOne p / (2 * y), y)
  let cm := isqrt (c.1 * c.1 + c.2 * c.2).toNat
  if cm = 0 then ⟨0, 0, isqrt ((a.modulus + 1 + a.rad) * fixOne p) + 1, a.known⟩
  else
    let rre := a.re * fixOne p - (c.1 * c.1 - c.2 * c.2)
    let rim := a.im * fixOne p - 2 * c.1 * c.2
    ⟨c.1, c.2, ceilDiv (a.rad * fixOne p + rre.natAbs + rim.natAbs) cm, a.known⟩

/-- The real part of a number known to be real. -/
def Disc.real (a : Disc) : Disc := ⟨a.re, 0, a.rad, a.known⟩

/-- The bounds of the real part. -/
def Disc.reIval (a : Disc) : Ival := ⟨a.re - a.rad, a.re + a.rad, a.known⟩

/-- The bounds of the modulus; exactly 0 for the exact 0. -/
def Disc.abs (a : Disc) : Ival :=
  if a = .zero then .zero
  else
    let m := a.modulus
    ⟨max 0 ((m : Int) - a.rad), m + 1 + a.rad, a.known⟩

/-! ## The unit circle -/

/-- Terms of the sine and cosine series at precision `p`. -/
def trigTerms (p : Nat) : Nat := p / 6 + 8

/-- Horner steps of the cosine series in `x = θ²`. -/
def cosGo (p x : Nat) : Nat → Nat → Nat
  | 0, _ => fixOne p
  | fuel + 1, k => fixOne p - x * cosGo p x fuel (k + 1) / (fixOne p * ((2 * k + 1) * (2 * k + 2)))

/-- Horner steps of the series of `sin θ / θ` in `x = θ²`. -/
def sinGo (p x : Nat) : Nat → Nat → Nat
  | 0, _ => fixOne p
  | fuel + 1, k => fixOne p - x * sinGo p x fuel (k + 1) / (fixOne p * ((2 * k + 2) * (2 * k + 3)))

/-- `(cos θ, sin θ)` for `θ = (π / 2) (r / b)` with `2 r ≤ b`, each within 8 units of the scale. -/
def octant (p r b : Nat) : Nat × Nat :=
  let t := piFix p * r / (2 * b)
  let x := t * t / fixOne p
  (cosGo p x (trigTerms p) 0, t * sinGo p x (trigTerms p) 0 / fixOne p)

/-- `e^(i 2π a / b)`, `b` positive; exact at the quarter turns. -/
def unitTurn (p a b : Nat) : Disc :=
  let q := 4 * (a % b) / b
  let r := 4 * (a % b) - q * b
  let cs : Nat × Nat := if 2 * r ≤ b then octant p r b else ((octant p (b - r) b).2, (octant p (b - r) b).1)
  let c : Int := if r = 0 then fixOne p else cs.1
  let s : Int := if r = 0 then 0 else cs.2
  let rad := if r = 0 then 0 else 16
  match q with
  | 0 => ⟨c, s, rad, true⟩
  | 1 => ⟨-s, c, rad, true⟩
  | 2 => ⟨-c, -s, rad, true⟩
  | _ => ⟨s, -c, rad, true⟩

/-- The `b` numbers `e^(i 2π j / b)`. -/
def turnTable (p b : Nat) : Array Disc := ((List.range b).map fun j => unitTurn p j b).toArray

/-- A phase draw (43_synth R324): a named one, `2π num / den`, or the `n`-th free one, known by the binary digits
`Config.freePhase n` of its part of a turn. -/
inductive Phase where
  | named (num den : Nat)
  | free (n : Nat)
  deriving DecidableEq, Repr

/-- The number of the first `k` digits of a free phase. -/
def phaseDigits (n : Nat) : Nat → Nat
  | 0 => 0
  | k + 1 => 2 * phaseDigits n k + (Config.freePhase n k).toNat

/-- `e^(iφ)` for a phase `φ`. Of a free phase the first `p + 8` digits place `φ` within half a digit of a midpoint,
which moves `e^(iφ)` by less than one unit. -/
def phasor (p : Nat) : Phase → Disc
  | .named num den => unitTurn p num (max 1 den)
  | .free n =>
    let d := unitTurn p (2 * phaseDigits n (p + 8) + 1) (2 ^ (p + 9))
    { d with rad := d.rad + 1 }

/-! ## binary32 (00_scope R18) -/

/-- The value of a binary32 pattern times 2^149, an integer. Exponent 255 (infinity, NaN) is read by the same formula:
no element of the ring buffer and no accepted factor holds it (notes/assumptions/23.md). -/
def f32Fix (w : Word) : Int :=
  let e := (w.extractLsb' 23 8).toNat
  let m := (w.extractLsb' 0 23).toNat
  let v : Int := if e = 0 then m else ((2 ^ 23 + m) * 2 ^ (e - 1) : Nat)
  if w.getLsbD 31 then -v else v

/-- A binary32 pattern as a disc, exact; `p` is at least 149. -/
def f32Disc (p : Nat) (w : Word) : Disc := ⟨f32Fix w * (2 ^ (p - 149) : Nat), 0, 0, true⟩

/-- The magnitude `a / 2^p` rounded to binary32, to nearest with ties to even (10_state R65): the pattern of a
non-negative number, as a natural. -/
def f32RoundNat (p a : Nat) : Nat :=
  if a = 0 then 0
  else
    let s := max (a.log2 - 23) (p - 149)
    let m := a / 2 ^ s
    let r := a % 2 ^ s
    let half := 2 ^ (s - 1)
    let m' := if half < r ∨ (r = half ∧ m % 2 = 1) then m + 1 else m
    min ((s - (p - 149)) * 2 ^ 23 + m') 0x7F800000

/-- The place in the order of the binary32 numbers of `a / 2^p` rounded: neighbours differ by 1, 0 is zero. -/
def f32Index (p : Nat) (a : Int) : Int :=
  if 0 ≤ a then f32RoundNat p a.toNat else -(f32RoundNat p a.natAbs : Int)

/-- The pattern at a place in that order. -/
def f32Word (i : Int) : Word :=
  if 0 ≤ i then BitVec.ofInt 32 i else 0x80000000#32 ||| BitVec.ofInt 32 (-i)

/-- The binary32 element of an int16 sample: `v / 32768`, exact (10_state R75). -/
def sampleF32 (v : Sample) : Word := f32Word (f32Index firstPrec (v.toInt * (2 ^ (firstPrec - 15) : Nat)))

/-! ## What a rule allows -/

/-- The outcomes the rules allow: every integer from `base` to `base + span`. -/
structure Choices where
  base : Int
  span : Nat
  deriving DecidableEq, Repr

/-- Only one outcome. -/
def Choices.exactly (n : Int) : Choices := ⟨n, 0⟩

/-- Either 0 or 1: a verdict the implementation decides. -/
def Choices.either : Choices := ⟨0, 1⟩

/-- A verdict. -/
def Choices.verdict (b : Bool) : Choices := .exactly (if b then 1 else 0)

/-- The outcomes from `a` to `b`. -/
def Choices.between (a b : Int) : Choices := ⟨a, (b - a).toNat⟩

/-- What the bounds at one precision leave possible, and whether they settle what the rule allows. -/
structure Reading where
  choices : Choices
  settled : Bool
  deriving DecidableEq, Repr

/-- The readings at the first precision at which all are settled: `2^k` precisions are tried, each twice the one
before, from `p` on; the last one's stand where none settles. -/
def refine (at' : Nat → List Reading) : Nat → Nat → List Reading
  | 0, p => at' p
  | k + 1, p =>
    let r := refine at' k p
    if r.all Reading.settled then r else refine at' k (p * 2 ^ 2 ^ k)

/-- The outcomes the rules allow for a list of quantities given by their readings at each precision. Up to 2^64
precisions are tried, so only a quantity that lies exactly on the edge of a band, or no farther than one part in
2^(2^(2^64)) from it, is not settled; it keeps every outcome its bounds leave possible (notes/assumptions/9.md). -/
def settle (at' : Nat → List Reading) : List Choices := (refine at' 64 firstPrec).map Reading.choices

/-- The same for one quantity. -/
def settleOne (at' : Nat → Reading) : Choices := (settle fun p => [at' p]).headD .either

/-- `l > r` as 44_framesync R360 and 45_decoder R405 decide it, read at one precision: exact where the two sides differ
by more than `2^-30 (|l| + |r|)`, else a draw; two exact zeros are equal (44_framesync R356). -/
def greaterAt (l r : Ival) : Reading :=
  if l = .zero ∧ r = .zero then ⟨.verdict false, true⟩
  else if (l.known && r.known) = false then ⟨.either, false⟩
  else if ceilDivInt (l.abs.hi + r.abs.hi) (2 ^ 30) < l.lo - r.hi then ⟨.verdict true, true⟩
  else if ceilDivInt (l.abs.hi + r.abs.hi) (2 ^ 30) < r.lo - l.hi then ⟨.verdict false, true⟩
  else ⟨.either, decide (max (l.hi - r.lo) (r.hi - l.lo) ≤ (l.abs.lo + r.abs.lo) / 2 ^ 30)⟩

/-- `l > r`, for two numbers given at each precision. -/
def greaterThan (l r : Nat → Ival) : Choices := settleOne fun p => greaterAt (l p) (r p)

/-- The binary32 values within one unit in the last place of the rounding of an exact value (I6, I7), read at
precision `p`; the exact 0 is +0.0 and nothing else. -/
def f32At (p : Nat) (v : Ival) : Reading :=
  if v = .zero then ⟨.exactly 0, true⟩
  else if v.known = false then ⟨.between (-0x7F800000) 0x7F800000, false⟩
  else ⟨.between (f32Index p v.lo - 1) (f32Index p v.hi + 1), f32Index p v.lo == f32Index p v.hi⟩

/-- The binary32 values allowed for a number given at each precision. -/
def f32Choices (v : Nat → Ival) : Choices := settleOne fun p => f32At p (v p)

end Sys2Proof.Machine
end

