-- ==== Sys2Proof/Machine/State.lean ====
section
/-! DEFINITION. The machine's state as plain data (10_state R40 to R82), the reasons a step can stop, and the
state after reset (70_reset_and_hazards R550). -/

namespace Sys2Proof.Machine

/-- Why a transition stops with a fault. -/
inductive Fault where
  /-- A host read, or a command that reads a buffer element nothing has written since reset (10_state R82,
  70_reset R552, 93 I9: "fault"). Raised by the host bus read and by every command that reads a buffer. Safe: the
  hardware returns an unspecified value and goes on, so the model proves less. -/
  | unwrittenElement (address : Nat)
  deriving DecidableEq, Repr

/-- Why a transition has no meaning. -/
inductive Refusal where
  /-- An instruction that has no meaning yet: raised only by a refused arm of exec. Safe. -/
  | notModelled (mnemonic : String)
  /-- A host access that is not a 4-aligned 32-bit word access inside a mapped region (20_memory R122, R513, 93
  I13: "refuse"). Raised by the host bus accesses. Safe: the hardware changes nothing. -/
  | busError
  /-- An RX step taken while none is enabled (46_orchestrator R460, R472). Raised by the RX move. Safe: the core
  has no such transition. -/
  | rxNotEnabled
  /-- A capture answer of more than S samples (93 I11: "refuse"). Raised by the RX step. Safe: the capture port
  never returns it (20_memory R150). -/
  | captureTooLong
  /-- `play_done` with no playback pending (93 I12: "refuse"). Raised by the play_done move. Safe. -/
  | noPlayback
  /-- An RX step that faults inside an implementation (46_orchestrator R467, 93 I10: the spec's model has no such
  move, "refuse"). Raised by the rxFault move. Safe. -/
  | noFaultMove
  deriving DecidableEq, Repr

/-- The receive agent's state (10_state R78, 46_orchestrator R440). -/
inductive RxState where
  | initialized
  | listening
  | stopped
  | cancelled
  deriving DecidableEq, Repr

/-- The send agent's state (10_state R79). -/
inductive TxState where
  | idle
  | sending
  deriving DecidableEq, Repr

/-- The result and reason codes of 60_exceptions R501, one name each. -/
inductive ErrCode where
  | ok
  | configError
  | payloadTooLarge
  | captureUnavailable
  | malformedBitStream
  | decodeFault
  | illegalCommand
  | busy
  | badState
  | badArgument
  | noBuffer
  deriving DecidableEq, Repr

/-- Event types (46_orchestrator R471). -/
inductive EventType where
  | message
  | decodeError
  | spectrum
  deriving DecidableEq, Repr

/-- One record of the event queue (10_state R80). -/
structure Event where
  type : EventType
  crcOk : Bool
  malformed : Bool
  /-- The 8-bit error code; `ok` is code 0, the value of a record that names no reason. -/
  reason : ErrCode
  len : Word
  latency : Word
  /-- The payload bytes, MESSAGE only. -/
  payload : List Byte
  deriving DecidableEq, Repr

/-- The seven profile values (10_state R60). -/
structure Profile where
  f0 : Word
  bitMs : Word
  pauseMs : Word
  nblk : Word
  nfreq : Word
  spacing : Word
  fs : Word
  deriving DecidableEq, Repr

/-- The seven tuning values (10_state R61); the factors are binary32 patterns (R62). -/
structure Tuning where
  startFactor : Word
  endFactor : Word
  bwOrder : Word
  stepFactor : Word
  freqOffset : Word
  agg : Word
  fadeDiv : Word
  deriving DecidableEq, Repr

/-- The derived registers, in the offset order of 10_state R71 (0x180 to 0x1C8). -/
structure Derived where
  bitSamples : Word
  pauseSamples : Word
  bpw : Word
  totalBlocks : Word
  rbCap : Word
  payloadCap : Word
  stepLen : Word
  wpb : Word
  wpp : Word
  syncThresh : Word
  decWin : Word
  decHop : Word
  decFrames : Word
  binLo : Word
  binHi : Word
  msgBits : Word
  pfloor : Word
  downCenter : Word
  upCenter : Word
  deriving DecidableEq, Repr

/-- Draws the environment has already delivered, each list oldest first, and a counter of the free values taken
from Config where a list is empty. The MODEL's own fields (notes/assumptions/4.md): `00_scope` R22's draws, given
as in the `env` lines and the named draws of 30_encoding R177 and 95_test_vectors. -/
structure Env where
  /-- Answers of `cap_open` (20_memory R150). -/
  capOpen : List Bool
  /-- Answers of `cap_read` (20_memory R150). -/
  capRead : List (List Sample)
  /-- Named phases of the synthesizer (43_synth R324): `(num, den)` is the phase `2π num / den`. -/
  phases : List (Nat × Nat)
  /-- Choices among the allowed outcomes of a near-tie (I5, I6, I7). -/
  picks : List Nat
  /-- Decode latencies (I8). -/
  latency : List Word
  /-- How many free values have been taken from Config. -/
  count : Nat
  deriving DecidableEq, Repr

/-- One transition of the interleaving of 20_memory R134: a host access, an agent step, or a delivery of the
environment (the lines of a host access script, 30_encoding R177). -/
inductive Move where
  /-- A host bus read of `width` bits (20_memory R121). -/
  | read (width : Nat) (address : Word)
  /-- A host bus write of `width` bits (20_memory R121); a write to CMD executes a command. -/
  | write (width : Nat) (address value : Word)
  /-- One RX agent step (46_orchestrator R462). -/
  | rx
  /-- An RX step that faults inside an implementation (46_orchestrator R467). -/
  | rxFault
  /-- The sink signals that playback is done (20_memory R153). -/
  | playDone
  /-- The reset input (70_reset R550). -/
  | reset
  /-- The environment's answer to a later `cap_open`. -/
  | capOpen (ok : Bool)
  /-- The environment's answer to a later `cap_read`. -/
  | capRead (samples : List Sample)
  /-- A named phase draw, `2π num / den`. -/
  | phase (num den : Nat)
  /-- A named near-tie choice. -/
  | pick (n : Nat)
  /-- A named decode latency. -/
  | latency (v : Word)
  deriving DecidableEq, Repr

/-- The machine's state: the register block, the buffer memories, the ring buffer, the two agents, the event queue
and the ports (10_state R40), then the model's own fields. -/
structure State where
  /-- The hardware parameters (00_scope R12). -/
  hw : Params
  /-- CTRL bit 0 (10_state R45). -/
  ctrlContinuous : Bool
  /-- CTRL bit 1. -/
  ctrlSpectrumEn : Bool
  /-- CTRL bit 2. -/
  ctrlIrqEn : Bool
  /-- STATUS.RX_STATE (10_state R46, R78). -/
  rxState : RxState
  /-- STATUS.TX_STATE (10_state R46, R79). -/
  txState : TxState
  /-- STATUS.CFG_VALID: an active configuration exists (10_state R63). -/
  cfgValid : Bool
  /-- STATUS.RB_VALID: the ring buffer exists (10_state R74). -/
  rbValid : Bool
  /-- STATUS.STOP_REQ. -/
  stopReq : Bool
  /-- STATUS.CANCEL_REQ. -/
  cancelReq : Bool
  /-- STATUS.ERR (10_state R47). -/
  err : ErrCode
  /-- STATUS.WARN_MALFORMED (10_state R73). -/
  warnMalformed : Bool
  /-- STATUS.PARTIAL. -/
  partialBlock : Bool
  /-- STATUS.CRC_OK. -/
  crcOk : Bool
  /-- STATUS.SYNC_START. -/
  syncStart : Bool
  /-- STATUS.SYNC_END. -/
  syncEnd : Bool
  /-- ARG0 (10_state R43). -/
  arg0 : Word
  /-- ARG1 (10_state R43). -/
  arg1 : Word
  /-- PLEN (10_state R49). -/
  plen : Word
  /-- BLEN (10_state R50). -/
  blen : Word
  /-- NBLOCKS (10_state R51). -/
  nblocks : Word
  /-- PCMLEN (10_state R52). -/
  pcmlen : Word
  /-- WLEN (10_state R53). -/
  wlen : Word
  /-- CRC_PARITY bits 15:0 (10_state R54). -/
  crcParity : BitVec 16
  /-- CRC_WEIGHT (10_state R55). -/
  crcWeight : Word
  /-- BYTE_RES bits 7:0 (10_state R56). -/
  byteRes : Byte
  /-- RX_BLEN (10_state R57). -/
  rxBlen : Word
  /-- RX_WEIGHT (10_state R57). -/
  rxWeight : Word
  /-- The live profile registers (10_state R60). -/
  profile : Profile
  /-- The live tuning registers (10_state R61). -/
  tuning : Tuning
  /-- The profile of the active configuration (10_state R63); meaningful while `cfgValid`. -/
  activeProfile : Profile
  /-- The tuning of the active configuration (10_state R63); meaningful while `cfgValid`. -/
  activeTuning : Tuning
  /-- The derived registers (10_state R71). -/
  derived : Derived
  /-- FREQ[0..256) (10_state R67). -/
  freq : List Word
  /-- The event queue, head first (10_state R80). -/
  evq : List Event
  /-- RB_WR, the write cursor (10_state R66). -/
  rbWr : Word
  /-- RB_STEPS, the analysis cursor (10_state R66). -/
  rbSteps : Word
  /-- SUM_UP_FIRST (10_state R65). -/
  sumUpFirst : Word
  /-- SUM_DOWN_FIRST. -/
  sumDownFirst : Word
  /-- SUM_UP_LAST. -/
  sumUpLast : Word
  /-- SUM_DOWN_LAST. -/
  sumDownLast : Word
  /-- The capture source is open (10_state R81). -/
  captureOpen : Bool
  /-- The pending playback hand-off: the samples handed to the sink (10_state R81, 20_memory R153). -/
  handoff : Option (List Sample)
  /-- The buffer memories (20_memory R123): cells at bus byte addresses, strictly rising; an unlisted byte has no
  value (10_state R82). -/
  mem : List Host.Cell
  /-- The MODEL's own: the transitions still to be taken, oldest first (notes/assumptions/2.md). -/
  pending : List Move
  /-- The MODEL's own: the word the last host read returned (notes/assumptions/3.md). -/
  busData : Option Word
  /-- The MODEL's own: delivered draws (notes/assumptions/4.md). -/
  env : Env
  deriving DecidableEq, Repr

/-- No draw delivered, none taken. -/
def Env.empty : Env :=
  { capOpen := [], capRead := [], phases := [], picks := [], latency := [], count := 0 }

/-- The profile registers after reset (70_reset R550). -/
def Profile.zero : Profile :=
  { f0 := 0, bitMs := 0, pauseMs := 0, nblk := 0, nfreq := 0, spacing := 0, fs := 0 }

/-- The tuning registers after reset (10_state R61). -/
def Tuning.initial : Tuning :=
  { startFactor := 0x40000000#32, endFactor := 0x40000000#32, bwOrder := 8, stepFactor := 8, freqOffset := 50,
    agg := 0, fadeDiv := 3 }

/-- The derived registers after reset (10_state R71). -/
def Derived.zero : Derived :=
  { bitSamples := 0, pauseSamples := 0, bpw := 0, totalBlocks := 0, rbCap := 0, payloadCap := 0, stepLen := 0,
    wpb := 0, wpp := 0, syncThresh := 0, decWin := 0, decHop := 0, decFrames := 0, binLo := 0, binHi := 0,
    msgBits := 0, pfloor := 0, downCenter := 0, upCenter := 0 }

/-- The state after reset of a core with the parameters `hw` (70_reset R550). -/
def State.resetWith (hw : Params) : State where
  hw := hw
  ctrlContinuous := false
  ctrlSpectrumEn := false
  ctrlIrqEn := false
  rxState := .initialized
  txState := .idle
  cfgValid := false
  rbValid := false
  stopReq := false
  cancelReq := false
  err := .ok
  warnMalformed := false
  partialBlock := false
  crcOk := false
  syncStart := false
  syncEnd := false
  arg0 := 0
  arg1 := 0
  plen := 0
  blen := 0
  nblocks := 0
  pcmlen := 0
  wlen := 0
  crcParity := 0
  crcWeight := 0
  byteRes := 0
  rxBlen := 0
  rxWeight := 0
  profile := .zero
  tuning := .initial
  activeProfile := .zero
  activeTuning := .initial
  derived := .zero
  freq := List.replicate 256 0
  evq := []
  rbWr := 0
  rbSteps := 0
  sumUpFirst := 0
  sumDownFirst := 0
  sumUpLast := 0
  sumDownLast := 0
  captureOpen := false
  handoff := none
  mem := []
  pending := []
  busData := none
  env := .empty

/-- The machine right after reset (70_reset R550), with the reference parameters of 00_scope R12. -/
def State.reset : State := State.resetWith Params.reference

end Sys2Proof.Machine
end

