-- ==== Sys2Proof/Machine/Draws.lean ====
section
/-! DEFINITION. Draws: values the environment chooses (00_scope R19 "draw", R22). A draw is the next delivered
answer of `Env`, else a free value of Config at the running count (notes/assumptions/4.md). -/

namespace Sys2Proof.Machine

/-- The answer of `cap_open` (20_memory R150). -/
def drawCapOpen (e : Env) : Bool × Env :=
  match e.capOpen with
  | b :: rest => (b, { e with capOpen := rest })
  | [] => (Config.freeCapOpen e.count, { e with count := e.count + 1 })

/-- The samples of `cap_read(s)` (20_memory R150): a delivered answer as it stands, else free samples, at most `s`
of them. -/
def drawCapRead (s : Nat) (e : Env) : List Sample × Env :=
  match e.capRead with
  | q :: rest => (q, { e with capRead := rest })
  | [] => ((Config.freeCapRead e.count).take s, { e with count := e.count + 1 })

/-- One phase (43_synth R324). -/
def drawPhase (e : Env) : Phase × Env :=
  match e.phases with
  | (num, den) :: rest => (.named num den, { e with phases := rest })
  | [] => (.free e.count, { e with count := e.count + 1 })

/-- `n` fresh phases. -/
def drawPhases : Nat → Env → List Phase × Env
  | 0, e => ([], e)
  | n + 1, e =>
    let d := drawPhase e
    let ds := drawPhases n d.2
    (d.1 :: ds.1, ds.2)

/-- The decode latency of a MESSAGE (93 I8). -/
def drawLatency (e : Env) : Word × Env :=
  match e.latency with
  | v :: rest => (v, { e with latency := rest })
  | [] => (Config.freeLatency e.count, { e with count := e.count + 1 })

/-- One of the allowed outcomes; where there is only one, nothing is drawn. -/
def drawChoice (c : Choices) (e : Env) : Int × Env :=
  if c.span = 0 then (c.base, e)
  else
    match e.picks with
    | n :: rest => (c.base + (n % (c.span + 1) : Nat), { e with picks := rest })
    | [] => (c.base + (Config.freePick e.count % (c.span + 1) : Nat), { e with count := e.count + 1 })

/-- One outcome for each of a list of choices, in order. -/
def drawChoices : List Choices → Env → List Int × Env
  | [], e => ([], e)
  | c :: cs, e =>
    let d := drawChoice c e
    let ds := drawChoices cs d.2
    (d.1 :: ds.1, ds.2)

/-- A verdict drawn from `0` and `1`. -/
def drawVerdict (c : Choices) (e : Env) : Bool × Env :=
  let d := drawChoice c e
  (d.1 == 1, d.2)

end Sys2Proof.Machine
end

