-- ==== Sys2Proof/Machine/Ops.lean ====
section
/-! DEFINITION. The named operations over memory and the event queue, and the two ways a command ends
(60_exceptions R503). -/

namespace Sys2Proof.Machine

/-- The outcome of a transition. -/
abbrev Out := Host.Outcome State Fault Refusal

/-! ## Memory (20_memory R123 to R125) -/

/-- The buffer memories as bytes at bus addresses. -/
abbrev Memory := List Host.Cell

/-- The canonical form: addresses strictly rising. No cell holds what an unlisted address reads as, since an
unlisted byte has no value. -/
abbrev Memory.wf (m : Memory) : Prop := m.Pairwise fun c d => c.1 < d.1

/-- The byte at `a`; none where nothing has been written (10_state R82). -/
def Memory.readByte : Memory → Nat → Option Byte
  | [], _ => none
  | (k, b) :: m, a => if k = a then some b else Memory.readByte m a

/-- The `n` bytes from `a` on, in one pass over the rising cells; none if one of them is unwritten. -/
def Memory.readRun : Memory → Nat → Nat → Option (List Byte)
  | _, _, 0 => some []
  | [], _, _ + 1 => none
  | (k, b) :: m, a, n + 1 =>
    if k < a then Memory.readRun m a (n + 1)
    else if k = a then (Memory.readRun m (a + 1) n).map (b :: ·)
    else none

/-- Consecutive cells from `a` on. -/
def cellsAt : Nat → List Byte → Memory
  | _, [] => []
  | a, b :: bs => (a, b) :: cellsAt (a + 1) bs

/-- Stores bytes from `a` on, in place of what was listed there. -/
def Memory.writeBytes (m : Memory) (a : Nat) (bs : List Byte) : Memory :=
  m.filter (fun c => decide (c.1 < a)) ++ cellsAt a bs ++ m.filter (fun c => decide (a + bs.length ≤ c.1))

/-- The bytes of a word, bits 7:0 at the lowest address (20_memory R125). -/
def wordBytes (w : Word) : List Byte :=
  [w.extractLsb' 0 8, w.extractLsb' 8 8, w.extractLsb' 16 8, w.extractLsb' 24 8]

/-- Bytes grouped into words, four at a time. -/
def bytesWords : List Byte → List Word
  | b0 :: b1 :: b2 :: b3 :: rest => (b3 ++ b2 ++ b1 ++ b0) :: bytesWords rest
  | _ => []

/-- The `n` elements from address `a` on, each a word (20_memory R123: element i lives at base + 4 i). -/
def Memory.readWords (m : Memory) (a n : Nat) : Option (List Word) :=
  (Memory.readRun m a (4 * n)).map bytesWords

/-- Stores elements from address `a` on. -/
def Memory.writeWords (m : Memory) (a : Nat) (ws : List Word) : Memory :=
  Memory.writeBytes m a (ws.flatMap wordBytes)

/-! ## The bases of the regions (20_memory R123) -/

def pbufBase : Nat := 0x00100000
def bbufBase : Nat := 0x00200000
def ibufBase : Nat := 0x00300000
def inbufBase : Nat := 0x00400000
def rbBase : Nat := 0x00800000
def wbufBase : Nat := 0x01000000
def pcmBase : Nat := 0x02000000
def specBase : Nat := 0x04000000
def rxbitsBase : Nat := 0x08000000
def evdataBase : Nat := 0x09000000

/-- Elements of IBUF (20_memory R123). -/
def ibufSize : Nat := 256

/-! ## Element layout (20_memory R124) -/

/-- A bit element: bit 0, the rest 0. -/
def bitWord (b : Bool) : Word := if b then 1#32 else 0#32

/-- A byte element: bits 7:0, the rest 0. -/
def byteWord (b : Byte) : Word := b.setWidth 32

/-- An int16 element: bits 15:0, read back sign-extended. -/
def sampleWord (v : Sample) : Word := v.signExtend 32

def wordBit (w : Word) : Bool := w.getLsbD 0
def wordByte (w : Word) : Byte := w.setWidth 8
def wordSample (w : Word) : Sample := w.setWidth 16

/-! ## How a command ends (60_exceptions R503) -/

/-- `raise c`: ERR takes the code and nothing else changes. The core has no other exception entry (R500, R509). -/
def raise (c : ErrCode) (s : State) : Out := .next { s with err := c }

/-- A command that completes sets ERR to OK. -/
def finish (s : State) : Out := .next { s with err := .ok }

/-- Goes on with the elements read from `base` on, or faults where one of them is unwritten (10_state R82). -/
def withRead {α : Type} (base : Nat) (r : Option α) (k : α → Out) : Out :=
  match r with
  | some x => k x
  | none => .fault (.unwrittenElement base)

/-! ## The event queue (46_orchestrator R470) -/

/-- Appends one record at the tail. -/
def emit (e : Event) (s : State) : State := { s with evq := s.evq ++ [e] }

/-- A record with the fields R470 leaves unnamed at 0. -/
def Event.blank (t : EventType) : Event :=
  { type := t, crcOk := false, malformed := false, reason := .ok, len := 0, latency := 0, payload := [] }

end Sys2Proof.Machine
end

