-- ==== Sys2Proof/Machine/Operands.lean ====
section
/-! DEFINITION. Every operand form of 30_encoding R172 and the buffer operands of the command rules, the quantities
of the active configuration, and the gating conditions of 46_orchestrator R449. -/

namespace Sys2Proof.Machine

/-! ## Operand registers (30_encoding R172) -/

/-- The byte value `ARG0[7:0]`; bits 31:8 are ignored. -/
def State.argByte (s : State) : Byte := s.arg0.setWidth 8

/-- ARG0 as a 32-bit unsigned count, index, length or kind. -/
def State.arg0Nat (s : State) : Nat := s.arg0.toNat

/-- ARG1 as a 32-bit unsigned index. -/
def State.arg1Nat (s : State) : Nat := s.arg1.toNat

/-- PLEN, unsigned. -/
def State.plenNat (s : State) : Nat := s.plen.toNat

/-- BLEN, unsigned. -/
def State.blenNat (s : State) : Nat := s.blen.toNat

/-! ## Buffer operands -/

/-- The first `n` bytes of PBUF. -/
def State.pbuf (s : State) (n : Nat) : Option (List Byte) :=
  (Memory.readWords s.mem pbufBase n).map fun ws => ws.map wordByte

/-- The first `n` bits of BBUF. -/
def State.bbuf (s : State) (n : Nat) : Option Bits :=
  (Memory.readWords s.mem bbufBase n).map fun ws => ws.map wordBit

/-- The `n` bits of BBUF from index `i` on. -/
def State.bbufFrom (s : State) (i n : Nat) : Option Bits :=
  (Memory.readWords s.mem (bbufBase + 4 * i) n).map fun ws => ws.map wordBit

/-- The first `n` bits of IBUF. -/
def State.ibuf (s : State) (n : Nat) : Option Bits :=
  (Memory.readWords s.mem ibufBase n).map fun ws => ws.map wordBit

/-- The first `n` samples of INBUF. -/
def State.inbuf (s : State) (n : Nat) : Option (List Sample) :=
  (Memory.readWords s.mem inbufBase n).map fun ws => ws.map wordSample

/-! ## The active configuration (10_state R63, R70) -/

/-- N = numFrequencies. -/
def State.nfreqNat (s : State) : Nat := s.activeProfile.nfreq.toNat

/-- B = numMessageBlocks. -/
def State.nblkNat (s : State) : Nat := s.activeProfile.nblk.toNat

/-- K, the payload capacity in bytes. -/
def State.payloadCapNat (s : State) : Nat := s.derived.payloadCap.toNat

/-- C, the ring-buffer capacity. -/
def State.rbCapNat (s : State) : Nat := s.derived.rbCap.toNat

/-- S, the analysis step. -/
def State.stepLenNat (s : State) : Nat := s.derived.stepLen.toNat

/-- MSG_BITS. -/
def State.msgBitsNat (s : State) : Nat := s.derived.msgBits.toNat

/-- The RB elements in physical order. -/
def State.rb (s : State) : Option (List Word) := Memory.readWords s.mem rbBase s.rbCapNat

/-! ## Gating (46_orchestrator R449) -/

/-- The RX agent owns the ring buffer and SPECBUF. -/
def State.listening (s : State) : Bool := s.rxState == .listening

/-- PCMBUF is being played. -/
def State.sending (s : State) : Bool := s.txState == .sending

/-- The event queue is full. -/
def State.evqFull (s : State) : Bool := s.evq.length == s.hw.evqDepth

end Sys2Proof.Machine
end

