-- ==== Sys2Proof/Machine/Configure.lean ====
section
/-! DEFINITION. The derived quantities of a configuration (10_state R70), its validity (46_orchestrator R442), and
CFG_COMMIT with NOP (46_orchestrator section 2). -/

namespace Sys2Proof.Machine

/-- The values of 10_state R70, exact. -/
structure Quantities where
  pb : Nat
  pp : Nat
  bpw : Nat
  t : Nat
  c : Nat
  k : Nat
  msgBits : Nat
  s : Nat
  wpb : Nat
  wpp : Nat
  syncThresh : Nat
  wd : Nat
  h : Nat
  f : Nat
  binLo : Nat
  binHi : Nat
  nbins : Nat
  pfloor : Nat
  downCenter : Nat
  upCenter : Nat
  deriving DecidableEq, Repr

/-- The formulas of 10_state R70, line by line. -/
def quantities (p : Profile) (u : Tuning) : Quantities :=
  let f0 := p.f0.toNat
  let b := p.nblk.toNat
  let n := p.nfreq.toNat
  let d := p.spacing.toNat
  let fs := p.fs.toNat
  let o := u.freqOffset.toNat
  let sf := u.stepFactor.toNat
  let pb := p.bitMs.toNat * fs / 1000
  let pp := p.pauseMs.toNat * fs / 1000
  let bpw := d * (n / 2)
  let t := 2 * b + 2
  let c := pb * t + pp * (t - 1)
  let s := pb / 2
  let wpb := pb / s
  let wpp := pp / s
  let wd := pb - pb % 2
  let h := wd / sf
  let binLo := if f0 ≤ o then 0 else ceilDiv ((f0 - o) * wd) fs
  let binHi := min (wd / 2) ((f0 + (n - 1) * d + o) * wd / fs)
  { pb := pb
    pp := pp
    bpw := bpw
    t := t
    c := c
    k := b * (n / 8) - 2
    msgBits := b * n
    s := s
    wpb := wpb
    wpp := wpp
    syncThresh := t * wpb - wpp
    wd := wd
    h := h
    f := (c - wd) / h + 1
    binLo := binLo
    binHi := binHi
    nbins := binHi - binLo + 1
    pfloor := 30 * fs / 1000
    downCenter := f0 + bpw / 2
    upCenter := f0 + bpw + bpw / 2 }

/-- The derived registers that show the quantities (10_state R71). -/
def Quantities.derived (q : Quantities) : Derived :=
  { bitSamples := BitVec.ofNat 32 q.pb
    pauseSamples := BitVec.ofNat 32 q.pp
    bpw := BitVec.ofNat 32 q.bpw
    totalBlocks := BitVec.ofNat 32 q.t
    rbCap := BitVec.ofNat 32 q.c
    payloadCap := BitVec.ofNat 32 q.k
    stepLen := BitVec.ofNat 32 q.s
    wpb := BitVec.ofNat 32 q.wpb
    wpp := BitVec.ofNat 32 q.wpp
    syncThresh := BitVec.ofNat 32 q.syncThresh
    decWin := BitVec.ofNat 32 q.wd
    decHop := BitVec.ofNat 32 q.h
    decFrames := BitVec.ofNat 32 q.f
    binLo := BitVec.ofNat 32 q.binLo
    binHi := BitVec.ofNat 32 q.binHi
    msgBits := BitVec.ofNat 32 q.msgBits
    pfloor := BitVec.ofNat 32 q.pfloor
    downCenter := BitVec.ofNat 32 q.downCenter
    upCenter := BitVec.ofNat 32 q.upCenter }

/-- FREQ[0..256): `f0 + i Δ` for `i < N`, else 0 (10_state R67). -/
def freqTable (p : Profile) : List Word :=
  (List.range 256).map fun i =>
    if i < p.nfreq.toNat then BitVec.ofNat 32 (p.f0.toNat + i * p.spacing.toNat) else 0

/-- A binary32 factor CFG_COMMIT accepts: finite, and not negative but for -0.0 (10_state R62). -/
def factorOk (w : Word) : Bool :=
  w.extractLsb' 23 8 != 0xFF#8 && (!w.getLsbD 31 || w.extractLsb' 0 31 == 0#31)

/-- `valid(profile, tuning)`: none of the lines 1 to 13 of 46_orchestrator R442 holds. -/
def configValid (hw : Params) (p : Profile) (u : Tuning) : Bool :=
  let q := quantities p u
  decide (2 * p.f0.toNat ≤ p.fs.toNat) &&                                                   -- 1
  (p.fs != 0 && p.f0 != 0 && p.spacing != 0 && p.nblk != 0) &&                                -- 2
  (p.nfreq != 0 && p.nfreq.toNat % 8 == 0 && decide (p.nfreq.toNat ≤ 256)) &&                -- 3
  decide (16 ≤ p.nblk.toNat * p.nfreq.toNat) &&                                              -- 4
  decide (2 ≤ q.pb) &&                                                                       -- 5
  (u.stepFactor != 0 && decide (u.stepFactor.toNat ≤ q.wd)) &&                               -- 6
  decide (2 * (p.f0.toNat + p.nfreq.toNat * p.spacing.toNat) < p.fs.toNat) &&                -- 7
  (u.bwOrder != 0 && decide (u.bwOrder.toNat ≤ hw.maxOrder)) &&                              -- 8
  decide (u.agg.toNat ≤ 2) &&                                                                -- 9
  decide (2 ≤ u.fadeDiv.toNat) &&                                                            -- 10
  (factorOk u.startFactor && factorOk u.endFactor) &&                                        -- 11
  (decide (q.c ≤ hw.maxRb) && decide (q.c ≤ hw.maxPcm) && decide (q.msgBits ≤ hw.maxBits) &&
    decide (q.pfloor ≤ hw.maxPcm) && decide (q.s ≤ hw.maxIn) && decide (q.f * q.nbins ≤ hw.maxSpec)) && -- 12
  decide (q.binLo ≤ q.binHi)                                                                 -- 13

/-- The latch of CFG_COMMIT: the active configuration, the derived registers, FREQ, CFG_VALID, and the dropped ring
buffer (46_orchestrator R441). -/
def commit (s : State) : State :=
  { s with
    activeProfile := s.profile
    activeTuning := s.tuning
    derived := (quantities s.profile s.tuning).derived
    freq := freqTable s.profile
    cfgValid := true
    rbValid := false }

/-- CFG_COMMIT (46_orchestrator R441). -/
def execCfgCommit (s : State) : Out :=
  if s.listening ∨ s.sending then raise .busy s
  else if configValid s.hw s.profile s.tuning = false then raise .configError s
  else finish (commit s)

/-- NOP (46_orchestrator R443): writes ERR = OK and nothing else. -/
def execNop (s : State) : Out := finish s

end Sys2Proof.Machine
end

