-- ==== Sys2Proof/Machine/Flags.lean ====
section
/-! DEFINITION. The flag computations, and the register words composed of fields: STATUS (10_state R46), CTRL
(R45), the event registers (R64), the error codes (60_exceptions R501). -/

namespace Sys2Proof.Machine

/-- PARTIAL: the last block is partial (40_bitframer R212). -/
def partialFlag (blen n : Nat) : Bool := blen % n != 0

/-- CRC_OK: the residue weight is 0 (41_crc R256). -/
def crcOkFlag (weight : Nat) : Bool := weight == 0

/-- The code byte of 60_exceptions R501. -/
def ErrCode.byte : ErrCode → Byte
  | .ok => 0x00#8
  | .configError => 0x01#8
  | .payloadTooLarge => 0x02#8
  | .captureUnavailable => 0x03#8
  | .malformedBitStream => 0x04#8
  | .decodeFault => 0x05#8
  | .illegalCommand => 0x10#8
  | .busy => 0x11#8
  | .badState => 0x12#8
  | .badArgument => 0x13#8
  | .noBuffer => 0x14#8

/-- STATUS.RX_STATE (10_state R46). -/
def RxState.field : RxState → BitVec 3
  | .initialized => 0#3
  | .listening => 1#3
  | .stopped => 2#3
  | .cancelled => 3#3

/-- EV_TYPE bits 7:0 (10_state R64). -/
def EventType.byte : EventType → Byte
  | .message => 1#8
  | .decodeError => 2#8
  | .spectrum => 3#8

/-- The interrupt line (20_memory R156, 60_exceptions R508). -/
def State.irq (s : State) : Bool := s.ctrlIrqEn && !s.evq.isEmpty

/-- The STATUS word (10_state R46): bits 31:22 read 0. -/
def State.statusWord (s : State) : Word :=
  0#10 ++ BitVec.ofBool s.irq ++ BitVec.ofBool s.syncEnd ++ BitVec.ofBool s.syncStart ++ BitVec.ofBool s.crcOk ++
    BitVec.ofBool s.partialBlock ++ BitVec.ofBool s.warnMalformed ++ s.err.byte ++ BitVec.ofBool s.cancelReq ++
    BitVec.ofBool s.stopReq ++ BitVec.ofBool s.rbValid ++ BitVec.ofBool s.cfgValid ++ BitVec.ofBool s.sending ++
    s.rxState.field

/-- The CTRL word (10_state R45): bits 31:3 read 0. -/
def State.ctrlWord (s : State) : Word :=
  0#29 ++ BitVec.ofBool s.ctrlIrqEn ++ BitVec.ofBool s.ctrlSpectrumEn ++ BitVec.ofBool s.ctrlContinuous

/-- A write to CTRL: bits 31:3 are ignored (10_state R45). -/
def State.writeCtrl (s : State) (w : Word) : State :=
  { s with ctrlContinuous := w.getLsbD 0, ctrlSpectrumEn := w.getLsbD 1, ctrlIrqEn := w.getLsbD 2 }

/-- The EV_TYPE word of a record (10_state R64). -/
def Event.typeWord (e : Event) : Word :=
  0#8 ++ e.reason.byte ++ 0#6 ++ BitVec.ofBool e.malformed ++ BitVec.ofBool e.crcOk ++ e.type.byte

/-- A word of the head record, 0 when the queue is empty (10_state R64). -/
def State.headWord (s : State) (f : Event → Word) : Word :=
  match s.evq with
  | e :: _ => f e
  | [] => 0

end Sys2Proof.Machine
end

