-- ==== Sys2Proof/Machine/Crc.lean ====
section
/-! DEFINITION. The polynomial-division CRC and its two commands (41_crc). -/

namespace Sys2Proof.Machine

/-- A bit sequence read as a number, first bit most significant (20_memory R126). -/
def bitsNat : Bits → Nat
  | s => s.foldl (fun n b => 2 * n + b.toNat) 0

/-- `g[1..16]`: the generator below its leading coefficient, `g[j] = GEN[16 - j]` (41_crc R250). -/
def genTail (gen : BitVec 17) : Bits := (List.range 16).map fun j => gen.getLsbD (15 - j)

/-- Exclusive-or of `g` into the first bits of `d`. -/
def xorInto : Bits → Bits → Bits
  | g :: gs, x :: d => (g != x) :: xorInto gs d
  | _, d => d

/-- `n` steps of XOR long division, each at the leading bit, which then is dropped: the generator is subtracted when
the bit is 1, and a leading 0 is skipped (41_crc R252). -/
def divideSteps (g : Bits) : Nat → Bits → Bits
  | n + 1, b :: d => divideSteps g n (if b then xorInto g d else d)
  | _, d => d

/-- `rem(s)`: the last 16 bits of 16 zeros followed by what the division leaves (41_crc R252). -/
def crcRem (gen : BitVec 17) (s : Bits) : Bits :=
  let d := divideSteps (genTail gen) (s.length - 16) s
  List.replicate (16 - d.length) false ++ d

/-- `parity(s) = rem(s ++ [0]*16)` (41_crc R253). -/
def parity (gen : BitVec 17) (s : Bits) : Bits := crcRem gen (s ++ List.replicate 16 false)

/-- `weight(s) = popcount(rem(s))`: no zeros are appended (41_crc R255). -/
def weight (gen : BitVec 17) (s : Bits) : Nat := (crcRem gen s).count true

/-- CRC_PARITY (41_crc R254). -/
def execCrcParity (s : State) : Out :=
  if s.hw.maxBits < s.blenNat then raise .badArgument s
  else
    withRead bbufBase (s.bbuf s.blenNat) fun bits =>
      finish { s with crcParity := BitVec.ofNat 16 (bitsNat (parity s.hw.gen bits)) }

/-- CRC_CHECK (41_crc R256). -/
def execCrcCheck (s : State) : Out :=
  if s.hw.maxBits < s.blenNat then raise .badArgument s
  else
    withRead bbufBase (s.bbuf s.blenNat) fun bits =>
      let w := weight s.hw.gen bits
      finish { s with crcWeight := BitVec.ofNat 32 w, crcOk := crcOkFlag w }

end Sys2Proof.Machine
end

