-- ==== Sys2Proof/Machine/Framer.lean ====
section
/-! DEFINITION. The bit framer and its six commands (40_bitframer). -/

namespace Sys2Proof.Machine

/-- `bits8(b)`: the eight bits of a byte, most significant first (40_bitframer R200). -/
def bits8 (b : Byte) : Bits :=
  [b.getLsbD 7, b.getLsbD 6, b.getLsbD 5, b.getLsbD 4, b.getLsbD 3, b.getLsbD 2, b.getLsbD 1, b.getLsbD 0]

/-- `byte8(s)` of eight bits (40_bitframer R201). -/
def byte8 (s : Bits) : Byte := BitVec.ofNat 8 (bitsNat s)

/-- The filler byte 0x19 (10_state R59). -/
def fillByte : Byte := 0x19#8

/-- FILL = 0,0,0,1,1,0,0,1 (40_bitframer, notation). -/
def fillBits : Bits := [false, false, false, true, true, false, false, true]

/-- The padding loop of 40_bitframer R205, at most `fuel` times around (R207: it stops after K - |p| rounds under
every valid configuration; notes/assumptions/21.md). -/
def padLoop (n k : Nat) : Nat → Bits → Bits
  | 0, s => s
  | fuel + 1, s =>
    if (s.length + 16) % n ≠ 0 ∨ s.length / 8 < k then padLoop n k fuel (s ++ fillBits) else s

/-- The bits of a payload before padding. -/
def payloadBits (p : List Byte) : Bits := p.flatMap bits8

/-- `pack(p)` for N = `n` and K = `k` (40_bitframer R205). -/
def packBits (gen : BitVec 17) (n k : Nat) (p : List Byte) : Bits :=
  let s := padLoop n k (n + k + 1) (payloadBits p)
  s ++ parity gen s

/-- The aligned 8-bit groups of a sequence; trailing bits that fill no group are dropped. -/
def octets : Bits → List Bits
  | b7 :: b6 :: b5 :: b4 :: b3 :: b2 :: b1 :: b0 :: rest => [b7, b6, b5, b4, b3, b2, b1, b0] :: octets rest
  | _ => []

/-- `unpack(s)`: the payload and the malformed flag (40_bitframer R208). -/
def unpackBits (s : Bits) : List Byte × Bool :=
  if s.length < 16 then ([], true)
  else
    let d := s.take (s.length - 16)
    (((octets d).filter fun g => g != fillBits).map byte8, d.length % 8 != 0)

/-- Block `j` of `split(s, n)`: `n` bits, 0 beyond the end of `s` (40_bitframer R211, R215). -/
def blockOf (s : Bits) (n j : Nat) : Bits := (List.range n).map fun i => s.getD (j * n + i) false

/-- `split(s, n)` (40_bitframer R211). -/
def splitBits (s : Bits) (n : Nat) : List Bits := (List.range (ceilDiv s.length n)).map (blockOf s n)

/-- `invert(blk)` (40_bitframer R213). -/
def invertBits (blk : Bits) : Bits := blk.map fun b => !b

/-- BYTE_TO_BITS (40_bitframer R202). -/
def execByteToBits (s : State) : Out :=
  finish { s with mem := Memory.writeWords s.mem bbufBase ((bits8 s.argByte).map bitWord), blen := 8 }

/-- BITS_TO_BYTE (40_bitframer R203). -/
def execBitsToByte (s : State) : Out :=
  if s.blenNat < 8 ∨ s.hw.maxBits < s.blenNat then raise .badArgument s
  else withRead bbufBase (s.bbuf 8) fun bits => finish { s with byteRes := byte8 bits }

/-- PACK (40_bitframer R206). -/
def execPack (s : State) : Out :=
  if s.cfgValid = false then raise .configError s
  else if s.payloadCapNat < s.plenNat then raise .payloadTooLarge s
  else
    withRead pbufBase (s.pbuf s.plenNat) fun p =>
      let bits := packBits s.hw.gen s.nfreqNat s.payloadCapNat p
      finish { s with mem := Memory.writeWords s.mem bbufBase (bits.map bitWord), blen := BitVec.ofNat 32 bits.length }

/-- UNPACK (40_bitframer R209). -/
def execUnpack (s : State) : Out :=
  if s.hw.maxBits < s.blenNat then raise .badArgument s
  else
    withRead bbufBase (s.bbuf s.blenNat) fun bits =>
      let r := unpackBits bits
      finish { s with
        mem := Memory.writeWords s.mem pbufBase (r.1.map byteWord)
        plen := BitVec.ofNat 32 r.1.length
        warnMalformed := r.2 }

/-- SPLIT (40_bitframer R211, R212): it reads the bit sequence BBUF[0..BLEN), which the host must have written
(70_reset_and_hazards R552, which names SPLIT among the readers), and zero-fills the partial block. R212's pseudocode
shows no read: DEDUCED, the elements read are those of R211's `s` (notes/assumptions/30.md). -/
def execSplit (s : State) : Out :=
  let nb := ceilDiv s.blenNat s.nfreqNat
  if s.cfgValid = false then raise .configError s
  else if s.hw.maxBits < s.blenNat ∨ s.hw.maxBits < nb * s.nfreqNat then raise .badArgument s
  else
    withRead bbufBase (s.bbuf s.blenNat) fun _ =>
      finish { s with
        mem := Memory.writeWords s.mem (bbufBase + 4 * s.blenNat)
          (List.replicate (nb * s.nfreqNat - s.blenNat) (bitWord false))
        nblocks := BitVec.ofNat 32 nb
        partialBlock := partialFlag s.blenNat s.nfreqNat }

/-- The bits of block `j` of BBUF, 0 beyond BLEN (40_bitframer R214, 43_synth R319): only elements below BLEN are
read. -/
def State.bbufBlock (s : State) (j : Nat) : Option Bits :=
  let n := s.nfreqNat
  let have' := min n (s.blenNat - j * n)
  (s.bbufFrom (j * n) have').map fun bits => bits ++ List.replicate (n - have') false

/-- INVERT (40_bitframer R214). -/
def execInvert (s : State) : Out :=
  if s.cfgValid = false then raise .configError s
  else if s.hw.maxBits < s.blenNat ∨ ceilDiv s.blenNat s.nfreqNat ≤ s.arg0Nat then raise .badArgument s
  else
    withRead (bbufBase + 4 * (s.arg0Nat * s.nfreqNat)) (s.bbufBlock s.arg0Nat) fun blk =>
      finish { s with mem := Memory.writeWords s.mem ibufBase ((invertBits blk).map bitWord) }

end Sys2Proof.Machine
end

