-- ==== Sys2Proof/Machine/RingBuffer.lean ====
section
/-! DEFINITION. The ring buffer and its five commands (42_ringbuffer). -/

namespace Sys2Proof.Machine

/-- `ordered()`: the physical elements from the write cursor on, then those before it (42_ringbuffer R280). -/
def ordered (rb : List Word) (wr : Nat) : List Word := rb.drop wr ++ rb.take wr

/-- `snapshot()` (42_ringbuffer R284). -/
def State.snapshot (s : State) : Option (List Word) := s.rb.map fun rb => ordered rb s.rbWr.toNat

/-- `first(n)`: the oldest `n` of an ordered buffer (42_ringbuffer R286). -/
def firstOf (o : List Word) (n : Nat) : List Word := o.take n

/-- `last(n)`: the newest `n` of an ordered buffer of `c` elements (42_ringbuffer R286). -/
def lastOf (o : List Word) (c n : Nat) : List Word := o.drop (c - n)

/-- The element writes of `add`: `RB[(wr + k) mod c] <- x[k]` in increasing `k` (42_ringbuffer R282). -/
def ringWrite (c wr : Nat) : Nat → List Word → Memory → Memory
  | _, [], m => m
  | k, w :: ws, m => ringWrite c wr (k + 1) ws (Memory.writeWords m (rbBase + 4 * ((wr + k) % c)) [w])

/-- RB_STEPS counts one `add`, saturating at 2^32 - 1 (42_ringbuffer R282). -/
def nextSteps (w : Word) : Word := BitVec.ofNat 32 (min (w.toNat + 1) (2 ^ 32 - 1))

/-- `add(x)` (42_ringbuffer R282). -/
def ringAdd (x : List Word) (s : State) : State :=
  let c := s.rbCapNat
  { s with
    mem := ringWrite c s.rbWr.toNat 0 x s.mem
    rbWr := BitVec.ofNat 32 ((s.rbWr.toNat + x.length % c) % c)
    rbSteps := nextSteps s.rbSteps }

/-- The zero-fill of RB_INIT and RX_START: C elements +0.0, both cursors 0, RB_VALID 1 (42_ringbuffer R281,
46_orchestrator R444). -/
def ringClear (s : State) : State :=
  { s with
    mem := Memory.writeWords s.mem rbBase (List.replicate s.rbCapNat 0#32)
    rbWr := 0
    rbSteps := 0
    rbValid := true }

/-- RB_INIT (42_ringbuffer R281). -/
def execRbInit (s : State) : Out :=
  if s.listening then raise .busy s
  else if s.cfgValid = false then raise .configError s
  else finish (ringClear s)

/-- RB_ADD (42_ringbuffer R283). -/
def execRbAdd (s : State) : Out :=
  if s.listening then raise .busy s
  else if s.rbValid = false then raise .noBuffer s
  else if s.hw.maxIn < s.arg0Nat then raise .badArgument s
  else withRead inbufBase (s.inbuf s.arg0Nat) fun x => finish (ringAdd (x.map sampleF32) s)

/-- Stores a window in WBUF and its length in WLEN (42_ringbuffer R285, R287). -/
def storeWindow (o : List Word) (s : State) : State :=
  { s with mem := Memory.writeWords s.mem wbufBase o, wlen := BitVec.ofNat 32 o.length }

/-- RB_SNAPSHOT (42_ringbuffer R285). -/
def execRbSnapshot (s : State) : Out :=
  if s.listening then raise .busy s
  else if s.rbValid = false then raise .noBuffer s
  else withRead rbBase s.snapshot fun o => finish (storeWindow o s)

/-- RB_FIRST (42_ringbuffer R287). -/
def execRbFirst (s : State) : Out :=
  if s.listening then raise .busy s
  else if s.rbValid = false then raise .noBuffer s
  else if s.rbCapNat < s.arg0Nat then raise .badArgument s
  else withRead rbBase s.snapshot fun o => finish (storeWindow (firstOf o s.arg0Nat) s)

/-- RB_LAST (42_ringbuffer R288). -/
def execRbLast (s : State) : Out :=
  if s.listening then raise .busy s
  else if s.rbValid = false then raise .noBuffer s
  else if s.rbCapNat < s.arg0Nat then raise .badArgument s
  else withRead rbBase s.snapshot fun o => finish (storeWindow (lastOf o s.rbCapNat s.arg0Nat) s)

end Sys2Proof.Machine
end

