-- ==== Sys2Proof/Machine/Synth.lean ====
section
/-! DEFINITION. The tone-block synthesizer, the message signal and their two commands (43_synth). -/

namespace Sys2Proof.Machine

/-- What the synthesizer reads of the active configuration. -/
structure Tone where
  f0 : Nat
  spacing : Nat
  fs : Nat
  fadeDiv : Nat
  deriving DecidableEq, Repr

def State.tone (s : State) : Tone :=
  { f0 := s.activeProfile.f0.toNat, spacing := s.activeProfile.spacing.toNat, fs := s.activeProfile.fs.toNat,
    fadeDiv := s.activeTuning.fadeDiv.toNat }

/-- The start sentinel of `n` bits: lower half 0, upper half 1 (43_synth R311). -/
def startBits (n : Nat) : Bits := (List.range n).map fun i => decide (n / 2 ≤ i)

/-- The end sentinel: lower half 1, upper half 0 (43_synth R311). -/
def endBits (n : Nat) : Bits := (List.range n).map fun i => decide (i < n / 2)

/-- Bin `k` of a `w`-point transform belongs to channel `i`: its frequency lies in `[f_i - Δ/2, f_i + Δ/2)`
(43_synth R312). -/
def binInChannel (t : Tone) (w k i : Nat) : Bool :=
  let f : Int := t.f0 + i * t.spacing
  decide ((2 * f - t.spacing) * w ≤ 2 * k * t.fs) && decide ((2 * k * t.fs : Int) < (2 * f + t.spacing) * w)

/-- `ON(b, W)`: the on bins in increasing order, without DC and Nyquist (43_synth R312). -/
def onBins (t : Tone) (b : Bits) (w : Nat) : List Nat :=
  (List.range w).filter fun k =>
    decide (0 < k) && decide (2 * k < w) &&
      (List.range b.length).any fun i => b.getD i false && binInChannel t w k i

/-- Sample `n` of the burst: the sum over the on bins of `cos(2π k n / W + φ_k)`, with `e^(iφ_k)` beside each bin
(43_synth R313). -/
def burstSample (p : Nat) (table : Array Disc) (w : Nat) (tones : List (Nat × Disc)) (n : Nat) : Ival :=
  tones.foldl (fun acc kp => acc.add (Disc.mul p (table.getD (kp.1 * n % w) .zero) kp.2).reIval) .zero

/-- The burst (43_synth R313). -/
def burst (p w : Nat) (tones : List (Nat × Disc)) : List Ival :=
  let table := turnTable p w
  (List.range w).map (burstSample p table w tones)

/-- `max_n |x[n]|` (43_synth R314). -/
def peakOf (x : List Ival) : Ival := x.foldl (fun m v => m.larger v.abs) .zero

/-- The gain of 43_synth R314 as a fraction: `R` samples of ramp on each side. -/
def fadeGain (w r n : Nat) : Nat × Nat :=
  if 1 ≤ r ∧ n < r then (n, r)
  else if 1 ≤ r ∧ w - 1 - r < n then (w - 1 - n, r)
  else (1, 1)

/-- Normalize by the peak, fade and clip one sample (43_synth R314). -/
def shapeSample (p : Nat) (peak x : Ival) (g : Nat × Nat) : Ival := ((x.div p peak).scale g.1 g.2).clip p

/-- The smallest truncation a near-tie leaves open above the number `a / 2^p`: rounded up, and one less where the
number is positive, since an integer there may come out as its neighbour toward 0 (43_synth R325). -/
def truncLow (p : Nat) (a : Int) : Int := if a ≤ 0 then ceilDivInt a (fixOne p) else ceilDivInt a (fixOne p) - 1

/-- The largest truncation a near-tie leaves open below the number `a / 2^p`. -/
def truncHigh (p : Nat) (a : Int) : Int := if 0 ≤ a then a / (fixOne p : Int) else a / (fixOne p : Int) + 1

/-- The half-width 2^-20 of the near-tie band of 43_synth R325 at precision `p`. -/
def pcmBand (p : Nat) : Int := (2 ^ (p - 20) : Nat)

/-- A sample lies in [-32760, 32760] (43_synth R316). -/
def clampPcm (v : Int) : Int := max (-32760) (min 32760 v)

/-- What `trunc(z · 32760)` may be for a `z` between bounds (43_synth R316, R325): the exact truncation `t`, and where
`z · 32760` lies within 2^-20 of an integer other than 0, that integer and its neighbour toward 0. -/
def pcmAt (p : Nat) (z : Ival) : Reading :=
  if z.known = false then ⟨.between (-32760) 32760, false⟩
  else
    let low (v : Int) : Int := clampPcm (truncLow p (v * 32760 - pcmBand p))
    let high (v : Int) : Int := clampPcm (truncHigh p (v * 32760 + pcmBand p))
    ⟨.between (low z.lo) (high z.hi), low z.lo == low z.hi && high z.lo == high z.hi⟩

/-- The readings of the samples of `synth(b, W)` at one precision, for on bins with one phase each (43_synth R313 to
R316). -/
def synthAt (w fadeDiv : Nat) (tones : List (Nat × Phase)) (p : Nat) : List Reading :=
  let x := burst p w (tones.map fun kp => (kp.1, phasor p kp.2))
  let peak := peakOf x
  x.zipIdx.map fun vn => pcmAt p (shapeSample p peak vn.1 (fadeGain w (w / fadeDiv) vn.2))

/-- The outcomes allowed for each sample of `synth(b, W)`, given one phase for each on bin (43_synth R317). With no
bin on, every sample is 0 (R314: the peak is 0 exactly then). -/
def synthChoices (t : Tone) (b : Bits) (w : Nat) (phases : List Phase) : List Choices :=
  let on := onBins t b w
  if on.isEmpty then List.replicate w (.exactly 0) else settle (synthAt w t.fadeDiv (on.zip phases))

/-- `synth(b, W)` with fresh draws: a phase for each on bin, then the near-ties (43_synth R317, R324). -/
def synth (t : Tone) (b : Bits) (w : Nat) (e : Env) : List Sample × Env :=
  let ph := drawPhases (onBins t b w).length e
  let q := drawChoices (synthChoices t b w ph.1) ph.2
  (q.1.map (BitVec.ofInt 16), q.2)

/-- The blocks of a message in order: START, each payload block and its inverse, END (43_synth R318). -/
def msgBlocks (n : Nat) (s : Bits) : List Bits :=
  startBits n :: ((splitBits s n).flatMap fun blk => [blk, invertBits blk]) ++ [endBits n]

/-- Blocks synthesized one after the other, a pause of `pp` zeros after each but the last (43_synth R318). -/
def renderBlocks (t : Tone) (pb pp : Nat) : List Bits → Env → List Sample × Env
  | [], e => ([], e)
  | [b], e => synth t b pb e
  | b :: rest, e =>
    let q := synth t b pb e
    let r := renderBlocks t pb pp rest q.2
    (q.1 ++ List.replicate pp 0#16 ++ r.1, r.2)

/-- `msg(s)` (43_synth R318). -/
def State.message (s : State) (bits : Bits) : List Sample × Env :=
  renderBlocks s.tone s.derived.bitSamples.toNat s.derived.pauseSamples.toNat (msgBlocks s.nfreqNat bits) s.env

/-- Stores a rendered signal in PCMBUF and its length in PCMLEN. -/
def storePcm (q : List Sample × Env) (s : State) : State :=
  { s with
    mem := Memory.writeWords s.mem pcmBase (q.1.map sampleWord)
    pcmlen := BitVec.ofNat 32 q.1.length
    env := q.2 }

/-- W of a pause block: Pp, or the 30 ms floor when Pp = 0 (43_synth R310). -/
def State.pauseLength (s : State) : Nat :=
  if s.derived.pauseSamples = 0 then s.derived.pfloor.toNat else s.derived.pauseSamples.toNat

/-- The bits and the length of the block SYN_BLOCK renders, by kind (43_synth R319): none where IBUF or BBUF holds an
element nothing has written. -/
def State.synthBlock (s : State) : Option (Bits × Nat) :=
  let n := s.nfreqNat
  let pb := s.derived.bitSamples.toNat
  match s.arg0Nat with
  | 0 => (s.bbufBlock s.arg1Nat).map fun b => (b, pb)
  | 1 => (s.bbufBlock s.arg1Nat).map fun b => (invertBits b, pb)
  | 2 => some (startBits n, pb)
  | 3 => some (endBits n, pb)
  | 4 => some (List.replicate n false, s.pauseLength)
  | _ => (s.ibuf n).map fun b => (b, pb)

/-- The buffer SYN_BLOCK reads, by kind. -/
def State.synthBase (s : State) : Nat := if s.arg0Nat < 2 then bbufBase else ibufBase

/-- SYN_BLOCK (43_synth R319). -/
def execSynBlock (s : State) : Out :=
  if s.sending then raise .busy s
  else if s.cfgValid = false then raise .configError s
  else if 5 < s.arg0Nat then raise .badArgument s
  else if s.arg0Nat < 2 ∧ (s.hw.maxBits < s.blenNat ∨ ceilDiv s.blenNat s.nfreqNat ≤ s.arg1Nat) then
    raise .badArgument s
  else withRead s.synthBase s.synthBlock fun bw => finish (storePcm (synth s.tone bw.1 bw.2 s.env) s)

/-- The length of a message of `nb` payload blocks (43_synth R320). -/
def msgLength (pb pp nb : Nat) : Nat := pb * (2 * nb + 2) + pp * (2 * nb + 1)

/-- BUILD_SIGNAL (43_synth R322). -/
def execBuildSignal (s : State) : Out :=
  let l := msgLength s.derived.bitSamples.toNat s.derived.pauseSamples.toNat (ceilDiv s.blenNat s.nfreqNat)
  if s.sending then raise .busy s
  else if s.cfgValid = false then raise .configError s
  else if s.hw.maxBits < s.blenNat ∨ s.hw.maxPcm < l then raise .badArgument s
  else withRead bbufBase (s.bbuf s.blenNat) fun bits => finish (storePcm (s.message bits) s)

end Sys2Proof.Machine
end

