-- ==== Sys2Proof/Machine/FrameSync.lean ====
section
/-! DEFINITION. The frame-sync detector and SYNC_TEST (44_framesync). -/

namespace Sys2Proof.Machine

/-- One pair of band-pass poles `z_r` with its share `Bw · 2fs / Π (2fs - s)` of the gain `k` (44_framesync R352). The
product of these factors over the prototype poles is `H(z)`: "the realization (direct form or second-order sections)
does not matter" on exact values (notes/assumptions/20.md). -/
structure Section where
  zPlus : Disc
  zMinus : Disc
  gain : Disc
  deriving DecidableEq, Repr

/-- `2 fs tan(π f / fs)`, the prewarped edge (44_framesync R352). -/
def prewarp (p fs f : Nat) : Disc :=
  let u := unitTurn p f (2 * fs)
  ((Disc.div p ⟨u.im, 0, u.rad, u.known⟩ ⟨u.re, 0, u.rad, u.known⟩).mulInt (2 * fs)).real

/-- The section of the prototype pole `p_m = exp(jπ (2m + n + 1) / (2n))` (44_framesync R352). -/
def bandSection (p fs : Nat) (wl wh : Disc) (n m : Nat) : Section :=
  let c := Disc.ofInt p (2 * fs)
  let bw := (wh.sub wl).real
  let half := (Disc.mul p (unitTurn p (2 * m + n + 1) (4 * n)) bw).divNat 2
  let root := ((Disc.mul p half half).sub (Disc.mul p wl wh)).sqrt p
  let sPlus := half.add root
  let sMinus := half.sub root
  { zPlus := (c.add sPlus).div p (c.sub sPlus)
    zMinus := (c.add sMinus).div p (c.sub sMinus)
    gain := (Disc.mul p bw c).div p (Disc.mul p (c.sub sPlus) (c.sub sMinus)) }

/-- The sections of the band-pass with edges `fl < fh` and order parameter `n` (44_framesync R352). -/
def bandSections (p fs n fl fh : Nat) : List Section :=
  (List.range n).map (bandSection p fs (prewarp p fs fl) (prewarp p fs fh) n)

/-- `y[k] = x[k] + z y[k-1]`, with `zero` state before the window; `bound` is at least `|z|`. -/
def onePole (p : Nat) (z : Disc) (bound : Nat) : Disc → List Disc → List Disc
  | _, [] => []
  | y, x :: xs =>
    let y' := x.add (Disc.mulBound p bound z y)
    y' :: onePole p z bound y' xs

/-- The recursion of one pole over a window, from zero state. -/
def poleFilter (p : Nat) (z : Disc) (x : List Disc) : List Disc := onePole p z (z.modulus + 1 + z.rad) .zero x

/-- `(1 - z^-2)` applied to a window, from zero state. -/
def secondDifference (x : List Disc) : List Disc :=
  List.zipWith (fun a b => a.sub b) x (Disc.zero :: Disc.zero :: x)

/-- One section applied to a window. -/
def sectionFilter (p : Nat) (x : List Disc) (h : Section) : List Disc :=
  poleFilter p h.zMinus (poleFilter p h.zPlus ((secondDifference x).map fun v => Disc.mul p h.gain v))

/-- `bpf(x; fl, fh)`: causal, applied once forward, zero initial state (44_framesync R352). -/
def bandPass (p fs n fl fh : Nat) (x : List Disc) : List Disc :=
  ((bandSections p fs n fl fh).foldl (sectionFilter p) x).map Disc.real

/-- `Σ_n y[n] e^(∓i 2π k n / L)` by a table of turns: `k` for the positive sign, `L - k` for the negative. -/
def turnSum (p : Nat) (table : Array Disc) (l k : Nat) (y : List Disc) : Disc :=
  y.zipIdx.foldl (fun acc vn => acc.add (Disc.mul p vn.1 (table.getD (k * vn.2 % l) .zero))) .zero

/-- `h[k]` of the analytic signal of length `l` (44_framesync R353). -/
def analyticWeight (l k : Nat) : Nat :=
  if k = 0 then 1 else if 2 * k < l then 2 else if 2 * k = l then 1 else 0

/-- `env(y)`: the magnitude of the analytic signal by DFT (44_framesync R353). -/
def envelope (p : Nat) (y : List Disc) : List Ival :=
  let l := y.length
  let table := turnTable p l
  let spectrum := (List.range l).map fun k =>
    if analyticWeight l k = 0 then Disc.zero
    else (turnSum p table l (l - k) y).mulInt (analyticWeight l k)
  (List.range l).map fun n => ((turnSum p table l n spectrum).divNat l).abs

/-- `energy(w, band)` at precision `p`; "0 when w is all zero" (44_framesync R354), exactly, on every band. -/
def bandEnergy (fs n fl fh : Nat) (w : List Word) (p : Nat) : Ival :=
  if w.all fun v => f32Fix v = 0 then .zero
  else (envelope p (bandPass p fs n fl fh (w.map (f32Disc p)))).foldl Ival.add .zero

/-- What the detector reads of the active configuration. -/
structure SyncSetup where
  fs : Nat
  order : Nat
  downLo : Nat
  downHi : Nat
  upLo : Nat
  upHi : Nat
  startFactor : Word
  endFactor : Word
  deriving DecidableEq, Repr

/-- The bands are the centres ∓ BPW/2 (44_framesync R351, R352). -/
def State.syncSetup (s : State) : SyncSetup :=
  let half := s.derived.bpw.toNat / 2
  { fs := s.activeProfile.fs.toNat
    order := s.activeTuning.bwOrder.toNat
    downLo := s.derived.downCenter.toNat - half
    downHi := s.derived.downCenter.toNat + half
    upLo := s.derived.upCenter.toNat - half
    upHi := s.derived.upCenter.toNat + half
    startFactor := s.activeTuning.startFactor
    endFactor := s.activeTuning.endFactor }

/-- A binary32 factor times a number that is not negative. -/
def factorTimes (f : Word) (v : Ival) : Ival := v.scale (f32Fix f).toNat (2 ^ 149)

/-- What a sync test finds: the two conditions and the four sums, each at every precision (44_framesync R355). -/
structure SyncResult where
  start : Bool
  stop : Bool
  upFirst : Nat → Ival
  downFirst : Nat → Ival
  upLast : Nat → Ival
  downLast : Nat → Ival

/-- The exact 0, at every precision. -/
def noEnergy : Nat → Ival := fun _ => .zero

/-- `sync(wf, wl)` (44_framesync R355); a comparison inside the near-tie band of R360 is a draw. -/
def syncTest (c : SyncSetup) (wf wl : List Word) (e : Env) : SyncResult × Env :=
  let uf := bandEnergy c.fs c.order c.upLo c.upHi wf
  let df := bandEnergy c.fs c.order c.downLo c.downHi wf
  let start := drawVerdict (greaterThan uf fun p => factorTimes c.startFactor (df p)) e
  if start.1 then
    let ul := bandEnergy c.fs c.order c.upLo c.upHi wl
    let dl := bandEnergy c.fs c.order c.downLo c.downHi wl
    let stop := drawVerdict (greaterThan dl fun p => factorTimes c.endFactor (ul p)) start.2
    ({ start := true, stop := stop.1, upFirst := uf, downFirst := df, upLast := ul, downLast := dl }, stop.2)
  else
    ({ start := false, stop := false, upFirst := uf, downFirst := df, upLast := noEnergy, downLast := noEnergy },
      start.2)

/-- The test on the oldest and the newest window of an ordered buffer (44_framesync R355). -/
def State.syncOn (s : State) (o : List Word) : SyncResult × Env :=
  syncTest s.syncSetup (firstOf o s.stepLenNat) (lastOf o s.rbCapNat s.stepLenNat) s.env

/-- `f32(v)`, within one unit in the last place (44_framesync R358, 93 I6). -/
def drawF32 (v : Nat → Ival) (e : Env) : Word × Env :=
  let d := drawChoice (f32Choices v) e
  (f32Word d.1, d.2)

/-- SYNC_TEST (44_framesync R358). -/
def execSyncTest (s : State) : Out :=
  if s.listening then raise .busy s
  else if s.cfgValid = false then raise .configError s
  else if s.rbValid = false then raise .noBuffer s
  else
    withRead rbBase s.snapshot fun o =>
      let r := s.syncOn o
      let uf := drawF32 r.1.upFirst r.2
      let df := drawF32 r.1.downFirst uf.2
      let ul := drawF32 r.1.upLast df.2
      let dl := drawF32 r.1.downLast ul.2
      finish { s with
        sumUpFirst := uf.1
        sumDownFirst := df.1
        sumUpLast := ul.1
        sumDownLast := dl.1
        syncStart := r.1.start
        syncEnd := r.1.stop
        env := dl.2 }

end Sys2Proof.Machine
end

