-- ==== Sys2Proof/Machine/SpecDecoder.lean ====
section
/-! DEFINITION. The spectrogram bit decoder and DECODE (45_decoder). -/

namespace Sys2Proof.Machine

/-- What the decoder reads of the active configuration (45_decoder, 10_state R70). -/
structure DecodeSetup where
  pb : Nat
  pp : Nat
  wd : Nat
  hop : Nat
  frames : Nat
  binLo : Nat
  binHi : Nat
  nblk : Nat
  nfreq : Nat
  f0 : Nat
  spacing : Nat
  fs : Nat
  agg : Nat
  deriving DecidableEq, Repr

def State.decodeSetup (s : State) : DecodeSetup :=
  { pb := s.derived.bitSamples.toNat
    pp := s.derived.pauseSamples.toNat
    wd := s.derived.decWin.toNat
    hop := s.derived.decHop.toNat
    frames := s.derived.decFrames.toNat
    binLo := s.derived.binLo.toNat
    binHi := s.derived.binHi.toNat
    nblk := s.activeProfile.nblk.toNat
    nfreq := s.activeProfile.nfreq.toNat
    f0 := s.activeProfile.f0.toNat
    spacing := s.activeProfile.spacing.toNat
    fs := s.activeProfile.fs.toNat
    agg := s.activeTuning.agg.toNat }

/-- NBINS (10_state R70). -/
def DecodeSetup.nbins (c : DecodeSetup) : Nat := c.binHi - c.binLo + 1

/-- The symmetric Hamming weight `0.54 - 0.46 cos(2π n / (Wd - 1))` (45_decoder R392). -/
def hamming (p wd n : Nat) : Disc :=
  (((Disc.ofInt p 54).sub (((unitTurn p n (wd - 1)).real).mulInt 46)).divNat 100).real

/-- `w[n] e^(-i 2π k n / Wd)` for the samples of a frame (45_decoder R392). -/
def binWeights (p : Nat) (window : List Disc) (table : Array Disc) (wd k : Nat) : List Disc :=
  window.zipIdx.map fun vn => Disc.mul p vn.1 (table.getD ((wd - k) * vn.2 % wd) .zero)

/-- `|Σ w[n] x[n] e^(-i 2π k n / Wd)| / Wd`: `weights` are those of bin k, the samples are binary32 values times
2^149 (45_decoder R392). -/
def binMagnitude (wd : Nat) (weights : List Disc) (x : List Int) : Ival :=
  ((List.zipWith Disc.mulInt weights x).foldl Disc.add .zero |>.divNat (2 ^ 149 * wd)).abs

/-- EPS = 1e-10 (45_decoder R394). -/
def epsFloor (p : Nat) : Ival := .ofRat p 1 (10 ^ 10)

/-- One frame's restricted spectrum: `v / Σ v` with `v = ln(m + EPS)`, 0 where the sum is 0 (45_decoder R394). -/
def normalizeFrame (p : Nat) (m : List Ival) : List Ival :=
  let v := m.map fun x => (x.add (epsFloor p)).ln p
  let sum := v.foldl Ival.add .zero
  if sum = .zero then v.map fun _ => .zero else v.map fun x => x.div p sum

/-- The spectrogram of a buffer, frame by frame, at precision `p` (45_decoder R391 to R394). -/
def spectrogram (p : Nat) (c : DecodeSetup) (x : List Int) : List (List Ival) :=
  let table := turnTable p c.wd
  let window := (List.range c.wd).map (hamming p c.wd)
  let weights := (List.range c.nbins).map fun b => binWeights p window table c.wd (c.binLo + b)
  (List.range c.frames).map fun f =>
    let frame := (x.drop (f * c.hop)).take c.wd
    normalizeFrame p (weights.map fun w => binMagnitude c.wd w frame)

/-- A rounded quotient clamped to a range. -/
def clampNat (lo hi v : Nat) : Nat := max lo (min hi v)

/-- The centre frame of slot `t` (45_decoder R395). -/
def blockCentre (c : DecodeSetup) (t : Nat) : Nat :=
  clampNat 0 (c.frames - 1) (roundHalfUp (2 * t * (c.pb + c.pp) + c.pb - c.wd) (2 * c.hop))

/-- The centre frame of the pause after slot `t` (45_decoder R396): no rule reads it. -/
def pauseCentre (c : DecodeSetup) (t : Nat) : Nat :=
  clampNat 0 (c.frames - 1) (roundHalfUp (2 * t * (c.pb + c.pp) + 2 * c.pb + c.pp - c.wd) (2 * c.hop))

/-- The bin of channel `i` (45_decoder R397). -/
def channelBin (c : DecodeSetup) (i : Nat) : Nat :=
  clampNat c.binLo c.binHi (roundHalfUp ((c.f0 + i * c.spacing) * c.wd) c.fs)

/-- The indices within 1 of `v` that lie in `[lo, hi]`. -/
def around (lo hi v : Nat) : List Nat := (List.range 3).filterMap fun d =>
  if 1 ≤ v + d ∧ lo ≤ v + d - 1 ∧ v + d - 1 ≤ hi then some (v + d - 1) else none

/-- The neighbourhood of frame `f` and channel `i` (45_decoder R398). -/
def neighbourhood (c : DecodeSetup) (spec : List (List Ival)) (f i : Nat) : List Ival :=
  (around 0 (c.frames - 1) f).flatMap fun g =>
    (around c.binLo c.binHi (channelBin c i)).map fun k => (spec.getD g []).getD (k - c.binLo) .zero

/-- Places a number in an ascending list. -/
def insertSorted (a : Int) : List Int → List Int
  | [] => [a]
  | b :: l => if a ≤ b then a :: b :: l else b :: insertSorted a l

/-- Ascending order. -/
def sortAscending (l : List Int) : List Int := l.foldr insertSorted []

/-- The aggregate of exact numbers as a fraction `(numerator, denominator)`: 0 median (mean of the middle two of an
even count), 1 mean, 2 max (45_decoder R398). -/
def aggregateExact (mode : Nat) (l : List Int) : Int × Nat :=
  let n := l.length
  match mode with
  | 0 =>
    let s := sortAscending l
    if n % 2 = 1 then (s.getD (n / 2) 0, 1) else (s.getD (n / 2 - 1) 0 + s.getD (n / 2) 0, 2)
  | 1 => (l.foldl (· + ·) 0, n)
  | _ => (l.foldl max (l.headD 0), 1)

/-- The aggregate of enclosed numbers: every mode rises with each of its arguments, so the bounds aggregate apart. -/
def aggregate (mode : Nat) (l : List Ival) : Ival :=
  let a := aggregateExact mode (l.map Ival.lo)
  let b := aggregateExact mode (l.map Ival.hi)
  ⟨a.1 / (a.2 : Int), ceilDivInt b.1 b.2, l.all Ival.known⟩

/-- Bit `i` of block `j`: 1 when the normal slot's aggregate is less than the inverted slot's, a near-tie free
(45_decoder R401, R405). -/
def bitAt (c : DecodeSetup) (spec : List (List Ival)) (j i : Nat) : Reading :=
  greaterAt (aggregate c.agg (neighbourhood c spec (blockCentre c (2 * j + 2)) i))
    (aggregate c.agg (neighbourhood c spec (blockCentre c (2 * j + 1)) i))

/-- The readings of one decode at precision `p`: the bits, then the SPECBUF elements (45_decoder R391 to R401). -/
def decodeAt (c : DecodeSetup) (x : List Int) (p : Nat) : List Reading :=
  let spec := spectrogram p c x
  ((List.range c.nblk).flatMap fun j => (List.range c.nfreq).map fun i => bitAt c spec j i) ++
    spec.flatMap fun frame => frame.map (f32At p)

/-- What a decode allows: for each bit and for each SPECBUF element the values it may take. -/
structure DecodeChoices where
  bits : List Choices
  spec : List Choices
  deriving DecidableEq, Repr

/-- `decode(x)` (45_decoder R403). On an all-zero buffer every frame is the same: every spectrogram value is 1/NBINS
and every comparison an exact tie, so all bits are 0 (R402, corner cases; notes/assumptions/10.md). -/
def decodeChoices (c : DecodeSetup) (x : List Word) : DecodeChoices :=
  if x.all fun w => f32Fix w = 0 then
    { bits := List.replicate (c.nblk * c.nfreq) (.exactly 0)
      spec := List.replicate (c.frames * c.nbins)
        (.exactly (f32Index firstPrec (fixOne firstPrec / c.nbins : Nat))) }
  else
    let r := settle (decodeAt c (x.map f32Fix))
    { bits := r.take (c.nblk * c.nfreq), spec := r.drop (c.nblk * c.nfreq) }

/-- The bits and the SPECBUF elements of one decode, with the environment after its draws (45_decoder R400, R403). -/
def decodeBuffer (c : DecodeSetup) (x : List Word) (e : Env) : Bits × List Word × Env :=
  let ch := decodeChoices c x
  let bits := drawChoices ch.bits e
  let spec := drawChoices ch.spec bits.2
  (bits.1.map fun v => v == 1, spec.1.map f32Word, spec.2)

/-- DECODE (45_decoder R402). -/
def execDecode (s : State) : Out :=
  if s.listening then raise .busy s
  else if s.cfgValid = false then raise .configError s
  else if s.rbValid = false then raise .noBuffer s
  else
    withRead rbBase s.snapshot fun x =>
      let r := decodeBuffer s.decodeSetup x s.env
      let w := weight s.hw.gen r.1
      finish { s with
        mem := Memory.writeWords (Memory.writeWords s.mem bbufBase (r.1.map bitWord)) specBase r.2.1
        blen := s.derived.msgBits
        crcWeight := BitVec.ofNat 32 w
        crcOk := crcOkFlag w
        env := r.2.2 }

end Sys2Proof.Machine
end

