-- ==== Sys2Proof/Machine/Orchestrator.lean ====
section
/-! DEFINITION. The lifecycle and event commands, the RX agent's step and the TX agent's transition
(46_orchestrator sections 3 to 7). -/

namespace Sys2Proof.Machine

/-- The DECODE_ERROR record of a failed `cap_open` (46_orchestrator R444, R471). -/
def captureErrorEvent : Event := { Event.blank .decodeError with reason := .captureUnavailable }

/-- RX_START (46_orchestrator R444): the zero-fill, the cleared requests, then the answer of `cap_open`. -/
def execRxStart (s : State) : Out :=
  if s.evqFull then raise .busy s
  else if s.rxState = .listening ∨ s.rxState = .cancelled then raise .badState s
  else if s.cfgValid = false then raise .configError s
  else
    let d := drawCapOpen s.env
    let s' := { ringClear s with stopReq := false, cancelReq := false, env := d.2 }
    if d.1 then finish { s' with rxState := .listening, captureOpen := true }
    else finish (emit captureErrorEvent { s' with rbValid := false, rxState := .stopped })

/-- RX_STOP (46_orchestrator R445). -/
def execRxStop (s : State) : Out :=
  match s.rxState with
  | .cancelled => raise .badState s
  | .listening => finish { s with stopReq := true }
  | .initialized => finish s
  | .stopped => finish s

/-- RX_CANCEL (46_orchestrator R446). -/
def execRxCancel (s : State) : Out :=
  match s.rxState with
  | .cancelled => raise .badState s
  | .listening => finish { s with cancelReq := true }
  | .initialized => finish { s with rxState := .cancelled }
  | .stopped => finish { s with rxState := .cancelled }

/-- TX_SEND (46_orchestrator R447): pack, render, hand the buffer to the sink. -/
def execTxSend (s : State) : Out :=
  if s.sending then raise .busy s
  else if s.cfgValid = false then raise .configError s
  else if s.payloadCapNat < s.plenNat then raise .payloadTooLarge s
  else
    withRead pbufBase (s.pbuf s.plenNat) fun p =>
      let q := s.message (packBits s.hw.gen s.nfreqNat s.payloadCapNat p)
      finish { storePcm q s with handoff := some q.1, txState := .sending }

/-- EVQ_POP (46_orchestrator R448). -/
def execEvqPop (s : State) : Out :=
  match s.evq with
  | [] => raise .badState s
  | _ :: rest => finish { s with evq := rest }

/-! ## The RX agent (46_orchestrator section 5) -/

/-- An RX step is enabled: Listening, and two event slots free (46_orchestrator R460). -/
def State.rxEnabled (s : State) : Bool := s.listening && decide (s.evq.length + 2 ≤ s.hw.evqDepth)

/-- `end_session(state)` (46_orchestrator R462). -/
def endSession (r : RxState) (s : State) : State :=
  { s with captureOpen := false, rbValid := false, stopReq := false, cancelReq := false, rxState := r }

/-- The MESSAGE record of a hit (46_orchestrator R465). -/
def messageEvent (ok : Bool) (r : List Byte × Bool) (latency : Word) : Event :=
  { type := .message, crcOk := ok, malformed := r.2, reason := .ok, len := BitVec.ofNat 32 r.1.length,
    latency := latency, payload := r.1 }

/-- The SPECTRUM record of a hit (46_orchestrator R465). -/
def spectrumEvent (ok : Bool) (frames : Word) : Event :=
  { Event.blank .spectrum with crcOk := ok, len := frames }

/-- `decode_and_emit()` on the snapshot `x`, and whether the CRC was correct (46_orchestrator R465). -/
def decodeAndEmit (x : List Word) (s : State) : Bool × State :=
  let r := decodeBuffer s.decodeSetup x s.env
  let w := weight s.hw.gen r.1
  let ok := crcOkFlag w
  let l := drawLatency r.2.2
  let s1 := { s with
    mem := Memory.writeWords (Memory.writeWords s.mem rxbitsBase (r.1.map bitWord)) specBase r.2.1
    rxBlen := s.derived.msgBits
    rxWeight := BitVec.ofNat 32 w
    env := l.2 }
  let s2 := emit (messageEvent ok (unpackBits r.1) l.1) s1
  (ok, if s.ctrlSpectrumEn then emit (spectrumEvent ok s.derived.decFrames) s2 else s2)

/-- After a hit: stop on a correct CRC in normal mode, else start counting steps again (46_orchestrator R466). -/
def afterHit (r : Bool × State) : State :=
  if r.1 ∧ r.2.ctrlContinuous = false then endSession .stopped r.2 else { r.2 with rbSteps := 0 }

/-- The analysis of one RX step, after its `add` (46_orchestrator R462, R464). -/
def analyse (s : State) : Out :=
  if s.rbSteps.toNat < s.derived.syncThresh.toNat then .next s
  else
    withRead rbBase s.snapshot fun o =>
      let r := s.syncOn o
      let s' := { s with env := r.2 }
      if r.1.start ∧ r.1.stop then .next (afterHit (decodeAndEmit o s')) else .next s'

/-- One RX step (46_orchestrator R462): requests first, cancel before stop, then one capture read; a short read ends
the step (R463). It never writes ERR, the sum registers or the sync flags. -/
def rxStep (s : State) : Out :=
  if s.rxEnabled = false then .refused .rxNotEnabled
  else if s.cancelReq then .next (endSession .cancelled s)
  else if s.stopReq then .next (endSession .stopped s)
  else
    let d := drawCapRead s.stepLenNat s.env
    let s' := { s with env := d.2 }
    if s.stepLenNat < d.1.length then .refused .captureTooLong
    else if d.1.length < s.stepLenNat then .next s'
    else analyse (ringAdd (d.1.map sampleF32) s')

/-! ## The TX agent (46_orchestrator section 7) -/

/-- `play_done`: Sending to Idle, PCMBUF and PCMLEN kept (46_orchestrator R480). -/
def playDone (s : State) : Out :=
  if s.sending then .next { s with txState := .idle, handoff := none } else .refused .noPlayback

end Sys2Proof.Machine
end

