-- ==== Sys2Proof/Machine/Dispatch.lean ====
section
/-! DEFINITION. One arm per command: each a direct call of its meaning. -/

namespace Sys2Proof.Machine

/-- The meaning of each command of 30_encoding R173. -/
def exec (i : Instr) (s : State) : Host.Outcome State Fault Refusal :=
  match i with
  | .nop => Sys2Proof.Machine.execNop s
  | .cfgCommit => Sys2Proof.Machine.execCfgCommit s
  | .byteToBits => Sys2Proof.Machine.execByteToBits s
  | .bitsToByte => Sys2Proof.Machine.execBitsToByte s
  | .pack => Sys2Proof.Machine.execPack s
  | .unpack => Sys2Proof.Machine.execUnpack s
  | .split => Sys2Proof.Machine.execSplit s
  | .invert => Sys2Proof.Machine.execInvert s
  | .crcParity => Sys2Proof.Machine.execCrcParity s
  | .crcCheck => Sys2Proof.Machine.execCrcCheck s
  | .rbInit => Sys2Proof.Machine.execRbInit s
  | .rbAdd => Sys2Proof.Machine.execRbAdd s
  | .rbSnapshot => Sys2Proof.Machine.execRbSnapshot s
  | .rbFirst => Sys2Proof.Machine.execRbFirst s
  | .rbLast => Sys2Proof.Machine.execRbLast s
  | .synBlock => Sys2Proof.Machine.execSynBlock s
  | .buildSignal => Sys2Proof.Machine.execBuildSignal s
  | .syncTest => Sys2Proof.Machine.execSyncTest s
  | .decode => Sys2Proof.Machine.execDecode s
  | .rxStart => Sys2Proof.Machine.execRxStart s
  | .rxStop => Sys2Proof.Machine.execRxStop s
  | .rxCancel => Sys2Proof.Machine.execRxCancel s
  | .txSend => Sys2Proof.Machine.execTxSend s
  | .evqPop => Sys2Proof.Machine.execEvqPop s

end Sys2Proof.Machine
end

