-- ==== Sys2Proof/Machine/Bus.lean ====
section
/-! DEFINITION. Host bus accesses: the register map (10_state sections 2 to 6), the regions (20_memory R123), and the
write to CMD that executes a command (30_encoding R179). -/

namespace Sys2Proof.Machine

/-- ID (10_state R41). -/
def idWord : Word := 0x534E5407#32

/-- FILLER (10_state R59). -/
def fillerWord : Word := byteWord fillByte

/-- The register at an offset of 0x000 to 0xFFF; an offset that names no register reads 0 (10_state R68), and so does
CMD (R48). -/
def State.readRegister (s : State) (offset : Nat) : Word :=
  match offset with
  | 0x000 => idWord
  | 0x004 => s.ctrlWord
  | 0x008 => s.statusWord
  | 0x010 => s.arg0
  | 0x014 => s.arg1
  | 0x020 => s.plen
  | 0x024 => s.blen
  | 0x028 => s.nblocks
  | 0x02C => s.pcmlen
  | 0x030 => s.wlen
  | 0x034 => s.crcParity.setWidth 32
  | 0x038 => s.crcWeight
  | 0x03C => byteWord s.byteRes
  | 0x040 => BitVec.ofNat 32 s.evq.length
  | 0x044 => s.headWord Event.typeWord
  | 0x048 => s.headWord Event.len
  | 0x04C => s.headWord Event.latency
  | 0x050 => s.rbWr
  | 0x054 => s.rbSteps
  | 0x058 => s.sumUpFirst
  | 0x05C => s.sumDownFirst
  | 0x060 => s.sumUpLast
  | 0x064 => s.sumDownLast
  | 0x068 => s.hw.gen.setWidth 32
  | 0x06C => fillerWord
  | 0x070 => s.rxBlen
  | 0x074 => s.rxWeight
  | 0x100 => s.profile.f0
  | 0x104 => s.profile.bitMs
  | 0x108 => s.profile.pauseMs
  | 0x10C => s.profile.nblk
  | 0x110 => s.profile.nfreq
  | 0x114 => s.profile.spacing
  | 0x118 => s.profile.fs
  | 0x120 => s.tuning.startFactor
  | 0x124 => s.tuning.endFactor
  | 0x128 => s.tuning.bwOrder
  | 0x12C => s.tuning.stepFactor
  | 0x130 => s.tuning.freqOffset
  | 0x134 => s.tuning.agg
  | 0x138 => s.tuning.fadeDiv
  | 0x180 => s.derived.bitSamples
  | 0x184 => s.derived.pauseSamples
  | 0x188 => s.derived.bpw
  | 0x18C => s.derived.totalBlocks
  | 0x190 => s.derived.rbCap
  | 0x194 => s.derived.payloadCap
  | 0x198 => s.derived.stepLen
  | 0x19C => s.derived.wpb
  | 0x1A0 => s.derived.wpp
  | 0x1A4 => s.derived.syncThresh
  | 0x1A8 => s.derived.decWin
  | 0x1AC => s.derived.decHop
  | 0x1B0 => s.derived.decFrames
  | 0x1B4 => s.derived.binLo
  | 0x1B8 => s.derived.binHi
  | 0x1BC => s.derived.msgBits
  | 0x1C0 => s.derived.pfloor
  | 0x1C4 => s.derived.downCenter
  | 0x1C8 => s.derived.upCenter
  | _ => if 0x400 ≤ offset ∧ offset < 0x800 then s.freq.getD ((offset - 0x400) / 4) 0 else 0

/-- A write to a register other than CMD: the read/write registers of 20_memory R129 store the word; a read-only or
unnamed offset ignores it (10_state R68). -/
def State.writeRegister (s : State) (offset : Nat) (v : Word) : State :=
  match offset with
  | 0x004 => s.writeCtrl v
  | 0x010 => { s with arg0 := v }
  | 0x014 => { s with arg1 := v }
  | 0x020 => { s with plen := v }
  | 0x024 => { s with blen := v }
  | 0x100 => { s with profile := { s.profile with f0 := v } }
  | 0x104 => { s with profile := { s.profile with bitMs := v } }
  | 0x108 => { s with profile := { s.profile with pauseMs := v } }
  | 0x10C => { s with profile := { s.profile with nblk := v } }
  | 0x110 => { s with profile := { s.profile with nfreq := v } }
  | 0x114 => { s with profile := { s.profile with spacing := v } }
  | 0x118 => { s with profile := { s.profile with fs := v } }
  | 0x120 => { s with tuning := { s.tuning with startFactor := v } }
  | 0x124 => { s with tuning := { s.tuning with endFactor := v } }
  | 0x128 => { s with tuning := { s.tuning with bwOrder := v } }
  | 0x12C => { s with tuning := { s.tuning with stepFactor := v } }
  | 0x130 => { s with tuning := { s.tuning with freqOffset := v } }
  | 0x134 => { s with tuning := { s.tuning with agg := v } }
  | 0x138 => { s with tuning := { s.tuning with fadeDiv := v } }
  | _ => s

/-- The regions of the address map (20_memory R123). -/
inductive Region where
  | registers
  | pbuf
  | bbuf
  | ibuf
  | inbuf
  | rb
  | wbuf
  | pcm
  | spec
  | rxbits
  | evdata
  deriving DecidableEq, Repr

/-- The region's first byte address (20_memory R123). -/
def Region.base : Region → Nat
  | .registers => 0
  | .pbuf => pbufBase
  | .bbuf => bbufBase
  | .ibuf => ibufBase
  | .inbuf => inbufBase
  | .rb => rbBase
  | .wbuf => wbufBase
  | .pcm => pcmBase
  | .spec => specBase
  | .rxbits => rxbitsBase
  | .evdata => evdataBase

/-- The region's size in elements, one word each (20_memory R123): RB has its C elements while RB_VALID = 1, EVDATA
as many as the head event's EV_LEN says. With an empty queue there is no head event to size EVDATA by, and 46_orchestrator
R448 has it show 0: DESIGN CHOICE, it then has MAX_PAYLOAD elements (notes/assumptions/29.md). -/
def Region.size (s : State) : Region → Nat
  | .registers => 1024
  | .pbuf => s.hw.maxPayload
  | .bbuf => s.hw.maxBits
  | .ibuf => ibufSize
  | .inbuf => s.hw.maxIn
  | .rb => if s.rbValid then s.rbCapNat else 0
  | .wbuf => s.hw.maxRb
  | .pcm => s.hw.maxPcm
  | .spec => s.hw.maxSpec
  | .rxbits => s.hw.maxBits
  | .evdata =>
    match s.evq with
    | e :: _ => e.len.toNat
    | [] => s.hw.maxPayload

/-- All regions, in the order of their bases. -/
def Region.all : List Region := [.registers, .pbuf, .bbuf, .ibuf, .inbuf, .rb, .wbuf, .pcm, .spec, .rxbits, .evdata]

/-- The byte address `a` lies in the region. -/
def Region.holds (s : State) (a : Nat) (r : Region) : Bool :=
  decide (r.base ≤ a) && decide (a < r.base + 4 * r.size s)

/-- The region a host access goes to: none for an access that is a bus error (20_memory R122). -/
def regionOf (s : State) (width : Nat) (a : Word) : Option Region :=
  if width = 32 ∧ a.toNat % 4 = 0 then Region.all.find? (Region.holds s a.toNat) else none

/-- Element `i` of EVDATA: a byte of the head record's payload (10_state R77; notes/assumptions/16.md), 0 when the
queue is empty (46_orchestrator R448; notes/assumptions/29.md). -/
def State.evdataWord (s : State) (i : Nat) : Option Word :=
  match s.evq with
  | e :: _ => (e.payload[i]?).map byteWord
  | [] => some 0

/-- The word a region holds at a byte address: none where the element has no value (10_state R82). -/
def State.readRegion (s : State) (r : Region) (a : Nat) : Option Word :=
  match r with
  | .registers => some (s.readRegister a)
  | .evdata => s.evdataWord ((a - evdataBase) / 4)
  | _ => (Memory.readWords s.mem a 1).map fun ws => ws.headD 0

/-- `MemRead(a, 4)` (20_memory R121): the word goes to the host and nothing else changes (R130). -/
def busRead (width : Nat) (a : Word) (s : State) : Out :=
  match regionOf s width a with
  | none => .refused .busError
  | some r => withRead a.toNat (s.readRegion r a.toNat) fun v => .next { s with busData := some v }

/-- CMD (10_state R48). -/
def cmdOffset : Nat := 0x00C

/-- Executing a CMD write of word `w` (30_encoding R179). -/
def runCommand (w : Word) (s : State) : Out :=
  match decodeWord w with
  | .ok i => exec i s
  | .error _ => raise .illegalCommand s

/-- A write to a mapped region: the element's own low bits are stored where the host may write (20_memory R124, R129),
else it is ignored. -/
def writeRegion (r : Region) (a : Nat) (v : Word) (s : State) : Out :=
  match r with
  | .registers => if a = cmdOffset then runCommand v s else .next (s.writeRegister a v)
  | .pbuf => .next { s with mem := Memory.writeWords s.mem a [byteWord (wordByte v)] }
  | .bbuf => .next { s with mem := Memory.writeWords s.mem a [bitWord (wordBit v)] }
  | .inbuf => .next { s with mem := Memory.writeWords s.mem a [sampleWord (wordSample v)] }
  | _ => .next s

/-- `MemWrite(a, 4, v)` (20_memory R121). -/
def busWrite (width : Nat) (a v : Word) (s : State) : Out :=
  match regionOf s width a with
  | none => .refused .busError
  | some r => writeRegion r a.toNat v s

end Sys2Proof.Machine
end

