-- ==== Sys2Proof/Machine/Moves.lean ====
section
/-! DEFINITION. One transition of the interleaving (20_memory R134), and the command word placed as the next one. -/

namespace Sys2Proof.Machine

/-- The reset input at a later time (70_reset R550): the reset state of the same core; what the environment still has
to deliver stays (notes/assumptions/22.md). -/
def resetInput (s : State) : State :=
  { State.resetWith s.hw with pending := s.pending, busData := s.busData, env := s.env }

/-- What one move does. -/
def runMove (m : Move) (s : State) : Out :=
  match m with
  | .read width a => busRead width a s
  | .write width a v => busWrite width a v s
  | .rx => rxStep s
  | .rxFault => .refused .noFaultMove
  | .playDone => playDone s
  | .reset => .next (resetInput s)
  | .capOpen ok => .next { s with env := { s.env with capOpen := s.env.capOpen ++ [ok] } }
  | .capRead q => .next { s with env := { s.env with capRead := s.env.capRead ++ [q] } }
  | .phase num den => .next { s with env := { s.env with phases := s.env.phases ++ [(num, den)] } }
  | .pick n => .next { s with env := { s.env with picks := s.env.picks ++ [n] } }
  | .latency v => .next { s with env := { s.env with latency := s.env.latency ++ [v] } }

/-- The next pending move; with none, the core waits (70_reset R551) and nothing changes. -/
def stepPending (s : State) : Out :=
  match s.pending with
  | [] => .next s
  | m :: rest => runMove m { s with pending := rest }

/-- The move that executes a command word: a 32-bit host write to CMD (10_state R48). -/
def commandMove (w : Word) : Move := .write 32 (BitVec.ofNat 32 cmdOffset) w

/-- A command word placed as the very next move. -/
def placeCommand (w : Word) (s : State) : State := { s with pending := commandMove w :: s.pending }

end Sys2Proof.Machine
end

