-- ==== Sys2Proof/Machine/Exact.lean ====
section
/-! DEFINITION. The real and complex numbers the DSP rules define (00_scope R18, "exact real arithmetic"), written as
the rules write them: the band energy of 44_framesync R352 to R354 and the spectrogram of 45_decoder R392 to R394. No
definition of the machine uses them: statements say that the computed bounds hold them (notes/assumptions/9.md). -/

namespace Sys2Proof.Machine

open Finset

/-- The number of a binary32 pattern (00_scope R18; exponent 255: notes/assumptions/23.md). -/
noncomputable def Exact.f32 (w : Word) : ℝ :=
  let e := (w.extractLsb' 23 8).toNat
  let m := (w.extractLsb' 0 23).toNat
  (if w.getLsbD 31 then -1 else 1) *
    (if e = 0 then (m : ℝ) / 2 ^ 149 else (1 + (m : ℝ) / 2 ^ 23) * 2 ^ ((e : ℤ) - 127))

/-! ## The band-pass filter (44_framesync R352) -/

/-- `Ω = 2 fs tan(π f / fs)`: `Ωl` and `Ωh`. -/
noncomputable def Exact.warp (fs f : ℕ) : ℝ := 2 * fs * Real.tan (Real.pi * f / fs)

/-- `Ω0 = sqrt(Ωl Ωh)`. -/
noncomputable def Exact.centre (fs fl fh : ℕ) : ℝ := Real.sqrt (Exact.warp fs fl * Exact.warp fs fh)

/-- `Bw = Ωh - Ωl`. -/
noncomputable def Exact.width (fs fl fh : ℕ) : ℝ := Exact.warp fs fh - Exact.warp fs fl

/-- `p_m = exp(jπ (2m + n + 1) / (2n))`. -/
noncomputable def Exact.prototype (n m : ℕ) : ℂ :=
  Complex.exp ((Real.pi * (2 * m + n + 1) / (2 * n) : ℝ) * Complex.I)

/-- `s_{m,±} = p_m Bw/2 ± sqrt((p_m Bw/2)^2 - Ω0^2)`. -/
noncomputable def Exact.analogPole (fs n fl fh m : ℕ) (plus : Bool) : ℂ :=
  let b := Exact.prototype n m * Exact.width fs fl fh / 2
  let r := (b ^ 2 - (Exact.centre fs fl fh : ℂ) ^ 2) ^ (1 / 2 : ℂ)
  if plus then b + r else b - r

/-- `z_r = (2 fs + s_r) / (2 fs - s_r)`. -/
noncomputable def Exact.digitalPole (fs n fl fh m : ℕ) (plus : Bool) : ℂ :=
  (2 * fs + Exact.analogPole fs n fl fh m plus) / (2 * fs - Exact.analogPole fs n fl fh m plus)

/-- `k = Bw^n (2 fs)^n / Π_r (2 fs - s_r)`. -/
noncomputable def Exact.gain (fs n fl fh : ℕ) : ℂ :=
  (Exact.width fs fl fh : ℂ) ^ n * (2 * fs) ^ n /
    ∏ m ∈ range n, ∏ b : Bool, (2 * fs - Exact.analogPole fs n fl fh m b)

/-- `H(z) = k (1 - z^-2)^n / Π_r (1 - z_r z^-1)` as a power series in `X = z^-1`. -/
noncomputable def Exact.transfer (fs n fl fh : ℕ) : PowerSeries ℂ :=
  PowerSeries.C (Exact.gain fs n fl fh) * (1 - PowerSeries.X ^ 2) ^ n *
    (∏ m ∈ range n, ∏ b : Bool, (1 - PowerSeries.C (Exact.digitalPole fs n fl fh m b) * PowerSeries.X))⁻¹

/-- `bpf(w; fl, fh)[i]`: the causal filter from zero state, applied once forward. The coefficient is real, since the
poles are closed under conjugation. -/
noncomputable def Exact.filter (fs n fl fh : ℕ) (w : List Word) (i : ℕ) : ℝ :=
  (PowerSeries.coeff i
    (Exact.transfer fs n fl fh * PowerSeries.mk fun j => (((w.map Exact.f32).getD j 0 : ℝ) : ℂ))).re

/-! ## Envelope and energy (44_framesync R353, R354) -/

/-- `Y[k]`. -/
noncomputable def Exact.spectrum (y : ℕ → ℝ) (l k : ℕ) : ℂ :=
  ∑ n ∈ range l, (y n : ℂ) * Complex.exp ((-(2 * Real.pi * k * n / l) : ℝ) * Complex.I)

/-- `h[k]`. -/
def Exact.analyticWeight (l k : ℕ) : ℕ := if k = 0 then 1 else if 2 * k < l then 2 else if 2 * k = l then 1 else 0

/-- `a[n]`, the analytic signal. -/
noncomputable def Exact.analytic (y : ℕ → ℝ) (l n : ℕ) : ℂ :=
  1 / l * ∑ k ∈ range l,
    (Exact.analyticWeight l k : ℂ) * Exact.spectrum y l k * Complex.exp ((2 * Real.pi * k * n / l : ℝ) * Complex.I)

/-- `energy(w, band)`. -/
noncomputable def Exact.energy (fs n fl fh : ℕ) (w : List Word) : ℝ :=
  ∑ i ∈ range w.length, ‖Exact.analytic (Exact.filter fs n fl fh w) w.length i‖

/-! ## The spectrogram (45_decoder R391 to R394) -/

/-- `w[n]`, the symmetric Hamming window. -/
noncomputable def Exact.hamming (wd n : ℕ) : ℝ := 0.54 - 0.46 * Real.cos (2 * Real.pi * n / (wd - 1))

/-- `m_f[k]`. -/
noncomputable def Exact.magnitude (c : DecodeSetup) (x : List Word) (f k : ℕ) : ℝ :=
  ‖∑ n ∈ range c.wd, (Exact.hamming c.wd n : ℂ) * ((x.map Exact.f32).getD (f * c.hop + n) 0 : ℝ) *
    Complex.exp ((-(2 * Real.pi * k * n / c.wd) : ℝ) * Complex.I)‖ / c.wd

/-- `v_f[k]`. -/
noncomputable def Exact.logMagnitude (c : DecodeSetup) (x : List Word) (f k : ℕ) : ℝ :=
  Real.log (Exact.magnitude c x f k + 1 / 10 ^ 10)

/-- `spec[f][k]`. -/
noncomputable def Exact.spec (c : DecodeSetup) (x : List Word) (f k : ℕ) : ℝ :=
  let sum := ∑ j ∈ Icc c.binLo c.binHi, Exact.logMagnitude c x f j
  if sum ≠ 0 then Exact.logMagnitude c x f k / sum else 0

end Sys2Proof.Machine
end

