-- ==== Sys2Proof/Safety.lean ====
section
/-! DEFINITION. What claims about runs are stated in: the invariants of the machine (10_state, 46_orchestrator R440),
the bytes a store reaches, and a transition that completes. -/

namespace Sys2Proof.Machine

/-- The transition answers a next state of which `P` holds. -/
def Completes (o : Out) (P : State → Prop) : Prop := ∃ t, o = .next t ∧ P t

/-- `k` is a byte address outside the `n` elements stored from `base` on. -/
def Outside (base n k : Nat) : Prop := k < base ∨ base + 4 * n ≤ k

/-- Every byte outside the `n` elements from `base` on reads in `t` as it did in `s`. -/
def BytesKept (s t : State) (base n : Nat) : Prop :=
  ∀ k, Outside base n k → Memory.readByte t.mem k = Memory.readByte s.mem k

/-- The agents and the ports agree (46_orchestrator R440, R462; 20_memory R150, R153; 10_state R81): the capture
source is open exactly while Listening, requests stand only while Listening, a playback is pending exactly while
Sending, the queue holds at most EVQ_DEPTH records. -/
structure AgentInv (s : State) : Prop where
  captureOpen : s.captureOpen = s.listening
  requests : s.stopReq = true ∨ s.cancelReq = true → s.listening = true
  handoff : s.handoff.isSome = s.sending
  listeningBuffer : s.listening = true → s.rbValid = true
  bufferConfig : s.rbValid = true → s.cfgValid = true
  queue : s.evq.length ≤ s.hw.evqDepth
  syncOrder : s.syncEnd = true → s.syncStart = true

/-- The active configuration is a valid one and the derived registers and FREQ show it; without one they are 0
(10_state R63, R67, R70, R71; 46_orchestrator R441, R442). -/
structure ConfigInv (s : State) : Prop where
  params : s.hw.wellFormed = true
  valid : s.cfgValid = true → configValid s.hw s.activeProfile s.activeTuning = true
  derived : s.derived = if s.cfgValid then (quantities s.activeProfile s.activeTuning).derived else .zero
  freq : s.freq = if s.cfgValid then freqTable s.activeProfile else List.replicate 256 0

/-- While RB_VALID = 1 the ring buffer holds C elements, each the binary32 value of an int16 sample, and the write
cursor lies inside it (10_state R66, R74, R75). -/
def RingInv (s : State) : Prop :=
  s.rbValid = true → s.rbWr.toNat < s.rbCapNat ∧ ∃ x : List Sample, x.length = s.rbCapNat ∧ s.rb = some (x.map sampleF32)

/-- What the sink plays is PCMBUF[0..PCMLEN) (20_memory R153, R154). -/
def PlaybackInv (s : State) : Prop :=
  ∀ q, s.handoff = some q →
    q.length ≤ s.hw.maxPcm ∧ q.length = s.pcmlen.toNat ∧
      Memory.readWords s.mem pcmBase q.length = some (q.map sampleWord)

/-! ## The conditions of the error codes, one class at a time (46_orchestrator R449, 60_exceptions R501) -/

/-- The BUSY column of 46_orchestrator R449. -/
def busyWhen (s : State) : Instr → Bool
  | .rbInit | .rbAdd | .rbSnapshot | .rbFirst | .rbLast | .syncTest | .decode => s.rxState == .listening
  | .synBlock | .buildSignal | .txSend => s.txState == .sending
  | .cfgCommit => s.rxState == .listening || s.txState == .sending
  | .rxStart => s.evq.length == s.hw.evqDepth
  | .nop | .byteToBits | .bitsToByte | .pack | .unpack | .split | .invert | .crcParity | .crcCheck | .rxStop
  | .rxCancel | .evqPop => false

/-- BAD_STATE: the command is not allowed in the current agent state, or the event queue is empty. -/
def badStateWhen (s : State) : Instr → Bool
  | .rxStart => s.rxState == .listening || s.rxState == .cancelled
  | .rxStop | .rxCancel => s.rxState == .cancelled
  | .evqPop => s.evq.isEmpty
  | _ => false

/-- CONFIG_ERROR: the commands that need an active configuration, and a commit that fails validation. -/
def configErrorWhen (s : State) : Instr → Bool
  | .pack | .split | .invert | .rbInit | .synBlock | .buildSignal | .syncTest | .decode | .rxStart | .txSend =>
    !s.cfgValid
  | .cfgCommit => !configValid s.hw s.profile s.tuning
  | _ => false

/-- NO_BUFFER: the commands that need a ring buffer. -/
def noBufferWhen (s : State) : Instr → Bool
  | .rbAdd | .rbSnapshot | .rbFirst | .rbLast | .syncTest | .decode => !s.rbValid
  | _ => false

/-- The block index `j` names no block of BBUF[0..BLEN), or BLEN exceeds BBUF. -/
def noSuchBlock (s : State) (j : Nat) : Bool :=
  decide (s.hw.maxBits < s.blen.toNat) || decide (ceilDiv s.blen.toNat s.nfreqNat ≤ j)

/-- BAD_ARGUMENT: an operand is out of range. -/
def badArgumentWhen (s : State) : Instr → Bool
  | .bitsToByte => decide (s.blen.toNat < 8) || decide (s.hw.maxBits < s.blen.toNat)
  | .unpack | .crcParity | .crcCheck => decide (s.hw.maxBits < s.blen.toNat)
  | .split =>
    decide (s.hw.maxBits < s.blen.toNat) ||
      decide (s.hw.maxBits < ceilDiv s.blen.toNat s.nfreqNat * s.nfreqNat)
  | .invert => noSuchBlock s s.arg0.toNat
  | .rbAdd => decide (s.hw.maxIn < s.arg0.toNat)
  | .rbFirst | .rbLast => decide (s.rbCapNat < s.arg0.toNat)
  | .synBlock => decide (5 < s.arg0.toNat) || (decide (s.arg0.toNat < 2) && noSuchBlock s s.arg1.toNat)
  | .buildSignal =>
    decide (s.hw.maxBits < s.blen.toNat) ||
      decide (s.hw.maxPcm < msgLength s.derived.bitSamples.toNat s.derived.pauseSamples.toNat
        (ceilDiv s.blen.toNat s.nfreqNat))
  | _ => false

/-- PAYLOAD_TOO_LARGE: PLEN > K. -/
def tooLargeWhen (s : State) : Instr → Bool
  | .pack | .txSend => decide (s.payloadCapNat < s.plen.toNat)
  | _ => false

/-- The first condition that holds, in the order of 60_exceptions R506. -/
def firstError (s : State) (i : Instr) : Option ErrCode :=
  if busyWhen s i then some .busy
  else if badStateWhen s i then some .badState
  else if configErrorWhen s i then some .configError
  else if noBufferWhen s i then some .noBuffer
  else if badArgumentWhen s i then some .badArgument
  else if tooLargeWhen s i then some .payloadTooLarge
  else none

/-! ## The register map as lists (10_state sections 2 to 6, 20_memory R129) -/

/-- The read/write registers but CMD (20_memory R129). -/
def writableOffsets : List Nat :=
  [0x004, 0x010, 0x014, 0x020, 0x024, 0x100, 0x104, 0x108, 0x10C, 0x110, 0x114, 0x118, 0x120, 0x124, 0x128, 0x12C,
    0x130, 0x134, 0x138]

/-- The offsets that name a register, but FREQ. -/
def namedOffsets : List Nat :=
  writableOffsets ++
    [0x000, 0x008, 0x00C, 0x028, 0x02C, 0x030, 0x034, 0x038, 0x03C, 0x040, 0x044, 0x048, 0x04C, 0x050, 0x054, 0x058,
      0x05C, 0x060, 0x064, 0x068, 0x06C, 0x070, 0x074] ++
    (List.range 19).map fun i => 0x180 + 4 * i

/-! ## What an enclosure and a choice say (Numeric.lean) -/

/-- The bounds at precision `p` hold `x`. -/
def Ival.Holds (p : Nat) (x : ℝ) (a : Ival) : Prop :=
  a.known = true → (a.lo : ℝ) ≤ x * 2 ^ p ∧ x * 2 ^ p ≤ (a.hi : ℝ)

/-- The disc at precision `p` holds `z`. -/
def Disc.Holds (p : Nat) (z : ℂ) (a : Disc) : Prop :=
  a.known = true → ‖z * 2 ^ p - ((a.re : ℂ) + (a.im : ℂ) * Complex.I)‖ ≤ (a.rad : ℝ)

/-- The outcome `n` is one of those allowed. -/
def Choices.Allows (c : Choices) (n : Int) : Prop := c.base ≤ n ∧ n ≤ c.base + c.span

/-- What the rules allow `decode(x)` to answer, read off the bounds at some precision: a bit is 1 exactly where the
aggregate of the normal slot `2j + 1` is less than that of the inverted slot `2j + 2`, a near-tie free (45_decoder R401,
R405), and element `f NBINS + b` of the spectrogram is a binary32 value within one unit of `spec[f][BIN_LO + b]` (R400,
93 I7). -/
def DecodeAllowed (c : DecodeSetup) (x : List Word) (bits : Bits) (spec : List Word) : Prop :=
  ∃ p, firstPrec ≤ p ∧
    let sp := spectrogram p c (x.map f32Fix)
    let agg (t i : Nat) : Ival := aggregate c.agg (neighbourhood c sp (blockCentre c t) i)
    (∀ j < c.nblk, ∀ i < c.nfreq, ∃ b, bits[j * c.nfreq + i]? = some b ∧
      (greaterAt (agg (2 * j + 2) i) (agg (2 * j + 1) i)).choices.Allows b.toNat) ∧
    ∀ f < c.frames, ∀ b < c.nbins, ∃ n, spec[f * c.nbins + b]? = some (f32Word n) ∧
      (f32At p ((sp.getD f []).getD b .zero)).choices.Allows n

/-- The part of a turn whose binary digits are those of the `n`-th free phase (43_synth R324). -/
noncomputable def freeTurn (n : Nat) : ℝ := ∑' k, ((Config.freePhase n k).toNat : ℝ) / 2 ^ (k + 1)

/-- The phase a draw stands for (43_synth R324). -/
noncomputable def Phase.angle : Phase → ℝ
  | .named num den => 2 * Real.pi * num / (max 1 den : Nat)
  | .free n => 2 * Real.pi * freeTurn n

end Sys2Proof.Machine
end

