-- ==== Sys2Proof/Certificates/Slice0/Obligations.lean ====
section
/-! DEFINITION. The statements for the provers, each from the rules of spec/ its docstring names. A state is written
`{ s with f := t.f }` where a command changes the field `f` and nothing else: that is its frame. -/

open Sys2Proof Sys2Proof.Machine

/-! ## Encoding (30_encoding) -/

/-- Decoding a command word gives it back, whatever bytes follow, and a word that decodes to a command is that
command's word: no bit of a command word is dropped (30_encoding R170, R173, R176). -/
def Obligations.DecodeEncodeAgree : Prop :=
  (∀ (i : Instr) (rest : List Byte), i.wellFormed = true →
    decodeBytes (wordBytes (encode i) ++ rest) = some (.ok i, rest)) ∧
  ∀ (w : Word) (i : Instr), decodeWord w = .ok i → w = encode i

/-- A word with `RSV ≠ 0` or with a reserved opcode raises ILLEGAL_COMMAND and changes nothing but ERR; every other word
runs its command; the reserved values are those no command has (30_encoding R171, R174). -/
def Obligations.IllegalWords : Prop :=
  (∀ n < 256, reservedOpcode n = true ↔ ∀ i : Instr, i.opcode.toNat ≠ n) ∧
  (∀ (s : State) (w : Word), w.extractLsb' 8 24 ≠ 0#24 ∨ reservedOpcode (w.extractLsb' 0 8).toNat = true →
    busWrite 32 0x0000000C#32 w s = .next { s with err := .illegalCommand }) ∧
  ∀ (s : State) (w : Word), w.extractLsb' 8 24 = 0#24 → reservedOpcode (w.extractLsb' 0 8).toNat = false →
    ∃ i, decodeWord w = .ok i ∧ busWrite 32 0x0000000C#32 w s = exec i s

/-- Words written out from the opcode map (30_encoding R173) decode to their commands. -/
def Obligations.TableWordsDecode : Prop :=
  decodeWord 0x00000000#32 = .ok .nop ∧ decodeWord 0x00000012#32 = .ok .pack ∧
  decodeWord 0x00000021#32 = .ok .crcCheck ∧ decodeWord 0x00000031#32 = .ok .rbAdd ∧
  decodeWord 0x00000041#32 = .ok .buildSignal ∧ decodeWord 0x00000050#32 = .ok .syncTest ∧
  decodeWord 0x00000060#32 = .ok .decode ∧ decodeWord 0x00000070#32 = .ok .rxStart ∧
  decodeWord 0x0000007F#32 = .ok .evqPop ∧ decodeWord 0x0000007E#32 = .error .unassignedOpcode ∧
  decodeWord 0x00000112#32 = .error .reservedBits

/-- One step takes the head of the pending interleaving (the model's own form of 20_memory R134, notes/assumptions/2.md);
where it is a write to CMD of a word that decodes, the step is the command (10_state R48, 30_encoding R179); with
nothing pending the core waits. -/
def Obligations.StepRunsCommand : Prop :=
  (∀ (s : State) (m : Move) (rest : List Move), s.pending = m :: rest → step s = runMove m { s with pending := rest }) ∧
  (∀ (s : State) (w : Word) (i : Instr) (rest : List Move), s.pending = .write 32 0x0000000C#32 w :: rest →
    decodeWord w = .ok i → step s = exec i { s with pending := rest }) ∧
  (∀ (s : State) (i : Instr), step (s.withFetchWord 8 i.opcode.toNat) = exec i s) ∧
  ∀ s : State, s.pending = [] → step s = .next s

/-! ## Reset and the invariants -/

/-- The state after reset, register by register, hidden state, ports and buffers, for every value of the hardware
parameters; the reset input at a later time returns the core to the same state (70_reset R550). -/
def Obligations.ResetValues : Prop :=
  (∀ hw : Params,
    (∀ p ∈ ([(0x000, 0x534E5407#32), (0x004, 0), (0x008, 0), (0x00C, 0), (0x010, 0), (0x014, 0), (0x020, 0), (0x024, 0),
        (0x028, 0), (0x02C, 0), (0x030, 0), (0x034, 0), (0x038, 0), (0x03C, 0), (0x040, 0), (0x044, 0), (0x048, 0),
        (0x04C, 0), (0x050, 0), (0x054, 0), (0x058, 0), (0x05C, 0), (0x060, 0), (0x064, 0), (0x06C, 0x19#32),
        (0x070, 0), (0x074, 0), (0x100, 0), (0x104, 0), (0x108, 0), (0x10C, 0), (0x110, 0), (0x114, 0), (0x118, 0),
        (0x120, 0x40000000#32), (0x124, 0x40000000#32), (0x128, 8), (0x12C, 8), (0x130, 50), (0x134, 0), (0x138, 3),
        (0x068, hw.gen.setWidth 32)] : List (Nat × Word)), (State.resetWith hw).readRegister p.1 = p.2) ∧
    (∀ i < 19, (State.resetWith hw).readRegister (0x180 + 4 * i) = 0) ∧
    (∀ i < 256, (State.resetWith hw).readRegister (0x400 + 4 * i) = 0) ∧
    (State.resetWith hw).cfgValid = false ∧ (State.resetWith hw).rxState = .initialized ∧
    (State.resetWith hw).txState = .idle ∧ (State.resetWith hw).evq = [] ∧
    (State.resetWith hw).captureOpen = false ∧ (State.resetWith hw).handoff = none ∧
    ∀ a, Memory.readByte (State.resetWith hw).mem a = none) ∧
  ∀ s : State, ∃ t, runMove .reset s = .next t ∧
    t = { State.resetWith s.hw with pending := t.pending, busData := t.busData, env := t.env }

/-- After reset the core waits: no agent step is enabled and the interrupt line is low (70_reset R551). -/
def Obligations.ResetWaits : Prop :=
  ∀ hw : Params,
    step (State.resetWith hw) = .next (State.resetWith hw) ∧
    rxStep (State.resetWith hw) = .refused .rxNotEnabled ∧ playDone (State.resetWith hw) = .refused .noPlayback ∧
    (State.resetWith hw).irq = false ∧ (State.resetWith hw).ctrlIrqEn = false

/-- Every invariant below holds after reset of every core whose parameters keep their constraints (00_scope R12,
20_memory R123), the reference parameters among them, with which State.reset is built: the model's choice,
notes/assumptions/1.md. -/
def Obligations.InvariantsAtReset : Prop :=
  Params.reference.wellFormed = true ∧ State.reset = State.resetWith Params.reference ∧
  ∀ hw : Params, hw.wellFormed = true →
    Memory.wf (State.resetWith hw).mem ∧ AgentInv (State.resetWith hw) ∧ ConfigInv (State.resetWith hw) ∧
      RingInv (State.resetWith hw) ∧ PlaybackInv (State.resetWith hw)

/-- Every step keeps the canonical form of memory. -/
def Obligations.StepKeepsMemoryForm : Prop :=
  ∀ s t : State, Memory.wf s.mem → step s = .next t → Memory.wf t.mem

/-- Every step keeps the agents, the ports and the event queue in agreement: the capture source is open exactly while
Listening, requests stand only while Listening, a playback is pending exactly while Sending, a session has its buffer
and a buffer its configuration, no event is dropped for want of a slot, SYNC_END implies SYNC_START (46_orchestrator
R440, R460, R462, R470, R480; 44_framesync R358). -/
def Obligations.StepKeepsAgents : Prop :=
  ∀ s t : State, AgentInv s → step s = .next t → AgentInv t

/-- Every step keeps the active configuration valid and the derived registers and FREQ its image (10_state R63, R67,
R71; 46_orchestrator R441, R442). -/
def Obligations.StepKeepsConfiguration : Prop :=
  ∀ s t : State, ConfigInv s → step s = .next t → ConfigInv t

/-- Every step keeps the ring buffer whole while it exists: C elements, each the binary32 value of an int16 sample, and
the write cursor below C (10_state R66, R74, R75). No store to another buffer reaches it (20_memory R123). -/
def Obligations.StepKeepsRing : Prop :=
  ∀ s t : State, Memory.wf s.mem → AgentInv s → ConfigInv s → RingInv s → step s = .next t → RingInv t

/-- Every step keeps PCMBUF what the sink was handed, from `play` to `play_done` (20_memory R132, R153, R154). -/
def Obligations.StepKeepsPlayback : Prop :=
  ∀ s t : State, Memory.wf s.mem → AgentInv s → ConfigInv s → PlaybackInv s → step s = .next t → PlaybackInv t

/-! ## Rules of the whole machine -/

/-- ID, CRC_GEN and FILLER have one value at all times and ignore writes (10_state R41, R58, R59). -/
def Obligations.Constants : Prop :=
  (∀ s : State,
    (s.readRegister 0x000).extractLsb' 8 24 = 0x534E54#24 ∧ (s.readRegister 0x000).extractLsb' 0 8 = 0x07#8 ∧
    (s.readRegister 0x068).extractLsb' 0 17 = s.hw.gen ∧ (s.readRegister 0x068).extractLsb' 17 15 = 0#15 ∧
    (s.readRegister 0x06C).extractLsb' 0 8 = 0x19#8 ∧ (s.readRegister 0x06C).extractLsb' 8 24 = 0#24 ∧
    ∀ v, ∀ a ∈ [0x000#32, 0x068#32, 0x06C#32], busWrite 32 a v s = .next s) ∧
  ∀ s t : State, step s = .next t → t.hw = s.hw

/-- ERR is the code of the most recent command: every command overwrites it whatever it held, and no RX step, TX
transition or host access other than a write to CMD changes it (10_state R47). -/
def Obligations.ErrOverwritten : Prop :=
  (∀ (i : Instr) (s : State) (e : ErrCode), exec i { s with err := e } = exec i s) ∧
  (∀ (s t : State) (m : Move) (rest : List Move), s.pending = m :: rest → step s = .next t → m ≠ .reset →
    (∀ w, m ≠ .write 32 0x0000000C#32 w) → t.err = s.err) ∧
  (∀ s : State, (s.readRegister 0x008).extractLsb' 8 8 = s.err.byte) ∧
  (∀ e : ErrCode, e.byte = 0x00#8 ↔ e = .ok) ∧ ∀ hw, (State.resetWith hw).err = .ok

/-- A command that raises changes ERR and nothing else, so it leaves every flag as it was; every other command that
completes ends with ERR = OK (60_exceptions R503, R504). -/
def Obligations.RaiseIsPrecise : Prop :=
  (∀ (c : ErrCode) (s : State), raise c s = .next { s with err := c }) ∧
  ∀ (i : Instr) (s t : State), exec i s = .next t → t.err = .ok ∨ t = { s with err := t.err }

/-- The shared gating and the priority of the codes: a command raises the first condition that holds, and where none
holds it completes with OK or stops at an operand nothing has written (46_orchestrator R449, 60_exceptions R506). -/
def Obligations.ErrorPriority : Prop :=
  ∀ (i : Instr) (s : State),
    (∀ c, firstError s i = some c → exec i s = .next { s with err := c }) ∧
    (firstError s i = none →
      (∃ t, exec i s = .next t ∧ t.err = .ok) ∨ ∃ a, exec i s = .fault (.unwrittenElement a))

/-- ARG0 and ARG1: only the host writes them; no command and no agent does (10_state R43). -/
def Obligations.ArgsHostOnly : Prop :=
  (∀ (s : State) (v : Word), busWrite 32 0x00000010#32 v s = .next { s with arg0 := v } ∧
    busWrite 32 0x00000014#32 v s = .next { s with arg1 := v } ∧
    s.readRegister 0x010 = s.arg0 ∧ s.readRegister 0x014 = s.arg1) ∧
  (∀ (i : Instr) (s t : State), exec i s = .next t → t.arg0 = s.arg0 ∧ t.arg1 = s.arg1) ∧
  (∀ (s t : State) (m : Move) (rest : List Move), s.pending = m :: rest → step s = .next t → m ≠ .reset →
    ((∀ v, m ≠ .write 32 0x00000010#32 v) → t.arg0 = s.arg0) ∧
    ((∀ v, m ≠ .write 32 0x00000014#32 v) → t.arg1 = s.arg1)) ∧
  ∀ hw, (State.resetWith hw).arg0 = 0 ∧ (State.resetWith hw).arg1 = 0

/-- Each STATUS flag is written only by the commands named for it, and nothing the core does depends on a flag: from
states that differ in flags alone a command does the same and writes its own flags the same, the others keep their
values, and an RX step does the same and keeps all five (10_state R46, R73). -/
def Obligations.FlagsWrittenAndRead : Prop :=
  (∀ (i : Instr) (s t : State), exec i s = .next t →
    (i ≠ .unpack → t.warnMalformed = s.warnMalformed) ∧ (i ≠ .split → t.partialBlock = s.partialBlock) ∧
    (i ≠ .crcCheck → i ≠ .decode → t.crcOk = s.crcOk) ∧
    (i ≠ .syncTest → t.syncStart = s.syncStart ∧ t.syncEnd = s.syncEnd)) ∧
  (∀ (s t : State) (m : Move) (rest : List Move), s.pending = m :: rest → step s = .next t → m ≠ .reset →
    (∀ w, m ≠ .write 32 0x0000000C#32 w) →
    t.warnMalformed = s.warnMalformed ∧ t.partialBlock = s.partialBlock ∧ t.crcOk = s.crcOk ∧
      t.syncStart = s.syncStart ∧ t.syncEnd = s.syncEnd) ∧
  (∀ (i : Instr) (s : State) (f1 f2 f3 f4 f5 : Bool),
    match exec i s with
    | .next t =>
      exec i { s with warnMalformed := f1, partialBlock := f2, crcOk := f3, syncStart := f4, syncEnd := f5 } =
        .next { t with
          warnMalformed := if i = .unpack ∧ t.err = .ok then t.warnMalformed else f1
          partialBlock := if i = .split ∧ t.err = .ok then t.partialBlock else f2
          crcOk := if (i = .crcCheck ∨ i = .decode) ∧ t.err = .ok then t.crcOk else f3
          syncStart := if i = .syncTest ∧ t.err = .ok then t.syncStart else f4
          syncEnd := if i = .syncTest ∧ t.err = .ok then t.syncEnd else f5 }
    | o => exec i { s with warnMalformed := f1, partialBlock := f2, crcOk := f3, syncStart := f4, syncEnd := f5 } = o) ∧
  (∀ (s : State) (f1 f2 f3 f4 f5 : Bool),
    match rxStep s with
    | .next t =>
      rxStep { s with warnMalformed := f1, partialBlock := f2, crcOk := f3, syncStart := f4, syncEnd := f5 } =
        .next { t with warnMalformed := f1, partialBlock := f2, crcOk := f3, syncStart := f4, syncEnd := f5 }
    | o => rxStep { s with warnMalformed := f1, partialBlock := f2, crcOk := f3, syncStart := f4, syncEnd := f5 } = o) ∧
  ∀ hw, (State.resetWith hw).warnMalformed = false ∧ (State.resetWith hw).partialBlock = false ∧
    (State.resetWith hw).crcOk = false ∧ (State.resetWith hw).syncStart = false ∧ (State.resetWith hw).syncEnd = false

/-- Who writes the result registers, the configuration, the buffers and the sessions' state (the requests, the capture
source and the hand-off among it): each changes only by the commands its rule names, an RX step writes none but those
of its own agent, and `play_done` only TX's own (10_state R46, R49 to R57, R63, R65, R71, R81). -/
def Obligations.RegisterWriters : Prop :=
  (∀ (i : Instr) (s t : State), exec i s = .next t →
    (i ≠ .unpack → t.plen = s.plen) ∧
    (i ∉ [Instr.pack, .byteToBits, .decode] → t.blen = s.blen) ∧
    (i ≠ .split → t.nblocks = s.nblocks) ∧
    (i ∉ [Instr.synBlock, .buildSignal, .txSend] → t.pcmlen = s.pcmlen) ∧
    (i ∉ [Instr.rbSnapshot, .rbFirst, .rbLast] → t.wlen = s.wlen) ∧
    (i ≠ .crcParity → t.crcParity = s.crcParity) ∧
    (i ∉ [Instr.crcCheck, .decode] → t.crcWeight = s.crcWeight) ∧
    (i ≠ .bitsToByte → t.byteRes = s.byteRes) ∧
    (t.rxBlen = s.rxBlen ∧ t.rxWeight = s.rxWeight) ∧
    (i ≠ .syncTest → t.sumUpFirst = s.sumUpFirst ∧ t.sumDownFirst = s.sumDownFirst ∧ t.sumUpLast = s.sumUpLast ∧
      t.sumDownLast = s.sumDownLast) ∧
    (i ∉ [Instr.rbInit, .rbAdd, .rxStart] → t.rbWr = s.rbWr ∧ t.rbSteps = s.rbSteps) ∧
    (i ∉ [Instr.rbInit, .rxStart, .cfgCommit] → t.rbValid = s.rbValid) ∧
    (i ≠ .cfgCommit → t.cfgValid = s.cfgValid ∧ t.derived = s.derived ∧ t.freq = s.freq ∧
      t.activeProfile = s.activeProfile ∧ t.activeTuning = s.activeTuning) ∧
    (i ∉ [Instr.rxStart, .rxCancel] → t.rxState = s.rxState) ∧ (i ≠ .txSend → t.txState = s.txState) ∧
    (i ∉ [Instr.rxStart, .evqPop] → t.evq = s.evq) ∧
    (i ∉ [Instr.rxStart, .rxStop] → t.stopReq = s.stopReq) ∧
    (i ∉ [Instr.rxStart, .rxCancel] → t.cancelReq = s.cancelReq) ∧
    (i ≠ .rxStart → t.captureOpen = s.captureOpen) ∧ (i ≠ .txSend → t.handoff = s.handoff) ∧
    (i ∉ [Instr.byteToBits, .pack, .unpack, .split, .invert, .rbInit, .rbAdd, .rbSnapshot, .rbFirst, .rbLast, .synBlock,
      .buildSignal, .decode, .rxStart, .txSend] → t.mem = s.mem) ∧
    (i ∉ [Instr.synBlock, .buildSignal, .syncTest, .decode, .rxStart, .txSend] → t.env = s.env) ∧
    t.profile = s.profile ∧ t.tuning = s.tuning ∧ t.ctrlContinuous = s.ctrlContinuous ∧
    t.ctrlSpectrumEn = s.ctrlSpectrumEn ∧ t.ctrlIrqEn = s.ctrlIrqEn ∧ t.hw = s.hw ∧ t.pending = s.pending ∧
    t.busData = s.busData) ∧
  (∀ s t : State, playDone s = .next t → t = { s with txState := t.txState, handoff := t.handoff }) ∧
  ∀ s t : State, rxStep s = .next t →
    t = { s with
      rbWr := t.rbWr, rbSteps := t.rbSteps, rbValid := t.rbValid, stopReq := t.stopReq, cancelReq := t.cancelReq,
      rxState := t.rxState, captureOpen := t.captureOpen, rxBlen := t.rxBlen, rxWeight := t.rxWeight, evq := t.evq,
      mem := t.mem, env := t.env }

/-- Configuration changes take effect only at CFG_COMMIT: from states that differ in the live profile and tuning
registers alone, every other command, an RX step and `play_done` do the same; CFG_COMMIT is BUSY while Listening or
Sending, and after a commit RB_ADD finds no buffer (70_reset R561, 10_state R63). -/
def Obligations.LiveRegistersInert : Prop :=
  (∀ (i : Instr) (s : State) (p : Profile) (u : Tuning), i ≠ .cfgCommit →
    match exec i s with
    | .next t => exec i { s with profile := p, tuning := u } = .next { t with profile := p, tuning := u }
    | o => exec i { s with profile := p, tuning := u } = o) ∧
  (∀ (s : State) (p : Profile) (u : Tuning),
    match rxStep s with
    | .next t => rxStep { s with profile := p, tuning := u } = .next { t with profile := p, tuning := u }
    | o => rxStep { s with profile := p, tuning := u } = o) ∧
  (∀ (s : State) (p : Profile) (u : Tuning),
    match playDone s with
    | .next t => playDone { s with profile := p, tuning := u } = .next { t with profile := p, tuning := u }
    | o => playDone { s with profile := p, tuning := u } = o) ∧
  (∀ s : State, s.rxState = .listening ∨ s.txState = .sending → exec .cfgCommit s = .next { s with err := .busy }) ∧
  ∀ s t : State, exec .cfgCommit s = .next t → t.err = .ok →
    t.rbValid = false ∧ exec .rbAdd t = .next { t with err := .noBuffer }

/-- A host read changes nothing but the word the host gets, and reading again gives the same; a host write other than to
CMD changes nothing but the location written (20_memory R130). -/
def Obligations.HostAccessFrame : Prop :=
  (∀ (n : Nat) (a : Word) (s t : State), busRead n a s = .next t →
    t = { s with busData := t.busData } ∧ busRead n a t = .next t) ∧
  (∀ (n : Nat) (a v : Word) (s t : State), busWrite n a v s = .next t → a ≠ 0x0000000C#32 →
    t = { s with
      ctrlContinuous := t.ctrlContinuous, ctrlSpectrumEn := t.ctrlSpectrumEn, ctrlIrqEn := t.ctrlIrqEn,
      arg0 := t.arg0, arg1 := t.arg1, plen := t.plen, blen := t.blen, profile := t.profile, tuning := t.tuning,
      mem := t.mem } ∧
    BytesKept s t a.toNat 1 ∧
    ∀ o ∈ writableOffsets, o ≠ a.toNat → t.readRegister o = s.readRegister o) ∧
  ∀ (s : State) (e : Event) (rest : List Event), s.evq = e :: rest →
    exec .evqPop s = .next { s with evq := rest, err := .ok }

/-- What the host may write: the read/write registers store the word (CTRL its three low bits), every other register
and every read-only buffer ignores the write, an offset that names no register reads 0 (10_state R45, R68; 20_memory
R129). -/
def Obligations.HostWritable : Prop :=
  (∀ (s : State) (a v : Word), a.toNat ∈ writableOffsets →
    ∃ t, busWrite 32 a v s = .next t ∧ t.readRegister a.toNat = if a.toNat = 0x004 then v &&& 7#32 else v) ∧
  (∀ (s : State) (a v : Word), a.toNat < 0x1000 → a.toNat % 4 = 0 → a.toNat ∉ writableOffsets → a.toNat ≠ 0x00C →
    busWrite 32 a v s = .next s) ∧
  (∀ (s : State) (o : Nat), o < 0x1000 → o % 4 = 0 → o ∉ namedOffsets → ¬ (0x400 ≤ o ∧ o < 0x800) →
    s.readRegister o = 0) ∧
  ∀ (s : State) (a v : Word) (r : Region), regionOf s 32 a = some r →
    r ∈ [Region.ibuf, .rb, .wbuf, .pcm, .spec, .rxbits, .evdata] → busWrite 32 a v s = .next s

/-- What a host read returns and what a host write stores: a register shows the register map's word, an element of any
buffer the word the buffer holds there; a host write to a byte, bit or int16 element stores the low 8, 1 or 16 bits of
the word, and a read of it gives the byte, the bit, or the sign-extended sample; element `i` of EVDATA reads byte `i` of
the head event's payload; with an empty queue EVDATA shows 0, over MAX_PAYLOAD elements: that size is the model's choice,
notes/assumptions/29.md (20_memory R121, R123, R124, 10_state R77, 46_orchestrator R448). -/
def Obligations.ElementLayout : Prop :=
  (∀ (s : State) (a : Word), a.toNat < 0x1000 → a.toNat % 4 = 0 →
    busRead 32 a s = .next { s with busData := some (s.readRegister a.toNat) }) ∧
  (∀ (s : State) (a v : Word),
    ∀ r ∈ [Region.pbuf, .bbuf, .ibuf, .inbuf, .rb, .wbuf, .pcm, .spec, .rxbits], regionOf s 32 a = some r →
      Memory.readWords s.mem a.toNat 1 = some [v] → busRead 32 a s = .next { s with busData := some v }) ∧
  (∀ (s : State) (i : Nat), s.hw.wellFormed = true → (s.rbValid = true → s.rbCapNat ≤ s.hw.maxRb) → i < 2 ^ 29 →
    (∀ (e : Event) (rest : List Event), s.evq = e :: rest → e.len.toNat = e.payload.length → i < e.payload.length →
      busRead 32 (BitVec.ofNat 32 (0x09000000 + 4 * i)) s =
        .next { s with busData := some ((e.payload.getD i 0).setWidth 32) }) ∧
    (s.evq = [] → i < s.hw.maxPayload →
      busRead 32 (BitVec.ofNat 32 (0x09000000 + 4 * i)) s = .next { s with busData := some 0 })) ∧
  ∀ (s : State) (a v : Word), Memory.wf s.mem →
    (regionOf s 32 a = some .pbuf → ∃ t, busWrite 32 a v s = .next t ∧
      busRead 32 a t = .next { t with busData := some (v &&& 0xFF#32) }) ∧
    (regionOf s 32 a = some .bbuf → ∃ t, busWrite 32 a v s = .next t ∧
      busRead 32 a t = .next { t with busData := some (v &&& 1#32) }) ∧
    (regionOf s 32 a = some .inbuf → ∃ t, busWrite 32 a v s = .next t ∧
      busRead 32 a t = .next { t with busData := some ((v.extractLsb' 0 16).signExtend 32) })

/-- An access that is not a 4-aligned 32-bit word access inside a region is a bus error, which the model refuses, so
that no register changes; any other access is not (20_memory R122). That an access to EVDATA while the queue is empty is
none, the region then having MAX_PAYLOAD elements, is the model's choice (notes/assumptions/29.md). -/
def Obligations.BusErrors : Prop :=
  ∀ (s : State) (n : Nat) (a v : Word),
    (n ≠ 32 ∨ a.toNat % 4 ≠ 0 ∨ (∀ r, Region.holds s a.toNat r = false) →
      busRead n a s = .refused .busError ∧ busWrite n a v s = .refused .busError) ∧
    (n = 32 → a.toNat % 4 = 0 → (∃ r, Region.holds s a.toNat r = true) →
      busRead n a s ≠ .refused .busError ∧ busWrite n a v s ≠ .refused .busError)

/-- The address map: the base and the size of every region, EVDATA's while a record is queued; the regions do not
overlap, element `i` of a buffer lives at `base + 4 i`, and an index at or beyond the size lies outside it (20_memory
R123). -/
def Obligations.RegionsDisjoint : Prop :=
  (∀ s : State,
    ∀ t ∈ [(Region.registers, 0x00000000, 1024), (.pbuf, 0x00100000, s.hw.maxPayload),
      (.bbuf, 0x00200000, s.hw.maxBits), (.ibuf, 0x00300000, 256), (.inbuf, 0x00400000, s.hw.maxIn),
      (.rb, 0x00800000, if s.rbValid then s.derived.rbCap.toNat else 0), (.wbuf, 0x01000000, s.hw.maxRb),
      (.pcm, 0x02000000, s.hw.maxPcm), (.spec, 0x04000000, s.hw.maxSpec), (.rxbits, 0x08000000, s.hw.maxBits)],
      t.1.base = t.2.1 ∧ t.1.size s = t.2.2) ∧
  (Region.evdata.base = 0x09000000 ∧
    ∀ (s : State) (e : Event) (rest : List Event), s.evq = e :: rest → Region.evdata.size s = e.len.toNat) ∧
  (∀ (s : State) (a : Nat) (r r' : Region), s.hw.wellFormed = true → (s.rbValid = true → s.rbCapNat ≤ s.hw.maxRb) →
    Region.holds s a r = true → Region.holds s a r' = true → r = r') ∧
  ∀ (s : State) (r : Region) (i : Nat), Region.holds s (r.base + 4 * i) r = decide (i < r.size s)

/-- What each offset shows in every state: the fields of STATUS with their numbers, the interrupt line IRQ =
CTRL.IRQ_EN AND (EVQ_COUNT > 0), the bits of CTRL, the operand, result, ring, sum, profile, tuning and derived registers
and FREQ, and the event registers, which show the head record and read 0 when the queue is empty; CMD reads 0 (10_state
R43, R45 to R57, R60, R61, R64 to R67, R71; 20_memory R156, 60_exceptions R501, R508). ID, CRC_GEN and FILLER are in
Constants, the values of FREQ in CfgCommitCommand. -/
def Obligations.StatusFields : Prop :=
  (RxState.initialized.field = 0 ∧ RxState.listening.field = 1 ∧ RxState.stopped.field = 2 ∧
    RxState.cancelled.field = 3) ∧
  (∀ c ∈ [(ErrCode.ok, 0x00#8), (.configError, 0x01#8), (.payloadTooLarge, 0x02#8), (.captureUnavailable, 0x03#8),
    (.malformedBitStream, 0x04#8), (.decodeFault, 0x05#8), (.illegalCommand, 0x10#8), (.busy, 0x11#8),
    (.badState, 0x12#8), (.badArgument, 0x13#8), (.noBuffer, 0x14#8)], c.1.byte = c.2) ∧
  (∀ s : State,
    (s.readRegister 0x008).extractLsb' 0 3 = s.rxState.field ∧
    (s.readRegister 0x008).getLsbD 3 = (s.txState == .sending) ∧
    (s.readRegister 0x008).getLsbD 4 = s.cfgValid ∧ (s.readRegister 0x008).getLsbD 5 = s.rbValid ∧
    (s.readRegister 0x008).getLsbD 6 = s.stopReq ∧ (s.readRegister 0x008).getLsbD 7 = s.cancelReq ∧
    (s.readRegister 0x008).extractLsb' 8 8 = s.err.byte ∧ (s.readRegister 0x008).getLsbD 16 = s.warnMalformed ∧
    (s.readRegister 0x008).getLsbD 17 = s.partialBlock ∧ (s.readRegister 0x008).getLsbD 18 = s.crcOk ∧
    (s.readRegister 0x008).getLsbD 19 = s.syncStart ∧ (s.readRegister 0x008).getLsbD 20 = s.syncEnd ∧
    (s.readRegister 0x008).getLsbD 21 = (s.ctrlIrqEn && decide (0 < s.evq.length)) ∧
    (s.readRegister 0x008).extractLsb' 22 10 = 0#10) ∧
  (∀ s : State,
    (s.readRegister 0x004).getLsbD 0 = s.ctrlContinuous ∧ (s.readRegister 0x004).getLsbD 1 = s.ctrlSpectrumEn ∧
    (s.readRegister 0x004).getLsbD 2 = s.ctrlIrqEn ∧ (s.readRegister 0x004).extractLsb' 3 29 = 0#29 ∧
    (s.readRegister 0x034).extractLsb' 0 16 = s.crcParity ∧ (s.readRegister 0x034).extractLsb' 16 16 = 0#16 ∧
    (s.readRegister 0x03C).extractLsb' 0 8 = s.byteRes ∧ (s.readRegister 0x03C).extractLsb' 8 24 = 0#24 ∧
    (∀ i < 256, s.readRegister (0x400 + 4 * i) = s.freq.getD i 0) ∧
    (∀ r ∈ [(0x100, s.profile.f0), (0x104, s.profile.bitMs), (0x108, s.profile.pauseMs), (0x10C, s.profile.nblk),
      (0x110, s.profile.nfreq), (0x114, s.profile.spacing), (0x118, s.profile.fs), (0x120, s.tuning.startFactor),
      (0x124, s.tuning.endFactor), (0x128, s.tuning.bwOrder), (0x12C, s.tuning.stepFactor),
      (0x130, s.tuning.freqOffset), (0x134, s.tuning.agg), (0x138, s.tuning.fadeDiv), (0x00C, 0)],
      s.readRegister r.1 = r.2) ∧
    ∀ r ∈ [(0x010, s.arg0), (0x014, s.arg1), (0x020, s.plen), (0x024, s.blen), (0x028, s.nblocks), (0x02C, s.pcmlen),
      (0x030, s.wlen), (0x038, s.crcWeight), (0x050, s.rbWr), (0x054, s.rbSteps), (0x058, s.sumUpFirst),
      (0x05C, s.sumDownFirst), (0x060, s.sumUpLast), (0x064, s.sumDownLast), (0x070, s.rxBlen), (0x074, s.rxWeight),
      (0x180, s.derived.bitSamples), (0x184, s.derived.pauseSamples), (0x188, s.derived.bpw),
      (0x18C, s.derived.totalBlocks), (0x190, s.derived.rbCap), (0x194, s.derived.payloadCap),
      (0x198, s.derived.stepLen), (0x19C, s.derived.wpb), (0x1A0, s.derived.wpp), (0x1A4, s.derived.syncThresh),
      (0x1A8, s.derived.decWin), (0x1AC, s.derived.decHop), (0x1B0, s.derived.decFrames), (0x1B4, s.derived.binLo),
      (0x1B8, s.derived.binHi), (0x1BC, s.derived.msgBits), (0x1C0, s.derived.pfloor),
      (0x1C4, s.derived.downCenter), (0x1C8, s.derived.upCenter)], s.readRegister r.1 = r.2) ∧
  (∀ (s : State) (e : Event) (rest : List Event), s.evq = e :: rest →
    s.readRegister 0x040 = BitVec.ofNat 32 (rest.length + 1) ∧
    (s.readRegister 0x044).extractLsb' 0 8 =
      (match e.type with | .message => 1#8 | .decodeError => 2#8 | .spectrum => 3#8) ∧
    (s.readRegister 0x044).getLsbD 8 = e.crcOk ∧ (s.readRegister 0x044).getLsbD 9 = e.malformed ∧
    (s.readRegister 0x044).extractLsb' 10 6 = 0#6 ∧ (s.readRegister 0x044).extractLsb' 16 8 = e.reason.byte ∧
    (s.readRegister 0x044).extractLsb' 24 8 = 0#8 ∧
    s.readRegister 0x048 = e.len ∧ s.readRegister 0x04C = e.latency) ∧
  ∀ s : State, s.evq = [] → ∀ o ∈ [0x040, 0x044, 0x048, 0x04C], s.readRegister o = 0

/-! ## The bit framer (40_bitframer) -/

/-- `byte8` undoes `bits8`, without length drift; both are most significant bit first (40_bitframer R200, R201). -/
def Obligations.ByteRoundTrip : Prop :=
  (∀ b : Byte, bits8 b = (List.range 8).map fun k => b.getLsbD (7 - k)) ∧
  (∀ b : Byte, byte8 (bits8 b) = b ∧ (bits8 b).length = 8) ∧
  (∀ b0 b1 b2 b3 b4 b5 b6 b7 : Bool, (byte8 [b0, b1, b2, b3, b4, b5, b6, b7]).toNat =
    128 * b0.toNat + 64 * b1.toNat + 32 * b2.toNat + 16 * b3.toNat + 8 * b4.toNat + 4 * b5.toNat + 2 * b6.toNat +
      b7.toNat) ∧
  ∀ s : State, s.argByte.toNat = s.arg0.toNat % 256

/-- `pack(p)`: the bytes, exactly `K - |p|` fillers, sixteen parity bits; its length is `B N`, a multiple of `N`
(40_bitframer R205, R207). -/
def Obligations.PackShape : Prop :=
  ∀ (gen : BitVec 17) (n b : Nat) (p : List Byte), 0 < n → n % 8 = 0 → 16 ≤ b * n → p.length ≤ b * (n / 8) - 2 →
    let d := p.flatMap bits8 ++ (List.replicate (b * (n / 8) - 2 - p.length) fillBits).flatten
    packBits gen n (b * (n / 8) - 2) p = d ++ parity gen d ∧ (parity gen d).length = 16 ∧
      (packBits gen n (b * (n / 8) - 2) p).length = 8 * (b * (n / 8) - 2) + 16 ∧
      8 * (b * (n / 8) - 2) + 16 = b * n

/-- `unpack` as 40_bitframer R208 writes it: the aligned groups that are not the filler, the trailing bits dropped. -/
def Obligations.UnpackFormula : Prop :=
  ∀ s : Bits, unpackBits s =
    if s.length < 16 then ([], true)
    else
      let d := s.take (s.length - 16)
      ((((List.range (d.length / 8)).map fun g => (d.drop (8 * g)).take 8).filter fun g => g != fillBits).map byte8,
        decide (d.length % 8 ≠ 0))

/-- The round trip of `pack` and `unpack`: every byte but 0x19 comes back, and the payload comes back exactly when it
holds no 0x19 (40_bitframer R210). -/
def Obligations.UnpackPack : Prop :=
  ∀ (gen : BitVec 17) (n b : Nat) (p : List Byte), 0 < n → n % 8 = 0 → 16 ≤ b * n → p.length ≤ b * (n / 8) - 2 →
    unpackBits (packBits gen n (b * (n / 8) - 2) p) = (p.filter fun x => x != 0x19#8, false) ∧
    ((unpackBits (packBits gen n (b * (n / 8) - 2) p)).1 = p ↔ 0x19#8 ∉ p)

/-- BYTE_TO_BITS and BITS_TO_BYTE: results, errors, corner cases and frames (40_bitframer R202, R203). -/
def Obligations.ByteCommands : Prop :=
  (∀ s : State, Memory.wf s.mem → ∃ t, exec .byteToBits s = .next t ∧
    t = { s with mem := t.mem, blen := 8, err := .ok } ∧
    t.bbuf 8 = some (bits8 (s.arg0.extractLsb' 0 8)) ∧ BytesKept s t bbufBase 8) ∧
  (∀ s : State, s.blen.toNat < 8 ∨ s.hw.maxBits < s.blen.toNat →
    exec .bitsToByte s = .next { s with err := .badArgument }) ∧
  (∀ (s : State) (bits : Bits), 8 ≤ s.blen.toNat → s.blen.toNat ≤ s.hw.maxBits → s.bbuf 8 = some bits →
    exec .bitsToByte s = .next { s with byteRes := byte8 bits, err := .ok }) ∧
  bits8 0x80#8 = [true, false, false, false, false, false, false, false] ∧
  bits8 0xFF#8 = List.replicate 8 true ∧ bits8 0x19#8 = [false, false, false, true, true, false, false, true] ∧
  byte8 [false, true, false, false, true, false, false, false] = 0x48#8

/-- PACK: errors, the packed sequence in BBUF, its length MSG_BITS in BLEN, and the frame (40_bitframer R206). -/
def Obligations.PackCommand : Prop :=
  (∀ s : State, s.cfgValid = false → exec .pack s = .next { s with err := .configError }) ∧
  (∀ s : State, s.cfgValid = true → s.payloadCapNat < s.plen.toNat →
    exec .pack s = .next { s with err := .payloadTooLarge }) ∧
  (∀ (s : State) (p : List Byte), Memory.wf s.mem → ConfigInv s → s.cfgValid = true →
    s.plen.toNat ≤ s.payloadCapNat → s.pbuf s.plen.toNat = some p → ∃ t, exec .pack s = .next t ∧
      t = { s with mem := t.mem, blen := s.derived.msgBits, err := .ok } ∧
      (packBits s.hw.gen s.nfreqNat s.payloadCapNat p).length = s.derived.msgBits.toNat ∧
      t.bbuf t.blen.toNat = some (packBits s.hw.gen s.nfreqNat s.payloadCapNat p) ∧
      BytesKept s t bbufBase s.derived.msgBits.toNat) ∧
  packBits 0x11021#17 16 2 [0x41#8] = bits8 0x41#8 ++ bits8 0x19#8 ++ bits8 0xBD#8 ++ bits8 0xE5#8

/-- UNPACK: error, the bytes in PBUF, PLEN, WARN_MALFORMED, and the frame; a malformed stream is a warning
(40_bitframer R209). -/
def Obligations.UnpackCommand : Prop :=
  (∀ s : State, s.hw.maxBits < s.blen.toNat → exec .unpack s = .next { s with err := .badArgument }) ∧
  (∀ (s : State) (bits : Bits), Memory.wf s.mem → s.blen.toNat ≤ s.hw.maxBits → s.bbuf s.blen.toNat = some bits →
    ∃ t, exec .unpack s = .next t ∧
      t = { s with mem := t.mem, plen := t.plen, warnMalformed := (unpackBits bits).2, err := .ok } ∧
      t.plen.toNat = (unpackBits bits).1.length ∧ t.pbuf t.plen.toNat = some (unpackBits bits).1 ∧
      BytesKept s t pbufBase (unpackBits bits).1.length) ∧
  (∀ bits : Bits, bits.length < 16 → unpackBits bits = ([], true)) ∧
  ∀ c : Bits, c.length = 16 → unpackBits (bits8 0x41#8 ++ [true, true, true, true] ++ c) = ([0x41#8], true) ∧
    unpackBits (bits8 0x19#8 ++ c) = ([], false)

/-- SPLIT: errors, NBLOCKS, PARTIAL, the zero-filled partial block, and the frame; BLEN is unchanged (40_bitframer
R211, R212). It reads the bit sequence BBUF[0..BLEN), which the host must write first: it completes where those elements
are written, and an unwritten one is a fault (70_reset R552; the pseudocode of R212 shows no read, and that all of
BBUF[0..BLEN) is read is the model's inference, notes/assumptions/30.md). -/
def Obligations.SplitCommand : Prop :=
  (∀ s : State, s.cfgValid = false → exec .split s = .next { s with err := .configError }) ∧
  (∀ s : State, s.cfgValid = true → s.hw.maxBits < s.blen.toNat ∨
    s.hw.maxBits < ceilDiv s.blen.toNat s.nfreqNat * s.nfreqNat → exec .split s = .next { s with err := .badArgument }) ∧
  (∀ s : State, s.cfgValid = true → s.blen.toNat ≤ s.hw.maxBits →
    ceilDiv s.blen.toNat s.nfreqNat * s.nfreqNat ≤ s.hw.maxBits → s.bbuf s.blen.toNat = none →
    exec .split s = .fault (.unwrittenElement bbufBase)) ∧
  ∀ (s : State) (bits : Bits), Memory.wf s.mem → s.cfgValid = true → 0 < s.nfreqNat → s.blen.toNat ≤ s.hw.maxBits →
    ceilDiv s.blen.toNat s.nfreqNat * s.nfreqNat ≤ s.hw.maxBits → s.bbuf s.blen.toNat = some bits →
    ∃ t, exec .split s = .next t ∧
      t = { s with mem := t.mem, nblocks := t.nblocks, partialBlock := decide (s.blen.toNat % s.nfreqNat ≠ 0), err := .ok } ∧
      t.nblocks.toNat = ceilDiv s.blen.toNat s.nfreqNat ∧
      t.bbuf (t.nblocks.toNat * s.nfreqNat) =
        some (bits ++ List.replicate (t.nblocks.toNat * s.nfreqNat - s.blen.toNat) false) ∧
      BytesKept s t (bbufBase + 4 * s.blen.toNat) (t.nblocks.toNat * s.nfreqNat - s.blen.toNat) ∧
      (s.blen.toNat = 0 → t.nblocks = 0 ∧ t.partialBlock = false)

/-- INVERT: errors, the inverted block in IBUF with 1 beyond BLEN, and the frame (40_bitframer R213, R214). -/
def Obligations.InvertCommand : Prop :=
  (∀ s : State, s.cfgValid = false → exec .invert s = .next { s with err := .configError }) ∧
  (∀ s : State, s.cfgValid = true → s.hw.maxBits < s.blen.toNat ∨ ceilDiv s.blen.toNat s.nfreqNat ≤ s.arg0.toNat →
    exec .invert s = .next { s with err := .badArgument }) ∧
  ∀ (s : State) (bits : Bits), Memory.wf s.mem → s.cfgValid = true → s.blen.toNat ≤ s.hw.maxBits →
    s.arg0.toNat < ceilDiv s.blen.toNat s.nfreqNat → s.bbuf s.blen.toNat = some bits →
    ∃ t, exec .invert s = .next t ∧ t = { s with mem := t.mem, err := .ok } ∧
      t.ibuf s.nfreqNat = some ((List.range s.nfreqNat).map fun i => !(bits.getD (s.arg0.toNat * s.nfreqNat + i) false)) ∧
      BytesKept s t ibufBase s.nfreqNat

/-! ## The CRC (41_crc) -/

/-- The CRC is sound: a sequence followed by its parity has weight 0, flipping any single bit of it makes the weight
nonzero, and the verdict is the same whether or not a check appends sixteen zeros (41_crc R257). -/
def Obligations.CrcSound : Prop :=
  ∀ (gen : BitVec 17) (s : Bits), gen.getLsbD 16 = true → gen.getLsbD 0 = true →
    weight gen (s ++ parity gen s) = 0 ∧
    (∀ k, k < (s ++ parity gen s).length →
      weight gen ((s ++ parity gen s).set k (!((s ++ parity gen s).getD k false))) ≠ 0) ∧
    (weight gen s = 0 ↔ weight gen (s ++ List.replicate 16 false) = 0)

/-- `rem(s)` is the coefficient list of `S(x) mod G(x)` over GF(2), left-zero-padded to 16 bits, the first bit of a
sequence its highest-degree coefficient; `parity(s)` is that of `S(x) x^16` (41_crc R250 to R253). -/
def Obligations.CrcIsPolynomialRemainder : Prop :=
  let poly : Bits → Polynomial (ZMod 2) :=
    fun s => s.foldl (fun p b => p * Polynomial.X + if b then 1 else 0) 0
  ∀ (gen : BitVec 17) (s : Bits), gen.getLsbD 16 = true →
    (crcRem gen s).length = 16 ∧
    poly (crcRem gen s) = poly s %ₘ poly ((List.range 17).map fun j => gen.getLsbD (16 - j)) ∧
    poly (parity gen s) =
      (poly s * Polynomial.X ^ 16) %ₘ poly ((List.range 17).map fun j => gen.getLsbD (16 - j))

/-- CRC_PARITY: error, the parity with its first bit in bit 15, corner cases, and the frame (41_crc R254). -/
def Obligations.CrcParityCommand : Prop :=
  (∀ s : State, s.hw.maxBits < s.blen.toNat → exec .crcParity s = .next { s with err := .badArgument }) ∧
  (∀ (s : State) (bits : Bits), s.blen.toNat ≤ s.hw.maxBits → s.bbuf s.blen.toNat = some bits →
    ∃ t, exec .crcParity s = .next t ∧ t = { s with crcParity := t.crcParity, err := .ok } ∧
      ∀ k < 16, t.crcParity.getLsbD (15 - k) = (parity s.hw.gen bits).getD k false) ∧
  (∀ (gen : BitVec 17) (m : Nat), parity gen (List.replicate m false) = List.replicate 16 false) ∧
  (∀ gen : BitVec 17, parity gen [true] = (List.range 16).map fun k => gen.getLsbD (15 - k)) ∧
  (∀ (gen : BitVec 17) (m : Nat) (s : Bits), parity gen (List.replicate m false ++ s) = parity gen s) ∧
  parity 0x11021#17 (bits8 0x41#8) = bits8 0x58#8 ++ bits8 0xE5#8

/-- CRC_CHECK: error, the residue weight (0 to 16) and CRC_OK, corner cases, and the frame (41_crc R255, R256). -/
def Obligations.CrcCheckCommand : Prop :=
  (∀ s : State, s.hw.maxBits < s.blen.toNat → exec .crcCheck s = .next { s with err := .badArgument }) ∧
  (∀ (s : State) (bits : Bits), s.blen.toNat ≤ s.hw.maxBits → s.bbuf s.blen.toNat = some bits →
    ∃ t, exec .crcCheck s = .next t ∧ t = { s with crcWeight := t.crcWeight, crcOk := t.crcOk, err := .ok } ∧
      t.crcWeight.toNat = (crcRem s.hw.gen bits).count true ∧ t.crcWeight.toNat ≤ 16 ∧
      (t.crcOk = true ↔ t.crcWeight.toNat = 0)) ∧
  (∀ (gen : BitVec 17) (s : Bits), s.length ≤ 16 → weight gen s = s.count true) ∧
  weight 0x11021#17 (bits8 0x41#8 ++ bits8 0x42#8 ++ bits8 0x56#8 ++ bits8 0x7B#8) = 0 ∧
  weight 0x11021#17 (bits8 0xC1#8 ++ bits8 0x42#8 ++ bits8 0x56#8 ++ bits8 0x7B#8) = 7

/-! ## The ring buffer (42_ringbuffer) -/

/-- RB_INIT and RB_ADD: the zero-fill, and the last C samples in time order after an `add`, wrapping as often as it
takes; the cursors and the frames (42_ringbuffer R281 to R283). -/
def Obligations.RingFillAndAdd : Prop :=
  (∀ s : State, Memory.wf s.mem → s.rxState ≠ .listening → s.cfgValid = true → ∃ t, exec .rbInit s = .next t ∧
    t = { s with mem := t.mem, rbWr := 0, rbSteps := 0, rbValid := true, err := .ok } ∧
    t.rb = some (List.replicate s.rbCapNat 0#32) ∧ BytesKept s t rbBase s.rbCapNat) ∧
  ∀ (s : State) (rb : List Word) (x : List Sample), Memory.wf s.mem → s.rxState ≠ .listening → s.rbValid = true →
    s.arg0.toNat ≤ s.hw.maxIn → s.inbuf s.arg0.toNat = some x → s.rb = some rb → s.rbWr.toNat < s.rbCapNat →
    ∃ t, exec .rbAdd s = .next t ∧
      t = { s with mem := t.mem, rbWr := t.rbWr, rbSteps := t.rbSteps, err := .ok } ∧
      t.rbWr.toNat = (s.rbWr.toNat + s.arg0.toNat) % s.rbCapNat ∧
      t.rbSteps.toNat = min (s.rbSteps.toNat + 1) (2 ^ 32 - 1) ∧
      t.snapshot = some ((ordered rb s.rbWr.toNat ++ x.map sampleF32).drop s.arg0.toNat) ∧
      BytesKept s t rbBase s.rbCapNat

/-- RB_SNAPSHOT, RB_FIRST and RB_LAST: the whole buffer, its oldest or its newest `n` elements in time order in WBUF,
the length in WLEN; the ring buffer and its cursors do not change (42_ringbuffer R280, R284 to R288). -/
def Obligations.RingWindows : Prop :=
  ∀ (s : State) (rb : List Word), Memory.wf s.mem → s.rxState ≠ .listening → s.rbValid = true → s.rb = some rb →
    s.rbWr.toNat < s.rbCapNat → s.rbCapNat ≤ 2 ^ 21 →
    (∃ t w, exec .rbSnapshot s = .next t ∧ t = { s with mem := t.mem, wlen := t.wlen, err := .ok } ∧
      t.wlen.toNat = s.rbCapNat ∧ Memory.readWords t.mem wbufBase s.rbCapNat = some w ∧
      (∀ k < s.rbCapNat, w[k]? = rb[(s.rbWr.toNat + k) % s.rbCapNat]?) ∧ t.rb = s.rb ∧
      BytesKept s t wbufBase s.rbCapNat) ∧
    (s.arg0.toNat ≤ s.rbCapNat →
      (∃ t w, exec .rbFirst s = .next t ∧ t = { s with mem := t.mem, wlen := s.arg0, err := .ok } ∧
        Memory.readWords t.mem wbufBase s.arg0.toNat = some w ∧
        (∀ k < s.arg0.toNat, w[k]? = rb[(s.rbWr.toNat + k) % s.rbCapNat]?) ∧ t.rb = s.rb ∧
        BytesKept s t wbufBase s.arg0.toNat) ∧
      ∃ t w, exec .rbLast s = .next t ∧ t = { s with mem := t.mem, wlen := s.arg0, err := .ok } ∧
        Memory.readWords t.mem wbufBase s.arg0.toNat = some w ∧
        (∀ k < s.arg0.toNat, w[k]? = rb[(s.rbWr.toNat + (s.rbCapNat - s.arg0.toNat) + k) % s.rbCapNat]?) ∧
        t.rb = s.rb ∧ BytesKept s t wbufBase s.arg0.toNat)

/-- After a zero-fill and any sequence of `add` calls: the snapshot is the last C elements of C zeros followed by every
sample added, the cursor is the total modulo C, and the newest `k` elements are the last `k` written, zero-filled
while fewer were (42_ringbuffer R289). -/
def Obligations.RingHistory : Prop :=
  ∀ (s : State) (adds : List (List Word)), Memory.wf s.mem → 0 < s.rbCapNat →
    let t := adds.foldl (fun u x => ringAdd x u) (ringClear s)
    let w := adds.flatten
    ∃ o, t.snapshot = some o ∧ o.length = s.rbCapNat ∧ t.rbCapNat = s.rbCapNat ∧
      t.rbWr.toNat < s.rbCapNat ∧ t.rbWr.toNat = w.length % s.rbCapNat ∧
      o = (List.replicate s.rbCapNat 0#32 ++ w).drop w.length ∧
      ∀ k ≤ s.rbCapNat, lastOf o s.rbCapNat k =
        if k ≤ w.length then w.drop (w.length - k) else List.replicate (k - w.length) 0#32 ++ w

/-! ## The synthesizer (43_synth) -/

/-- Every rendered block: its length, the range of its samples, the zero at both ends where there is a ramp, and
silence where no bin is on, which all-zero bits and W ≤ 2 give; which bins are on, and that a bin lies in at most one
channel; each sample is one of the outcomes read off an enclosure of the real `z[n]` of the rules, whatever phases were
drawn; on the rule's example block those outcomes (43_synth R312 to R314, R316, R317, R319, R324). -/
def Obligations.SynthProperties : Prop :=
  (∀ (c : Tone) (b : Bits) (w : Nat) (e : Env), 2 ≤ c.fadeDiv →
    (synth c b w e).1.length = w ∧
    (∀ v ∈ (synth c b w e).1, -32760 ≤ v.toInt ∧ v.toInt ≤ 32760) ∧
    (1 ≤ w / c.fadeDiv → (synth c b w e).1.head? = some 0 ∧ (synth c b w e).1.getLast? = some 0) ∧
    ((∀ x ∈ b, x = false) ∨ w ≤ 2 → onBins c b w = []) ∧
    (onBins c b w = [] → (synth c b w e).1 = List.replicate w 0) ∧
    ∀ k (h : k < (synth c b w e).1.length), ∃ d,
      (synthChoices c b w (drawPhases (onBins c b w).length e).1)[k]? = some d ∧ d.Allows (synth c b w e).1[k].toInt) ∧
  (∀ (c : Tone) (b : Bits) (w k : Nat), k ∈ onBins c b w ↔ 0 < k ∧ 2 * k < w ∧ ∃ i < b.length, b.getD i false = true ∧
    (2 * ((c.f0 : Int) + i * c.spacing) - c.spacing) * w ≤ 2 * k * c.fs ∧
    (2 * k * c.fs : Int) < (2 * ((c.f0 : Int) + i * c.spacing) + c.spacing) * w) ∧
  (∀ (c : Tone) (w k i j : Nat), binInChannel c w k i = true → binInChannel c w k j = true → i = j) ∧
  (∀ (c : Tone) (b : Bits) (w : Nat) (phases : List Phase), onBins c b w ≠ [] → ∃ p, firstPrec ≤ p ∧
    synthChoices c b w phases = (synthAt w c.fadeDiv ((onBins c b w).zip phases) p).map Reading.choices) ∧
  (∀ (w fadeDiv p : Nat) (tones : List (Nat × Phase)) (peak : ℝ), firstPrec ≤ p →
    let x : Nat → ℝ := fun n => (tones.map fun kp => Real.cos (2 * Real.pi * kp.1 * n / w + kp.2.angle)).sum
    let r := w / fadeDiv
    let g : Nat → ℝ := fun n =>
      if 1 ≤ r ∧ n < r then (n : ℝ) / r else if 1 ≤ r ∧ w - 1 - r < n then ((w - 1 - n : Nat) : ℝ) / r else 1
    (∀ m < w, |x m| ≤ peak) → (∃ m < w, |x m| = peak) → ∀ n < w, ∃ z : Ival,
      (synthAt w fadeDiv tones p)[n]? = some (pcmAt p z) ∧ z.Holds p (max (-1) (min 1 (x n / peak * g n)))) ∧
  synthChoices { f0 := 100, spacing := 10, fs := 1000, fadeDiv := 3 } (startBits 16) 8 [.named 0 1] =
    [⟨0, 0⟩, ⟨0, 0⟩, ⟨-32760, 1⟩, ⟨0, 0⟩, ⟨32759, 1⟩, ⟨0, 0⟩, ⟨-16380, 1⟩, ⟨0, 0⟩]

/-- The message signal: its length, and what each slot and each pause holds; a message of `B N` bits is exactly C
samples long (43_synth R318, R320). -/
def Obligations.MessageSlots : Prop :=
  (∀ (s : State) (bits : Bits),
    let pb := s.derived.bitSamples.toNat
    let pp := s.derived.pauseSamples.toNat
    let nb := ceilDiv bits.length s.nfreqNat
    let q := (s.message bits).1
    q.length = pb * (2 * nb + 2) + pp * (2 * nb + 1) ∧
    (∃ e, q.take pb = (synth s.tone (startBits s.nfreqNat) pb e).1) ∧
    (∃ e, (q.drop ((2 * nb + 1) * (pb + pp))).take pb = (synth s.tone (endBits s.nfreqNat) pb e).1) ∧
    (∀ j < nb,
      (∃ e, (q.drop ((2 * j + 1) * (pb + pp))).take pb = (synth s.tone (blockOf bits s.nfreqNat j) pb e).1) ∧
      ∃ e, (q.drop ((2 * j + 2) * (pb + pp))).take pb =
        (synth s.tone ((blockOf bits s.nfreqNat j).map fun b => !b) pb e).1) ∧
    ∀ t ≤ 2 * nb, (q.drop (t * (pb + pp) + pb)).take pp = List.replicate pp 0) ∧
  ∀ (s : State) (bits : Bits), ConfigInv s → s.cfgValid = true → bits.length = s.derived.msgBits.toNat →
    (s.message bits).1.length = s.rbCapNat

/-- SYN_BLOCK: the six kinds of block, PCMBUF, PCMLEN, and the frame, for every draw (43_synth R310, R311, R319). -/
def Obligations.SynBlockCommand : Prop :=
  ∀ (s : State) (b : Bits) (w : Nat), Memory.wf s.mem → s.txState ≠ .sending → s.cfgValid = true →
    ((s.arg0.toNat < 2 ∧ s.blen.toNat ≤ s.hw.maxBits ∧ s.arg1.toNat < ceilDiv s.blen.toNat s.nfreqNat ∧
        w = s.derived.bitSamples.toNat ∧ ∃ bits, s.bbuf s.blen.toNat = some bits ∧
        b = (List.range s.nfreqNat).map fun i =>
          (bits.getD (s.arg1.toNat * s.nfreqNat + i) false) != (s.arg0.toNat == 1)) ∨
      (s.arg0.toNat = 2 ∧ w = s.derived.bitSamples.toNat ∧
        b = (List.range s.nfreqNat).map fun i => decide (s.nfreqNat / 2 ≤ i)) ∨
      (s.arg0.toNat = 3 ∧ w = s.derived.bitSamples.toNat ∧
        b = (List.range s.nfreqNat).map fun i => decide (i < s.nfreqNat / 2)) ∨
      (s.arg0.toNat = 4 ∧ b = List.replicate s.nfreqNat false ∧
        w = if s.derived.pauseSamples.toNat = 0 then s.derived.pfloor.toNat else s.derived.pauseSamples.toNat) ∨
      (s.arg0.toNat = 5 ∧ w = s.derived.bitSamples.toNat ∧ s.ibuf s.nfreqNat = some b)) →
    ∃ t, exec .synBlock s = .next t ∧ t = { s with mem := t.mem, pcmlen := t.pcmlen, env := t.env, err := .ok } ∧
      t.pcmlen.toNat = w ∧
      Memory.readWords t.mem pcmBase w = some ((synth s.tone b w s.env).1.map sampleWord) ∧
      BytesKept s t pcmBase w

/-- BUILD_SIGNAL: the message signal in PCMBUF, its length in PCMLEN, and the frame: BBUF and BLEN do not change, for
every draw (43_synth R322). -/
def Obligations.BuildSignalCommand : Prop :=
  ∀ (s : State) (bits : Bits), Memory.wf s.mem → s.txState ≠ .sending → s.cfgValid = true →
    s.blen.toNat ≤ s.hw.maxBits → s.hw.maxPcm < 2 ^ 32 → s.bbuf s.blen.toNat = some bits →
    let l := s.derived.bitSamples.toNat * (2 * ceilDiv s.blen.toNat s.nfreqNat + 2) +
      s.derived.pauseSamples.toNat * (2 * ceilDiv s.blen.toNat s.nfreqNat + 1)
    l ≤ s.hw.maxPcm →
    ∃ t, exec .buildSignal s = .next t ∧ t = { s with mem := t.mem, pcmlen := t.pcmlen, env := t.env, err := .ok } ∧
      t.pcmlen.toNat = l ∧
      Memory.readWords t.mem pcmBase l = some ((s.message bits).1.map sampleWord) ∧ BytesKept s t pcmBase l

/-! ## The frame-sync detector (44_framesync) -/

/-- Silence never triggers: an all-zero window has energy 0 on every band, exactly and at every precision; if the
oldest window is all zero, the start test fails with all sums 0 and no draw, and an RX step's analysis changes nothing,
emits nothing and ends no session (44_framesync R354, R356). It holds on every setup, a valid configuration's or not. -/
def Obligations.SilenceNeverHits : Prop :=
  (∀ (fs n fl fh : Nat) (w : List Word) (p : Nat), (∀ x ∈ w, x = 0#32) → bandEnergy fs n fl fh w p = .zero) ∧
  (∀ (c : SyncSetup) (wf wl : List Word) (e : Env), (∀ x ∈ wf, x = 0#32) →
    syncTest c wf wl e =
      ({ start := false, stop := false, upFirst := noEnergy, downFirst := noEnergy, upLast := noEnergy,
         downLast := noEnergy }, e)) ∧
  ∀ (s : State) (o : List Word), s.snapshot = some o → (∀ x ∈ o.take s.stepLenNat, x = 0#32) → analyse s = .next s

/-- SYNC_TEST: the two verdicts, the four sums, and the frame: the ring buffer does not change. The verdicts are ones
that the comparisons UF > START_FACTOR DF on the oldest S samples and DL > END_FACTOR UL on the newest allow, up and down
being the band energies of the upper and the lower half of the channels; the end test runs only after a start, so
SYNC_END implies SYNC_START and the last window's sums are 0 when start fails; each of the four sums is a binary32 value
within one unit of the enclosed exact sum (the draws of 93 I6, notes/assumptions/12.md); a zero-filled buffer gives zeros
(44_framesync R351, R355, R358). The bounds hold the exact energies and comparisons are right by EnclosuresHold. -/
def Obligations.SyncTestCommand : Prop :=
  ∀ (s : State) (o : List Word), ConfigInv s → s.rxState ≠ .listening → s.cfgValid = true → s.rbValid = true →
    s.snapshot = some o →
    let f0 := s.activeProfile.f0.toNat
    let half := s.activeProfile.spacing.toNat * (s.activeProfile.nfreq.toNat / 2)
    let up := bandEnergy s.activeProfile.fs.toNat s.activeTuning.bwOrder.toNat (f0 + half) (f0 + 2 * half)
    let down := bandEnergy s.activeProfile.fs.toNat s.activeTuning.bwOrder.toNat f0 (f0 + half)
    let oldest := o.take s.derived.stepLen.toNat
    let newest := o.drop (s.derived.rbCap.toNat - s.derived.stepLen.toNat)
    ∃ t, exec .syncTest s = .next t ∧
      t = { s with
        sumUpFirst := t.sumUpFirst, sumDownFirst := t.sumDownFirst, sumUpLast := t.sumUpLast,
        sumDownLast := t.sumDownLast, syncStart := t.syncStart, syncEnd := t.syncEnd, env := t.env, err := .ok } ∧
      t.syncStart = (s.syncOn o).1.start ∧ t.syncEnd = (s.syncOn o).1.stop ∧
      (∃ k, (greaterThan (up oldest) fun p => factorTimes s.activeTuning.startFactor (down oldest p)).Allows k ∧
        (t.syncStart = true ↔ k = 1)) ∧
      (t.syncStart = true → ∃ k,
        (greaterThan (down newest) fun p => factorTimes s.activeTuning.endFactor (up newest p)).Allows k ∧
        (t.syncEnd = true ↔ k = 1)) ∧
      (s.syncOn o).1.upFirst = up oldest ∧ (s.syncOn o).1.downFirst = down oldest ∧
      (t.syncStart = true → (s.syncOn o).1.upLast = up newest ∧ (s.syncOn o).1.downLast = down newest) ∧
      (t.syncEnd = true → t.syncStart = true) ∧
      (t.syncStart = false → t.sumUpLast = 0 ∧ t.sumDownLast = 0) ∧
      (∀ r ∈ [(t.sumUpFirst, (s.syncOn o).1.upFirst), (t.sumDownFirst, (s.syncOn o).1.downFirst),
          (t.sumUpLast, (s.syncOn o).1.upLast), (t.sumDownLast, (s.syncOn o).1.downLast)],
        (∃ n, (f32Choices r.2).Allows n ∧ r.1 = f32Word n) ∧
        ∃ p, firstPrec ≤ p ∧ f32Choices r.2 = (f32At p (r.2 p)).choices) ∧
      (∀ (p : Nat) (v : Ival), (f32At p v).settled = true → ∀ n,
        (f32At p v).choices.Allows n → f32Index p v.lo - 1 ≤ n ∧ n ≤ f32Index p v.lo + 1) ∧
      ((∀ x ∈ o, x = 0#32) →
        t = { s with
          sumUpFirst := 0, sumDownFirst := 0, sumUpLast := 0, sumDownLast := 0, syncStart := false, syncEnd := false,
          err := .ok })

/-! ## The bit decoder (45_decoder) -/

/-- Every index of the decoder is in range under a valid configuration: the frames lie inside the buffer, the slot
centres among the frames, the channel bins among the kept bins, and every neighbourhood has one to nine values. The slot
centre, the channel bin and the neighbourhood are the ones the rules give: the rounded and clamped quotients, and the
values at most one frame and one bin away (45_decoder R391, R393, R395, R397, R398, R403). -/
def Obligations.DecoderIndices : Prop :=
  ∀ s : State, ConfigInv s → s.cfgValid = true →
    let c := s.decodeSetup
    2 ≤ c.wd ∧ 1 ≤ c.hop ∧ 1 ≤ c.frames ∧ 1 ≤ c.nbins ∧ c.binHi ≤ c.wd / 2 ∧
    (∀ f < c.frames, f * c.hop + c.wd ≤ s.rbCapNat) ∧
    (∀ k, blockCentre c k < c.frames) ∧
    (∀ i, c.binLo ≤ channelBin c i ∧ channelBin c i ≤ c.binHi) ∧
    (∀ t, (blockCentre c t : ℤ) =
      max 0 (min ((c.frames : ℤ) - 1) ⌊(2 * t * (c.pb + c.pp) + c.pb - c.wd : ℚ) / (2 * c.hop) + 1 / 2⌋)) ∧
    (∀ i, (channelBin c i : ℤ) =
      max (c.binLo : ℤ) (min (c.binHi : ℤ) ⌊((c.f0 + i * c.spacing) * c.wd : ℚ) / c.fs + 1 / 2⌋)) ∧
    (∀ (spec : List (List Ival)) (f i : Nat), f < c.frames → (neighbourhood c spec f i).Perm
      (((List.range c.frames).filter fun g => decide (g ≤ f + 1 ∧ f ≤ g + 1)).flatMap fun g =>
        ((List.range (c.binHi + 1)).filter fun k =>
          decide (c.binLo ≤ k ∧ k ≤ channelBin c i + 1 ∧ channelBin c i ≤ k + 1)).map fun k =>
            (spec.getD g []).getD (k - c.binLo) .zero)) ∧
    ∀ (spec : List (List Ival)) (f i : Nat), f < c.frames →
      1 ≤ (neighbourhood c spec f i).length ∧ (neighbourhood c spec f i).length ≤ 9

/-- DECODE: MSG_BITS bits in BBUF, each one its bit rule allows: whether the aggregate of the inverted slot 2j + 2
exceeds that of the normal slot 2j + 1 in the spectrogram; the spectrogram's F NBINS elements in SPECBUF, frame by frame,
each a binary32 value its rule allows (DecodeAllowed; the draws of 93 I7); the weight and CRC_OK of the bits, and the frame: the ring buffer
does not change. On an all-zero buffer every bit is 0, CRC_OK = 1 and every element is the same binary32 value of 1/NBINS: the reading of the corner case that
notes/assumptions/10.md marks (45_decoder R400 to R403, R405). That the spectrogram and the
aggregates hold the exact ones is EnclosuresHold, what slot centres and neighbourhoods are is DecoderIndices. -/
def Obligations.DecodeCommand : Prop :=
  ∀ (s : State) (x : List Word), Memory.wf s.mem → ConfigInv s → s.rxState ≠ .listening → s.cfgValid = true →
    s.rbValid = true → s.snapshot = some x →
    ∃ t bits spec, exec .decode s = .next t ∧
      t = { s with
        mem := t.mem, blen := s.derived.msgBits, crcWeight := t.crcWeight, crcOk := t.crcOk, env := t.env, err := .ok } ∧
      bits.length = s.derived.msgBits.toNat ∧ t.bbuf t.blen.toNat = some bits ∧
      (∀ k (h : k < bits.length), ∃ d, (decodeChoices s.decodeSetup x).bits[k]? = some d ∧ d.Allows bits[k].toNat) ∧
      spec.length = s.decodeSetup.frames * s.decodeSetup.nbins ∧
      (∀ k (h : k < spec.length), ∃ d n, (decodeChoices s.decodeSetup x).spec[k]? = some d ∧ d.Allows n ∧
        spec[k] = f32Word n) ∧
      Memory.readWords t.mem specBase spec.length = some spec ∧
      ((∃ v ∈ x, f32Fix v ≠ 0) → DecodeAllowed s.decodeSetup x bits spec) ∧
      t.crcWeight.toNat = weight s.hw.gen bits ∧ (t.crcOk = true ↔ weight s.hw.gen bits = 0) ∧
      (∀ k, Outside bbufBase bits.length k → Outside specBase spec.length k →
        Memory.readByte t.mem k = Memory.readByte s.mem k) ∧
      ((∀ v ∈ x, v = 0#32) →
        (∀ b ∈ bits, b = false) ∧ t.crcOk = true ∧ t.env = s.env ∧
          ∀ v ∈ spec, v = f32Word (f32Index firstPrec (fixOne firstPrec / s.decodeSetup.nbins : Nat)))

/-! ## The orchestrator (46_orchestrator) -/

/-- CFG_COMMIT: errors, the latched configuration, the derived registers, FREQ, CFG_VALID and the dropped buffer, and
the frame; on the rule's example profile the values of the example (46_orchestrator R441, 10_state R67, R70). -/
def Obligations.CfgCommitCommand : Prop :=
  (∀ s : State, s.rxState = .listening ∨ s.txState = .sending → exec .cfgCommit s = .next { s with err := .busy }) ∧
  (∀ s : State, s.rxState ≠ .listening → s.txState ≠ .sending → configValid s.hw s.profile s.tuning = false →
    exec .cfgCommit s = .next { s with err := .configError }) ∧
  (∀ s : State, s.rxState ≠ .listening → s.txState ≠ .sending → configValid s.hw s.profile s.tuning = true →
    ∃ t, exec .cfgCommit s = .next t ∧
      t = { s with
        activeProfile := s.profile, activeTuning := s.tuning,
        derived := (quantities s.profile s.tuning).derived, freq := t.freq, cfgValid := true, rbValid := false,
        err := .ok } ∧
      ∀ i < 256, t.readRegister (0x400 + 4 * i) =
        if i < s.profile.nfreq.toNat then BitVec.ofNat 32 (s.profile.f0.toNat + i * s.profile.spacing.toNat) else 0) ∧
  (let p : Profile :=
    { f0 := 18000, bitMs := 100, pauseMs := 0, nblk := 10, nfreq := 16, spacing := 100, fs := 44100 }
   configValid Params.reference p .initial = true ∧
    (quantities p .initial).c = 97020 ∧ (quantities p .initial).k = 18 ∧ (quantities p .initial).syncThresh = 44 ∧
    (quantities p .initial).f = 169 ∧ (quantities p .initial).binLo = 1795 ∧ (quantities p .initial).binHi = 1955)

/-- Every derived value and every frequency fits in 32 bits once the checks of a commit have passed, so the derived
registers show the exact values (10_state R72, R70; with the bounds of 20_memory R123 on the parameters). -/
def Obligations.DerivedFit : Prop :=
  ∀ (hw : Params) (p : Profile) (u : Tuning), hw.wellFormed = true → configValid hw p u = true →
    let q := quantities p u
    let d := q.derived
    d.bitSamples.toNat = q.pb ∧ d.pauseSamples.toNat = q.pp ∧ d.bpw.toNat = q.bpw ∧ d.totalBlocks.toNat = q.t ∧
    d.rbCap.toNat = q.c ∧ d.payloadCap.toNat = q.k ∧ d.stepLen.toNat = q.s ∧ d.wpb.toNat = q.wpb ∧
    d.wpp.toNat = q.wpp ∧ d.syncThresh.toNat = q.syncThresh ∧ d.decWin.toNat = q.wd ∧ d.decHop.toNat = q.h ∧
    d.decFrames.toNat = q.f ∧ d.binLo.toNat = q.binLo ∧ d.binHi.toNat = q.binHi ∧ d.msgBits.toNat = q.msgBits ∧
    d.pfloor.toNat = q.pfloor ∧ d.downCenter.toNat = q.downCenter ∧ d.upCenter.toNat = q.upCenter ∧
    ∀ i < p.nfreq.toNat, 2 * (p.f0.toNat + i * p.spacing.toNat) < p.fs.toNat

/-- RX_START: both answers of `cap_open`, the zero-fill, the cleared requests, the DECODE_ERROR record of a failure,
and the frame (46_orchestrator R444, R470). That the zeros stay in place and both cursors are 0 after a failed
`cap_open`, when RB_VALID = 0 and 10_state R74 gives the array no contents, is the model's choice
(notes/assumptions/24.md, notes/assumptions/28.md). -/
def Obligations.RxStartCommand : Prop :=
  ∀ s : State, Memory.wf s.mem → s.evq.length ≠ s.hw.evqDepth → s.rxState ≠ .listening → s.rxState ≠ .cancelled →
    s.cfgValid = true → ∃ t, exec .rxStart s = .next t ∧
      t = { s with
        mem := t.mem, rbWr := 0, rbSteps := 0, rbValid := t.rbValid, stopReq := false, cancelReq := false,
        rxState := t.rxState, captureOpen := t.captureOpen, evq := t.evq, env := t.env, err := .ok } ∧
      t.rb = some (List.replicate s.rbCapNat 0#32) ∧ BytesKept s t rbBase s.rbCapNat ∧
      ((drawCapOpen s.env).1 = true →
        t.rxState = .listening ∧ t.rbValid = true ∧ t.captureOpen = true ∧ t.evq = s.evq) ∧
      ((drawCapOpen s.env).1 = false →
        t.rxState = .stopped ∧ t.rbValid = false ∧ t.captureOpen = s.captureOpen ∧
        t.evq = s.evq ++
          [{ type := .decodeError, crcOk := false, malformed := false, reason := .captureUnavailable,
             len := 0, latency := 0, payload := [] }] ∧
        (s.evq = [] → t.readRegister 0x044 = 0x00030002#32 ∧ t.readRegister 0x040 = 1))

/-- RX_STOP and RX_CANCEL: a request while Listening, refused with BAD_STATE once Cancelled; otherwise RX_STOP changes
nothing and RX_CANCEL goes to Cancelled at once (46_orchestrator R445, R446). -/
def Obligations.RxStopCancelCommands : Prop :=
  ∀ s : State,
    (s.rxState = .cancelled → exec .rxStop s = .next { s with err := .badState } ∧
      exec .rxCancel s = .next { s with err := .badState } ∧
      (s.evq.length ≠ s.hw.evqDepth → exec .rxStart s = .next { s with err := .badState })) ∧
    (s.rxState = .listening → exec .rxStop s = .next { s with stopReq := true, err := .ok } ∧
      exec .rxCancel s = .next { s with cancelReq := true, err := .ok }) ∧
    (s.rxState = .initialized ∨ s.rxState = .stopped → exec .rxStop s = .next { s with err := .ok } ∧
      exec .rxCancel s = .next { s with rxState := .cancelled, err := .ok })

/-- TX_SEND: the packed payload rendered into PCMBUF, C samples long, handed to the sink; TX goes to Sending, BBUF and
BLEN do not change, for every draw (46_orchestrator R447, 43_synth R320). -/
def Obligations.TxSendCommand : Prop :=
  ∀ (s : State) (p : List Byte), Memory.wf s.mem → ConfigInv s → s.txState ≠ .sending → s.cfgValid = true →
    s.plen.toNat ≤ s.payloadCapNat → s.pbuf s.plen.toNat = some p →
    let q := (s.message (packBits s.hw.gen s.nfreqNat s.payloadCapNat p)).1
    ∃ t, exec .txSend s = .next t ∧
      t = { s with
        mem := t.mem, pcmlen := s.derived.rbCap, env := t.env, handoff := some q, txState := .sending, err := .ok } ∧
      q.length = s.rbCapNat ∧ Memory.readWords t.mem pcmBase s.rbCapNat = some (q.map sampleWord) ∧
      BytesKept s t pcmBase s.rbCapNat

/-- NOP writes ERR = OK and nothing else; EVQ_POP removes the head record, and is refused with BAD_STATE on an empty
queue; `play_done` takes TX from Sending to Idle, PCMBUF and PCMLEN keep the signal, no event is emitted, and it is
enabled only while Sending (46_orchestrator R443, R448, R480). -/
def Obligations.NopPopPlayDone : Prop :=
  (∀ s : State, exec .nop s = .next { s with err := .ok }) ∧
  (∀ s : State, s.evq = [] → exec .evqPop s = .next { s with err := .badState }) ∧
  (∀ (s : State) (e : Event) (rest : List Event), s.evq = e :: rest → ∃ t, exec .evqPop s = .next t ∧
    t = { s with evq := rest, err := .ok } ∧ (s.evq.length < 2 ^ 32 →
      (t.readRegister 0x040).toNat + 1 = (s.readRegister 0x040).toNat)) ∧
  ∀ s : State,
    (s.txState = .sending → playDone s = .next { s with txState := .idle, handoff := none }) ∧
    (s.txState ≠ .sending → playDone s = .refused .noPlayback)

/-- The state machines: only the transitions of 46_orchestrator R440 exist. Cancelled is terminal until reset; leaving
Listening takes an RX step, which goes to Cancelled exactly when a cancel is requested, and to Stopped only with a stop
requested or on a hit whose MESSAGE is correct outside continuous mode; RX_START starts only from Initialized or
Stopped; TX moves by TX_SEND from Idle and by `play_done` from Sending. -/
def Obligations.StateMachines : Prop :=
  ∀ (s t : State) (m : Move) (rest : List Move), s.pending = m :: rest → step s = .next t → m ≠ .reset →
    (t.rxState ≠ s.rxState →
      (m = .write 32 0x0000000C#32 0x00000070#32 ∧ (s.rxState = .initialized ∨ s.rxState = .stopped) ∧
        (t.rxState = .listening ∨ t.rxState = .stopped)) ∨
      (m = .write 32 0x0000000C#32 0x00000072#32 ∧ (s.rxState = .initialized ∨ s.rxState = .stopped) ∧
        t.rxState = .cancelled) ∨
      (m = .rx ∧ s.rxState = .listening ∧ (t.rxState = .stopped ∨ t.rxState = .cancelled) ∧
        (t.rxState = .cancelled ↔ s.cancelReq = true) ∧
        (t.rxState = .stopped → s.stopReq = true ∨
          (s.ctrlContinuous = false ∧ t.rxWeight = 0 ∧ ∃ e l, t.evq = s.evq ++ e :: l ∧ e.type = .message ∧
            e.crcOk = true)))) ∧
    (s.rxState = .cancelled → t.rxState = .cancelled) ∧
    (t.txState ≠ s.txState →
      (m = .write 32 0x0000000C#32 0x00000078#32 ∧ s.txState = .idle) ∨ (m = .playDone ∧ s.txState = .sending))

/-- One RX step: when it is enabled, cancel before stop, the end of a session, a short read that discards its samples,
an over-long answer refused, and a full chunk added before the threshold is looked at and the analysis is run; below the
threshold nothing more happens, and a test that does not hit changes nothing but the draws taken. The same for an answer
the environment has not delivered, which is any list of at most S samples (46_orchestrator R460, R462, R463, R464). The
refusal of an over-long answer is the treatment of notes/assumptions/17.md (93 I11), the form of an undelivered answer
that of notes/assumptions/25.md. -/
def Obligations.RxStepRule : Prop :=
  (∀ s : State, rxStep s = .refused .rxNotEnabled ↔ ¬ (s.rxState = .listening ∧ s.evq.length + 2 ≤ s.hw.evqDepth)) ∧
  (∀ s : State, s.rxState = .listening → s.evq.length + 2 ≤ s.hw.evqDepth →
    (s.cancelReq = true → rxStep s = .next { s with
      captureOpen := false, rbValid := false, stopReq := false, cancelReq := false, rxState := .cancelled }) ∧
    (s.cancelReq = false → s.stopReq = true → rxStep s = .next { s with
      captureOpen := false, rbValid := false, stopReq := false, cancelReq := false, rxState := .stopped }) ∧
    (∀ (q : List Sample) (rest : List (List Sample)), s.cancelReq = false → s.stopReq = false →
      s.env.capRead = q :: rest →
      (q.length < s.stepLenNat → rxStep s = .next { s with env := { s.env with capRead := rest } }) ∧
      (s.stepLenNat < q.length → rxStep s = .refused .captureTooLong) ∧
      (q.length = s.stepLenNat → (nextSteps s.rbSteps).toNat < s.derived.syncThresh.toNat →
        rxStep s = .next (ringAdd (q.map sampleF32) { s with env := { s.env with capRead := rest } })) ∧
      (q.length = s.stepLenNat →
        rxStep s = analyse (ringAdd (q.map sampleF32) { s with env := { s.env with capRead := rest } }))) ∧
    (s.cancelReq = false → s.stopReq = false → s.env.capRead = [] →
      ∃ q : List Sample, q = (Config.freeCapRead s.env.count).take s.stepLenNat ∧
        (q.length < s.stepLenNat → rxStep s = .next { s with env := { s.env with count := s.env.count + 1 } }) ∧
        (q.length = s.stepLenNat →
          rxStep s =
            analyse (ringAdd (q.map sampleF32) { s with env := { s.env with count := s.env.count + 1 } })))) ∧
  ∀ s : State,
    (s.rbSteps.toNat < s.derived.syncThresh.toNat → analyse s = .next s) ∧
    ∀ o : List Word, s.derived.syncThresh.toNat ≤ s.rbSteps.toNat → s.snapshot = some o →
      ¬ ((s.syncOn o).1.start = true ∧ (s.syncOn o).1.stop = true) →
      analyse s = .next { s with env := (s.syncOn o).2 }

/-- A hit: the decoded bits, each one its bit rule allows, in RXBITS with RX_BLEN and RX_WEIGHT, the spectrogram in
SPECBUF, each element a value its rule allows (DecodeAllowed, as for DECODE), no other byte of memory changed, so the ring buffer kept; one MESSAGE
record with the unpacked payload whatever the CRC says, then a SPECTRUM record if CTRL asks for one; a correct CRC outside continuous mode ends the session in
Stopped, otherwise RB_STEPS is 0 and the agent keeps Listening with the buffer kept (46_orchestrator R465, R466, R471). -/
def Obligations.HitEmitsMessage : Prop :=
  ∀ (s : State) (o : List Word), Memory.wf s.mem → ConfigInv s → s.cfgValid = true → s.snapshot = some o →
    s.derived.syncThresh.toNat ≤ s.rbSteps.toNat → (s.syncOn o).1.start = true → (s.syncOn o).1.stop = true →
    ∃ t bits lat, analyse s = .next t ∧
      t = { s with
        mem := t.mem, rxBlen := s.derived.msgBits, rxWeight := t.rxWeight, evq := t.evq, env := t.env,
        rbSteps := t.rbSteps, rbValid := t.rbValid, captureOpen := t.captureOpen, stopReq := t.stopReq,
        cancelReq := t.cancelReq, rxState := t.rxState } ∧
      bits.length = s.derived.msgBits.toNat ∧
      Memory.readWords t.mem rxbitsBase bits.length = some (bits.map bitWord) ∧
      (∀ k (h : k < bits.length), ∃ d, (decodeChoices s.decodeSetup o).bits[k]? = some d ∧ d.Allows bits[k].toNat) ∧
      (∃ spec : List Word, spec.length = s.decodeSetup.frames * s.decodeSetup.nbins ∧
        Memory.readWords t.mem specBase spec.length = some spec ∧ DecodeAllowed s.decodeSetup o bits spec ∧
        ∀ k (h : k < spec.length), ∃ d n, (decodeChoices s.decodeSetup o).spec[k]? = some d ∧ d.Allows n ∧
          spec[k] = f32Word n) ∧
      (∀ k, Outside rxbitsBase bits.length k → Outside specBase (s.decodeSetup.frames * s.decodeSetup.nbins) k →
        Memory.readByte t.mem k = Memory.readByte s.mem k) ∧
      t.rb = s.rb ∧
      t.rxWeight.toNat = weight s.hw.gen bits ∧
      t.evq = s.evq ++
        [{ type := .message, crcOk := weight s.hw.gen bits == 0, malformed := false, reason := .ok,
           len := BitVec.ofNat 32 (unpackBits bits).1.length, latency := lat, payload := (unpackBits bits).1 }] ++
        (if s.ctrlSpectrumEn then
          [{ type := .spectrum, crcOk := weight s.hw.gen bits == 0, malformed := false, reason := .ok,
             len := s.derived.decFrames, latency := 0, payload := [] }]
         else []) ∧
      (weight s.hw.gen bits = 0 ∧ s.ctrlContinuous = false →
        t.rxState = .stopped ∧ t.rbValid = false ∧ t.captureOpen = false ∧ t.stopReq = false ∧ t.cancelReq = false ∧
          t.rbSteps = s.rbSteps) ∧
      (¬ (weight s.hw.gen bits = 0 ∧ s.ctrlContinuous = false) →
        t.rbSteps = 0 ∧ t.rxState = s.rxState ∧ t.rbValid = s.rbValid ∧ t.captureOpen = s.captureOpen ∧
          t.stopReq = s.stopReq ∧ t.cancelReq = s.cancelReq)

/-! ## The enclosures behind the DSP rules -/

/-- The enclosures hold the exact numbers at every precision: sum, product, quotient, modulus and the integer square
root, over the real and complex numbers the rules are stated in, and the aggregates of 45_decoder R398. What is read off
them is what the rules allow: a comparison is exact outside the band of 44_framesync R360 and 45_decoder R405 and free
inside it, and a sample's truncation is exact but for the band of 43_synth R325 (00_scope R18). The band energies hold
the real numbers of 44_framesync R352 to R354 and the spectrogram those of 45_decoder R392 to R394, and on an example
both are known closely. The enclosures are the model's choice, notes/assumptions/9.md. -/
def Obligations.EnclosuresHold : Prop :=
  (∀ n : Nat, isqrt n * isqrt n ≤ n ∧ n < (isqrt n + 1) * (isqrt n + 1)) ∧
  (∀ (p : Nat) (x y : ℝ) (a b : Ival), a.Holds p x → b.Holds p y →
    (a.add b).Holds p (x + y) ∧ (a.sub b).Holds p (x - y) ∧ a.abs.Holds p |x| ∧ (a.larger b).Holds p (max x y) ∧
    (a.div p b).Holds p (x / y) ∧ ∀ n d : Nat, 0 < d → (a.scale n d).Holds p (x * n / d)) ∧
  (∀ (p : Nat) (z w : ℂ) (a b : Disc), a.Holds p z → b.Holds p w →
    (a.add b).Holds p (z + w) ∧ (a.sub b).Holds p (z - w) ∧ (a.mul p b).Holds p (z * w) ∧
    (a.div p b).Holds p (z / w) ∧ a.abs.Holds p ‖z‖ ∧ ∀ d : Nat, 0 < d → (a.divNat d).Holds p (z / d)) ∧
  (∀ (p mode : Nat) (xs : List ℝ) (l : List Ival), xs ≠ [] → List.Forall₂ (Ival.Holds p) xs l →
    (mode = 0 → ∀ ys : List ℝ, ys.Perm xs → ys.Pairwise (· ≤ ·) → (aggregate mode l).Holds p
      (if xs.length % 2 = 1 then ys.getD (xs.length / 2) 0
       else (ys.getD (xs.length / 2 - 1) 0 + ys.getD (xs.length / 2) 0) / 2)) ∧
    (mode = 1 → (aggregate mode l).Holds p (xs.sum / xs.length)) ∧
    (mode = 2 → ∀ m ∈ xs, (∀ x ∈ xs, x ≤ m) → (aggregate mode l).Holds p m)) ∧
  (∀ (x y : ℝ) (l r : Nat → Ival), (∀ p, (l p).Holds p x) → (∀ p, (r p).Holds p y) →
    ((|x| + |y|) / 2 ^ 30 < x - y → (greaterThan l r).Allows 1) ∧
    ((|x| + |y|) / 2 ^ 30 < y - x → (greaterThan l r).Allows 0) ∧
    (|x - y| ≤ (|x| + |y|) / 2 ^ 30 → x ≠ 0 ∨ y ≠ 0 → (greaterThan l r).Allows 0 ∧ (greaterThan l r).Allows 1) ∧
    ∀ p, (greaterAt (l p) (r p)).settled = true → (|x| + |y|) / 2 ^ 30 < |x - y| →
      ∀ n, (greaterAt (l p) (r p)).choices.Allows n → n = if y < x then 1 else 0) ∧
  (∀ (p : Nat) (x y : ℝ) (a b : Ival), a.Holds p x → b.Holds p y →
    ((|x| + |y|) / 2 ^ 30 < x - y → (greaterAt a b).choices.Allows 1) ∧
    ((|x| + |y|) / 2 ^ 30 < y - x → (greaterAt a b).choices.Allows 0) ∧
    (|x - y| ≤ (|x| + |y|) / 2 ^ 30 → x ≠ 0 ∨ y ≠ 0 →
      (greaterAt a b).choices.Allows 0 ∧ (greaterAt a b).choices.Allows 1)) ∧
  (∀ (p : Nat) (w : Word) (x : ℝ) (a : Ival), 0 ≤ Exact.f32 w → a.Holds p x →
    (factorTimes w a).Holds p (Exact.f32 w * x)) ∧
  (∀ (p fs n fl fh : Nat) (w : List Word), firstPrec ≤ p → 0 < n → fl ≤ fh → 2 * fh < fs →
    (bandEnergy fs n fl fh w p).Holds p (Exact.energy fs n fl fh w)) ∧
  (∀ (p : Nat) (c : DecodeSetup) (x : List Word) (f b : Nat), firstPrec ≤ p → 2 ≤ c.wd → c.binLo ≤ c.binHi →
    c.binHi ≤ c.wd / 2 → f < c.frames → b < c.nbins →
    (((spectrogram p c (x.map f32Fix)).getD f []).getD b .zero).Holds p (Exact.spec c x f (c.binLo + b))) ∧
  (let e := bandEnergy 1000 1 200 280 [0x3F000000#32, 0xBF000000#32] firstPrec
   e.known = true ∧ 0 < e.lo ∧ e.hi - e.lo < 2 ^ 100) ∧
  (∀ l ∈ spectrogram firstPrec
      { pb := 2, pp := 0, wd := 2, hop := 1, frames := 3, binLo := 0, binHi := 1, nblk := 1, nfreq := 16, f0 := 200,
        spacing := 10, fs := 1000, agg := 0 } ([0x3F000000#32, 0xBF000000#32, 0#32, 0#32].map f32Fix),
    l.length = 2 ∧ ∀ v ∈ l, v.known = true ∧ 0 < v.lo ∧ v.hi - v.lo < 2 ^ 100) ∧
  ∀ (p : Nat) (x : ℝ) (z : Ival), 20 ≤ p → z.Holds p x → |x| ≤ 1 →
    let t : Int := if 0 ≤ x then ⌊x * 32760⌋ else ⌈x * 32760⌉
    (pcmAt p z).choices.Allows t ∧
    (∀ m : Int, m ≠ 0 → |x * 32760 - m| ≤ 1 / 2 ^ 20 →
      (pcmAt p z).choices.Allows m ∧ (pcmAt p z).choices.Allows (m - m.sign)) ∧
    ((pcmAt p z).settled = true → (∀ m : Int, 1 / 2 ^ 20 < |x * 32760 - m|) →
      ∀ n, (pcmAt p z).choices.Allows n → n = t)
end

