-- ==== Sys2Proof/Laws/Memory.lean ====
section
/-! SUPPORT. What the memory operations do: which bytes a store changes, that the canonical form is kept, and what is
read back. -/

namespace Sys2Proof.Machine

/-! ## One byte -/

@[simp] theorem readByte_nil (k : Nat) : Memory.readByte [] k = none := rfl

theorem readByte_append (m m' : Memory) (k : Nat) :
    Memory.readByte (m ++ m') k = (Memory.readByte m k).or (Memory.readByte m' k) := by
  induction m with
  | nil => simp
  | cons c m ih => by_cases h : c.1 = k <;> simp [Memory.readByte, h, ih]

theorem readByte_filter (p : Nat → Bool) (m : Memory) (k : Nat) :
    Memory.readByte (m.filter fun c => p c.1) k = if p k then Memory.readByte m k else none := by
  induction m with
  | nil => simp [Memory.readByte]
  | cons c m ih =>
    obtain ⟨j, b⟩ := c
    by_cases h : j = k
    · subst h
      cases hp : p j <;> simp [Memory.readByte, hp] at ih ⊢
      exact ih
    · cases hp : p j <;> simp [Memory.readByte, hp, h] at ih ⊢ <;> exact ih

theorem readByte_cellsAt (a : Nat) (bs : List Byte) (k : Nat) :
    Memory.readByte (cellsAt a bs) k = if a ≤ k then bs[k - a]? else none := by
  induction bs generalizing a with
  | nil => simp [cellsAt]
  | cons b bs ih =>
    simp only [cellsAt, Memory.readByte, ih]
    by_cases h : a = k
    · simp [h]
    · by_cases h' : a ≤ k
      · have hk : k - a = (k - (a + 1)) + 1 := by omega
        simp [h, h', show a + 1 ≤ k by omega, hk]
      · simp [h, h', show ¬ a + 1 ≤ k by omega]

/-- A store gives its own bytes and leaves every other byte alone. -/
theorem readByte_writeBytes (m : Memory) (a : Nat) (bs : List Byte) (k : Nat) :
    Memory.readByte (Memory.writeBytes m a bs) k =
      if a ≤ k ∧ k < a + bs.length then bs[k - a]? else Memory.readByte m k := by
  simp only [Memory.writeBytes, readByte_append, readByte_cellsAt,
    readByte_filter (fun n => decide (n < a)), readByte_filter (fun n => decide (a + bs.length ≤ n))]
  by_cases h1 : k < a
  · simp [h1, show ¬ a ≤ k by omega, show ¬ a + bs.length ≤ k by omega]
  · by_cases h2 : k < a + bs.length
    · have h3 : bs[k - a]? = some (bs[k - a]'(by omega)) := List.getElem?_eq_getElem (by omega)
      simp [h1, h2, h3, show a ≤ k by omega]
    · have h3 : bs[k - a]? = none := List.getElem?_eq_none (by omega)
      simp [h1, h2, h3, show a ≤ k by omega, show a + bs.length ≤ k by omega]

theorem length_flatMap_wordBytes (ws : List Word) : (ws.flatMap wordBytes).length = 4 * ws.length := by
  induction ws with
  | nil => rfl
  | cons w ws ih => simp only [List.flatMap_cons, List.length_append, ih, List.length_cons, wordBytes,
      List.length_nil]; omega

/-- A store of elements leaves every byte outside them alone. -/
theorem readByte_writeWords_outside (m : Memory) (a : Nat) (ws : List Word) (k : Nat)
    (h : k < a ∨ a + 4 * ws.length ≤ k) : Memory.readByte (Memory.writeWords m a ws) k = Memory.readByte m k := by
  rw [Memory.writeWords, readByte_writeBytes, length_flatMap_wordBytes, if_neg (by omega)]

/-! ## The canonical form -/

theorem pairwise_cellsAt (a : Nat) (bs : List Byte) : Memory.wf (cellsAt a bs) := by
  suffices h : Memory.wf (cellsAt a bs) ∧ ∀ c ∈ cellsAt a bs, a ≤ c.1 from h.1
  induction bs generalizing a with
  | nil => simp [cellsAt]
  | cons b bs ih =>
    obtain ⟨h1, h2⟩ := ih (a + 1)
    refine ⟨List.pairwise_cons.2 ⟨fun c hc => h2 c hc, h1⟩, ?_⟩
    simp only [cellsAt, List.mem_cons]
    rintro c (rfl | hc)
    · exact le_refl _
    · exact Nat.le_of_succ_le (h2 c hc)

theorem mem_cellsAt {a : Nat} {bs : List Byte} {c : Host.Cell} (h : c ∈ cellsAt a bs) :
    a ≤ c.1 ∧ c.1 < a + bs.length := by
  induction bs generalizing a with
  | nil => simp [cellsAt] at h
  | cons b bs ih =>
    simp only [cellsAt, List.mem_cons] at h
    rcases h with rfl | h
    · simp
    · have := ih h; simp only [List.length_cons]; omega

theorem wf_nil : Memory.wf [] := List.Pairwise.nil

/-- Every store keeps the canonical form. -/
theorem wf_writeBytes {m : Memory} (h : m.wf) (a : Nat) (bs : List Byte) : (Memory.writeBytes m a bs).wf := by
  simp only [Memory.writeBytes, Memory.wf, List.pairwise_append, List.mem_append, List.mem_filter, decide_eq_true_eq]
  refine ⟨⟨h.filter _, pairwise_cellsAt a bs, ?_⟩, h.filter _, ?_⟩
  · intro c hc d hd
    exact lt_of_lt_of_le hc.2 (mem_cellsAt hd).1
  · rintro c (hc | hc) d hd
    · omega
    · have := (mem_cellsAt hc).2; omega

theorem wf_writeWords {m : Memory} (h : m.wf) (a : Nat) (ws : List Word) : (Memory.writeWords m a ws).wf :=
  wf_writeBytes h a _

theorem wf_ringWrite {m : Memory} (h : m.wf) (c wr k : Nat) (ws : List Word) : (ringWrite c wr k ws m).wf := by
  induction ws generalizing m k with
  | nil => exact h
  | cons w ws ih => exact ih (wf_writeWords h _ _) _

/-! ## Runs of bytes and elements -/

theorem readByte_of_lt {m : Memory} {c : Host.Cell} (h : Memory.wf (c :: m)) {k : Nat} (hk : k ≤ c.1) :
    Memory.readByte m k = none := by
  induction m with
  | nil => rfl
  | cons d m ih =>
    have hd : c.1 < d.1 := (List.pairwise_cons.1 h).1 d (by simp)
    have hw : Memory.wf (c :: m) := by
      simp only [Memory.wf, List.pairwise_cons] at h ⊢
      exact ⟨fun x hx => h.1 x (by simp [hx]), h.2.2⟩
    simp [Memory.readByte, show d.1 ≠ k by omega, ih hw]

/-- A run of a canonical memory is read exactly when each of its bytes is. -/
theorem readRun_eq_some {m : Memory} (h : m.wf) (a n : Nat) (bs : List Byte) :
    Memory.readRun m a n = some bs ↔ bs.length = n ∧ ∀ i < n, Memory.readByte m (a + i) = bs[i]? := by
  induction m generalizing a n bs with
  | nil =>
    cases n with
    | zero => simp [Memory.readRun, eq_comm (a := ([] : List Byte))]
    | succ n =>
      simp only [Memory.readRun, reduceCtorEq, readByte_nil, false_iff, not_and]
      intro hl hb
      have := hb 0 (by omega)
      rw [List.getElem?_eq_getElem (by omega)] at this
      simp at this
  | cons c m ih =>
    cases n with
    | zero => simp [Memory.readRun, eq_comm (a := ([] : List Byte))]
    | succ n =>
      obtain ⟨k, b⟩ := c
      have hm : Memory.wf m := (List.pairwise_cons.1 h).2
      simp only [Memory.readRun]
      by_cases h1 : k < a
      · rw [if_pos h1, ih hm]
        refine and_congr_right fun _ => forall₂_congr fun i _ => ?_
        simp [Memory.readByte, show k ≠ a + i by omega]
      · rw [if_neg h1]
        by_cases h2 : k = a
        · subst h2
          rw [if_pos rfl, Option.map_eq_some_iff]
          constructor
          · rintro ⟨bs', hbs, rfl⟩
            obtain ⟨hl, hb⟩ := (ih hm _ _ _).1 hbs
            refine ⟨by simp [hl], fun i hi => ?_⟩
            cases i with
            | zero => simp [Memory.readByte]
            | succ i =>
              have := hb i (by omega)
              rw [Memory.readByte, if_neg (by omega), show k + (i + 1) = k + 1 + i by omega, this,
                List.getElem?_cons_succ]
          · rintro ⟨hl, hb⟩
            cases bs with
            | nil => simp at hl
            | cons b' bs =>
              have h0 := hb 0 (by omega)
              simp only [Memory.readByte, Nat.add_zero, if_pos, List.getElem?_cons_zero, Option.some.injEq] at h0
              subst h0
              refine ⟨bs, (ih hm _ _ _).2 ⟨by simpa using hl, fun i hi => ?_⟩, rfl⟩
              have := hb (i + 1) (by omega)
              rwa [Memory.readByte, if_neg (by omega), show k + (i + 1) = k + 1 + i by omega,
                List.getElem?_cons_succ] at this
        · rw [if_neg h2]
          simp only [reduceCtorEq, false_iff, not_and]
          intro hl hb
          have h0 := hb 0 (by omega)
          rw [List.getElem?_eq_getElem (by omega)] at h0
          simp only [Memory.readByte, Nat.add_zero, if_neg h2] at h0
          rw [readByte_of_lt h (by simp only; omega)] at h0
          simp at h0

theorem word_of_bytes (w : Word) :
    w.extractLsb' 24 8 ++ w.extractLsb' 16 8 ++ w.extractLsb' 8 8 ++ w.extractLsb' 0 8 = w := by
  refine BitVec.eq_of_getLsbD_eq fun i hi => ?_
  simp only [BitVec.getLsbD_append, BitVec.getLsbD_extractLsb']
  interval_cases i <;> simp

theorem bytesWords_flatMap (ws : List Word) : bytesWords (ws.flatMap wordBytes) = ws := by
  induction ws with
  | nil => rfl
  | cons w ws ih =>
    simp only [List.flatMap_cons, wordBytes, List.cons_append, List.nil_append, bytesWords, List.cons.injEq]
    exact ⟨word_of_bytes w, ih⟩

theorem bytes_of_word (b0 b1 b2 b3 : Byte) : wordBytes (b3 ++ b2 ++ b1 ++ b0) = [b0, b1, b2, b3] := by
  simp only [wordBytes, List.cons.injEq, and_true]
  refine ⟨?_, ?_, ?_, ?_⟩ <;>
  · refine BitVec.eq_of_getLsbD_eq fun i hi => ?_
    simp only [BitVec.getLsbD_append, BitVec.getLsbD_extractLsb']
    interval_cases i <;> simp

/-- Whole elements determine their bytes. -/
theorem flatMap_bytesWords {n : Nat} {bs : List Byte} (h : bs.length = 4 * n) :
    (bytesWords bs).flatMap wordBytes = bs ∧ (bytesWords bs).length = n := by
  induction n generalizing bs with
  | zero => rw [List.length_eq_zero_iff.1 (by omega : bs.length = 0)]; exact ⟨rfl, rfl⟩
  | succ n ih =>
    match bs, h with
    | b0 :: b1 :: b2 :: b3 :: rest, h =>
      obtain ⟨h1, h2⟩ := @ih rest (by simp only [List.length_cons] at h; omega)
      simp only [bytesWords, List.flatMap_cons, bytes_of_word, h1, List.length_cons, h2]
      simp

/-- Elements of a canonical memory are read exactly when each of their bytes is. -/
theorem readWords_eq_some {m : Memory} (h : m.wf) (a n : Nat) (ws : List Word) :
    Memory.readWords m a n = some ws ↔
      ws.length = n ∧ ∀ i < 4 * n, Memory.readByte m (a + i) = (ws.flatMap wordBytes)[i]? := by
  rw [Memory.readWords, Option.map_eq_some_iff]
  constructor
  · rintro ⟨bs, hbs, rfl⟩
    obtain ⟨hl, hb⟩ := (readRun_eq_some h _ _ _).1 hbs
    obtain ⟨h1, h2⟩ := flatMap_bytesWords hl
    exact ⟨h2, by rw [h1]; exact hb⟩
  · rintro ⟨rfl, hb⟩
    exact ⟨ws.flatMap wordBytes, (readRun_eq_some h _ _ _).2 ⟨length_flatMap_wordBytes ws, hb⟩, bytesWords_flatMap ws⟩

/-- As many elements are read as were asked for. -/
theorem length_readWords {m : Memory} (h : m.wf) {a n : Nat} {ws : List Word}
    (hr : Memory.readWords m a n = some ws) : ws.length = n := ((readWords_eq_some h a n ws).1 hr).1

/-- What was stored is read back. -/
theorem readWords_writeWords {m : Memory} (h : m.wf) (a : Nat) (ws : List Word) :
    Memory.readWords (Memory.writeWords m a ws) a ws.length = some ws := by
  refine (readWords_eq_some (wf_writeWords h a ws) _ _ _).2 ⟨rfl, fun i hi => ?_⟩
  rw [Memory.writeWords, readByte_writeBytes, length_flatMap_wordBytes, if_pos (by omega)]
  simp

/-- Elements read from memories that agree on their bytes are the same. -/
theorem readWords_congr {m m' : Memory} (h : m.wf) (h' : m'.wf) (a n : Nat)
    (hb : ∀ k, a ≤ k → k < a + 4 * n → Memory.readByte m' k = Memory.readByte m k) :
    Memory.readWords m' a n = Memory.readWords m a n := by
  refine Option.ext fun ws => ?_
  rw [readWords_eq_some h', readWords_eq_some h]
  refine and_congr_right fun _ => forall₂_congr fun i hi => ?_
  rw [hb (a + i) (by omega) (by omega)]

/-- A store elsewhere does not change what is read. -/
theorem readWords_writeWords_disjoint {m : Memory} (h : m.wf) (a b n : Nat) (ws : List Word)
    (hd : a + 4 * n ≤ b ∨ b + 4 * ws.length ≤ a) :
    Memory.readWords (Memory.writeWords m b ws) a n = Memory.readWords m a n :=
  readWords_congr h (wf_writeWords h b ws) a n fun k h1 h2 => readByte_writeWords_outside m b ws k (by omega)

end Sys2Proof.Machine
end

