-- ==== Sys2Proof/Laws/Ops.lean ====
section
/-! SUPPORT. What the shared operations can answer: how a command ends, a read that may fault, and what a draw
returns. -/

namespace Sys2Proof.Machine

/-! ## How a command ends -/

@[simp] theorem raise_eq_next {c : ErrCode} {s t : State} : raise c s = .next t ↔ t = { s with err := c } := by
  simp [raise, eq_comm]

@[simp] theorem finish_eq_next {s t : State} : finish s = .next t ↔ t = { s with err := .ok } := by
  simp [finish, eq_comm]

@[simp] theorem raise_ne_fault {c : ErrCode} {s : State} {r : Fault} : raise c s ≠ .fault r := by simp [raise]

@[simp] theorem raise_ne_refused {c : ErrCode} {s : State} {r : Refusal} : raise c s ≠ .refused r := by simp [raise]

@[simp] theorem finish_ne_fault {s : State} {r : Fault} : finish s ≠ .fault r := by simp [finish]

@[simp] theorem finish_ne_refused {s : State} {r : Refusal} : finish s ≠ .refused r := by simp [finish]

/-! ## A read that may fault -/

@[simp] theorem withRead_some {α : Type} (b : Nat) (x : α) (k : α → Out) : withRead b (some x) k = k x := rfl

@[simp] theorem withRead_none {α : Type} (b : Nat) (k : α → Out) :
    withRead b none k = .fault (.unwrittenElement b) := rfl

theorem withRead_eq_next {α : Type} {b : Nat} {r : Option α} {k : α → Out} {t : State} :
    withRead b r k = .next t ↔ ∃ x, r = some x ∧ k x = .next t := by
  cases r <;> simp

theorem withRead_eq_fault {α : Type} {b : Nat} {r : Option α} {k : α → Out} {f : Fault}
    (h : withRead b r k = .fault f) : (r = none ∧ f = .unwrittenElement b) ∨ ∃ x, r = some x ∧ k x = .fault f := by
  cases r with
  | none => left; simpa [eq_comm] using h
  | some x => exact .inr ⟨x, rfl, h⟩

theorem withRead_eq_refused {α : Type} {b : Nat} {r : Option α} {k : α → Out} {f : Refusal} :
    withRead b r k = .refused f ↔ ∃ x, r = some x ∧ k x = .refused f := by
  cases r <;> simp

/-! ## Draws -/

/-- The readings that `refine` answers are those of some precision at or above the first. -/
theorem refine_eq (at' : Nat → List Reading) (k p : Nat) : ∃ q, p ≤ q ∧ refine at' k p = at' q := by
  induction k generalizing p with
  | zero => exact ⟨p, le_rfl, rfl⟩
  | succ k ih =>
    simp only [refine]
    split
    · exact ih p
    · obtain ⟨q, hq, h⟩ := ih (p * 2 ^ 2 ^ k)
      exact ⟨q, le_trans (Nat.le_mul_of_pos_right p (Nat.pos_of_ne_zero (by simp))) hq, h⟩

/-- Readings that are settled at the first precision are the answer. -/
theorem refine_of_settled {at' : Nat → List Reading} {p : Nat} (h : (at' p).all Reading.settled = true) (k : Nat) :
    refine at' k p = at' p := by
  induction k with
  | zero => rfl
  | succ k ih => simp [refine, ih, h]

/-- What `settle` allows was read at one precision, the first or a higher one. -/
theorem settle_eq (at' : Nat → List Reading) :
    ∃ p, firstPrec ≤ p ∧ settle at' = (at' p).map Reading.choices := by
  obtain ⟨p, hp, h⟩ := refine_eq at' 64 firstPrec
  exact ⟨p, hp, by rw [settle, h]⟩

theorem settle_of_settled {at' : Nat → List Reading} (h : (at' firstPrec).all Reading.settled = true) :
    settle at' = (at' firstPrec).map Reading.choices := by rw [settle, refine_of_settled h]

theorem settleOne_eq (at' : Nat → Reading) : ∃ p, firstPrec ≤ p ∧ settleOne at' = (at' p).choices := by
  obtain ⟨p, hp, h⟩ := settle_eq fun p => [at' p]
  exact ⟨p, hp, by simp [settleOne, h]⟩

theorem settleOne_of_settled {at' : Nat → Reading} (h : (at' firstPrec).settled = true) :
    settleOne at' = (at' firstPrec).choices := by
  simp [settleOne, settle_of_settled (at' := fun p => [at' p]) (by simp [h])]

/-- As many outcomes come out as readings go in. -/
theorem length_settle {at' : Nat → List Reading} {n : Nat} (h : ∀ p, (at' p).length = n) :
    (settle at').length = n := by
  obtain ⟨p, -, e⟩ := settle_eq at'
  simp [e, h]

/-- A chosen outcome is one of the allowed ones. -/
theorem drawChoice_mem (c : Choices) (e : Env) : c.base ≤ (drawChoice c e).1 ∧ (drawChoice c e).1 ≤ c.base + c.span := by
  have h (n : Nat) : n % (c.span + 1) ≤ c.span := Nat.lt_succ_iff.1 (Nat.mod_lt _ (Nat.succ_pos _))
  unfold drawChoice
  split
  · simp
  · split
    · have := h ‹Nat›; constructor <;> simp only <;> omega
    · have := h (Config.freePick e.count); constructor <;> simp only <;> omega

@[simp] theorem drawChoice_exactly (n : Int) (e : Env) : drawChoice (.exactly n) e = (n, e) := rfl

@[simp] theorem drawVerdict_verdict (b : Bool) (e : Env) : drawVerdict (.verdict b) e = (b, e) := by
  cases b <;> rfl

/-- A verdict is drawn from the choices it was given: true is outcome 1 (notes/assumptions/12.md). -/
theorem drawVerdict_mem (c : Choices) (e : Env) : ∃ k, c.base ≤ k ∧ k ≤ c.base + c.span ∧
    ((drawVerdict c e).1 = true ↔ k = 1) :=
  ⟨(drawChoice c e).1, (drawChoice_mem c e).1, (drawChoice_mem c e).2, by simp [drawVerdict]⟩

/-- A drawn binary32 value is one its choices allow. -/
theorem drawF32_mem (v : Nat → Ival) (e : Env) : ∃ n, (f32Choices v).base ≤ n ∧
    n ≤ (f32Choices v).base + (f32Choices v).span ∧ (drawF32 v e).1 = f32Word n :=
  ⟨(drawChoice (f32Choices v) e).1, (drawChoice_mem _ e).1, (drawChoice_mem _ e).2, by simp only [drawF32]⟩

/-- A binary32 value's choices are read off its bounds at one precision, the first or a higher one. -/
theorem f32Choices_eq (v : Nat → Ival) : ∃ p, firstPrec ≤ p ∧ f32Choices v = (f32At p (v p)).choices := settleOne_eq _

/-- The sum 0 rounds to 0 with no draw. -/
@[simp] theorem drawF32_noEnergy (e : Env) : drawF32 noEnergy e = (0#32, e) := by
  have : f32Choices noEnergy = .exactly 0 := by
    unfold f32Choices
    rw [settleOne_of_settled (by simp [f32At, noEnergy])]; simp [f32At, noEnergy]
  rw [drawF32, this, drawChoice_exactly]
  rfl

@[simp] theorem length_drawChoices (cs : List Choices) (e : Env) : (drawChoices cs e).1.length = cs.length := by
  induction cs generalizing e with
  | nil => rfl
  | cons c cs ih => simp [drawChoices, ih]

@[simp] theorem length_drawPhases (n : Nat) (e : Env) : (drawPhases n e).1.length = n := by
  induction n generalizing e with
  | zero => rfl
  | succ n ih => simp [drawPhases, ih]

/-- Where every choice has one outcome, nothing is drawn. -/
theorem drawChoices_replicate (k : Nat) (n : Int) (e : Env) :
    drawChoices (List.replicate k (.exactly n)) e = (List.replicate k n, e) := by
  induction k with
  | zero => rfl
  | succ k ih => simp [List.replicate_succ, drawChoices, ih]

/-- A free capture answer keeps the port's bound (20_memory R150). -/
theorem length_drawCapRead_free {s : Nat} {e : Env} (h : e.capRead = []) : (drawCapRead s e).1.length ≤ s := by
  simp [drawCapRead, h]

end Sys2Proof.Machine
end

