-- ==== Sys2Proof/Laws/Commands.lean ====
section
/-! SUPPORT. For each command, everything it can answer as a next state: the state with only ERR changed, or the
state its rule describes, with the conditions under which it does. -/

namespace Sys2Proof.Machine

variable {s t : State}

/-- The state of a command that raised: ERR and nothing else. -/
abbrev Raised (s t : State) : Prop := ∃ c, c ≠ .ok ∧ t = { s with err := c }

theorem execNop_next (h : execNop s = .next t) : t = { s with err := .ok } := by simpa [execNop] using h

theorem execCfgCommit_next (h : execCfgCommit s = .next t) :
    Raised s t ∨ (s.listening = false ∧ s.sending = false ∧ configValid s.hw s.profile s.tuning = true ∧
      t = { commit s with err := .ok }) := by
  unfold execCfgCommit at h
  split_ifs at h with h1 h2
  · exact .inl ⟨_, by decide, raise_eq_next.1 h⟩
  · exact .inl ⟨_, by decide, raise_eq_next.1 h⟩
  · simp only [not_or, Bool.not_eq_true, Bool.not_eq_false] at h1 h2
    exact .inr ⟨h1.1, h1.2, h2, finish_eq_next.1 h⟩

theorem execByteToBits_next (h : execByteToBits s = .next t) :
    t = { s with mem := Memory.writeWords s.mem bbufBase ((bits8 s.argByte).map bitWord), blen := 8, err := .ok } := by
  simpa [execByteToBits] using h

theorem execBitsToByte_next (h : execBitsToByte s = .next t) :
    Raised s t ∨ (8 ≤ s.blenNat ∧ s.blenNat ≤ s.hw.maxBits ∧ ∃ bits, s.bbuf 8 = some bits ∧
      t = { s with byteRes := byte8 bits, err := .ok }) := by
  unfold execBitsToByte at h
  split_ifs at h with h1
  · exact .inl ⟨_, by decide, raise_eq_next.1 h⟩
  · obtain ⟨bits, hb, hk⟩ := withRead_eq_next.1 h
    exact .inr ⟨by omega, by omega, bits, hb, finish_eq_next.1 hk⟩

theorem execPack_next (h : execPack s = .next t) :
    Raised s t ∨ (s.cfgValid = true ∧ s.plenNat ≤ s.payloadCapNat ∧ ∃ p, s.pbuf s.plenNat = some p ∧
      t = { s with
        mem := Memory.writeWords s.mem bbufBase ((packBits s.hw.gen s.nfreqNat s.payloadCapNat p).map bitWord)
        blen := BitVec.ofNat 32 (packBits s.hw.gen s.nfreqNat s.payloadCapNat p).length
        err := .ok }) := by
  unfold execPack at h
  split_ifs at h with h1 h2
  · exact .inl ⟨_, by decide, raise_eq_next.1 h⟩
  · exact .inl ⟨_, by decide, raise_eq_next.1 h⟩
  · obtain ⟨p, hp, hk⟩ := withRead_eq_next.1 h
    exact .inr ⟨by simpa using h1, by omega, p, hp, finish_eq_next.1 hk⟩

theorem execUnpack_next (h : execUnpack s = .next t) :
    Raised s t ∨ (s.blenNat ≤ s.hw.maxBits ∧ ∃ bits, s.bbuf s.blenNat = some bits ∧
      t = { s with
        mem := Memory.writeWords s.mem pbufBase ((unpackBits bits).1.map byteWord)
        plen := BitVec.ofNat 32 (unpackBits bits).1.length
        warnMalformed := (unpackBits bits).2
        err := .ok }) := by
  unfold execUnpack at h
  split_ifs at h with h1
  · exact .inl ⟨_, by decide, raise_eq_next.1 h⟩
  · obtain ⟨p, hp, hk⟩ := withRead_eq_next.1 h
    exact .inr ⟨by omega, p, hp, finish_eq_next.1 hk⟩

theorem execSplit_next (h : execSplit s = .next t) :
    Raised s t ∨ (s.cfgValid = true ∧ s.blenNat ≤ s.hw.maxBits ∧
      ceilDiv s.blenNat s.nfreqNat * s.nfreqNat ≤ s.hw.maxBits ∧ (s.bbuf s.blenNat).isSome ∧
      t = { s with
        mem := Memory.writeWords s.mem (bbufBase + 4 * s.blenNat)
          (List.replicate (ceilDiv s.blenNat s.nfreqNat * s.nfreqNat - s.blenNat) (bitWord false))
        nblocks := BitVec.ofNat 32 (ceilDiv s.blenNat s.nfreqNat)
        partialBlock := partialFlag s.blenNat s.nfreqNat
        err := .ok }) := by
  unfold execSplit at h
  simp only at h
  split_ifs at h with h1 h2
  · exact .inl ⟨_, by decide, raise_eq_next.1 h⟩
  · exact .inl ⟨_, by decide, raise_eq_next.1 h⟩
  · obtain ⟨bits, hb, hk⟩ := withRead_eq_next.1 h
    exact .inr ⟨by simpa using h1, by omega, by omega, by simp [hb], finish_eq_next.1 hk⟩

theorem execInvert_next (h : execInvert s = .next t) :
    Raised s t ∨ (s.cfgValid = true ∧ s.blenNat ≤ s.hw.maxBits ∧ s.arg0Nat < ceilDiv s.blenNat s.nfreqNat ∧
      ∃ blk, s.bbufBlock s.arg0Nat = some blk ∧
        t = { s with mem := Memory.writeWords s.mem ibufBase ((invertBits blk).map bitWord), err := .ok }) := by
  unfold execInvert at h
  split_ifs at h with h1 h2
  · exact .inl ⟨_, by decide, raise_eq_next.1 h⟩
  · exact .inl ⟨_, by decide, raise_eq_next.1 h⟩
  · obtain ⟨p, hp, hk⟩ := withRead_eq_next.1 h
    exact .inr ⟨by simpa using h1, by omega, by omega, p, hp, finish_eq_next.1 hk⟩

theorem execCrcParity_next (h : execCrcParity s = .next t) :
    Raised s t ∨ (s.blenNat ≤ s.hw.maxBits ∧ ∃ bits, s.bbuf s.blenNat = some bits ∧
      t = { s with crcParity := BitVec.ofNat 16 (bitsNat (parity s.hw.gen bits)), err := .ok }) := by
  unfold execCrcParity at h
  split_ifs at h with h1
  · exact .inl ⟨_, by decide, raise_eq_next.1 h⟩
  · obtain ⟨p, hp, hk⟩ := withRead_eq_next.1 h
    exact .inr ⟨by omega, p, hp, finish_eq_next.1 hk⟩

theorem execCrcCheck_next (h : execCrcCheck s = .next t) :
    Raised s t ∨ (s.blenNat ≤ s.hw.maxBits ∧ ∃ bits, s.bbuf s.blenNat = some bits ∧
      t = { s with
        crcWeight := BitVec.ofNat 32 (weight s.hw.gen bits)
        crcOk := crcOkFlag (weight s.hw.gen bits)
        err := .ok }) := by
  unfold execCrcCheck at h
  split_ifs at h with h1
  · exact .inl ⟨_, by decide, raise_eq_next.1 h⟩
  · obtain ⟨p, hp, hk⟩ := withRead_eq_next.1 h
    exact .inr ⟨by omega, p, hp, finish_eq_next.1 hk⟩

theorem execRbInit_next (h : execRbInit s = .next t) :
    Raised s t ∨ (s.listening = false ∧ s.cfgValid = true ∧ t = { ringClear s with err := .ok }) := by
  unfold execRbInit at h
  split_ifs at h with h1 h2
  · exact .inl ⟨_, by decide, raise_eq_next.1 h⟩
  · exact .inl ⟨_, by decide, raise_eq_next.1 h⟩
  · exact .inr ⟨by simpa using h1, by simpa using h2, finish_eq_next.1 h⟩

theorem execRbAdd_next (h : execRbAdd s = .next t) :
    Raised s t ∨ (s.listening = false ∧ s.rbValid = true ∧ s.arg0Nat ≤ s.hw.maxIn ∧
      ∃ x, s.inbuf s.arg0Nat = some x ∧ t = { ringAdd (x.map sampleF32) s with err := .ok }) := by
  unfold execRbAdd at h
  split_ifs at h with h1 h2 h3
  · exact .inl ⟨_, by decide, raise_eq_next.1 h⟩
  · exact .inl ⟨_, by decide, raise_eq_next.1 h⟩
  · exact .inl ⟨_, by decide, raise_eq_next.1 h⟩
  · obtain ⟨p, hp, hk⟩ := withRead_eq_next.1 h
    exact .inr ⟨by simpa using h1, by simpa using h2, by omega, p, hp, finish_eq_next.1 hk⟩

theorem execRbSnapshot_next (h : execRbSnapshot s = .next t) :
    Raised s t ∨ (s.listening = false ∧ s.rbValid = true ∧
      ∃ o, s.snapshot = some o ∧ t = { storeWindow o s with err := .ok }) := by
  unfold execRbSnapshot at h
  split_ifs at h with h1 h2
  · exact .inl ⟨_, by decide, raise_eq_next.1 h⟩
  · exact .inl ⟨_, by decide, raise_eq_next.1 h⟩
  · obtain ⟨p, hp, hk⟩ := withRead_eq_next.1 h
    exact .inr ⟨by simpa using h1, by simpa using h2, p, hp, finish_eq_next.1 hk⟩

theorem execRbFirst_next (h : execRbFirst s = .next t) :
    Raised s t ∨ (s.listening = false ∧ s.rbValid = true ∧ s.arg0Nat ≤ s.rbCapNat ∧
      ∃ o, s.snapshot = some o ∧ t = { storeWindow (firstOf o s.arg0Nat) s with err := .ok }) := by
  unfold execRbFirst at h
  split_ifs at h with h1 h2 h3
  · exact .inl ⟨_, by decide, raise_eq_next.1 h⟩
  · exact .inl ⟨_, by decide, raise_eq_next.1 h⟩
  · exact .inl ⟨_, by decide, raise_eq_next.1 h⟩
  · obtain ⟨p, hp, hk⟩ := withRead_eq_next.1 h
    exact .inr ⟨by simpa using h1, by simpa using h2, by omega, p, hp, finish_eq_next.1 hk⟩

theorem execRbLast_next (h : execRbLast s = .next t) :
    Raised s t ∨ (s.listening = false ∧ s.rbValid = true ∧ s.arg0Nat ≤ s.rbCapNat ∧
      ∃ o, s.snapshot = some o ∧ t = { storeWindow (lastOf o s.rbCapNat s.arg0Nat) s with err := .ok }) := by
  unfold execRbLast at h
  split_ifs at h with h1 h2 h3
  · exact .inl ⟨_, by decide, raise_eq_next.1 h⟩
  · exact .inl ⟨_, by decide, raise_eq_next.1 h⟩
  · exact .inl ⟨_, by decide, raise_eq_next.1 h⟩
  · obtain ⟨p, hp, hk⟩ := withRead_eq_next.1 h
    exact .inr ⟨by simpa using h1, by simpa using h2, by omega, p, hp, finish_eq_next.1 hk⟩

theorem execSynBlock_next (h : execSynBlock s = .next t) :
    Raised s t ∨ (s.sending = false ∧ s.cfgValid = true ∧ s.arg0Nat ≤ 5 ∧
      (s.arg0Nat < 2 → s.blenNat ≤ s.hw.maxBits ∧ s.arg1Nat < ceilDiv s.blenNat s.nfreqNat) ∧
      ∃ bw, s.synthBlock = some bw ∧ t = { storePcm (synth s.tone bw.1 bw.2 s.env) s with err := .ok }) := by
  unfold execSynBlock at h
  split_ifs at h with h1 h2 h3 h4
  · exact .inl ⟨_, by decide, raise_eq_next.1 h⟩
  · exact .inl ⟨_, by decide, raise_eq_next.1 h⟩
  · exact .inl ⟨_, by decide, raise_eq_next.1 h⟩
  · exact .inl ⟨_, by decide, raise_eq_next.1 h⟩
  · obtain ⟨p, hp, hk⟩ := withRead_eq_next.1 h
    refine .inr ⟨by simpa using h1, by simpa using h2, by omega, fun h5 => ?_, p, hp, finish_eq_next.1 hk⟩
    omega

theorem execBuildSignal_next (h : execBuildSignal s = .next t) :
    Raised s t ∨ (s.sending = false ∧ s.cfgValid = true ∧ s.blenNat ≤ s.hw.maxBits ∧
      msgLength s.derived.bitSamples.toNat s.derived.pauseSamples.toNat (ceilDiv s.blenNat s.nfreqNat) ≤ s.hw.maxPcm ∧
      ∃ bits, s.bbuf s.blenNat = some bits ∧ t = { storePcm (s.message bits) s with err := .ok }) := by
  unfold execBuildSignal at h
  simp only at h
  split_ifs at h with h1 h2 h3
  · exact .inl ⟨_, by decide, raise_eq_next.1 h⟩
  · exact .inl ⟨_, by decide, raise_eq_next.1 h⟩
  · exact .inl ⟨_, by decide, raise_eq_next.1 h⟩
  · obtain ⟨p, hp, hk⟩ := withRead_eq_next.1 h
    exact .inr ⟨by simpa using h1, by simpa using h2, by omega, by omega, p, hp, finish_eq_next.1 hk⟩

theorem execSyncTest_next (h : execSyncTest s = .next t) :
    Raised s t ∨ (s.listening = false ∧ s.cfgValid = true ∧ s.rbValid = true ∧
      ∃ o, s.snapshot = some o ∧
        t = { s with
          sumUpFirst := t.sumUpFirst
          sumDownFirst := t.sumDownFirst
          sumUpLast := t.sumUpLast
          sumDownLast := t.sumDownLast
          syncStart := (s.syncOn o).1.start
          syncEnd := (s.syncOn o).1.stop
          env := t.env
          err := .ok }) := by
  unfold execSyncTest at h
  split_ifs at h with h1 h2 h3
  · exact .inl ⟨_, by decide, raise_eq_next.1 h⟩
  · exact .inl ⟨_, by decide, raise_eq_next.1 h⟩
  · exact .inl ⟨_, by decide, raise_eq_next.1 h⟩
  · obtain ⟨p, hp, hk⟩ := withRead_eq_next.1 h
    refine .inr ⟨by simpa using h1, by simpa using h2, by simpa using h3, p, hp, ?_⟩
    rw [finish_eq_next.1 hk]

theorem execDecode_next (h : execDecode s = .next t) :
    Raised s t ∨ (s.listening = false ∧ s.cfgValid = true ∧ s.rbValid = true ∧
      ∃ x, s.snapshot = some x ∧
        t = { s with
          mem := Memory.writeWords
            (Memory.writeWords s.mem bbufBase ((decodeBuffer s.decodeSetup x s.env).1.map bitWord))
            specBase (decodeBuffer s.decodeSetup x s.env).2.1
          blen := s.derived.msgBits
          crcWeight := BitVec.ofNat 32 (weight s.hw.gen (decodeBuffer s.decodeSetup x s.env).1)
          crcOk := crcOkFlag (weight s.hw.gen (decodeBuffer s.decodeSetup x s.env).1)
          env := (decodeBuffer s.decodeSetup x s.env).2.2
          err := .ok }) := by
  unfold execDecode at h
  split_ifs at h with h1 h2 h3
  · exact .inl ⟨_, by decide, raise_eq_next.1 h⟩
  · exact .inl ⟨_, by decide, raise_eq_next.1 h⟩
  · exact .inl ⟨_, by decide, raise_eq_next.1 h⟩
  · obtain ⟨p, hp, hk⟩ := withRead_eq_next.1 h
    exact .inr ⟨by simpa using h1, by simpa using h2, by simpa using h3, p, hp, finish_eq_next.1 hk⟩

theorem execRxStart_next (h : execRxStart s = .next t) :
    Raised s t ∨ (s.evqFull = false ∧ s.rxState ≠ .listening ∧ s.rxState ≠ .cancelled ∧ s.cfgValid = true ∧
      (((drawCapOpen s.env).1 = true ∧
        t = { ringClear s with
          stopReq := false, cancelReq := false, env := (drawCapOpen s.env).2
          rxState := .listening, captureOpen := true, err := .ok }) ∨
       ((drawCapOpen s.env).1 = false ∧
        t = { ringClear s with
          stopReq := false, cancelReq := false, env := (drawCapOpen s.env).2
          rbValid := false, rxState := .stopped, evq := s.evq ++ [captureErrorEvent], err := .ok }))) := by
  unfold execRxStart at h
  simp only at h
  split_ifs at h with h1 h2 h3 h4
  · exact .inl ⟨_, by decide, raise_eq_next.1 h⟩
  · exact .inl ⟨_, by decide, raise_eq_next.1 h⟩
  · exact .inl ⟨_, by decide, raise_eq_next.1 h⟩
  · simp only [not_or] at h2
    exact .inr ⟨by simpa using h1, h2.1, h2.2, by simpa using h3, .inl ⟨h4, finish_eq_next.1 h⟩⟩
  · simp only [not_or] at h2
    exact .inr ⟨by simpa using h1, h2.1, h2.2, by simpa using h3, .inr ⟨by simpa using h4, finish_eq_next.1 h⟩⟩

theorem execRxStop_next (h : execRxStop s = .next t) :
    Raised s t ∨ (s.rxState = .listening ∧ t = { s with stopReq := true, err := .ok }) ∨
      ((s.rxState = .initialized ∨ s.rxState = .stopped) ∧ t = { s with err := .ok }) := by
  unfold execRxStop at h
  split at h
  · exact .inl ⟨_, by decide, raise_eq_next.1 h⟩
  · exact .inr (.inl ⟨‹_›, finish_eq_next.1 h⟩)
  · exact .inr (.inr ⟨.inl ‹_›, finish_eq_next.1 h⟩)
  · exact .inr (.inr ⟨.inr ‹_›, finish_eq_next.1 h⟩)

theorem execRxCancel_next (h : execRxCancel s = .next t) :
    Raised s t ∨ (s.rxState = .listening ∧ t = { s with cancelReq := true, err := .ok }) ∨
      ((s.rxState = .initialized ∨ s.rxState = .stopped) ∧ t = { s with rxState := .cancelled, err := .ok }) := by
  unfold execRxCancel at h
  split at h
  · exact .inl ⟨_, by decide, raise_eq_next.1 h⟩
  · exact .inr (.inl ⟨‹_›, finish_eq_next.1 h⟩)
  · exact .inr (.inr ⟨.inl ‹_›, finish_eq_next.1 h⟩)
  · exact .inr (.inr ⟨.inr ‹_›, finish_eq_next.1 h⟩)

theorem execTxSend_next (h : execTxSend s = .next t) :
    Raised s t ∨ (s.sending = false ∧ s.cfgValid = true ∧ s.plenNat ≤ s.payloadCapNat ∧
      ∃ p, s.pbuf s.plenNat = some p ∧
        t = { storePcm (s.message (packBits s.hw.gen s.nfreqNat s.payloadCapNat p)) s with
          handoff := some (s.message (packBits s.hw.gen s.nfreqNat s.payloadCapNat p)).1
          txState := .sending
          err := .ok }) := by
  unfold execTxSend at h
  split_ifs at h with h1 h2 h3
  · exact .inl ⟨_, by decide, raise_eq_next.1 h⟩
  · exact .inl ⟨_, by decide, raise_eq_next.1 h⟩
  · exact .inl ⟨_, by decide, raise_eq_next.1 h⟩
  · obtain ⟨p, hp, hk⟩ := withRead_eq_next.1 h
    exact .inr ⟨by simpa using h1, by simpa using h2, by omega, p, hp, finish_eq_next.1 hk⟩

theorem execEvqPop_next (h : execEvqPop s = .next t) :
    Raised s t ∨ ∃ e rest, s.evq = e :: rest ∧ t = { s with evq := rest, err := .ok } := by
  unfold execEvqPop at h
  cases he : s.evq with
  | nil => rw [he] at h; exact .inl ⟨_, by decide, raise_eq_next.1 h⟩
  | cons e rest => rw [he] at h; exact .inr ⟨e, rest, rfl, finish_eq_next.1 h⟩

end Sys2Proof.Machine
end

