-- ==== Sys2Proof/Laws/Agents.lean ====
section
/-! SUPPORT. Everything an RX step, a TX transition, a host access and one step of the machine can answer. -/

namespace Sys2Proof.Machine

variable {s t : State}

/-! ## The RX agent -/

/-- The analysis after an `add`: nothing but draws, or the decode of a hit. -/
theorem analyse_next (h : analyse s = .next t) :
    (s.rbSteps.toNat < s.derived.syncThresh.toNat ∧ t = s) ∨
    (s.derived.syncThresh.toNat ≤ s.rbSteps.toNat ∧ ∃ o, s.snapshot = some o ∧
      ((¬ ((s.syncOn o).1.start = true ∧ (s.syncOn o).1.stop = true) ∧ t = { s with env := (s.syncOn o).2 }) ∨
       ((s.syncOn o).1.start = true ∧ (s.syncOn o).1.stop = true ∧
         t = afterHit (decodeAndEmit o { s with env := (s.syncOn o).2 })))) := by
  unfold analyse at h
  split_ifs at h with h1
  · simp only [Host.Outcome.next.injEq] at h; exact .inl ⟨h1, h.symm⟩
  · obtain ⟨o, ho, hk⟩ := withRead_eq_next.1 h
    refine .inr ⟨by omega, o, ho, ?_⟩
    simp only at hk
    split_ifs at hk with h2 <;> simp only [Host.Outcome.next.injEq] at hk
    · exact .inr ⟨h2.1, h2.2, hk.symm⟩
    · exact .inl ⟨h2, hk.symm⟩

/-- The five ways an RX step ends (46_orchestrator R462). -/
theorem rxStep_next (h : rxStep s = .next t) :
    s.rxEnabled = true ∧
    ((s.cancelReq = true ∧ t = endSession .cancelled s) ∨
     (s.cancelReq = false ∧ s.stopReq = true ∧ t = endSession .stopped s) ∨
     (s.cancelReq = false ∧ s.stopReq = false ∧ (drawCapRead s.stepLenNat s.env).1.length < s.stepLenNat ∧
       t = { s with env := (drawCapRead s.stepLenNat s.env).2 }) ∨
     (s.cancelReq = false ∧ s.stopReq = false ∧ (drawCapRead s.stepLenNat s.env).1.length = s.stepLenNat ∧
       analyse (ringAdd ((drawCapRead s.stepLenNat s.env).1.map sampleF32)
         { s with env := (drawCapRead s.stepLenNat s.env).2 }) = .next t)) := by
  unfold rxStep at h
  simp only at h
  split_ifs at h with h1 h2 h3 h4 h5
  · simp only [Host.Outcome.next.injEq] at h; exact ⟨by simpa using h1, .inl ⟨h2, h.symm⟩⟩
  · simp only [Host.Outcome.next.injEq] at h
    exact ⟨by simpa using h1, .inr (.inl ⟨by simpa using h2, h3, h.symm⟩)⟩
  · simp only [Host.Outcome.next.injEq] at h
    exact ⟨by simpa using h1, .inr (.inr (.inl ⟨by simpa using h2, by simpa using h3, h5, h.symm⟩))⟩
  · exact ⟨by simpa using h1, .inr (.inr (.inr ⟨by simpa using h2, by simpa using h3, by omega, h⟩))⟩

theorem playDone_next (h : playDone s = .next t) :
    s.sending = true ∧ t = { s with txState := .idle, handoff := none } := by
  unfold playDone at h
  split_ifs at h with h1
  simp only [Host.Outcome.next.injEq] at h
  exact ⟨h1, h.symm⟩

/-! ## The host -/

/-- A host read changes `busData` and nothing else. -/
theorem busRead_next {w : Nat} {a : Word} (h : busRead w a s = .next t) :
    ∃ r v, regionOf s w a = some r ∧ s.readRegion r a.toNat = some v ∧ t = { s with busData := some v } := by
  unfold busRead at h
  split at h
  · cases h
  · obtain ⟨v, hv, hk⟩ := withRead_eq_next.1 h
    simp only [Host.Outcome.next.injEq] at hk
    exact ⟨_, v, ‹_›, hv, hk.symm⟩

/-- A host write: a command, a register, an element of PBUF, BBUF or INBUF, or nothing. -/
theorem busWrite_next {w : Nat} {a v : Word} (h : busWrite w a v s = .next t) :
    (regionOf s w a = some .registers ∧ a.toNat = cmdOffset ∧ runCommand v s = .next t) ∨
    (regionOf s w a = some .registers ∧ a.toNat ≠ cmdOffset ∧ t = s.writeRegister a.toNat v) ∨
    (regionOf s w a = some .pbuf ∧ t = { s with mem := Memory.writeWords s.mem a.toNat [byteWord (wordByte v)] }) ∨
    (regionOf s w a = some .bbuf ∧ t = { s with mem := Memory.writeWords s.mem a.toNat [bitWord (wordBit v)] }) ∨
    (regionOf s w a = some .inbuf ∧
      t = { s with mem := Memory.writeWords s.mem a.toNat [sampleWord (wordSample v)] }) ∨
    ((∃ r, regionOf s w a = some r ∧
      (r = .ibuf ∨ r = .rb ∨ r = .wbuf ∨ r = .pcm ∨ r = .spec ∨ r = .rxbits ∨ r = .evdata)) ∧ t = s) := by
  unfold busWrite at h
  cases hr : regionOf s w a with
  | none => rw [hr] at h; cases h
  | some r =>
    rw [hr] at h
    cases r with
    | registers =>
      simp only [writeRegion] at h
      split_ifs at h with h1
      · exact .inl ⟨rfl, h1, h⟩
      · exact .inr (.inl ⟨rfl, h1, (Host.Outcome.next.inj h).symm⟩)
    | pbuf => exact .inr (.inr (.inl ⟨rfl, (Host.Outcome.next.inj h).symm⟩))
    | bbuf => exact .inr (.inr (.inr (.inl ⟨rfl, (Host.Outcome.next.inj h).symm⟩)))
    | inbuf => exact .inr (.inr (.inr (.inr (.inl ⟨rfl, (Host.Outcome.next.inj h).symm⟩))))
    | _ => exact .inr (.inr (.inr (.inr (.inr ⟨⟨_, rfl, by simp⟩, (Host.Outcome.next.inj h).symm⟩))))

/-- The next move is taken from the pending interleaving. -/
theorem step_cons {m : Move} {rest : List Move} (h : s.pending = m :: rest) :
    step s = runMove m { s with pending := rest } := by simp [step, stepPending, h]

theorem step_nil (h : s.pending = []) : step s = .next s := by simp [step, stepPending, h]

/-- What a decoded command word does. -/
theorem runCommand_ok {w : Word} {i : Instr} (h : decodeWord w = .ok i) (s : State) : runCommand w s = exec i s := by
  simp [runCommand, h]

theorem runCommand_error {w : Word} {e : DecodeError} (h : decodeWord w = .error e) (s : State) :
    runCommand w s = raise .illegalCommand s := by simp [runCommand, h]

end Sys2Proof.Machine
end

