-- ==== Sys2Proof/Laws/Pi.lean ====
section
/-! SUPPORT. Division in fixed point, and π by Machin's formula within two units at every precision from the first on. -/

open Finset

namespace Sys2Proof.Machine

/-- Integer division is within one unit of the quotient. -/
theorem ediv_near (a : ℤ) {d : ℕ} (hd : 0 < d) : |((a / (d : ℤ) : ℤ) : ℝ) - a / d| ≤ 1 := by
  have hd' : (0 : ℝ) < d := by exact_mod_cast hd
  have h := Int.emod_add_mul_ediv a d
  have h1 := Int.emod_nonneg a (by exact_mod_cast hd.ne' : (d : ℤ) ≠ 0)
  have h2 := Int.emod_lt_of_pos a (by exact_mod_cast hd : (0 : ℤ) < d)
  have e : ((a / (d : ℤ) : ℤ) : ℝ) - a / d = -((a % (d : ℤ) : ℤ) : ℝ) / d := by
    have : (a : ℝ) = ((a % (d : ℤ) : ℤ) : ℝ) + d * ((a / (d : ℤ) : ℤ) : ℝ) := by exact_mod_cast h.symm
    rw [this]; field_simp; ring
  rw [e, abs_div, abs_neg, abs_of_pos hd', div_le_one hd', abs_of_nonneg (by exact_mod_cast h1)]
  exact_mod_cast h2.le

/-- Division of naturals is within one unit of the quotient. -/
theorem ndiv_near (a : ℕ) {d : ℕ} (hd : 0 < d) : |((a / d : ℕ) : ℝ) - a / d| ≤ 1 := by
  have h := ediv_near (a : ℤ) hd
  rwa [← Int.natCast_div, Int.cast_natCast, Int.cast_natCast] at h

/-- The truncated arctangent series in fixed point: three units for each term. -/
theorem arctanGo_near {n2 : ℕ} (hn : 25 ≤ n2) (fuel k : ℕ) (t : ℤ) (x : ℝ) (h : |(t : ℝ) - x| ≤ 2) :
    |(arctanGo n2 fuel k t : ℝ) - ∑ j ∈ range fuel, (-1) ^ j * (x / n2 ^ j) / (2 * (k + j : ℕ) + 1 : ℕ)| ≤ 3 * fuel := by
  induction fuel generalizing k t x with
  | zero => simp [arctanGo]
  | succ fuel ih =>
    have hn' : (25 : ℝ) ≤ n2 := by exact_mod_cast hn
    have d1 := ediv_near t (d := 2 * k + 1) (by omega)
    have d2 := ediv_near t (d := n2) (by omega)
    have hk : (1 : ℝ) ≤ (2 * k + 1 : ℕ) := by exact_mod_cast (by omega : 1 ≤ 2 * k + 1)
    have s1 : |(t : ℝ) / (2 * k + 1 : ℕ) - x / (2 * k + 1 : ℕ)| ≤ 2 := by
      rw [← sub_div, abs_div, abs_of_pos (by linarith : (0 : ℝ) < (2 * k + 1 : ℕ))]
      exact (div_le_self (abs_nonneg _) hk).trans h
    have s2 : |(t : ℝ) / n2 - x / n2| ≤ 2 / 25 := by
      rw [← sub_div, abs_div, abs_of_pos (by linarith : (0 : ℝ) < n2)]
      gcongr
    have r := ih (k + 1) (t / (n2 : ℤ)) (x / n2) (by
      have := abs_sub_le (((t / (n2 : ℤ) : ℤ)) : ℝ) (t / n2) (x / n2)
      linarith)
    rw [sum_range_succ', arctanGo]
    have e : ∑ j ∈ range fuel, (-1 : ℝ) ^ (j + 1) * (x / n2 ^ (j + 1)) / (2 * (k + (j + 1) : ℕ) + 1 : ℕ) =
        -∑ j ∈ range fuel, (-1 : ℝ) ^ j * (x / n2 / n2 ^ j) / (2 * (k + 1 + j : ℕ) + 1 : ℕ) := by
      rw [← sum_neg_distrib]
      refine sum_congr rfl fun j _ => ?_
      rw [show k + (j + 1) = k + 1 + j by omega, pow_succ, pow_succ, div_div, mul_comm (n2 : ℝ) (n2 ^ j)]
      ring
    rw [e]
    push_cast at d1 s1 r ⊢
    rw [abs_le] at *
    simp only [pow_zero, one_mul, div_one, add_zero] at *
    constructor <;> nlinarith [d1.1, d1.2, s1.1, s1.2, r.1, r.2]

/-- `arctan (1 / n)`, its series cut where the rest is below a unit. -/
theorem arctanInv_near (p : ℕ) {n : ℕ} (hn : 5 ≤ n) :
    |(arctanInv p n : ℝ) - Real.arctan (n : ℝ)⁻¹ * 2 ^ p| ≤ p + 6 := by
  have hn' : (5 : ℝ) ≤ n := by exact_mod_cast hn
  have hn0 : (0 : ℝ) < n := by linarith
  have h1 := arctanGo_near (n2 := n * n) (by nlinarith) (p / 4 + 1) 0 (fixOne p / n : ℕ) (2 ^ p / n) (by
    have := ndiv_near (fixOne p) (d := n) (by omega)
    simp only [fixOne, Nat.cast_pow, Nat.cast_ofNat, Int.cast_natCast] at *
    linarith)
  have hx : ‖(n : ℝ)⁻¹‖ < 1 := by
    rw [Real.norm_of_nonneg (by positivity)]
    exact inv_lt_one_of_one_lt₀ (by linarith)
  have hinv : (n : ℝ)⁻¹ ≤ 1 / 5 := by rw [inv_eq_one_div]; gcongr
  have h2 := norm_sub_le_of_geometric_bound_of_hasSum (r := 1 / 25) (C := 1) (by norm_num) (fun j => by
    rw [norm_div, norm_mul, norm_pow, norm_neg, norm_one, one_pow, one_mul, one_mul, norm_pow,
      Real.norm_of_nonneg (by positivity : (0 : ℝ) ≤ (n : ℝ)⁻¹)]
    calc (n : ℝ)⁻¹ ^ (2 * j + 1) / ‖((2 * j + 1 : ℕ) : ℝ)‖ ≤ (n : ℝ)⁻¹ ^ (2 * j + 1) := by
          apply div_le_self (by positivity)
          rw [Real.norm_natCast]; exact_mod_cast (by omega : 1 ≤ 2 * j + 1)
      _ ≤ (n : ℝ)⁻¹ ^ (2 * j) := pow_le_pow_of_le_one (by positivity) (by linarith) (by omega)
      _ ≤ (1 / 25) ^ j := by
          rw [pow_mul]; exact pow_le_pow_left₀ (by positivity) (by nlinarith [inv_pos.2 hn0]) _) (Real.hasSum_arctan hx) (p / 4 + 1)
  rw [Real.norm_eq_abs] at h2
  have h3 : (1 : ℝ) * (1 / 25) ^ (p / 4 + 1) / (1 - 1 / 25) * 2 ^ p ≤ 1 := by
    have h16 : (2 : ℝ) ^ p ≤ 16 ^ (p / 4 + 1) := by
      rw [show (16 : ℝ) = 2 ^ 4 by norm_num, ← pow_mul]
      exact pow_le_pow_right₀ (by norm_num) (by omega)
    have h25 : (1 / 25 : ℝ) ^ (p / 4 + 1) * 16 ^ (p / 4 + 1) ≤ 16 / 25 := by
      rw [← mul_pow]
      calc (1 / 25 * 16 : ℝ) ^ (p / 4 + 1) ≤ (1 / 25 * 16 : ℝ) ^ 1 := pow_le_pow_of_le_one (by norm_num) (by norm_num) (by omega)
        _ = 16 / 25 := by norm_num
    have : (1 / 25 : ℝ) ^ (p / 4 + 1) * 2 ^ p ≤ 16 / 25 :=
      (mul_le_mul_of_nonneg_left h16 (by positivity)).trans h25
    rw [one_mul, div_mul_eq_mul_div, div_le_one (by norm_num)]
    linarith
  have e : ∑ j ∈ range (p / 4 + 1), (-1 : ℝ) ^ j * ((2 : ℝ) ^ p / n / (n * n : ℕ) ^ j) / (2 * (0 + j : ℕ) + 1 : ℕ) =
      (∑ j ∈ range (p / 4 + 1), (-1 : ℝ) ^ j * (n : ℝ)⁻¹ ^ (2 * j + 1) / (2 * j + 1 : ℕ)) * 2 ^ p := by
    rw [sum_mul]
    refine sum_congr rfl fun j _ => ?_
    have : (n : ℝ)⁻¹ ^ (2 * j + 1) = 1 / n / (n * n : ℕ) ^ j := by
      rw [pow_succ, pow_mul, Nat.cast_mul, ← pow_two, inv_pow, inv_pow]; field_simp
    rw [this]; simp only [zero_add]; ring
  rw [e] at h1
  have h4 : |(∑ j ∈ range (p / 4 + 1), (-1 : ℝ) ^ j * (n : ℝ)⁻¹ ^ (2 * j + 1) / (2 * j + 1 : ℕ)) * 2 ^ p -
      Real.arctan (n : ℝ)⁻¹ * 2 ^ p| ≤ 1 := by
    rw [← sub_mul, abs_mul, abs_of_pos (by positivity : (0 : ℝ) < 2 ^ p)]
    exact (mul_le_mul_of_nonneg_right h2 (by positivity)).trans h3
  have h5 : (3 : ℝ) * ((p / 4 + 1 : ℕ) : ℝ) ≤ p + 3 := by
    have : 3 * (p / 4 + 1) ≤ p + 3 := by omega
    exact_mod_cast this
  have := abs_sub_le (arctanInv p n : ℝ) ((∑ j ∈ range (p / 4 + 1), (-1 : ℝ) ^ j * (n : ℝ)⁻¹ ^ (2 * j + 1) / (2 * j + 1 : ℕ)) * 2 ^ p) (Real.arctan (n : ℝ)⁻¹ * 2 ^ p)
  unfold arctanInv at *
  linarith

/-- The guard bits outweigh the error of a series of that many terms. -/
theorem guardBits_bounds {p : ℕ} (hp : firstPrec ≤ p) : 128 * p ≤ 2 ^ guardBits p ∧ guardBits p ≤ p := by
  constructor
  · have h1 : p < 2 ^ (p.log2 + 1) := Nat.lt_log2_self
    rw [guardBits, show p.log2 + 8 = (p.log2 + 1) + 7 by omega, pow_add]
    omega
  · have h2 : 2 ^ p.log2 ≤ p := Nat.log2_self_le (by simp [firstPrec] at hp; omega)
    rw [guardBits]
    rcases Nat.lt_or_ge p.log2 5 with h | h
    · simp [firstPrec] at hp; omega
    · obtain ⟨m, hm⟩ := Nat.exists_eq_add_of_le h
      rw [hm, pow_add] at h2
      have := @Nat.lt_two_pow_self m
      omega

/-- π at the precision `p`, within two units. -/
theorem piFix_near {p : ℕ} (hp : firstPrec ≤ p) : |(piFix p : ℝ) - Real.pi * 2 ^ p| ≤ 2 := by
  have key : ∀ p : ℕ, firstPrec ≤ p →
      |((4 * (4 * arctanInv (p + guardBits p) 5 - arctanInv (p + guardBits p) 239) / (fixOne (guardBits p) : ℤ) : ℤ) : ℝ) -
        Real.pi * 2 ^ p| ≤ 2 := by
    intro p hp
    set g := guardBits p with hg
    have a5 := arctanInv_near (p + g) (n := 5) le_rfl
    have a239 := arctanInv_near (p + g) (n := 239) (by norm_num)
    have d := ediv_near (4 * (4 * arctanInv (p + g) 5 - arctanInv (p + g) 239)) (d := fixOne g) (by simp [fixOne])
    obtain ⟨hgp', hgle'⟩ := guardBits_bounds hp
    have hgp : (128 : ℝ) * p ≤ 2 ^ g := by exact_mod_cast hgp'
    have hgle : (g : ℝ) ≤ p := by exact_mod_cast hgle'
    have hp' : (256 : ℝ) ≤ p := by exact_mod_cast hp
    have hpos : (0 : ℝ) < 2 ^ g := by positivity
    have machin := Real.four_mul_arctan_inv_5_sub_arctan_inv_239
    have hpi : Real.pi * 2 ^ p = 4 * (4 * (Real.arctan 5⁻¹ * 2 ^ (p + g)) - Real.arctan 239⁻¹ * 2 ^ (p + g)) / 2 ^ g := by
      rw [eq_div_iff hpos.ne', mul_assoc, ← pow_add]
      linear_combination (-4 * 2 ^ (p + g)) * machin
    push_cast at a5 a239 d
    simp only [fixOne, Nat.cast_pow, Nat.cast_ofNat] at d ⊢
    rw [hpi]
    have e : |4 * (4 * (arctanInv (p + g) 5 : ℝ) - arctanInv (p + g) 239) / 2 ^ g -
        4 * (4 * (Real.arctan 5⁻¹ * 2 ^ (p + g)) - Real.arctan 239⁻¹ * 2 ^ (p + g)) / 2 ^ g| ≤ 1 := by
      rw [← sub_div, abs_div, abs_of_pos hpos, div_le_one hpos]
      rw [abs_le] at a5 a239 ⊢
      constructor <;> linarith [a5.1, a5.2, a239.1, a239.2]
    have := abs_sub_le (((4 * (4 * arctanInv (p + g) 5 - arctanInv (p + g) 239) / (2 ^ g) : ℤ)) : ℝ)
      (4 * (4 * (arctanInv (p + g) 5 : ℝ) - arctanInv (p + g) 239) / 2 ^ g)
      (4 * (4 * (Real.arctan 5⁻¹ * 2 ^ (p + g)) - Real.arctan 239⁻¹ * 2 ^ (p + g)) / 2 ^ g)
    linarith
  have pos : ∀ p : ℕ, firstPrec ≤ p →
      0 ≤ 4 * (4 * arctanInv (p + guardBits p) 5 - arctanInv (p + guardBits p) 239) / (fixOne (guardBits p) : ℤ) := by
    intro p hp
    have h := (abs_le.1 (key p hp)).1
    have h2 : (1 : ℝ) ≤ 2 ^ p := one_le_pow₀ (by norm_num)
    have h3 := Real.pi_gt_three
    have h4 : (0 : ℝ) ≤ ((4 * (4 * arctanInv (p + guardBits p) 5 - arctanInv (p + guardBits p) 239) /
      (fixOne (guardBits p) : ℤ) : ℤ) : ℝ) := by nlinarith
    exact_mod_cast h4
  unfold piFix
  split_ifs with h
  · have e : (4 * (4 * arctanInv (firstPrec + guardBits firstPrec) 5 - arctanInv (firstPrec + guardBits firstPrec) 239) /
        (fixOne (guardBits firstPrec) : ℤ)) =
        (363771576891766324280234942777729862653393377328392429958772151117938894466185 : ℕ) := by decide +kernel
    have := key p hp
    rw [h, e, Int.cast_natCast] at this
    rwa [h]
  · have := key p hp
    rw [← Int.cast_natCast, Int.toNat_of_nonneg (pos p hp)]
    exact this

end Sys2Proof.Machine
end

