-- ==== Sys2Proof/Laws/Circle.lean ====
section
/-! SUPPORT. The unit circle (43_synth R313, 44_framesync R353, 45_decoder R392): the sine and cosine series, `unitTurn` and `phasor` hold the exact points they name. -/

open Finset

namespace Sys2Proof.Machine

/-- The truncated cosine series in Horner form. -/
noncomputable def cosSum (x : ℝ) : ℕ → ℕ → ℝ
  | 0, _ => 1
  | fuel + 1, k => 1 - x * cosSum x fuel (k + 1) / ((2 * k + 1) * (2 * k + 2) : ℕ)

/-- The truncated series of `sin θ / θ` in Horner form. -/
noncomputable def sinSum (x : ℝ) : ℕ → ℕ → ℝ
  | 0, _ => 1
  | fuel + 1, k => 1 - x * sinSum x fuel (k + 1) / ((2 * k + 2) * (2 * k + 3) : ℕ)

/-- `cosSum` as a sum over factorials. -/
theorem cosSum_eq (x : ℝ) (fuel k : ℕ) :
    cosSum x fuel k = ∑ j ∈ range (fuel + 1), (-1) ^ j * x ^ j * ((2 * k).factorial / (2 * (k + j)).factorial : ℝ) := by
  induction fuel generalizing k with
  | zero => simp [cosSum, div_self, Nat.factorial_ne_zero]
  | succ fuel ih =>
    rw [sum_range_succ', cosSum, ih]
    have e : ((2 * (k + 1)).factorial : ℝ) = (2 * k).factorial * ((2 * k + 1) * (2 * k + 2) : ℕ) := by
      rw [show 2 * (k + 1) = 2 * k + 1 + 1 by ring, Nat.factorial_succ, Nat.factorial_succ]; push_cast; ring
    have h : (0 : ℝ) < ((2 * k + 1) * (2 * k + 2) : ℕ) := by positivity
    rw [mul_sum, sum_div]
    simp only [pow_zero, one_mul, add_zero, div_self (Nat.cast_ne_zero.2 (Nat.factorial_ne_zero (2 * k)) : ((2 * k).factorial : ℝ) ≠ 0)]
    rw [sub_eq_add_neg, add_comm, ← sum_neg_distrib, add_left_inj]
    refine sum_congr rfl fun j _ => ?_
    rw [e, show k + 1 + j = k + (j + 1) by ring]
    field_simp
    ring

/-- `sinSum` as a sum over factorials. -/
theorem sinSum_eq (x : ℝ) (fuel k : ℕ) :
    sinSum x fuel k = ∑ j ∈ range (fuel + 1), (-1) ^ j * x ^ j * ((2 * k + 1).factorial / (2 * (k + j) + 1).factorial : ℝ) := by
  induction fuel generalizing k with
  | zero => simp [sinSum, div_self, Nat.factorial_ne_zero]
  | succ fuel ih =>
    rw [sum_range_succ', sinSum, ih]
    have e : ((2 * (k + 1) + 1).factorial : ℝ) = (2 * k + 1).factorial * ((2 * k + 2) * (2 * k + 3) : ℕ) := by
      rw [show 2 * (k + 1) + 1 = 2 * k + 1 + 1 + 1 by ring, Nat.factorial_succ, Nat.factorial_succ]; push_cast; ring
    have h : (0 : ℝ) < ((2 * k + 2) * (2 * k + 3) : ℕ) := by positivity
    rw [mul_sum, sum_div]
    simp only [pow_zero, one_mul, add_zero, div_self (Nat.cast_ne_zero.2 (Nat.factorial_ne_zero (2 * k + 1)) : ((2 * k + 1).factorial : ℝ) ≠ 0)]
    rw [sub_eq_add_neg, add_comm, ← sum_neg_distrib, add_left_inj]
    refine sum_congr rfl fun j _ => ?_
    rw [e, show k + 1 + j = k + (j + 1) by ring]
    field_simp
    ring

/-- Factorials outgrow the powers of 64. -/
theorem pow_le_factorial (j : ℕ) : 64 ^ j ≤ 2 ^ 20 * (2 * j).factorial := by
  rcases Nat.lt_or_ge j 4 with h | h
  · interval_cases j <;> decide
  · induction j, h using Nat.le_induction with
    | base => decide
    | succ j hj ih =>
      rw [show 2 * (j + 1) = 2 * j + 1 + 1 by ring, Nat.factorial_succ, Nat.factorial_succ, pow_succ]
      have : 64 ≤ (2 * j + 1 + 1) * (2 * j + 1) := by nlinarith
      calc 64 ^ j * 64 ≤ (2 ^ 20 * (2 * j).factorial) * ((2 * j + 1 + 1) * (2 * j + 1)) := Nat.mul_le_mul ih this
        _ = _ := by ring

/-- A term of either series is below a geometric sequence of ratio 1/64. -/
theorem term_le {x : ℝ} (h0 : 0 ≤ x) (h1 : x ≤ 1) (j m : ℕ) (hm : 2 * j ≤ m) :
    x ^ j / (m.factorial : ℝ) ≤ 2 ^ 20 * (1 / 64) ^ j := by
  have hf : (0 : ℝ) < m.factorial := by positivity
  rw [div_le_iff₀ hf]
  have h := pow_le_factorial j
  have h2 : (2 * j).factorial ≤ m.factorial := Nat.factorial_le hm
  have h3 : (64 : ℝ) ^ j ≤ 2 ^ 20 * m.factorial := by exact_mod_cast h.trans (Nat.mul_le_mul_left _ h2)
  calc x ^ j ≤ 1 := pow_le_one₀ h0 h1
    _ = 64 ^ j * (1 / 64) ^ j := by rw [← mul_pow]; norm_num
    _ ≤ 2 ^ 20 * m.factorial * (1 / 64) ^ j := by gcongr
    _ = _ := by ring

/-- What the cut series leaves out is below one unit. -/
theorem tail_le (p : ℕ) : (2 : ℝ) ^ 20 * (1 / 64) ^ (trigTerms p + 1) / (1 - 1 / 64) * 2 ^ p ≤ 1 := by
  have h1 : (2 : ℝ) ^ p ≤ 64 ^ (p / 6 + 1) := by
    rw [show (64 : ℝ) = 2 ^ 6 by norm_num, ← pow_mul]
    exact pow_le_pow_right₀ (by norm_num) (by omega)
  have h2 : (1 / 64 : ℝ) ^ (trigTerms p + 1) * 64 ^ (p / 6 + 1) = (1 / 64) ^ 8 := by
    rw [trigTerms, show p / 6 + 8 + 1 = p / 6 + 1 + 8 by ring, pow_add, mul_right_comm, ← mul_pow]; norm_num
  have h3 : (1 / 64 : ℝ) ^ (trigTerms p + 1) * 2 ^ p ≤ (1 / 64) ^ 8 := by
    rw [← h2]; gcongr
  calc _ = (2 : ℝ) ^ 20 / (1 - 1 / 64) * ((1 / 64) ^ (trigTerms p + 1) * 2 ^ p) := by ring
    _ ≤ (2 : ℝ) ^ 20 / (1 - 1 / 64) * (1 / 64) ^ 8 := by gcongr
    _ ≤ 1 := by norm_num

/-- The cut cosine series is within one unit of the cosine. -/
theorem cosSum_near (p : ℕ) {θ : ℝ} (h : θ ^ 2 ≤ 1) :
    |cosSum (θ ^ 2) (trigTerms p) 0 * 2 ^ p - Real.cos θ * 2 ^ p| ≤ 1 := by
  have hs := norm_sub_le_of_geometric_bound_of_hasSum (r := 1 / 64) (C := 2 ^ 20) (by norm_num) (fun j => by
    rw [norm_div, norm_mul, norm_pow, norm_neg, norm_one, one_pow, one_mul, norm_pow, Real.norm_natCast, pow_mul,
      Real.norm_eq_abs, sq_abs]
    exact term_le (by positivity) h j _ le_rfl) (Real.hasSum_cos θ) (trigTerms p + 1)
  have e : cosSum (θ ^ 2) (trigTerms p) 0 =
      ∑ j ∈ range (trigTerms p + 1), (-1) ^ j * θ ^ (2 * j) / ((2 * j).factorial : ℝ) := by
    rw [cosSum_eq]
    refine sum_congr rfl fun j _ => ?_
    rw [pow_mul]; simp; ring
  rw [e, ← sub_mul, abs_mul, abs_of_pos (by positivity : (0 : ℝ) < 2 ^ p), ← Real.norm_eq_abs]
  exact (mul_le_mul_of_nonneg_right hs (by positivity)).trans (tail_le p)

/-- The cut sine series is within one unit of the sine. -/
theorem sinSum_near (p : ℕ) {θ : ℝ} (h : θ ^ 2 ≤ 1) :
    |θ * sinSum (θ ^ 2) (trigTerms p) 0 * 2 ^ p - Real.sin θ * 2 ^ p| ≤ 1 := by
  have hs := norm_sub_le_of_geometric_bound_of_hasSum (r := 1 / 64) (C := 2 ^ 20) (by norm_num) (fun j => by
    rw [norm_div, norm_mul, norm_pow, norm_neg, norm_one, one_pow, one_mul, norm_pow, Real.norm_natCast, pow_succ, pow_mul,
      Real.norm_eq_abs, sq_abs]
    have h1 : |θ| ≤ 1 := by rw [← sq_le_one_iff_abs_le_one]; exact h
    calc (θ ^ 2) ^ j * |θ| / ((2 * j + 1).factorial : ℝ) ≤ (θ ^ 2) ^ j * 1 / ((2 * j + 1).factorial : ℝ) := by gcongr
      _ ≤ _ := by rw [mul_one]; exact term_le (by positivity) h j _ (by omega)) (Real.hasSum_sin θ) (trigTerms p + 1)
  have e : θ * sinSum (θ ^ 2) (trigTerms p) 0 =
      ∑ j ∈ range (trigTerms p + 1), (-1) ^ j * θ ^ (2 * j + 1) / ((2 * j + 1).factorial : ℝ) := by
    rw [sinSum_eq, mul_sum]
    refine sum_congr rfl fun j _ => ?_
    rw [pow_succ θ (2 * j), pow_mul]; simp; ring
  rw [e, ← sub_mul, abs_mul, abs_of_pos (by positivity : (0 : ℝ) < 2 ^ p), ← Real.norm_eq_abs]
  exact (mul_le_mul_of_nonneg_right hs (by positivity)).trans (tail_le p)

/-- One Horner step `1 - x c / d` of either series, in fixed point. -/
theorem horner_near {p x c d : ℕ} {X C : ℝ} (hd : 0 < d) (hx : x ≤ 2 ^ p) (hc : c ≤ 2 ^ p) (hX0 : 0 ≤ X)
    (hxX : |(x : ℝ) - X * 2 ^ p| ≤ 4) (hX : X ≤ 31 / 50) {e : ℝ} (he : |(c : ℝ) - C * 2 ^ p| ≤ e) :
    fixOne p - x * c / (fixOne p * d) ≤ 2 ^ p ∧
    |((fixOne p - x * c / (fixOne p * d) : ℕ) : ℝ) - (1 - X * C / d) * 2 ^ p| ≤ 1 + (4 + 31 / 50 * e) / d := by
  have hle : x * c / (fixOne p * d) ≤ fixOne p := by
    apply Nat.div_le_of_le_mul
    calc x * c ≤ 2 ^ p * 2 ^ p := Nat.mul_le_mul hx hc
      _ ≤ fixOne p * d * fixOne p := by
        unfold fixOne
        rw [mul_right_comm]; exact Nat.le_mul_of_pos_right _ hd
  refine ⟨Nat.sub_le _ _, ?_⟩
  have hP : (0 : ℝ) < 2 ^ p := by positivity
  have hd' : (0 : ℝ) < d := by exact_mod_cast hd
  have h1 := ndiv_near (x * c) (d := fixOne p * d) (by simp [fixOne, hd])
  rw [Nat.cast_sub hle]
  simp only [fixOne] at *
  push_cast at h1 ⊢
  have hc' : (c : ℝ) ≤ 2 ^ p := by exact_mod_cast hc
  have h2 : |(x : ℝ) * c / (2 ^ p * d) - X * C * 2 ^ p / d| ≤ (4 + 31 / 50 * e) / d := by
    have : (x : ℝ) * c / (2 ^ p * d) - X * C * 2 ^ p / d =
        ((x - X * 2 ^ p) * (c / 2 ^ p) + X * (c - C * 2 ^ p)) / d := by field_simp; ring
    rw [this, abs_div, abs_of_pos hd']
    apply div_le_div_of_nonneg_right _ hd'.le
    refine (abs_add_le _ _).trans (add_le_add ?_ ?_)
    · rw [abs_mul, abs_of_nonneg (by positivity : (0 : ℝ) ≤ c / 2 ^ p)]
      have : (c : ℝ) / 2 ^ p ≤ 1 := by rw [div_le_one hP]; exact hc'
      nlinarith [abs_nonneg ((x : ℝ) - X * 2 ^ p)]
    · rw [abs_mul, abs_of_nonneg hX0]
      exact mul_le_mul hX he (abs_nonneg _) (by norm_num)
  have h3 : (1 - X * C / d) * 2 ^ p = 2 ^ p - X * C * 2 ^ p / d := by ring
  rw [h3]
  rw [abs_le] at *
  constructor <;> linarith [h1.1, h1.2, h2.1, h2.2]

/-- The cosine series in fixed point. -/
theorem cosGo_near {p x : ℕ} {X : ℝ} (hx : x ≤ 2 ^ p) (hX0 : 0 ≤ X) (hxX : |(x : ℝ) - X * 2 ^ p| ≤ 4) (hX : X ≤ 31 / 50)
    (fuel k : ℕ) : cosGo p x fuel k ≤ 2 ^ p ∧ |(cosGo p x fuel k : ℝ) - cosSum X fuel k * 2 ^ p| ≤ 5 := by
  induction fuel generalizing k with
  | zero => simp [cosGo, cosSum, fixOne]
  | succ fuel ih =>
    obtain ⟨h1, h2⟩ := ih (k + 1)
    have h := horner_near (d := (2 * k + 1) * (2 * k + 2)) (by positivity) hx h1 hX0 hxX hX h2
    refine ⟨h.1, h.2.trans ?_⟩
    have : (2 : ℝ) ≤ ((2 * k + 1) * (2 * k + 2) : ℕ) := by exact_mod_cast (by nlinarith : 2 ≤ (2 * k + 1) * (2 * k + 2))
    have : (4 + 31 / 50 * 5 : ℝ) / ((2 * k + 1) * (2 * k + 2) : ℕ) ≤ (4 + 31 / 50 * 5 : ℝ) / 2 := by gcongr
    linarith

/-- The series of `sin θ / θ` in fixed point. -/
theorem sinGo_near {p x : ℕ} {X : ℝ} (hx : x ≤ 2 ^ p) (hX0 : 0 ≤ X) (hxX : |(x : ℝ) - X * 2 ^ p| ≤ 4) (hX : X ≤ 31 / 50)
    (fuel k : ℕ) : sinGo p x fuel k ≤ 2 ^ p ∧ |(sinGo p x fuel k : ℝ) - sinSum X fuel k * 2 ^ p| ≤ 2 := by
  induction fuel generalizing k with
  | zero => simp [sinGo, sinSum, fixOne]
  | succ fuel ih =>
    obtain ⟨h1, h2⟩ := ih (k + 1)
    have h := horner_near (d := (2 * k + 2) * (2 * k + 3)) (by positivity) hx h1 hX0 hxX hX h2
    refine ⟨h.1, h.2.trans ?_⟩
    have : (6 : ℝ) ≤ ((2 * k + 2) * (2 * k + 3) : ℕ) := by exact_mod_cast (by nlinarith : 6 ≤ (2 * k + 2) * (2 * k + 3))
    have : (4 + 31 / 50 * 2 : ℝ) / ((2 * k + 2) * (2 * k + 3) : ℕ) ≤ (4 + 31 / 50 * 2 : ℝ) / 6 := by gcongr
    linarith

/-- Both parts of `octant` are within 8 units of the cosine and the sine. -/
theorem octant_near {p r b : ℕ} (hp : firstPrec ≤ p) (hb : 0 < b) (hr : 2 * r ≤ b) :
    |((octant p r b).1 : ℝ) - Real.cos (Real.pi / 2 * (r / b)) * 2 ^ p| ≤ 8 ∧
    |((octant p r b).2 : ℝ) - Real.sin (Real.pi / 2 * (r / b)) * 2 ^ p| ≤ 8 := by
  have hb' : (0 : ℝ) < b := by exact_mod_cast hb
  have hr' : 2 * (r : ℝ) ≤ b := by exact_mod_cast hr
  have hP : (0 : ℝ) < 2 ^ p := by positivity
  have hPbig : (1000 : ℝ) ≤ 2 ^ p := by
    have : (2 : ℝ) ^ 10 ≤ 2 ^ p := pow_le_pow_right₀ (by norm_num) (by simp [firstPrec] at hp; omega)
    linarith
  set θ : ℝ := Real.pi / 2 * (r / b) with hθ
  have hq0 : (0 : ℝ) ≤ r / b := by positivity
  have hq1 : (r : ℝ) / b ≤ 1 / 2 := by rw [div_le_div_iff₀ hb' two_pos]; linarith
  have hpi := Real.pi_lt_d4
  have hpi0 := Real.pi_pos
  have hθ0 : 0 ≤ θ := by positivity
  have hθ1 : θ ≤ 63 / 80 := by rw [hθ]; nlinarith
  set t : ℕ := piFix p * r / (2 * b) with ht
  have hpiF := piFix_near hp
  have h1 := ndiv_near (piFix p * r) (d := 2 * b) (by omega)
  rw [← ht] at h1
  push_cast at h1
  have h2 : |(t : ℝ) - θ * 2 ^ p| ≤ 3 / 2 := by
    have : |(piFix p : ℝ) * r / (2 * b) - θ * 2 ^ p| ≤ 1 / 2 := by
      have e : (piFix p : ℝ) * r / (2 * b) - θ * 2 ^ p = (piFix p - Real.pi * 2 ^ p) * (r / b / 2) := by
        rw [hθ]; field_simp
      rw [e, abs_mul, abs_of_nonneg (by positivity : (0 : ℝ) ≤ r / b / 2)]
      nlinarith [abs_nonneg ((piFix p : ℝ) - Real.pi * 2 ^ p)]
    have := abs_sub_le (t : ℝ) (piFix p * r / (2 * b)) (θ * 2 ^ p)
    linarith
  have ht0 : (0 : ℝ) ≤ t := by positivity
  set x : ℕ := t * t / fixOne p with hx
  have h3 := ndiv_near (t * t) (d := fixOne p) (by simp [fixOne])
  rw [← hx] at h3
  simp only [fixOne] at h3
  push_cast at h3
  have h4 : |(x : ℝ) - θ ^ 2 * 2 ^ p| ≤ 4 := by
    have : |(t : ℝ) * t / 2 ^ p - θ ^ 2 * 2 ^ p| ≤ 3 := by
      have e : (t : ℝ) * t / 2 ^ p - θ ^ 2 * 2 ^ p = (t - θ * 2 ^ p) * ((t + θ * 2 ^ p) / 2 ^ p) := by field_simp; ring
      rw [e, abs_mul, abs_of_nonneg (by positivity : (0 : ℝ) ≤ (t + θ * 2 ^ p) / 2 ^ p)]
      have : ((t : ℝ) + θ * 2 ^ p) / 2 ^ p ≤ 2 := by
        rw [div_le_iff₀ hP]
        have := (abs_le.1 h2).2
        nlinarith
      nlinarith [abs_nonneg ((t : ℝ) - θ * 2 ^ p)]
    have := abs_sub_le (x : ℝ) (t * t / 2 ^ p) (θ ^ 2 * 2 ^ p)
    linarith
  have hX0 : 0 ≤ θ ^ 2 := by positivity
  have hX : θ ^ 2 ≤ 31 / 50 + 1 / 1000 := by nlinarith
  have hX' : θ ^ 2 ≤ 31 / 50 := by
    have : θ ≤ 0.7854 := by rw [hθ]; nlinarith
    nlinarith
  have hx1 : x ≤ 2 ^ p := by
    have := (abs_le.1 h4).2
    have : (x : ℝ) ≤ 2 ^ p := by nlinarith
    exact_mod_cast this
  have hc := cosGo_near hx1 hX0 h4 hX' (trigTerms p) 0
  have hs := sinGo_near hx1 hX0 h4 hX' (trigTerms p) 0
  have hc2 := cosSum_near p (θ := θ) (by linarith)
  have hs2 := sinSum_near p (θ := θ) (by linarith)
  refine ⟨?_, ?_⟩
  · have := abs_sub_le (cosGo p x (trigTerms p) 0 : ℝ) (cosSum (θ ^ 2) (trigTerms p) 0 * 2 ^ p) (Real.cos θ * 2 ^ p)
    exact (this.trans (add_le_add hc.2 hc2)).trans (by norm_num)
  · set g := sinGo p x (trigTerms p) 0 with hg
    have h5 := ndiv_near (t * g) (d := fixOne p) (by simp [fixOne])
    simp only [fixOne] at h5
    push_cast at h5
    have hg1 : (g : ℝ) ≤ 2 ^ p := by exact_mod_cast hs.1
    have h6 : |(t : ℝ) * g / 2 ^ p - θ * sinSum (θ ^ 2) (trigTerms p) 0 * 2 ^ p| ≤ 7 / 2 := by
      have e : (t : ℝ) * g / 2 ^ p - θ * sinSum (θ ^ 2) (trigTerms p) 0 * 2 ^ p =
          (t - θ * 2 ^ p) * (g / 2 ^ p) + θ * (g - sinSum (θ ^ 2) (trigTerms p) 0 * 2 ^ p) := by field_simp; ring
      rw [e]
      refine (abs_add_le _ _).trans ?_
      rw [abs_mul, abs_mul, abs_of_nonneg (by positivity : (0 : ℝ) ≤ (g : ℝ) / 2 ^ p), abs_of_nonneg hθ0]
      have h7 : (g : ℝ) / 2 ^ p ≤ 1 := by rw [div_le_one hP]; exact hg1
      have h8 := hs.2
      nlinarith [abs_nonneg ((t : ℝ) - θ * 2 ^ p), abs_nonneg ((g : ℝ) - sinSum (θ ^ 2) (trigTerms p) 0 * 2 ^ p)]
    have e2 : (octant p r b).2 = t * g / 2 ^ p := rfl
    rw [e2]
    have t1 := abs_sub_le ((t * g / 2 ^ p : ℕ) : ℝ) ((t : ℝ) * g / 2 ^ p) (Real.sin θ * 2 ^ p)
    have t2 := abs_sub_le ((t : ℝ) * g / 2 ^ p) (θ * sinSum (θ ^ 2) (trigTerms p) 0 * 2 ^ p) (Real.sin θ * 2 ^ p)
    linarith

/-- A disc whose two parts are within `e` units of `z` holds `z` if its radius is at least `2 e`. -/
theorem Disc.holds_of_near {p : ℕ} {c s : ℝ} {d : Disc} {e : ℝ} (hc : |(d.re : ℝ) - c * 2 ^ p| ≤ e)
    (hs : |(d.im : ℝ) - s * 2 ^ p| ≤ e) (hr : 2 * e ≤ d.rad) : d.Holds p (c + s * Complex.I) := by
  intro _
  refine le_trans (Complex.norm_le_abs_re_add_abs_im _) ?_
  have e1 : (((c : ℂ) + s * Complex.I) * 2 ^ p - (d.re + d.im * Complex.I)).re = c * 2 ^ p - d.re := by
    have : ((2 : ℂ) ^ p) = ((2 ^ p : ℝ) : ℂ) := by push_cast; rfl
    simp [this, -Complex.ofReal_pow]
  have e2 : (((c : ℂ) + s * Complex.I) * 2 ^ p - (d.re + d.im * Complex.I)).im = s * 2 ^ p - d.im := by
    have : ((2 : ℂ) ^ p) = ((2 ^ p : ℝ) : ℂ) := by push_cast; rfl
    simp [this, -Complex.ofReal_pow]
  rw [e1, e2, abs_sub_comm, abs_sub_comm (s * 2 ^ p)]
  linarith

/-- The parts of `unitTurn` before the quarter turns: the cosine and the sine of less than a quarter turn. -/
theorem quarter_near {p r b : ℕ} (hp : firstPrec ≤ p) (hb : 0 < b) (hr : r < b) :
    let cs : Nat × Nat := if 2 * r ≤ b then octant p r b else ((octant p (b - r) b).2, (octant p (b - r) b).1)
    |((cs.1 : ℕ) : ℝ) - Real.cos (Real.pi / 2 * (r / b)) * 2 ^ p| ≤ 8 ∧
    |((cs.2 : ℕ) : ℝ) - Real.sin (Real.pi / 2 * (r / b)) * 2 ^ p| ≤ 8 := by
  intro cs
  by_cases h : 2 * r ≤ b
  · simp only [cs, if_pos h]; exact octant_near hp hb h
  · have hb' : (b : ℝ) ≠ 0 := by exact_mod_cast hb.ne'
    have e : Real.pi / 2 * (((b - r : ℕ) : ℝ) / b) = Real.pi / 2 - Real.pi / 2 * (r / b) := by
      rw [Nat.cast_sub hr.le]; field_simp
    have := octant_near (p := p) (r := b - r) (b := b) hp hb (by omega)
    rw [e, Real.cos_pi_div_two_sub, Real.sin_pi_div_two_sub] at this
    simp only [cs, if_neg h]
    exact ⟨this.2, this.1⟩

/-- A point less than a quarter turn round, then turned by `q` quarter turns as `unitTurn` does. -/
theorem turned_holds {p : ℕ} {c s : ℤ} {e : ℕ} {φ : ℝ} (hc : |(c : ℝ) - Real.cos φ * 2 ^ p| ≤ (e : ℝ) / 2)
    (hs : |(s : ℝ) - Real.sin φ * 2 ^ p| ≤ (e : ℝ) / 2) (q : ℕ) : q < 4 →
    Disc.Holds p ((Real.cos (φ + q * (Real.pi / 2)) : ℝ) + (Real.sin (φ + q * (Real.pi / 2)) : ℝ) * Complex.I)
      (match q with
        | 0 => ⟨c, s, e, true⟩
        | 1 => ⟨-s, c, e, true⟩
        | 2 => ⟨-c, -s, e, true⟩
        | _ => ⟨s, -c, e, true⟩) := by
  intro hq
  have hcn : |(-(c : ℝ)) - -Real.cos φ * 2 ^ p| ≤ (e : ℝ) / 2 := by
    rw [show -(c : ℝ) - -Real.cos φ * 2 ^ p = -((c : ℝ) - Real.cos φ * 2 ^ p) by ring, abs_neg]; exact hc
  have hsn : |(-(s : ℝ)) - -Real.sin φ * 2 ^ p| ≤ (e : ℝ) / 2 := by
    rw [show -(s : ℝ) - -Real.sin φ * 2 ^ p = -((s : ℝ) - Real.sin φ * 2 ^ p) by ring, abs_neg]; exact hs
  obtain rfl | rfl | rfl | rfl : q = 0 ∨ q = 1 ∨ q = 2 ∨ q = 3 := by omega
  · rw [Nat.cast_zero, zero_mul, add_zero]
    exact Disc.holds_of_near (e := (e : ℝ) / 2) hc hs (by simp; linarith)
  · rw [Nat.cast_one, one_mul, Real.cos_add_pi_div_two, Real.sin_add_pi_div_two]
    exact Disc.holds_of_near (e := (e : ℝ) / 2) (by push_cast; exact hsn) hc (by simp; linarith)
  · rw [show φ + (2 : ℕ) * (Real.pi / 2) = φ + Real.pi by push_cast; ring, Real.cos_add_pi, Real.sin_add_pi]
    exact Disc.holds_of_near (e := (e : ℝ) / 2) (by push_cast; exact hcn) (by push_cast; exact hsn) (by simp; linarith)
  · rw [show φ + (3 : ℕ) * (Real.pi / 2) = φ + Real.pi / 2 + Real.pi by push_cast; ring, Real.cos_add_pi, Real.sin_add_pi,
      Real.cos_add_pi_div_two, Real.sin_add_pi_div_two, neg_neg]
    exact Disc.holds_of_near (e := (e : ℝ) / 2) hs (by push_cast; exact hcn) (by simp; linarith)

/-- The point of the unit circle at `a / b` of a turn, exact at the quarter turns. -/
theorem unitTurn_holds {p : ℕ} (hp : firstPrec ≤ p) (a : ℕ) {b : ℕ} (hb : 0 < b) :
    (unitTurn p a b).Holds p (Complex.exp ((2 * Real.pi * a / b : ℝ) * Complex.I)) := by
  have hb' : (b : ℝ) ≠ 0 := by exact_mod_cast hb.ne'
  obtain ⟨q, hq⟩ : ∃ q, q = 4 * (a % b) / b := ⟨_, rfl⟩
  obtain ⟨r, hr⟩ : ∃ r, r = 4 * (a % b) - q * b := ⟨_, rfl⟩
  have hle : q * b ≤ 4 * (a % b) := hq ▸ Nat.div_mul_le_self _ _
  have hrb : r < b := by
    have h := Nat.lt_div_mul_add (a := 4 * (a % b)) hb
    rw [← hq] at h
    omega
  have hq4 : q < 4 := by
    have := Nat.mod_lt a hb
    rw [hq, Nat.div_lt_iff_lt_mul hb]
    omega
  have hα : 2 * Real.pi * a / b = Real.pi / 2 * (r / b) + q * (Real.pi / 2) + (a / b : ℕ) * (2 * Real.pi) := by
    have h1 : (a : ℝ) = b * (a / b : ℕ) + (a % b : ℕ) := by exact_mod_cast (Nat.div_add_mod a b).symm
    have h2 : (q : ℝ) * b + r = 4 * (a % b : ℕ) := by exact_mod_cast (by omega : q * b + r = 4 * (a % b))
    rw [h1]; field_simp
    linear_combination -h2
  have hcs := quarter_near hp hb hrb
  rw [Complex.exp_mul_I, ← Complex.ofReal_cos, ← Complex.ofReal_sin, hα, Real.cos_add_nat_mul_two_pi,
    Real.sin_add_nat_mul_two_pi, unitTurn, ← hq, ← hr]
  by_cases h0 : r = 0
  · refine turned_holds ?_ ?_ q hq4 <;> simp [h0, fixOne]
  · refine turned_holds ?_ ?_ q hq4
    · simp only [if_neg h0]; exact hcs.1.trans (by norm_num)
    · simp only [if_neg h0]; exact hcs.2.trans (by norm_num)

/-- The first `k` digits of a free phase place it in an interval of length `2^-k`. -/
theorem freeTurn_near (n k : ℕ) :
    (phaseDigits n k : ℝ) / 2 ^ k ≤ freeTurn n ∧ freeTurn n ≤ (phaseDigits n k + 1) / 2 ^ k := by
  have hg : ∀ m : ℕ, HasSum (fun j : ℕ => (1 : ℝ) / 2 ^ (j + m + 1)) (1 / 2 ^ m) := by
    intro m
    have h := hasSum_geometric_two' ((1 : ℝ) / 2 ^ m)
    convert h using 2 with j
    rw [pow_succ, pow_add]; field_simp
  have hle : ∀ j : ℕ, ((Config.freePhase n j).toNat : ℝ) / 2 ^ (j + 1) ≤ 1 / 2 ^ (j + 1) := by
    intro j
    have : ((Config.freePhase n j).toNat : ℝ) ≤ 1 := by exact_mod_cast Bool.toNat_le _
    gcongr
  have hsum : Summable fun j : ℕ => ((Config.freePhase n j).toNat : ℝ) / 2 ^ (j + 1) :=
    Summable.of_nonneg_of_le (fun j => by positivity) hle (hg 0).summable
  have hpre : ∀ k : ℕ, ∑ j ∈ range k, ((Config.freePhase n j).toNat : ℝ) / 2 ^ (j + 1) = phaseDigits n k / 2 ^ k := by
    intro k
    induction k with
    | zero => simp [phaseDigits]
    | succ k ih =>
      rw [sum_range_succ, ih, phaseDigits]
      push_cast
      rw [pow_succ]; field_simp
  have hsplit := hsum.sum_add_tsum_nat_add k
  rw [hpre] at hsplit
  have hf : freeTurn n = phaseDigits n k / 2 ^ k + ∑' j, ((Config.freePhase n (j + k)).toNat : ℝ) / 2 ^ (j + k + 1) := hsplit.symm
  have h0 : 0 ≤ ∑' j, ((Config.freePhase n (j + k)).toNat : ℝ) / 2 ^ (j + k + 1) := tsum_nonneg fun j => by positivity
  have h1 : ∑' j, ((Config.freePhase n (j + k)).toNat : ℝ) / 2 ^ (j + k + 1) ≤ 1 / 2 ^ k := by
    rw [← (hg k).tsum_eq]
    exact Summable.tsum_le_tsum (fun j => hle (j + k)) ((summable_nat_add_iff k).2 hsum) (hg k).summable
  rw [hf, add_div]
  constructor <;> linarith

/-- Points of the unit circle are no farther apart than their angles. -/
theorem norm_exp_sub_le (x y : ℝ) : ‖Complex.exp (x * Complex.I) - Complex.exp (y * Complex.I)‖ ≤ |x - y| := by
  have e : Complex.exp (x * Complex.I) - Complex.exp (y * Complex.I) =
      Complex.exp (y * Complex.I) * (Complex.exp (Complex.I * (x - y : ℝ)) - 1) := by
    rw [mul_sub, ← Complex.exp_add, mul_one]
    congr 2
    push_cast; ring
  rw [e, norm_mul, Complex.norm_exp_ofReal_mul_I, one_mul]
  exact Real.norm_exp_I_mul_ofReal_sub_one_le

/-- `phasor` holds `e^(iφ)` for every phase, named or free. -/
theorem phasor_holds {p : ℕ} (hp : firstPrec ≤ p) (φ : Phase) :
    (phasor p φ).Holds p (Complex.exp ((φ.angle : ℝ) * Complex.I)) := by
  cases φ with
  | named num den => exact unitTurn_holds hp num (by omega)
  | free n =>
    intro hk
    set d := 2 * phaseDigits n (p + 8) + 1 with hd
    have h := unitTurn_holds hp d (b := 2 ^ (p + 9)) (by positivity) hk
    obtain ⟨h1, h2⟩ := freeTurn_near n (p + 8)
    set α : ℝ := 2 * Real.pi * d / (2 ^ (p + 9) : ℕ) with hα
    have hP : (0 : ℝ) < 2 ^ p := by positivity
    have h3 : |2 * Real.pi * freeTurn n - α| * 2 ^ p ≤ 1 := by
      have e : α = 2 * Real.pi * (phaseDigits n (p + 8) / 2 ^ (p + 8) + 1 / 2 ^ (p + 9)) := by
        rw [hα, hd]; push_cast
        rw [show p + 9 = p + 8 + 1 by ring, pow_succ]; field_simp
      have h4 : |freeTurn n - (phaseDigits n (p + 8) / 2 ^ (p + 8) + 1 / 2 ^ (p + 9))| ≤ 1 / 2 ^ (p + 9) := by
        have e2 : (1 : ℝ) / 2 ^ (p + 8) = 2 * (1 / 2 ^ (p + 9)) := by
          rw [show p + 9 = p + 8 + 1 by ring, pow_succ _ (p + 8)]; field_simp
        rw [add_div, e2] at h2
        rw [abs_le]; constructor <;> linarith
      rw [e, ← mul_sub, abs_mul, abs_of_pos (by positivity : (0 : ℝ) < 2 * Real.pi)]
      have hpi := Real.pi_lt_four
      calc 2 * Real.pi * |freeTurn n - (phaseDigits n (p + 8) / 2 ^ (p + 8) + 1 / 2 ^ (p + 9))| * 2 ^ p
          ≤ 2 * 4 * (1 / 2 ^ (p + 9)) * 2 ^ p := by gcongr
        _ = 2 * 4 * (1 / 2 ^ 9) := by rw [pow_add]; field_simp
        _ ≤ 1 := by norm_num
    have h5 := norm_exp_sub_le (2 * Real.pi * freeTurn n) α
    have e3 : Complex.exp ((2 * Real.pi * freeTurn n : ℝ) * Complex.I) * 2 ^ p -
        ((unitTurn p d (2 ^ (p + 9))).re + (unitTurn p d (2 ^ (p + 9))).im * Complex.I) =
        (Complex.exp ((2 * Real.pi * freeTurn n : ℝ) * Complex.I) - Complex.exp (α * Complex.I)) * 2 ^ p +
        (Complex.exp (α * Complex.I) * 2 ^ p -
          ((unitTurn p d (2 ^ (p + 9))).re + (unitTurn p d (2 ^ (p + 9))).im * Complex.I)) := by ring
    show ‖Complex.exp ((2 * Real.pi * freeTurn n : ℝ) * Complex.I) * 2 ^ p -
        ((unitTurn p d (2 ^ (p + 9))).re + (unitTurn p d (2 ^ (p + 9))).im * Complex.I)‖ ≤
        (((unitTurn p d (2 ^ (p + 9))).rad + 1 : ℕ) : ℝ)
    rw [e3]
    refine (norm_add_le _ _).trans ?_
    have h6 : ‖(Complex.exp ((2 * Real.pi * freeTurn n : ℝ) * Complex.I) - Complex.exp (α * Complex.I)) * 2 ^ p‖ ≤ 1 := by
      rw [norm_mul, norm_pow, Complex.norm_two]
      exact (mul_le_mul_of_nonneg_right h5 hP.le).trans h3
    rw [Nat.cast_add, Nat.cast_one]
    linarith

end Sys2Proof.Machine
end

