-- ==== Sys2Proof/Laws/Disc.lean ====
section
/-! SUPPORT. The operations on discs hold the exact complex numbers: one lemma for each. -/

namespace Sys2Proof.Machine

/-- Enough fuel gives the root rounded down. -/
theorem isqrtGo_spec (fuel n : ℕ) (h : n < 4 ^ fuel) :
    isqrtGo fuel n * isqrtGo fuel n ≤ n ∧ n < (isqrtGo fuel n + 1) * (isqrtGo fuel n + 1) := by
  induction fuel generalizing n with
  | zero => simp at h; subst h; simp [isqrtGo]
  | succ fuel ih =>
    rw [isqrtGo]
    split_ifs with h0
    · subst h0; simp
    · obtain ⟨h1, h2⟩ := ih (n / 4) (by rw [pow_succ] at h; omega)
      set r := isqrtGo fuel (n / 4)
      simp only
      have hd := Nat.div_add_mod n 4
      have hm := Nat.mod_lt n (by norm_num : 0 < 4)
      split_ifs with hc
      · exact ⟨hc, by nlinarith⟩
      · have e : 2 * r * (2 * r) = 4 * (r * r) := by ring
        exact ⟨by omega, by omega⟩

/-- The square root rounded down. -/
theorem isqrt_spec (n : ℕ) : isqrt n * isqrt n ≤ n ∧ n < (isqrt n + 1) * (isqrt n + 1) := by
  refine isqrtGo_spec _ n ?_
  have h : n < 2 ^ (n.log2 + 1) := Nat.lt_log2_self
  refine h.trans_le ?_
  rw [show (4 : ℕ) = 2 ^ 2 by norm_num, ← pow_mul]
  exact Nat.pow_le_pow_right (by norm_num) (by omega)

/-- The same over the reals. -/
theorem isqrt_cast (n : ℕ) : (isqrt n : ℝ) ≤ Real.sqrt n ∧ Real.sqrt n < isqrt n + 1 := by
  obtain ⟨h1, h2⟩ := isqrt_spec n
  constructor
  · apply Real.le_sqrt_of_sq_le; rw [sq]; exact_mod_cast h1
  · rw [Real.sqrt_lt' (by positivity), sq]; exact_mod_cast h2

/-- Division rounded up is at least the quotient. -/
theorem ceilDiv_cast (a : ℕ) {b : ℕ} (hb : 0 < b) : (a : ℝ) / b ≤ ceilDiv a b := by
  have hb' : (0 : ℝ) < b := by exact_mod_cast hb
  rw [div_le_iff₀ hb']
  have h := Nat.lt_div_mul_add (a := a + b - 1) hb
  have : a ≤ (a + b - 1) / b * b := by omega
  unfold ceilDiv
  exact_mod_cast this

/-- The centre of a disc. -/
noncomputable def Disc.mid (a : Disc) : ℂ := (a.re : ℂ) + (a.im : ℂ) * Complex.I

/-- `Holds` by the centre. -/
theorem Disc.holds_iff {p : ℕ} {z : ℂ} {a : Disc} : a.Holds p z ↔ (a.known = true → ‖z * 2 ^ p - a.mid‖ ≤ a.rad) := Iff.rfl

/-- The modulus of the centre. -/
theorem Disc.norm_mid (a : Disc) : ‖a.mid‖ = Real.sqrt ((a.re * a.re + a.im * a.im).toNat : ℕ) := by
  have h : (((a.re * a.re + a.im * a.im).toNat : ℕ) : ℝ) = (a.re : ℝ) * a.re + a.im * a.im := by
    have : (0 : ℤ) ≤ a.re * a.re + a.im * a.im := by nlinarith [mul_self_nonneg a.re, mul_self_nonneg a.im]
    have h2 := Int.toNat_of_nonneg this
    exact_mod_cast congrArg (Int.cast : ℤ → ℝ) h2
  rw [h, Disc.mid, Complex.norm_eq_sqrt_sq_add_sq]
  simp [sq]

/-- `modulus` is the modulus of the centre rounded down. -/
theorem Disc.modulus_le (a : Disc) : (a.modulus : ℝ) ≤ ‖a.mid‖ ∧ ‖a.mid‖ < a.modulus + 1 := by
  rw [Disc.norm_mid]; exact isqrt_cast _

/-- `norm1` bounds the modulus of the centre. -/
theorem Disc.norm_mid_le (a : Disc) : ‖a.mid‖ ≤ a.norm1 := by
  refine (Complex.norm_le_abs_re_add_abs_im _).trans ?_
  simp only [Disc.mid, Disc.norm1]
  push_cast
  simp [Nat.cast_natAbs]

/-- An enclosed number is no larger than the centre and the radius together. -/
theorem Disc.norm_le {p : ℕ} {z : ℂ} {a : Disc} (h : a.Holds p z) (hk : a.known = true) :
    ‖z * 2 ^ p‖ ≤ ‖a.mid‖ + a.rad := by
  have := h hk
  calc ‖z * 2 ^ p‖ = ‖(z * 2 ^ p - a.mid) + a.mid‖ := by ring_nf
    _ ≤ ‖z * 2 ^ p - a.mid‖ + ‖a.mid‖ := norm_add_le _ _
    _ ≤ _ := by rw [add_comm]; gcongr; exact this

/-- The exact 0. -/
theorem Disc.zero_holds (p : ℕ) : Disc.zero.Holds p 0 := fun _ => by simp [Disc.zero]

/-- An integer. -/
theorem Disc.ofInt_holds (p : ℕ) (n : ℤ) : (Disc.ofInt p n).Holds p n := fun _ => by simp [Disc.ofInt, fixOne]

/-- The sum. -/
theorem Disc.add_holds {p : ℕ} {z w : ℂ} {a b : Disc} (ha : a.Holds p z) (hb : b.Holds p w) : (a.add b).Holds p (z + w) := by
  intro hk
  simp only [Disc.add, Bool.and_eq_true] at hk ⊢
  have h1 := ha hk.1
  have h2 := hb hk.2
  push_cast
  calc _ = ‖(z * 2 ^ p - (a.re + a.im * Complex.I)) + (w * 2 ^ p - (b.re + b.im * Complex.I))‖ := by ring_nf
    _ ≤ _ := (norm_add_le _ _).trans (add_le_add h1 h2)

/-- The negative. -/
theorem Disc.neg_holds {p : ℕ} {z : ℂ} {a : Disc} (ha : a.Holds p z) : a.neg.Holds p (-z) := by
  intro hk
  have h1 := ha hk
  simp only [Disc.neg]
  push_cast
  calc _ = ‖-(z * 2 ^ p - (a.re + a.im * Complex.I))‖ := by ring_nf
    _ ≤ _ := by rw [norm_neg]; exact h1

/-- The difference. -/
theorem Disc.sub_holds {p : ℕ} {z w : ℂ} {a b : Disc} (ha : a.Holds p z) (hb : b.Holds p w) : (a.sub b).Holds p (z - w) := by
  rw [sub_eq_add_neg]; exact Disc.add_holds ha (Disc.neg_holds hb)

/-- The product with an integer. -/
theorem Disc.mulInt_holds {p : ℕ} {z : ℂ} {a : Disc} (ha : a.Holds p z) (n : ℤ) : (a.mulInt n).Holds p (z * n) := by
  intro hk
  have h1 := ha hk
  simp only [Disc.mulInt]
  push_cast
  calc _ = ‖(z * 2 ^ p - (a.re + a.im * Complex.I)) * n‖ := by ring_nf
    _ ≤ _ := by rw [norm_mul, Complex.norm_intCast, Nat.cast_natAbs, Int.cast_abs]; gcongr

/-- What integer division drops lies between 0 and 1. -/
theorem ediv_sub_bounds (a : ℤ) {d : ℕ} (hd : 0 < d) : 0 ≤ (a : ℝ) / d - ((a / (d : ℤ) : ℤ) : ℝ) ∧ (a : ℝ) / d - ((a / (d : ℤ) : ℤ) : ℝ) ≤ 1 := by
  have hd' : (0 : ℝ) < d := by exact_mod_cast hd
  have h1 : a / (d : ℤ) * d ≤ a := Int.ediv_mul_le _ (by omega)
  have h2 : a < (a / (d : ℤ) + 1) * d := Int.lt_ediv_add_one_mul_self _ (by omega)
  have h1' : ((a / (d : ℤ) : ℤ) : ℝ) * d ≤ a := by exact_mod_cast h1
  have h2' : (a : ℝ) < (((a / (d : ℤ) : ℤ) : ℝ) + 1) * d := by exact_mod_cast h2
  constructor
  · rw [sub_nonneg, le_div_iff₀ hd']; exact h1'
  · have : (a : ℝ) / d ≤ ((a / (d : ℤ) : ℤ) : ℝ) + 1 := by rw [div_le_iff₀ hd']; exact h2'.le
    linarith

/-- Rounding the centre, where the radius before is `ρ` at the scale of `d` units. -/
theorem Disc.divNat_near {Z : ℂ} {a : Disc} (h : ‖Z - a.mid‖ ≤ a.rad) {d : ℕ} (hd : 0 < d) :
    ‖Z / d - (a.divNat d).mid‖ ≤ (a.divNat d).rad := by
  have hd' : (0 : ℝ) < d := by exact_mod_cast hd
  have hdc : (d : ℂ) ≠ 0 := by exact_mod_cast hd.ne'
  have e1 : ‖(Z - a.mid) / d‖ ≤ ceilDiv a.rad d := by
    rw [norm_div, Complex.norm_natCast]
    exact (div_le_div_of_nonneg_right h hd'.le).trans (ceilDiv_cast _ hd)
  have e2 : ‖a.mid / d - (a.divNat d).mid‖ ≤ ((if a.re % (d : ℤ) = 0 ∧ a.im % (d : ℤ) = 0 then 0 else 2 : ℕ) : ℝ) := by
    have eq : a.mid / d - (a.divNat d).mid =
        (((a.re : ℝ) / d - ((a.re / (d : ℤ) : ℤ) : ℝ) : ℝ) : ℂ) + (((a.im : ℝ) / d - ((a.im / (d : ℤ) : ℤ) : ℝ) : ℝ) : ℂ) * Complex.I := by
      simp only [Disc.mid, Disc.divNat]; push_cast; field_simp; ring
    rw [eq]
    split_ifs with hc
    · have r1 : (a.re : ℝ) / d = ((a.re / (d : ℤ) : ℤ) : ℝ) := by
        rw [div_eq_iff hd'.ne']; exact_mod_cast (Int.ediv_mul_cancel (Int.dvd_of_emod_eq_zero hc.1)).symm
      have r2 : (a.im : ℝ) / d = ((a.im / (d : ℤ) : ℤ) : ℝ) := by
        rw [div_eq_iff hd'.ne']; exact_mod_cast (Int.ediv_mul_cancel (Int.dvd_of_emod_eq_zero hc.2)).symm
      rw [r1, r2]; simp
    · refine (Complex.norm_le_abs_re_add_abs_im _).trans ?_
      obtain ⟨b1, b2⟩ := ediv_sub_bounds a.re hd
      obtain ⟨b3, b4⟩ := ediv_sub_bounds a.im hd
      simp only [Complex.add_re, Complex.ofReal_re, Complex.mul_re, Complex.I_re, mul_zero, Complex.ofReal_im, Complex.I_im,
        sub_zero, add_zero, Complex.add_im, Complex.mul_im, mul_one, zero_add]
      rw [abs_of_nonneg b1, abs_of_nonneg b3]
      push_cast; linarith
  calc _ = ‖(Z - a.mid) / d + (a.mid / d - (a.divNat d).mid)‖ := by ring_nf
    _ ≤ _ := (norm_add_le _ _).trans (add_le_add e1 e2)
    _ = _ := by simp only [Disc.divNat]; push_cast; rfl

/-- The quotient by an integer. -/
theorem Disc.divNat_holds {p : ℕ} {z : ℂ} {a : Disc} (ha : a.Holds p z) {d : ℕ} (hd : 0 < d) :
    (a.divNat d).Holds p (z / d) := by
  intro hk
  have := Disc.divNat_near (ha hk) hd
  rwa [div_mul_eq_mul_div]

/-- The product, given a bound on the first number. -/
theorem Disc.mulBound_holds {p bound : ℕ} {z w : ℂ} {a b : Disc} (ha : a.Holds p z) (hb : b.Holds p w)
    (hB : a.known = true → ‖z * 2 ^ p‖ ≤ bound) : (Disc.mulBound p bound a b).Holds p (z * w) := by
  intro hk
  have hk' : a.known = true ∧ b.known = true := by
    simpa [Disc.mulBound, Disc.divNat] using hk
  have h1 := ha hk'.1
  have h2 := hb hk'.2
  set prod : Disc := ⟨a.re * b.re - a.im * b.im, a.re * b.im + a.im * b.re, bound * b.rad + b.norm1 * a.rad,
    a.known && b.known⟩ with hprod
  have hm : prod.mid = a.mid * b.mid := by
    simp only [hprod, Disc.mid]; push_cast
    linear_combination (-(a.im : ℂ) * b.im) * Complex.I_sq
  have hn : ‖(z * 2 ^ p) * (w * 2 ^ p) - prod.mid‖ ≤ prod.rad := by
    rw [hm]
    calc _ = ‖(z * 2 ^ p) * (w * 2 ^ p - b.mid) + b.mid * (z * 2 ^ p - a.mid)‖ := by ring_nf
      _ ≤ ‖z * 2 ^ p‖ * ‖w * 2 ^ p - b.mid‖ + ‖b.mid‖ * ‖z * 2 ^ p - a.mid‖ := by
        refine (norm_add_le _ _).trans ?_; rw [norm_mul (z * 2 ^ p), norm_mul b.mid]
      _ ≤ (bound : ℝ) * b.rad + b.norm1 * a.rad := by
        gcongr
        · exact hB hk'.1
        · exact h2
        · exact b.norm_mid_le
        · exact h1
      _ = _ := by simp only [hprod]; push_cast; rfl
  have := Disc.divNat_near hn (d := fixOne p) (by simp [fixOne])
  have e : z * w * 2 ^ p = (z * 2 ^ p) * (w * 2 ^ p) / (fixOne p : ℕ) := by
    simp only [fixOne]; push_cast; field_simp
  show ‖z * w * 2 ^ p - (Disc.divNat prod (fixOne p)).mid‖ ≤ _
  rw [e]; exact this

/-- The product. -/
theorem Disc.mul_holds {p : ℕ} {z w : ℂ} {a b : Disc} (ha : a.Holds p z) (hb : b.Holds p w) : (a.mul p b).Holds p (z * w) := by
  refine Disc.mulBound_holds ha hb fun hk => (Disc.norm_le ha hk).trans ?_
  push_cast; gcongr; exact a.norm_mid_le

/-- The quotient. -/
theorem Disc.div_holds {p : ℕ} {z w : ℂ} {a b : Disc} (ha : a.Holds p z) (hb : b.Holds p w) : (a.div p b).Holds p (z / w) := by
  unfold Disc.div
  simp only
  split_ifs with hm
  · intro hk; simp [Disc.unknown] at hk
  · intro hk
    simp only [Bool.and_eq_true] at hk
    have h1 := ha hk.1
    have h2 := hb hk.2
    have hP : (0 : ℝ) < 2 ^ p := by positivity
    generalize (a.re * b.re + a.im * b.im) * (fixOne p : ℤ) / (b.re * b.re + b.im * b.im) = qre
    generalize (a.im * b.re - a.re * b.im) * (fixOne p : ℤ) / (b.re * b.re + b.im * b.im) = qim
    obtain ⟨m1, m2⟩ := b.modulus_le
    have hmr : b.rad < b.modulus := by omega
    have hW : (b.modulus : ℝ) - b.rad ≤ ‖w * 2 ^ p‖ := by
      have := norm_sub_norm_le b.mid (b.mid - w * 2 ^ p)
      rw [sub_sub_cancel, norm_sub_rev] at this
      have h2' : ‖w * 2 ^ p - b.mid‖ ≤ b.rad := h2
      linarith
    have hpos : (0 : ℝ) < (b.modulus - b.rad : ℕ) := by
      rw [Nat.cast_sub hmr.le, sub_pos]; exact_mod_cast hmr
    have hW' : ((b.modulus - b.rad : ℕ) : ℝ) ≤ ‖w * 2 ^ p‖ := by rw [Nat.cast_sub hmr.le]; exact hW
    have hW0 : w * 2 ^ p ≠ 0 := norm_pos_iff.1 (hpos.trans_le hW')
    have hw0 : w ≠ 0 := left_ne_zero_of_mul hW0
    set q : ℂ := (qre : ℂ) + (qim : ℂ) * Complex.I with hq
    set rre : ℤ := a.re * (fixOne p : ℤ) - (qre * b.re - qim * b.im)
    set rim : ℤ := a.im * (fixOne p : ℤ) - (qre * b.im + qim * b.re)
    have hr : a.mid * 2 ^ p - q * b.mid = (rre : ℂ) + rim * Complex.I := by
      simp only [Disc.mid, hq, rre, rim, fixOne]; push_cast
      linear_combination (-(qim : ℂ) * b.im) * Complex.I_sq
    have nr : ‖(rre : ℂ) + rim * Complex.I‖ ≤ rre.natAbs + rim.natAbs := by
      refine (Complex.norm_le_abs_re_add_abs_im _).trans ?_
      simp [Nat.cast_natAbs]
    have nq : ‖q‖ ≤ qre.natAbs + qim.natAbs := by
      refine (Complex.norm_le_abs_re_add_abs_im _).trans ?_
      simp [hq, Nat.cast_natAbs]
    have key : ‖(z * 2 ^ p) * 2 ^ p - q * (w * 2 ^ p)‖ ≤
        ((a.rad * fixOne p + (qre.natAbs + qim.natAbs) * b.rad + rre.natAbs + rim.natAbs : ℕ) : ℝ) := by
      calc _ = ‖(z * 2 ^ p - a.mid) * 2 ^ p + -(q * (w * 2 ^ p - b.mid)) + (a.mid * 2 ^ p - q * b.mid)‖ := by ring_nf
        _ ≤ ‖z * 2 ^ p - a.mid‖ * 2 ^ p + ‖q‖ * ‖w * 2 ^ p - b.mid‖ + ‖(rre : ℂ) + rim * Complex.I‖ := by
          rw [hr]
          refine (norm_add₃_le).trans ?_
          rw [norm_neg, norm_mul, norm_mul, norm_pow, Complex.norm_two]
        _ ≤ a.rad * 2 ^ p + (qre.natAbs + qim.natAbs) * b.rad + (rre.natAbs + rim.natAbs) := by
          gcongr
          · exact h1
          · exact h2
        _ = _ := by simp only [fixOne]; push_cast; ring
    have e : z / w * 2 ^ p - q = ((z * 2 ^ p) * 2 ^ p - q * (w * 2 ^ p)) / (w * 2 ^ p) := by
      rw [eq_div_iff hW0]; field_simp
    show ‖z / w * 2 ^ p - q‖ ≤ _
    rw [e, norm_div]
    refine le_trans ?_ (ceilDiv_cast _ (by omega))
    exact div_le_div₀ (by positivity) key hpos hW'

/-- Some square root of the number is in the disc `Disc.sqrt` gives. -/
theorem Disc.sqrt_holds {p : ℕ} {z : ℂ} {a : Disc} (ha : a.Holds p z) : ∃ r : ℂ, r ^ 2 = z ∧ (a.sqrt p).Holds p r := by
  obtain ⟨r, hr⟩ : ∃ r : ℂ, r ^ 2 = z := ⟨z ^ (1 / 2 : ℂ), by rw [← Complex.cpow_nat_mul]; norm_num⟩
  have hP : (0 : ℝ) < 2 ^ p := by positivity
  unfold Disc.sqrt
  simp only
  generalize (if 0 ≤ a.re then _ else _ : ℤ × ℤ) = c
  obtain ⟨c1, c2⟩ := c
  simp only
  set cd : Disc := ⟨c1, c2, 0, true⟩ with hcd
  have hcm : isqrt (c1 * c1 + c2 * c2).toNat = cd.modulus := rfl
  rw [hcm]
  split_ifs with h0
  · refine ⟨r, hr, fun hk => ?_⟩
    have h1 := Disc.norm_le ha hk
    have h2 := a.modulus_le.2
    have h3 : ‖r * 2 ^ p‖ ^ 2 ≤ (((a.modulus + 1 + a.rad) * fixOne p : ℕ) : ℝ) := by
      rw [← norm_pow, mul_pow, hr, show z * (2 ^ p) ^ 2 = z * 2 ^ p * 2 ^ p by ring, norm_mul, norm_pow, Complex.norm_two]
      simp only [fixOne]; push_cast
      gcongr; linarith
    have h4 := (isqrt_cast ((a.modulus + 1 + a.rad) * fixOne p)).2
    have h5 : ‖r * 2 ^ p‖ ≤ Real.sqrt (((a.modulus + 1 + a.rad) * fixOne p : ℕ) : ℝ) := Real.le_sqrt_of_sq_le h3
    simp only [Int.cast_zero, zero_mul, add_zero, sub_zero]
    push_cast at h4 h5 ⊢
    linarith
  · have hc := cd.modulus_le.1
    have hcpos : (0 : ℝ) < cd.modulus := by exact_mod_cast Nat.pos_of_ne_zero h0
    -- a root whose scaled value is no farther from the centre than from its negative
    obtain ⟨r, hr, hn⟩ : ∃ r : ℂ, r ^ 2 = z ∧ ‖cd.mid‖ ≤ ‖r * 2 ^ p + cd.mid‖ := by
      rcases le_total ‖cd.mid‖ ‖r * 2 ^ p + cd.mid‖ with h | h
      · exact ⟨r, hr, h⟩
      · refine ⟨-r, by rw [neg_sq, hr], ?_⟩
        by_contra hcon
        rw [not_le] at hcon
        have : ‖cd.mid + cd.mid‖ ≤ ‖r * 2 ^ p + cd.mid‖ + ‖-r * 2 ^ p + cd.mid‖ := by
          refine le_trans (le_of_eq ?_) (norm_add_le _ _); congr 1; ring
        rw [← two_mul, norm_mul, Complex.norm_two] at this
        linarith
    refine ⟨r, hr, fun hk => ?_⟩
    have h1 := ha hk
    set rre : ℤ := a.re * (fixOne p : ℤ) - (c1 * c1 - c2 * c2)
    set rim : ℤ := a.im * (fixOne p : ℤ) - 2 * c1 * c2
    have hres : a.mid * 2 ^ p - cd.mid ^ 2 = (rre : ℂ) + rim * Complex.I := by
      simp only [Disc.mid, hcd, rre, rim, fixOne]; push_cast
      linear_combination (-(c2 : ℂ) ^ 2) * Complex.I_sq
    have nr : ‖(rre : ℂ) + rim * Complex.I‖ ≤ rre.natAbs + rim.natAbs := by
      refine (Complex.norm_le_abs_re_add_abs_im _).trans ?_
      simp [Nat.cast_natAbs]
    have key : ‖r * 2 ^ p - cd.mid‖ * ‖r * 2 ^ p + cd.mid‖ ≤ ((a.rad * fixOne p + rre.natAbs + rim.natAbs : ℕ) : ℝ) := by
      rw [← norm_mul]
      calc _ = ‖(z * 2 ^ p - a.mid) * 2 ^ p + (a.mid * 2 ^ p - cd.mid ^ 2)‖ := by rw [← hr]; ring_nf
        _ ≤ ‖z * 2 ^ p - a.mid‖ * 2 ^ p + ‖(rre : ℂ) + rim * Complex.I‖ := by
          rw [hres]; refine (norm_add_le _ _).trans ?_
          rw [norm_mul, norm_pow, Complex.norm_two]
        _ ≤ a.rad * 2 ^ p + (rre.natAbs + rim.natAbs) := by gcongr; exact h1
        _ = _ := by simp only [fixOne]; push_cast; ring
    refine le_trans ?_ (ceilDiv_cast _ (Nat.pos_of_ne_zero h0))
    rw [le_div_iff₀ hcpos]
    refine le_trans ?_ key
    exact mul_le_mul_of_nonneg_left (hc.trans hn) (norm_nonneg _)

/-- The real part. -/
theorem Disc.real_holds {p : ℕ} {z : ℂ} {a : Disc} (ha : a.Holds p z) : a.real.Holds p (z.re : ℝ) := by
  intro hk
  refine le_trans ?_ (ha hk)
  have h := Complex.abs_re_le_norm (z * 2 ^ p - (a.re + a.im * Complex.I))
  refine le_trans (le_of_eq ?_) h
  have h2 : ((2 : ℂ) ^ p) = ((2 ^ p : ℝ) : ℂ) := by push_cast; rfl
  simp only [Disc.real]
  rw [h2, Int.cast_zero, zero_mul, add_zero, ← Complex.ofReal_mul, ← Complex.ofReal_intCast, ← Complex.ofReal_sub,
    Complex.norm_real, Real.norm_eq_abs]
  simp [-Complex.ofReal_pow]

/-- The modulus. -/
theorem Disc.abs_holds {p : ℕ} {z : ℂ} {a : Disc} (ha : a.Holds p z) : a.abs.Holds p ‖z‖ := by
  unfold Disc.abs
  split_ifs with h0
  · subst h0
    intro _
    have h : ‖z * 2 ^ p‖ ≤ 0 := by simpa [Disc.zero] using ha rfl
    have h2 : z * 2 ^ p = 0 := norm_le_zero_iff.1 h
    have : z = 0 := by simpa using h2
    simp [this, Ival.zero]
  · intro hk
    obtain ⟨m1, m2⟩ := a.modulus_le
    have h1 := Disc.norm_le ha hk
    have h2 := norm_sub_norm_le a.mid (a.mid - z * 2 ^ p)
    rw [sub_sub_cancel, norm_sub_rev] at h2
    have h3 : ‖z * 2 ^ p - a.mid‖ ≤ a.rad := ha hk
    have e : ‖z‖ * 2 ^ p = ‖z * 2 ^ p‖ := by rw [norm_mul, norm_pow, Complex.norm_two]
    rw [e]
    push_cast
    exact ⟨max_le (norm_nonneg _) (by linarith), by linarith⟩

end Sys2Proof.Machine
end

