-- ==== Sys2Proof/Laws/Energy.lean ====
section
/-! SUPPORT. The band energy (44_framesync R352 to R354): each part of the filter, the envelope and their sum hold the
exact numbers. -/

open Finset

namespace Sys2Proof.Machine

/-- The elements of a list of discs hold the terms of a sequence, at precision `p`. -/
def Tracks (p : ℕ) (l : List Disc) (f : ℕ → ℂ) : Prop := ∀ i (h : i < l.length), l[i].Holds p (f i)

/-- The sum of a list of discs. -/
theorem Tracks.foldl_add {p : ℕ} {l : List Disc} {f : ℕ → ℂ} (h : Tracks p l f) :
    (l.foldl Disc.add .zero).Holds p (∑ i ∈ range l.length, f i) := by
  induction l using List.reverseRecOn with
  | nil => simpa using Disc.zero_holds p
  | append_singleton l a ih =>
    rw [List.foldl_append, List.length_append, List.length_singleton, sum_range_succ]
    refine Disc.add_holds (ih fun i hi => ?_) ?_
    · have := h i (by simp; omega)
      rwa [List.getElem_append_left hi] at this
    · have := h l.length (by simp)
      simpa using this

/-- An operation on every element. -/
theorem Tracks.map {p : ℕ} {l : List Disc} {f g : ℕ → ℂ} (h : Tracks p l f) {φ : Disc → Disc}
    (hφ : ∀ i d, d.Holds p (f i) → (φ d).Holds p (g i)) : Tracks p (l.map φ) g := by
  intro i hi
  rw [List.getElem_map]
  exact hφ i _ (h i (by simpa using hi))

/-- A list over the first indices. -/
theorem Tracks.of_range {p l : ℕ} {φ : ℕ → Disc} {f : ℕ → ℂ} (h : ∀ i < l, (φ i).Holds p (f i)) :
    Tracks p ((List.range l).map φ) f := by
  intro i hi
  rw [List.getElem_map, List.getElem_range]
  exact h i (by simpa using hi)

/-! ## The band-pass filter -/

theorem Tracks.secondDifference {p : ℕ} {l : List Disc} {F : PowerSeries ℂ} (h : Tracks p l fun i => PowerSeries.coeff i F) :
    Tracks p (secondDifference l) fun i => PowerSeries.coeff i ((1 - PowerSeries.X ^ 2) * F) := by
  intro i hi
  have hl : i < l.length := by
    simp [Machine.secondDifference] at hi; omega
  have e : (Machine.secondDifference l)[i] = (l[i]).sub ((Disc.zero :: Disc.zero :: l)[i]'(by simp; omega)) := by
    simp [Machine.secondDifference]
  show Disc.Holds p (PowerSeries.coeff i ((1 - PowerSeries.X ^ 2) * F)) _
  rw [e, sub_mul, one_mul, map_sub]
  refine Disc.sub_holds (h i hl) ?_
  rw [PowerSeries.coeff_X_pow_mul']
  rcases i with _ | _ | j
  · simpa using Disc.zero_holds p
  · simpa using Disc.zero_holds p
  · simpa using h j (by omega)

/-- The recursion `y[k] = x[k] + z y[k-1]`, from any state. -/
theorem onePole_holds {p bound : ℕ} {z : Disc} {c : ℂ} (hz : z.Holds p c) (hb : z.known = true → ‖c * 2 ^ p‖ ≤ bound)
    {l : List Disc} {f G : ℕ → ℂ} {y : Disc} {y0 : ℂ} (hy : y.Holds p y0) (h : Tracks p l f)
    (h0 : G 0 = f 0 + c * y0) (hs : ∀ i, G (i + 1) = f (i + 1) + c * G i) : Tracks p (onePole p z bound y l) G := by
  induction l generalizing f G y y0 with
  | nil => intro i hi; simp [onePole] at hi
  | cons x xs ih =>
    have hx : (x.add (Disc.mulBound p bound z y)).Holds p (G 0) := by
      rw [h0]; exact Disc.add_holds (h 0 (by simp)) (Disc.mulBound_holds hz hy hb)
    intro i hi
    rcases i with _ | i
    · simpa [onePole] using hx
    · have := ih (f := fun i => f (i + 1)) (G := fun i => G (i + 1)) hx (fun j hj => h (j + 1) (by simpa using hj)) (hs 0) (fun i => hs (i + 1)) i (by simpa [onePole] using hi)
      simpa [onePole] using this

/-- One pole, from zero state: the factor `1 / (1 - z X)`. -/
theorem Tracks.poleFilter {p : ℕ} {z : Disc} {c : ℂ} (hz : z.Holds p c) {l : List Disc} {F : PowerSeries ℂ}
    (h : Tracks p l fun i => PowerSeries.coeff i F) :
    Tracks p (poleFilter p z l) fun i => PowerSeries.coeff i ((1 - PowerSeries.C c * PowerSeries.X)⁻¹ * F) := by
  set D : PowerSeries ℂ := 1 - PowerSeries.C c * PowerSeries.X with hD
  have hD0 : PowerSeries.constantCoeff D ≠ 0 := by simp [hD]
  have hG : D * (D⁻¹ * F) = F := by rw [← mul_assoc, PowerSeries.mul_inv_cancel _ hD0, one_mul]
  set G := D⁻¹ * F with hGd
  have hG' : G = F + PowerSeries.C c * (PowerSeries.X * G) := by
    rw [← hG, hD]; ring
  refine onePole_holds hz (fun hk => ?_) (Disc.zero_holds p) h ?_ fun i => ?_
  · refine (Disc.norm_le hz hk).trans ?_
    have := z.modulus_le.2
    push_cast; linarith
  · conv_lhs => rw [hG']
    simp
  · conv_lhs => rw [hG']
    rw [map_add, PowerSeries.coeff_C_mul, PowerSeries.coeff_succ_X_mul]

/-- The exact numbers of one section. -/
structure Section.Holds (p : ℕ) (h : Section) (zp zm g : ℂ) : Prop where
  zPlus : h.zPlus.Holds p zp
  zMinus : h.zMinus.Holds p zm
  gain : h.gain.Holds p g

/-- The transfer function of one section. -/
noncomputable def sectionSeries (zp zm g : ℂ) : PowerSeries ℂ :=
  PowerSeries.C g * (1 - PowerSeries.X ^ 2) *
    ((1 - PowerSeries.C zm * PowerSeries.X)⁻¹ * (1 - PowerSeries.C zp * PowerSeries.X)⁻¹)

/-- One section. -/
theorem Tracks.sectionFilter {p : ℕ} {h : Section} {zp zm g : ℂ} (hh : h.Holds p zp zm g) {l : List Disc} {F : PowerSeries ℂ}
    (hl : Tracks p l fun i => PowerSeries.coeff i F) :
    Tracks p (sectionFilter p l h) fun i => PowerSeries.coeff i (sectionSeries zp zm g * F) := by
  have h1 := hl.secondDifference.map (φ := fun v => Disc.mul p h.gain v)
    (g := fun i => PowerSeries.coeff i (PowerSeries.C g * ((1 - PowerSeries.X ^ 2) * F))) (fun i d hd => by
      rw [PowerSeries.coeff_C_mul]; exact Disc.mul_holds hh.gain hd)
  have h2 := (h1.poleFilter hh.zPlus).poleFilter hh.zMinus
  have e : sectionSeries zp zm g * F = (1 - PowerSeries.C zm * PowerSeries.X)⁻¹ *
      ((1 - PowerSeries.C zp * PowerSeries.X)⁻¹ * (PowerSeries.C g * ((1 - PowerSeries.X ^ 2) * F))) := by
    rw [sectionSeries]; ring
  rw [e]; exact h2

/-- The sections one after the other. -/
theorem Tracks.sections {p n : ℕ} {S : ℕ → Section} {zp zm g : ℕ → ℂ}
    (hS : ∀ m < n, (S m).Holds p (zp m) (zm m) (g m)) {l : List Disc} {F : PowerSeries ℂ}
    (hl : Tracks p l fun i => PowerSeries.coeff i F) :
    Tracks p (((List.range n).map S).foldl (Machine.sectionFilter p) l)
      fun i => PowerSeries.coeff i ((∏ m ∈ range n, sectionSeries (zp m) (zm m) (g m)) * F) := by
  induction n with
  | zero => simpa using hl
  | succ n ih =>
    rw [List.range_succ, List.map_append, List.foldl_append, prod_range_succ]
    have := (ih fun m hm => hS m (by omega)).sectionFilter (hS n (by omega))
    rw [mul_comm (∏ m ∈ range n, _), mul_assoc]
    exact this

/-- The real part, written out. -/
theorem Disc.re_holds {p : ℕ} {z : ℂ} {a : Disc} (h : a.Holds p z) :
    Disc.Holds p (z.re : ℝ) ⟨a.re, 0, a.rad, a.known⟩ := Disc.real_holds h

/-- The imaginary part. -/
theorem Disc.im_holds {p : ℕ} {z : ℂ} {a : Disc} (h : a.Holds p z) :
    Disc.Holds p (z.im : ℝ) ⟨a.im, 0, a.rad, a.known⟩ := by
  intro hk
  have h1 := Disc.real_holds (a := ⟨a.im, -a.re, a.rad, a.known⟩) (z := -Complex.I * z) (p := p) (fun hk => by
    refine le_trans (le_of_eq ?_) (h hk)
    have : -Complex.I * z * 2 ^ p - (((a.im : ℤ) : ℂ) + ((-a.re : ℤ) : ℂ) * Complex.I) =
        -Complex.I * (z * 2 ^ p - (a.re + a.im * Complex.I)) := by
      push_cast; linear_combination (-(a.im : ℂ)) * Complex.I_sq
    rw [this, norm_mul, norm_neg, Complex.norm_I, one_mul]) hk
  simpa [Disc.real] using h1

/-- The prewarped edge. -/
theorem prewarp_holds {p : ℕ} (hp : firstPrec ≤ p) {fs : ℕ} (hfs : 0 < fs) (f : ℕ) :
    (prewarp p fs f).Holds p ((Exact.warp fs f : ℝ) : ℂ) := by
  have hu := unitTurn_holds hp f (b := 2 * fs) (by omega)
  have e : (2 * Real.pi * f / (2 * fs : ℕ) : ℝ) = Real.pi * f / fs := by
    have : (fs : ℝ) ≠ 0 := by exact_mod_cast hfs.ne'
    push_cast; field_simp
  rw [e] at hu
  have h := Disc.real_holds (Disc.mulInt_holds (Disc.div_holds (Disc.im_holds hu) (Disc.re_holds hu)) (2 * fs))
  have e2 : ((((Complex.exp ((Real.pi * f / fs : ℝ) * Complex.I)).im : ℝ) : ℂ) /
      ((Complex.exp ((Real.pi * f / fs : ℝ) * Complex.I)).re : ℝ) * ((2 * fs : ℤ) : ℂ)).re = Exact.warp fs f := by
    rw [Complex.exp_ofReal_mul_I_re, Complex.exp_ofReal_mul_I_im, ← Complex.ofReal_div, ← Complex.ofReal_intCast, ← Complex.ofReal_mul, Complex.ofReal_re,
      Exact.warp, Real.tan_eq_sin_div_cos]
    push_cast; ring
  rw [e2] at h
  exact h

/-- The poles and the gain of a section, up to the order of the two roots. -/
theorem bandSection_holds {p : ℕ} (hp : firstPrec ≤ p) {fs n fl fh m : ℕ} (hfs : 0 < fs) (hn : 0 < n)
    (hw : 0 ≤ Exact.warp fs fl * Exact.warp fs fh) :
    ∃ b : Bool, (bandSection p fs (prewarp p fs fl) (prewarp p fs fh) n m).Holds p (Exact.digitalPole fs n fl fh m b)
      (Exact.digitalPole fs n fl fh m !b) (Exact.width fs fl fh * (2 * fs) /
        ((2 * fs - Exact.analogPole fs n fl fh m b) * (2 * fs - Exact.analogPole fs n fl fh m !b))) := by
  have hl := prewarp_holds hp hfs fl
  have hh := prewarp_holds hp hfs fh
  have hc : (Disc.ofInt p (2 * fs)).Holds p (2 * fs) := by simpa using Disc.ofInt_holds p (2 * fs)
  have hbw : ((prewarp p fs fh).sub (prewarp p fs fl)).real.Holds p (Exact.width fs fl fh : ℝ) := by
    have := Disc.real_holds (Disc.sub_holds hh hl)
    rwa [← Complex.ofReal_sub, Complex.ofReal_re] at this
  have hpm : (unitTurn p (2 * m + n + 1) (4 * n)).Holds p (Exact.prototype n m) := by
    have := unitTurn_holds hp (2 * m + n + 1) (b := 4 * n) (by omega)
    have e : (2 * Real.pi * (2 * m + n + 1 : ℕ) / (4 * n : ℕ) : ℝ) = Real.pi * (2 * m + n + 1) / (2 * n) := by
      have : (n : ℝ) ≠ 0 := by exact_mod_cast hn.ne'
      push_cast; field_simp; ring
    rw [e] at this
    exact this
  have hhalf := Disc.divNat_holds (Disc.mul_holds hpm hbw) (d := 2) (by norm_num)
  rw [Nat.cast_ofNat] at hhalf
  set B : ℂ := Exact.prototype n m * (Exact.width fs fl fh : ℝ) / 2 with hB
  obtain ⟨r, hr, hroot⟩ := Disc.sqrt_holds (Disc.sub_holds (Disc.mul_holds hhalf hhalf) (Disc.mul_holds hl hh))
  set r0 : ℂ := (B ^ 2 - (Exact.centre fs fl fh : ℂ) ^ 2) ^ (1 / 2 : ℂ) with hr0
  have hr0' : r0 ^ 2 = r ^ 2 := by
    rw [hr, hr0, ← Complex.cpow_nat_mul]
    have hcen : (Exact.centre fs fl fh : ℂ) ^ 2 = (Exact.warp fs fl : ℂ) * Exact.warp fs fh := by
      rw [Exact.centre, ← Complex.ofReal_pow, Real.sq_sqrt hw]; push_cast; rfl
    rw [hcen]; norm_num; ring
  have ht : Exact.analogPole fs n fl fh m true = B + r0 := by simp [Exact.analogPole, hB, hr0]
  have hf : Exact.analogPole fs n fl fh m false = B - r0 := by simp [Exact.analogPole, hB, hr0]
  obtain ⟨b, hb1, hb2⟩ : ∃ b : Bool, Exact.analogPole fs n fl fh m b = B + r ∧ Exact.analogPole fs n fl fh m (!b) = B - r := by
    rcases sq_eq_sq_iff_eq_or_eq_neg.1 hr0' with h | h
    · exact ⟨true, by rw [ht, h], by rw [Bool.not_true, hf, h]⟩
    · exact ⟨false, by rw [hf, h]; ring, by rw [Bool.not_false, ht, h]; ring⟩
  have hp1 := Disc.add_holds hhalf hroot
  have hp2 := Disc.sub_holds hhalf hroot
  refine ⟨b, ?_, ?_, ?_⟩
  · rw [Exact.digitalPole, hb1]
    exact Disc.div_holds (Disc.add_holds hc hp1) (Disc.sub_holds hc hp1)
  · rw [Exact.digitalPole, hb2]
    exact Disc.div_holds (Disc.add_holds hc hp2) (Disc.sub_holds hc hp2)
  · rw [hb1, hb2]
    exact Disc.div_holds (Disc.mul_holds hbw hc) (Disc.mul_holds (Disc.sub_holds hc hp1) (Disc.sub_holds hc hp2))

/-- The product of the sections is the transfer function. -/
theorem prod_sections {fs n fl fh : ℕ} (b : ℕ → Bool) :
    ∏ m ∈ range n, sectionSeries (Exact.digitalPole fs n fl fh m (b m)) (Exact.digitalPole fs n fl fh m !(b m))
      (Exact.width fs fl fh * (2 * fs) / ((2 * fs - Exact.analogPole fs n fl fh m (b m)) *
        (2 * fs - Exact.analogPole fs n fl fh m !(b m)))) = Exact.transfer fs n fl fh := by
  have hb : ∀ {M : Type} [CommMonoid M] (g : Bool → M) (c : Bool), ∏ x : Bool, g x = g c * g (!c) := by
    intro M _ g c
    cases c <;> simp [mul_comm]
  simp only [sectionSeries, prod_mul_distrib, prod_const, card_range]
  rw [Exact.transfer, Exact.gain]
  congr 1
  · congr 1
    rw [← map_prod]
    congr 1
    rw [prod_div_distrib, prod_const, card_range, mul_pow]
    congr 1
    exact prod_congr rfl fun m _ => (hb (fun x => 2 * (fs : ℂ) - Exact.analogPole fs n fl fh m x) (b m)).symm
  · rw [← prod_mul_distrib]
    have hinv : ∀ s : Finset ℕ, ∀ g : ℕ → PowerSeries ℂ, ∏ m ∈ s, (g m)⁻¹ = (∏ m ∈ s, g m)⁻¹ := by
      intro s g
      induction s using Finset.induction_on with
      | empty => simp
      | insert a s ha ih => rw [prod_insert ha, prod_insert ha, ih, PowerSeries.mul_inv_rev, mul_comm]
    rw [← hinv]
    refine prod_congr rfl fun m _ => ?_
    rw [hb _ (b m), PowerSeries.mul_inv_rev]

/-- The number of a binary32 pattern, at the scale 2^-149. -/
theorem f32Fix_eq (w : Word) : ((f32Fix w : ℤ) : ℝ) = Exact.f32 w * 2 ^ 149 := by
  unfold f32Fix Exact.f32
  simp only
  generalize (w.extractLsb' 23 8).toNat = e
  generalize (w.extractLsb' 0 23).toNat = m
  have h : (((if e = 0 then (m : ℤ) else (((2 ^ 23 + m) * 2 ^ (e - 1) : ℕ) : ℤ)) : ℤ) : ℝ) =
      (if e = 0 then (m : ℝ) / 2 ^ 149 else (1 + (m : ℝ) / 2 ^ 23) * 2 ^ ((e : ℤ) - 127)) * 2 ^ 149 := by
    split_ifs with h
    · push_cast; field_simp
    · obtain ⟨k, rfl⟩ := Nat.exists_eq_succ_of_ne_zero h
      push_cast
      rw [show ((k : ℤ) + 1 - 127) = (k : ℤ) - 126 by ring, zpow_sub₀ (by norm_num), zpow_natCast]
      norm_num
      ring
  split_ifs at h ⊢ <;> push_cast at h ⊢ <;> linarith

/-- A binary32 element. -/
theorem f32Disc_holds {p : ℕ} (hp : firstPrec ≤ p) (w : Word) : (f32Disc p w).Holds p (Exact.f32 w : ℝ) := by
  intro _
  have e : (Exact.f32 w : ℝ) * 2 ^ p = (f32Fix w : ℝ) * 2 ^ (p - 149) := by
    rw [f32Fix_eq, mul_assoc, ← pow_add, Nat.add_sub_cancel' (by unfold firstPrec at hp; omega)]
  have h2 : ∀ k : ℕ, ((2 : ℂ) ^ k) = ((2 ^ k : ℝ) : ℂ) := fun k => by rw [Complex.ofReal_pow]; rfl
  have e2 : ((Exact.f32 w : ℝ) : ℂ) * 2 ^ p = (((f32Fix w * (2 ^ (p - 149) : ℕ) : ℤ) : ℝ) : ℂ) := by
    rw [h2, ← Complex.ofReal_mul, e, Int.cast_mul, Int.cast_natCast, Nat.cast_pow, Nat.cast_ofNat]
  show ‖((Exact.f32 w : ℝ) : ℂ) * 2 ^ p - (((f32Fix w * (2 ^ (p - 149) : ℕ) : ℤ) : ℂ) + ((0 : ℤ) : ℂ) * Complex.I)‖ ≤ ((0 : ℕ) : ℝ)
  rw [e2, Complex.ofReal_intCast, Int.cast_zero, zero_mul, add_zero, sub_self, norm_zero, Nat.cast_zero]

/-- The filtered window. -/
theorem bandPass_holds {p : ℕ} (hp : firstPrec ≤ p) {fs n fl fh : ℕ} (hfs : 0 < fs) (hn : 0 < n)
    (hw : 0 ≤ Exact.warp fs fl * Exact.warp fs fh) (w : List Word) :
    Tracks p (bandPass p fs n fl fh (w.map (f32Disc p))) fun i => (Exact.filter fs n fl fh w i : ℝ) := by
  choose b hb using fun m => bandSection_holds (m := m) hp hfs hn hw
  have hin : Tracks p (w.map (f32Disc p)) fun i => PowerSeries.coeff i
      (PowerSeries.mk fun j => (((w.map Exact.f32).getD j 0 : ℝ) : ℂ)) := by
    intro i hi
    have hi' : i < w.length := by simpa using hi
    show Disc.Holds p (PowerSeries.coeff i (PowerSeries.mk fun j => (((w.map Exact.f32).getD j 0 : ℝ) : ℂ))) _
    rw [List.getElem_map, PowerSeries.coeff_mk]
    simpa [List.getD_eq_getElem?_getD, hi'] using f32Disc_holds hp w[i]
  have h := (Tracks.sections (n := n) (fun m _ => hb m) hin).map (φ := Disc.real)
    (g := fun i => (Exact.filter fs n fl fh w i : ℝ)) (fun i d hd => by
      rw [prod_sections] at hd
      exact Disc.real_holds hd)
  exact h

/-! ## Envelope and energy -/

theorem turnSum_holds {p : ℕ} (hp : firstPrec ≤ p) {l k : ℕ} (hl : 0 < l) {y : List Disc} {f : ℕ → ℂ} (h : Tracks p y f) :
    (turnSum p (turnTable p l) l k y).Holds p
      (∑ n ∈ range y.length, f n * Complex.exp ((2 * Real.pi * k * n / l : ℝ) * Complex.I)) := by
  have e : turnSum p (turnTable p l) l k y =
      (y.zipIdx.map fun vn => Disc.mul p vn.1 ((turnTable p l).getD (k * vn.2 % l) .zero)).foldl Disc.add .zero := by
    rw [List.foldl_map]; rfl
  have ht : Tracks p (y.zipIdx.map fun vn => Disc.mul p vn.1 ((turnTable p l).getD (k * vn.2 % l) .zero))
      fun n => f n * Complex.exp ((2 * Real.pi * k * n / l : ℝ) * Complex.I) := by
    intro i hi
    have hi' : i < y.length := by simpa using hi
    have hm : k * i % l < l := Nat.mod_lt _ hl
    have hu := unitTurn_holds hp (k * i % l) hl
    have hexp : Complex.exp ((2 * Real.pi * (k * i % l : ℕ) / l : ℝ) * Complex.I) =
        Complex.exp ((2 * Real.pi * k * i / l : ℝ) * Complex.I) := by
      have hl' : (l : ℝ) ≠ 0 := by exact_mod_cast hl.ne'
      have hd : (k : ℝ) * i = l * (k * i / l : ℕ) + (k * i % l : ℕ) := by exact_mod_cast (Nat.div_add_mod (k * i) l).symm
      have : (2 * Real.pi * k * i / l : ℝ) = 2 * Real.pi * (k * i % l : ℕ) / l + (k * i / l : ℕ) * (2 * Real.pi) := by
        rw [mul_assoc, hd]; field_simp; ring
      rw [this, Complex.ofReal_add, add_mul, Complex.exp_add]
      have : ((((k * i / l : ℕ) : ℝ) * (2 * Real.pi) : ℝ) : ℂ) * Complex.I = ((k * i / l : ℕ) : ℂ) * (2 * Real.pi * Complex.I) := by
        push_cast; ring
      rw [this, Complex.exp_nat_mul_two_pi_mul_I, mul_one]
    rw [List.getElem_map, List.getElem_zipIdx, zero_add]
    refine Disc.mul_holds (h i hi') ?_
    rw [← hexp]
    simpa [turnTable, Array.getD, hm] using hu
  have := ht.foldl_add
  rw [e]
  simpa using this

/-- The elements of a list of bounds hold the terms of a sequence, at precision `p`. -/
def TracksReal (p : ℕ) (l : List Ival) (f : ℕ → ℝ) : Prop := ∀ i (h : i < l.length), l[i].Holds p (f i)

/-- The exact 0, between bounds. -/
theorem Ival.zero_holds (p : ℕ) : Ival.zero.Holds p 0 := fun _ => by simp [Ival.zero]

/-- The sum, between bounds. -/
theorem Ival.add_holds {p : ℕ} {x y : ℝ} {a b : Ival} (ha : a.Holds p x) (hb : b.Holds p y) : (a.add b).Holds p (x + y) := by
  intro hk
  simp only [Ival.add, Bool.and_eq_true] at hk ⊢
  have h1 := ha hk.1
  have h2 := hb hk.2
  push_cast
  constructor <;> nlinarith [h1.1, h1.2, h2.1, h2.2]

/-- The sum of a list of bounds. -/
theorem TracksReal.foldl_add {p : ℕ} {l : List Ival} {f : ℕ → ℝ} (h : TracksReal p l f) :
    (l.foldl Ival.add .zero).Holds p (∑ i ∈ range l.length, f i) := by
  induction l using List.reverseRecOn with
  | nil => simpa using Ival.zero_holds p
  | append_singleton l a ih =>
    rw [List.foldl_append, List.length_append, List.length_singleton, sum_range_succ]
    refine Ival.add_holds (ih fun i hi => ?_) ?_
    · have := h i (by simp; omega)
      rwa [List.getElem_append_left hi] at this
    · have := h l.length (by simp)
      simpa using this

/-- The envelope (44_framesync R353). -/
theorem envelope_holds {p : ℕ} (hp : firstPrec ≤ p) {y : List Disc} {f : ℕ → ℝ} (h : Tracks p y fun i => (f i : ℝ)) :
    TracksReal p (envelope p y) fun i => ‖Exact.analytic f y.length i‖ := by
  intro i hi
  have hl : 0 < y.length := by
    have : i < y.length := by simpa [envelope] using hi
    omega
  have hsp : Tracks p ((List.range y.length).map fun k =>
      if analyticWeight y.length k = 0 then Disc.zero
      else (turnSum p (turnTable p y.length) y.length (y.length - k) y).mulInt (analyticWeight y.length k))
      fun k => (Exact.analyticWeight y.length k : ℂ) * Exact.spectrum f y.length k := by
    refine Tracks.of_range fun k hk => ?_
    have hwt : Exact.analyticWeight y.length k = analyticWeight y.length k := rfl
    split_ifs with h0
    · rw [hwt, h0]; simpa using Disc.zero_holds p
    · have h1 := Disc.mulInt_holds (turnSum_holds hp (k := y.length - k) hl h) (analyticWeight y.length k)
      rw [hwt, mul_comm]
      have e : Exact.spectrum f y.length k = ∑ n ∈ range y.length, ((f n : ℝ) : ℂ) *
          Complex.exp ((2 * Real.pi * (y.length - k : ℕ) * n / y.length : ℝ) * Complex.I) := by
        rw [Exact.spectrum]
        refine sum_congr rfl fun n _ => ?_
        congr 1
        have hl' : (y.length : ℝ) ≠ 0 := by exact_mod_cast hl.ne'
        have : (2 * Real.pi * (y.length - k : ℕ) * n / y.length : ℝ) =
            -(2 * Real.pi * k * n / y.length) + n * (2 * Real.pi) := by
          rw [Nat.cast_sub hk.le]; field_simp; ring
        rw [this, Complex.ofReal_add, add_mul, Complex.exp_add]
        have : (((n : ℝ) * (2 * Real.pi) : ℝ) : ℂ) * Complex.I = (n : ℂ) * (2 * Real.pi * Complex.I) := by
          push_cast; ring
        rw [this, Complex.exp_nat_mul_two_pi_mul_I, mul_one]
      rw [e]
      simpa using h1
  have h2 := Disc.abs_holds (Disc.divNat_holds (turnSum_holds hp (k := i) hl hsp) hl)
  have e : (∑ n ∈ range ((List.range y.length).map fun k =>
      if analyticWeight y.length k = 0 then Disc.zero
      else (turnSum p (turnTable p y.length) y.length (y.length - k) y).mulInt (analyticWeight y.length k)).length,
      (Exact.analyticWeight y.length n : ℂ) * Exact.spectrum f y.length n *
        Complex.exp ((2 * Real.pi * i * n / y.length : ℝ) * Complex.I)) / y.length = Exact.analytic f y.length i := by
    rw [Exact.analytic, List.length_map, List.length_range, div_eq_mul_one_div, mul_comm]
    congr 1
    refine sum_congr rfl fun n _ => ?_
    congr 4
    ring
  rw [e] at h2
  simpa [envelope] using h2

/-- The prewarped edges below half the sample rate are not negative. -/
theorem warp_nonneg {fs f : ℕ} (hf : 2 * f < fs) : 0 ≤ Exact.warp fs f := by
  have hfs : (0 : ℝ) < fs := by exact_mod_cast (by omega : 0 < fs)
  refine mul_nonneg (by positivity) (Real.tan_nonneg_of_nonneg_of_le_pi_div_two (by positivity) ?_)
  rw [div_le_iff₀ hfs]
  have : 2 * (f : ℝ) ≤ fs := by exact_mod_cast hf.le
  nlinarith [Real.pi_pos]

/-- The filter keeps the length of the window. -/
theorem length_bandPass (p fs n fl fh : ℕ) (l : List Disc) : (bandPass p fs n fl fh l).length = l.length := by
  have hone : ∀ (z : Disc) (b : ℕ) (l : List Disc) (y : Disc), (onePole p z b y l).length = l.length := by
    intro z b l
    induction l with
    | nil => intro y; rfl
    | cons a l ih => intro y; simp [onePole, ih]
  have hsec : ∀ (S : List Section) (l : List Disc), (S.foldl (Machine.sectionFilter p) l).length = l.length := by
    intro S
    induction S with
    | nil => intro l; rfl
    | cons a S ih =>
      intro l
      rw [List.foldl_cons, ih]
      simp [Machine.sectionFilter, Machine.poleFilter, hone, Machine.secondDifference]
      omega
  simp [bandPass, hsec]

/-- A window whose elements are all the number 0 has energy 0. -/
theorem energy_of_zero {fs n fl fh : ℕ} {w : List Word} (hz : ∀ v ∈ w, f32Fix v = 0) : Exact.energy fs n fl fh w = 0 := by
  have hz' : ∀ v ∈ w, Exact.f32 v = 0 := by
    intro v hv
    have h2 := f32Fix_eq v
    rw [hz v hv] at h2
    have : (0 : ℝ) < 2 ^ 149 := by positivity
    simpa [this.ne'] using h2.symm
  have hser : (PowerSeries.mk fun j => (((w.map Exact.f32).getD j 0 : ℝ) : ℂ)) = 0 := by
    ext j
    rw [PowerSeries.coeff_mk, map_zero, Complex.ofReal_eq_zero, List.getD_eq_getElem?_getD, List.getElem?_map]
    rcases h : w[j]? with _ | v
    · simp
    · simpa using hz' v (List.mem_of_getElem? h)
  have hf : ∀ i, Exact.filter fs n fl fh w i = 0 := fun i => by rw [Exact.filter, hser]; simp
  simp [Exact.energy, Exact.analytic, Exact.spectrum, hf]

end Sys2Proof.Machine
end

