-- ==== Sys2Proof/Laws/Logarithm.lean ====
section
/-! SUPPORT. The natural logarithm: ln 2, the series of the area tangent, and `Ival.ln` holds the exact logarithm. -/

open Finset

namespace Sys2Proof.Machine

/-- The truncated series `Σ y^j / (2 (k + j) + 1)` in Horner form. -/
noncomputable def artanhSum (y : ℝ) : ℕ → ℕ → ℝ
  | 0, _ => 0
  | fuel + 1, k => 1 / (2 * k + 1 : ℕ) + y * artanhSum y fuel (k + 1)

/-- `artanhSum` as a sum. -/
theorem artanhSum_eq (y : ℝ) (fuel k : ℕ) :
    artanhSum y fuel k = ∑ j ∈ range fuel, y ^ j / (2 * (k + j) + 1 : ℕ) := by
  induction fuel generalizing k with
  | zero => simp [artanhSum]
  | succ fuel ih =>
    rw [sum_range_succ', artanhSum, ih, mul_sum, add_comm, pow_zero, add_zero, add_left_inj]
    refine sum_congr rfl fun j _ => ?_
    rw [show k + 1 + j = k + (j + 1) by ring, pow_succ']; ring

/-- The series lies between 0 and its geometric bound. -/
theorem artanhSum_bounds {y : ℝ} (h0 : 0 ≤ y) (h1 : y ≤ 1 / 9) (fuel k : ℕ) :
    0 ≤ artanhSum y fuel k ∧ artanhSum y fuel k ≤ 9 / 8 := by
  induction fuel generalizing k with
  | zero => simp [artanhSum]; norm_num
  | succ fuel ih =>
    obtain ⟨h2, h3⟩ := ih (k + 1)
    have h4 : (1 : ℝ) ≤ (2 * k + 1 : ℕ) := by exact_mod_cast (by omega : 1 ≤ 2 * k + 1)
    have h5 : 1 / ((2 * k + 1 : ℕ) : ℝ) ≤ 1 := by rw [div_le_one (by linarith)]; exact h4
    have h6 : 0 ≤ 1 / ((2 * k + 1 : ℕ) : ℝ) := by positivity
    rw [artanhSum]
    constructor <;> nlinarith

/-- The series in fixed point, within 5 units. -/
theorem artanhGo_near {p : ℕ} {z2 : ℤ} {y : ℝ} (hz0 : 0 ≤ z2) (hz : (z2 : ℝ) ≤ 1 / 8 * 2 ^ p) (h0 : 0 ≤ y) (h1 : y ≤ 1 / 9)
    (hzy : |(z2 : ℝ) - y * 2 ^ p| ≤ 2) (fuel k : ℕ) :
    |(artanhGo p z2 fuel k : ℝ) - artanhSum y fuel k * 2 ^ p| ≤ 5 := by
  induction fuel generalizing k with
  | zero => simp [artanhGo, artanhSum]
  | succ fuel ih =>
    have hP : (0 : ℝ) < 2 ^ p := by positivity
    set g := artanhGo p z2 fuel (k + 1)
    set A := artanhSum y fuel (k + 1) with hA
    obtain ⟨a0, a1⟩ := artanhSum_bounds h0 h1 fuel (k + 1)
    have d1 := ediv_near (fixOne p : ℤ) (d := 2 * k + 1) (by omega)
    have d2 := ediv_near (z2 * g) (d := fixOne p) (by simp [fixOne])
    simp only [fixOne] at d1 d2
    have m : |(z2 : ℝ) * g / 2 ^ p - y * A * 2 ^ p| ≤ 23 / 8 := by
      have e : (z2 : ℝ) * g / 2 ^ p - y * A * 2 ^ p = z2 / 2 ^ p * (g - A * 2 ^ p) + A * (z2 - y * 2 ^ p) := by
        field_simp; ring
      have hz0' : (0 : ℝ) ≤ z2 := by exact_mod_cast hz0
      have q : (z2 : ℝ) / 2 ^ p ≤ 1 / 8 := by rw [div_le_iff₀ hP]; exact hz
      rw [e]
      refine (abs_add_le _ _).trans ?_
      rw [abs_mul, abs_mul, abs_of_nonneg (by positivity : (0 : ℝ) ≤ z2 / 2 ^ p), abs_of_nonneg a0]
      have := ih (k + 1)
      have b1 : (z2 : ℝ) / 2 ^ p * |(g : ℝ) - A * 2 ^ p| ≤ 1 / 8 * 5 := by gcongr
      have b2 : A * |(z2 : ℝ) - y * 2 ^ p| ≤ 9 / 8 * 2 := by gcongr
      linarith
    rw [artanhGo, artanhSum, ← hA, add_mul]
    simp only [fixOne]
    push_cast at d1 d2 ⊢
    have e1 : 1 / (2 * (k : ℝ) + 1) * 2 ^ p = 2 ^ p / (2 * k + 1) := by ring
    rw [e1]
    rw [abs_le] at *
    constructor <;> linarith [d1.1, d1.2, d2.1, d2.2, m.1, m.2]

/-- `2 artanh z` within 8 units. -/
theorem twoArtanh_near {p : ℕ} (hp : firstPrec ≤ p) {z : ℤ} {Z : ℝ} (hz0 : 0 ≤ z) (h0 : 0 ≤ Z) (h1 : Z ≤ 1 / 3)
    (hz : |(z : ℝ) - Z * 2 ^ p| ≤ 1) :
    |(twoArtanh p z : ℝ) - (Real.log (1 + Z) - Real.log (1 - Z)) * 2 ^ p| ≤ 8 := by
  have hP : (0 : ℝ) < 2 ^ p := by positivity
  have hPbig : (1000 : ℝ) ≤ 2 ^ p := by
    have : (2 : ℝ) ^ 10 ≤ 2 ^ p := pow_le_pow_right₀ (by norm_num) (by simp [firstPrec] at hp; omega)
    linarith
  have hz0' : (0 : ℝ) ≤ z := by exact_mod_cast hz0
  have hz1 : (z : ℝ) / 2 ^ p ≤ 17 / 50 := by
    rw [div_le_iff₀ hP]; nlinarith [(abs_le.1 hz).2]
  set z2 : ℤ := z * z / fixOne p with hz2
  have d := ediv_near (z * z) (d := fixOne p) (by simp [fixOne])
  rw [← hz2] at d
  simp only [fixOne] at d
  push_cast at d
  have hz2n : 0 ≤ z2 := Int.ediv_nonneg (by positivity) (by positivity)
  have hY : |(z2 : ℝ) - Z ^ 2 * 2 ^ p| ≤ 2 := by
    have e : (z : ℝ) * z / 2 ^ p - Z ^ 2 * 2 ^ p = (z - Z * 2 ^ p) * (z / 2 ^ p + Z) := by field_simp; ring
    have : |(z : ℝ) * z / 2 ^ p - Z ^ 2 * 2 ^ p| ≤ 1 := by
      rw [e, abs_mul, abs_of_nonneg (by positivity : (0 : ℝ) ≤ z / 2 ^ p + Z)]
      nlinarith [abs_nonneg ((z : ℝ) - Z * 2 ^ p)]
    have := abs_sub_le (z2 : ℝ) (z * z / 2 ^ p) (Z ^ 2 * 2 ^ p)
    linarith
  have hY0 : 0 ≤ Z ^ 2 := by positivity
  have hY1 : Z ^ 2 ≤ 1 / 9 := by nlinarith
  have hzb : (z2 : ℝ) ≤ 1 / 8 * 2 ^ p := by nlinarith [(abs_le.1 hY).2]
  have g := artanhGo_near hz2n hzb hY0 hY1 hY (p / 3 + 11) 0
  obtain ⟨a0, a1⟩ := artanhSum_bounds hY0 hY1 (p / 3 + 11) 0
  set G := artanhGo p z2 (p / 3 + 11) 0 with hG
  set A := artanhSum (Z ^ 2) (p / 3 + 11) 0 with hA
  have d2 := ediv_near (2 * z * G) (d := fixOne p) (by simp [fixOne])
  have tA : twoArtanh p z = 2 * z * G / (fixOne p : ℤ) := rfl
  rw [← tA] at d2
  simp only [fixOne] at d2
  push_cast at d2
  have m : |(2 : ℝ) * z * G / 2 ^ p - 2 * Z * A * 2 ^ p| ≤ 23 / 4 := by
    have e : (2 : ℝ) * z * G / 2 ^ p - 2 * Z * A * 2 ^ p =
        2 * (z / 2 ^ p) * (G - A * 2 ^ p) + 2 * A * (z - Z * 2 ^ p) := by field_simp; ring
    rw [e]
    refine (abs_add_le _ _).trans ?_
    rw [abs_mul (2 * ((z : ℝ) / 2 ^ p)), abs_mul (2 * A), abs_of_nonneg (by positivity : (0 : ℝ) ≤ 2 * (z / 2 ^ p)), abs_of_nonneg (by linarith : (0 : ℝ) ≤ 2 * A)]
    have b1 : 2 * ((z : ℝ) / 2 ^ p) * |(G : ℝ) - A * 2 ^ p| ≤ 2 * (17 / 50) * 5 := by gcongr
    have b2 : 2 * A * |(z : ℝ) - Z * 2 ^ p| ≤ 2 * (9 / 8) * 1 := by gcongr
    linarith
  have hs := norm_sub_le_of_geometric_bound_of_hasSum (r := 1 / 9) (C := 1) (by norm_num) (fun k => by
    have hk : (1 : ℝ) ≤ 2 * k + 1 := by have := Nat.cast_nonneg (α := ℝ) k; linarith
    rw [Real.norm_of_nonneg (by positivity)]
    calc (2 : ℝ) * (1 / (2 * k + 1)) * Z ^ (2 * k + 1) ≤ 2 * 1 * Z ^ (2 * k + 1) := by
          gcongr; rw [div_le_one (by linarith)]; exact hk
      _ = (Z ^ 2) ^ k * (2 * Z) := by rw [pow_succ, pow_mul]; ring
      _ ≤ (1 / 9) ^ k * 1 := by gcongr; linarith
      _ = 1 * (1 / 9) ^ k := by ring)
    (Real.hasSum_log_sub_log_of_abs_lt_one (x := Z) (by rw [abs_of_nonneg h0]; linarith)) (p / 3 + 11)
  have e : ∑ k ∈ range (p / 3 + 11), 2 * (1 / (2 * (k : ℝ) + 1)) * Z ^ (2 * k + 1) = 2 * Z * A := by
    rw [hA, artanhSum_eq, mul_sum]
    refine sum_congr rfl fun j _ => ?_
    rw [pow_succ, pow_mul]; push_cast; rw [zero_add]; ring
  rw [e, Real.norm_eq_abs] at hs
  have tail : |2 * Z * A - (Real.log (1 + Z) - Real.log (1 - Z))| * 2 ^ p ≤ 1 / 4 := by
    have h8 : (2 : ℝ) ^ p ≤ 8 ^ (p / 3 + 1) := by
      rw [show (8 : ℝ) = 2 ^ 3 by norm_num, ← pow_mul]
      exact pow_le_pow_right₀ (by norm_num) (by omega)
    have h9 : (8 : ℝ) ^ (p / 3 + 1) ≤ 9 ^ (p / 3 + 1) := by gcongr; norm_num
    have e9 : (1 / 9 : ℝ) ^ (p / 3 + 11) * 9 ^ (p / 3 + 1) = (1 / 9) ^ 10 := by
      rw [show p / 3 + 11 = p / 3 + 1 + 10 by ring, pow_add, mul_right_comm, ← mul_pow]; norm_num
    calc _ ≤ 1 * (1 / 9 : ℝ) ^ (p / 3 + 11) / (1 - 1 / 9) * 9 ^ (p / 3 + 1) := by gcongr; exact h8.trans h9
      _ = 9 / 8 * ((1 / 9 : ℝ) ^ (p / 3 + 11) * 9 ^ (p / 3 + 1)) := by ring
      _ ≤ 1 / 4 := by rw [e9]; norm_num
  have tail2 : |2 * Z * A * 2 ^ p - (Real.log (1 + Z) - Real.log (1 - Z)) * 2 ^ p| ≤ 1 / 4 := by
    rw [← sub_mul, abs_mul, abs_of_pos hP]; exact tail
  have t1 := abs_sub_le (twoArtanh p z : ℝ) (2 * z * G / 2 ^ p) ((Real.log (1 + Z) - Real.log (1 - Z)) * 2 ^ p)
  have t2 := abs_sub_le ((2 : ℝ) * z * G / 2 ^ p) (2 * Z * A * 2 ^ p) ((Real.log (1 + Z) - Real.log (1 - Z)) * 2 ^ p)
  linarith

/-- ln 2 at the precision `p`, within two units. -/
theorem ln2Fix_near {p : ℕ} (hp : firstPrec ≤ p) : |(ln2Fix p : ℝ) - Real.log 2 * 2 ^ p| ≤ 2 := by
  have key : ∀ p : ℕ, firstPrec ≤ p →
      |((twoArtanh (p + guardBits p) (fixOne (p + guardBits p) / 3 : ℕ) / (fixOne (guardBits p) : ℤ) : ℤ) : ℝ) -
        Real.log 2 * 2 ^ p| ≤ 2 := by
    intro p hp
    obtain ⟨hg, -⟩ := guardBits_bounds hp
    set g := guardBits p
    have hgp : (8 : ℝ) ≤ 2 ^ g := by
      have : 8 ≤ 2 ^ g := by simp [firstPrec] at hp; omega
      exact_mod_cast this
    have hpos : (0 : ℝ) < 2 ^ g := by positivity
    have d3 := ndiv_near (fixOne (p + g)) (d := 3) (by norm_num)
    have a := twoArtanh_near (p := p + g) (by omega) (z := (fixOne (p + g) / 3 : ℕ)) (Z := 1 / 3) (by positivity)
      (by norm_num) le_rfl (by
        simp only [fixOne] at d3 ⊢
        push_cast at d3
        rw [Int.cast_natCast, one_div_mul_eq_div]
        exact d3)
    have l2 : Real.log (1 + 1 / 3) - Real.log (1 - 1 / 3) = Real.log 2 := by
      rw [← Real.log_div (by norm_num) (by norm_num)]; norm_num
    rw [l2] at a
    have d := ediv_near (twoArtanh (p + g) (fixOne (p + g) / 3 : ℕ)) (d := fixOne g) (by simp [fixOne])
    set w := twoArtanh (p + g) (fixOne (p + g) / 3 : ℕ)
    simp only [fixOne, Nat.cast_pow, Nat.cast_ofNat] at d ⊢
    have m : |(w : ℝ) / 2 ^ g - Real.log 2 * 2 ^ p| ≤ 1 := by
      have e : (w : ℝ) / 2 ^ g - Real.log 2 * 2 ^ p = (w - Real.log 2 * 2 ^ (p + g)) / 2 ^ g := by
        rw [pow_add]; field_simp
      rw [e, abs_div, abs_of_pos hpos, div_le_one hpos]; linarith
    have := abs_sub_le ((w / 2 ^ g : ℤ) : ℝ) (w / 2 ^ g) (Real.log 2 * 2 ^ p)
    linarith
  unfold ln2Fix
  split_ifs with h
  · have e : twoArtanh (firstPrec + guardBits firstPrec) (fixOne (firstPrec + guardBits firstPrec) / 3 : ℕ) /
        (fixOne (guardBits firstPrec) : ℤ) =
        (80260960185991308862233904206310070533990667611589946606122867505419956976171 : ℕ) := by decide +kernel
    have := key p hp
    rw [h, e, Int.cast_natCast] at this
    rwa [h]
  · have hk := key p hp
    have h1 : (1 : ℝ) * 1000 ≤ 2 ^ p := by
      have : (2 : ℝ) ^ 10 ≤ 2 ^ p := pow_le_pow_right₀ (by norm_num) (by simp [firstPrec] at hp; omega)
      linarith
    have h2 : (0.5 : ℝ) < Real.log 2 := by linarith [Real.log_two_gt_d9]
    have pos : (0 : ℝ) ≤ ((twoArtanh (p + guardBits p) (fixOne (p + guardBits p) / 3 : ℕ) / (fixOne (guardBits p) : ℤ) : ℤ) : ℝ) := by
      nlinarith [(abs_le.1 hk).1]
    rw [← Int.cast_natCast, Int.toNat_of_nonneg (by exact_mod_cast pos)]
    exact hk

/-- The logarithm of a number below 2 that the precision resolves, within `lnError`. -/
theorem lnFix_near {p a : ℕ} (hp : firstPrec ≤ p) (h0 : 0 < a) (h1 : a < 2 * fixOne p) :
    |(lnFix p a : ℝ) - Real.log (a / 2 ^ p) * 2 ^ p| ≤ lnError p := by
  have hP : (0 : ℝ) < 2 ^ p := by positivity
  set e := a.log2 with he
  have hle : 2 ^ e ≤ a := Nat.log2_self_le h0.ne'
  have hlt : a < 2 ^ (e + 1) := Nat.lt_log2_self
  have hep : e ≤ p := by
    by_contra h
    have : 2 ^ (p + 1) ≤ 2 ^ e := Nat.pow_le_pow_right (by norm_num) (by omega)
    simp only [fixOne, pow_succ] at *
    omega
  obtain ⟨m, hm⟩ := Nat.exists_eq_add_of_le hep
  have hpe : p - e = m := by omega
  set T : ℝ := a / 2 ^ e with hT
  have hE : (0 : ℝ) < 2 ^ e := by positivity
  have hT1 : 1 ≤ T := by rw [hT, le_div_iff₀ hE, one_mul]; exact_mod_cast hle
  have hT2 : T ≤ 2 := by
    rw [hT, div_le_iff₀ hE]
    have : (a : ℝ) ≤ 2 ^ (e + 1) := by exact_mod_cast hlt.le
    rw [pow_succ] at this; linarith
  set t : ℕ := a * 2 ^ m with ht
  have htT : (t : ℝ) = T * 2 ^ p := by
    rw [ht, hT, hm]; push_cast; rw [pow_add]; field_simp
  have htle : fixOne p ≤ t := by
    have : (2 : ℝ) ^ p ≤ t := by rw [htT]; nlinarith
    simp only [fixOne]; exact_mod_cast this
  set z : ℤ := ((t : ℤ) - fixOne p) * fixOne p / (t + fixOne p) with hz
  have d := ediv_near (((t : ℤ) - fixOne p) * fixOne p) (d := t + fixOne p) (by simp [fixOne])
  have hzz : z = ((t : ℤ) - fixOne p) * fixOne p / ((t + fixOne p : ℕ) : ℤ) := by rw [hz]; push_cast; rfl
  rw [← hzz] at d
  set Z : ℝ := (T - 1) / (T + 1) with hZ
  have hZ0 : 0 ≤ Z := div_nonneg (by linarith) (by linarith)
  have hZ1 : Z ≤ 1 / 3 := by rw [hZ, div_le_div_iff₀ (by linarith) (by norm_num)]; linarith
  have hzn : 0 ≤ z := by
    rw [hzz]
    refine Int.ediv_nonneg (mul_nonneg ?_ (by positivity)) (by positivity)
    have : (fixOne p : ℤ) ≤ t := by exact_mod_cast htle
    linarith
  have hzZ : |(z : ℝ) - Z * 2 ^ p| ≤ 1 := by
    have e1 : Z * 2 ^ p = ((((t : ℤ) - fixOne p) * fixOne p : ℤ) : ℝ) / ((t + fixOne p : ℕ) : ℝ) := by
      simp only [fixOne]; push_cast; rw [htT, hZ]; field_simp
    rw [e1]; exact d
  have A := twoArtanh_near hp hzn hZ0 hZ1 hzZ
  have hlog : Real.log (1 + Z) - Real.log (1 - Z) = Real.log T := by
    have : T + 1 ≠ 0 := by linarith
    rw [← Real.log_div (by linarith) (by linarith)]
    congr 1
    rw [hZ]; field_simp; ring
  rw [hlog] at A
  have L := ln2Fix_near hp
  have hd : Real.log (a / 2 ^ p) = Real.log T - m * Real.log 2 := by
    have : (a : ℝ) / 2 ^ p = T / 2 ^ m := by rw [hT, hm, pow_add]; field_simp
    rw [this, Real.log_div (by linarith) (by positivity), Real.log_pow]
  have hfix : (lnFix p a : ℝ) = -(m : ℝ) * ln2Fix p + twoArtanh p z := by
    have : lnFix p a = ((e : ℤ) - p) * ln2Fix p + twoArtanh p z := by
      simp only [lnFix, ← he, hpe, hz, ht]; push_cast; rfl
    rw [this]; push_cast
    have : (p : ℝ) = e + m := by exact_mod_cast hm
    rw [this]; ring
  rw [hfix, hd, lnError]
  have hmp : (m : ℝ) ≤ p := by exact_mod_cast (by omega : m ≤ p)
  have hp' : (256 : ℝ) ≤ p := by exact_mod_cast hp
  have e2 : -(m : ℝ) * ln2Fix p + twoArtanh p z - (Real.log T - m * Real.log 2) * 2 ^ p =
      -(m : ℝ) * (ln2Fix p - Real.log 2 * 2 ^ p) + (twoArtanh p z - Real.log T * 2 ^ p) := by ring
  rw [e2]
  refine (abs_add_le _ _).trans ?_
  rw [abs_mul, abs_neg, abs_of_nonneg (Nat.cast_nonneg m)]
  push_cast
  have : (m : ℝ) * |(ln2Fix p : ℝ) - Real.log 2 * 2 ^ p| ≤ p * 2 := by gcongr
  linarith

/-- The logarithm of an enclosed number. -/
theorem Ival.ln_holds {p : ℕ} (hp : firstPrec ≤ p) {x : ℝ} {a : Ival} (h : a.Holds p x) :
    (a.ln p).Holds p (Real.log x) := by
  have hP : (0 : ℝ) < 2 ^ p := by positivity
  unfold Ival.ln
  split_ifs with hc
  · intro hk
    obtain ⟨h1, h2⟩ := h hk
    obtain ⟨c1, c2⟩ := hc
    have hlo : ((a.lo.toNat : ℕ) : ℤ) = a.lo := Int.toNat_of_nonneg c1.le
    have hlox : (a.lo : ℝ) = (a.lo.toNat : ℕ) := by exact_mod_cast hlo.symm
    have hlo0 : (0 : ℝ) < a.lo := by exact_mod_cast c1
    have hle : a.lo ≤ a.hi := by exact_mod_cast h1.trans h2
    have hhi : ((a.hi.toNat : ℕ) : ℤ) = a.hi := Int.toNat_of_nonneg (by omega)
    have hhix : (a.hi : ℝ) = (a.hi.toNat : ℕ) := by exact_mod_cast hhi.symm
    have hx : 0 < x := by
      have : 0 < x * 2 ^ p := hlo0.trans_le h1
      exact pos_of_mul_pos_left this hP.le
    have b1 := lnFix_near (a := a.lo.toNat) hp (by omega) (by omega)
    have b2 := lnFix_near (a := a.hi.toNat) hp (by omega) (by omega)
    rw [← hlox] at b1
    rw [← hhix] at b2
    have m1 : Real.log (a.lo / 2 ^ p) ≤ Real.log x :=
      Real.log_le_log (by positivity) (by rw [div_le_iff₀ hP]; exact h1)
    have m2 : Real.log x ≤ Real.log (a.hi / 2 ^ p) := Real.log_le_log hx (by rw [le_div_iff₀ hP]; exact h2)
    have n1 := mul_le_mul_of_nonneg_right m1 hP.le
    have n2 := mul_le_mul_of_nonneg_right m2 hP.le
    push_cast
    constructor
    · linarith [(abs_le.1 b1).2]
    · linarith [(abs_le.1 b2).1]
  · intro hk; simp [Ival.unknown] at hk

end Sys2Proof.Machine
end

