-- ==== Sys2Proof/Laws/PerInstr.lean ====
section
/-! SUPPORT. One lemma per command for the family `WordForm`: what the command's word looks like as syntax. -/

namespace Sys2Proof.Laws.WordForm

/-- The command's word has `RSV = 0`, its opcode in the low byte, and passes the check of a command word
(30_encoding R170, R174). -/
def Statement (i : Instr) : Prop :=
  (encode i).extractLsb' 8 24 = 0#24 ∧ (encode i).extractLsb' 0 8 = i.opcode ∧
    reservedOpcode i.opcode.toNat = false ∧ wordWellFormed (encode i) = true ∧ i.wellFormed = true

theorem nop : Statement .nop := by unfold Statement; decide
theorem cfgCommit : Statement .cfgCommit := by unfold Statement; decide
theorem byteToBits : Statement .byteToBits := by unfold Statement; decide
theorem bitsToByte : Statement .bitsToByte := by unfold Statement; decide
theorem pack : Statement .pack := by unfold Statement; decide
theorem unpack : Statement .unpack := by unfold Statement; decide
theorem split : Statement .split := by unfold Statement; decide
theorem invert : Statement .invert := by unfold Statement; decide
theorem crcParity : Statement .crcParity := by unfold Statement; decide
theorem crcCheck : Statement .crcCheck := by unfold Statement; decide
theorem rbInit : Statement .rbInit := by unfold Statement; decide
theorem rbAdd : Statement .rbAdd := by unfold Statement; decide
theorem rbSnapshot : Statement .rbSnapshot := by unfold Statement; decide
theorem rbFirst : Statement .rbFirst := by unfold Statement; decide
theorem rbLast : Statement .rbLast := by unfold Statement; decide
theorem synBlock : Statement .synBlock := by unfold Statement; decide
theorem buildSignal : Statement .buildSignal := by unfold Statement; decide
theorem syncTest : Statement .syncTest := by unfold Statement; decide
theorem decode : Statement .decode := by unfold Statement; decide
theorem rxStart : Statement .rxStart := by unfold Statement; decide
theorem rxStop : Statement .rxStop := by unfold Statement; decide
theorem rxCancel : Statement .rxCancel := by unfold Statement; decide
theorem txSend : Statement .txSend := by unfold Statement; decide
theorem evqPop : Statement .evqPop := by unfold Statement; decide

end Sys2Proof.Laws.WordForm
end

