-- ==== Sys2Proof/Laws/Spectrum.lean ====
section
/-! SUPPORT. The spectrogram (45_decoder R392 to R394): the window, the magnitude of a bin and a normalized frame hold
the exact numbers. -/

open Finset

namespace Sys2Proof.Machine

/-- Division rounded up is within one unit above the quotient. -/
theorem ceilDivInt_bounds (a : ℤ) {d : ℕ} (hd : 0 < d) : (a : ℝ) / d ≤ ceilDivInt a d ∧ (ceilDivInt a d : ℝ) ≤ (a : ℝ) / d + 1 := by
  obtain ⟨h1, h2⟩ := ediv_sub_bounds (-a) hd
  simp only [ceilDivInt]
  push_cast at h1 h2 ⊢
  rw [neg_div] at h1 h2
  constructor <;> linarith

/-- A rational number. -/
theorem Ival.ofRat_holds (p : ℕ) (n : ℤ) {d : ℕ} (hd : 0 < d) : (Ival.ofRat p n d).Holds p (n / d) := by
  intro _
  have h1 := (ediv_sub_bounds (n * fixOne p) hd).1
  have h2 := (ceilDivInt_bounds (n * fixOne p) hd).1
  have e : (n : ℝ) / d * 2 ^ p = ((n * fixOne p : ℤ) : ℝ) / d := by simp only [fixOne]; push_cast; ring
  rw [e]
  exact ⟨by simp only [Ival.ofRat]; linarith, h2⟩

/-- The negative. -/
theorem Ival.neg_holds {p : ℕ} {x : ℝ} {a : Ival} (ha : a.Holds p x) : a.neg.Holds p (-x) := by
  intro hk
  obtain ⟨h1, h2⟩ := ha hk
  simp only [Ival.neg]
  push_cast
  constructor <;> linarith

/-- The quotient by a positive number. -/
theorem Ival.divPos_holds {p : ℕ} {x y : ℝ} {a b : Ival} (ha : a.Holds p x) (hb : b.Holds p y) (hpos : 0 < b.lo) :
    (a.divPos p b).Holds p (x / y) := by
  intro hk
  simp only [Ival.divPos, Bool.and_eq_true] at hk
  obtain ⟨a1, a2⟩ := ha hk.1
  obtain ⟨b1, b2⟩ := hb hk.2
  have hP : (0 : ℝ) < 2 ^ p := by positivity
  have hlo : (0 : ℝ) < b.lo := by exact_mod_cast hpos
  have hhi' : (0 : ℝ) < b.hi := by linarith
  have hhi : 0 < b.hi := by exact_mod_cast hhi'
  have hY : 0 < y * 2 ^ p := by linarith
  have hy : 0 < y := pos_of_mul_pos_left hY hP.le
  have e : x / y * 2 ^ p = x * 2 ^ p * 2 ^ p / (y * 2 ^ p) := by field_simp
  have q : ∀ u v : ℤ, 0 < v → ((u * fixOne p / v : ℤ) : ℝ) ≤ (u : ℝ) * 2 ^ p / v := by
    intro u v hv
    obtain ⟨w, rfl⟩ := Int.eq_ofNat_of_zero_le hv.le
    have := (ediv_sub_bounds (u * fixOne p) (d := w) (by exact_mod_cast hv)).1
    simp only [fixOne] at this ⊢
    push_cast at this ⊢
    linarith
  have c : ∀ u v : ℤ, 0 < v → (u : ℝ) * 2 ^ p / v ≤ (ceilDivInt (u * fixOne p) v.toNat : ℝ) := by
    intro u v hv
    have := (ceilDivInt_bounds (u * fixOne p) (d := v.toNat) (by omega)).1
    have hv' : ((v.toNat : ℕ) : ℝ) = v := by
      have := Int.toNat_of_nonneg hv.le
      exact_mod_cast congrArg (Int.cast : ℤ → ℝ) this
    rw [hv'] at this
    simp only [fixOne] at this ⊢
    push_cast at this ⊢
    exact this
  simp only [Ival.divPos]
  push_cast
  rw [e]
  constructor
  · rcases le_total 0 (x * 2 ^ p) with hx | hx
    · refine (min_le_right _ _).trans ((q _ _ hhi).trans ?_)
      calc (a.lo : ℝ) * 2 ^ p / b.hi ≤ x * 2 ^ p * 2 ^ p / b.hi := by gcongr
        _ ≤ x * 2 ^ p * 2 ^ p / (y * 2 ^ p) := by
          apply div_le_div_of_nonneg_left (by positivity) hY b2
    · refine (min_le_left _ _).trans ((q _ _ hpos).trans ?_)
      calc (a.lo : ℝ) * 2 ^ p / b.lo ≤ x * 2 ^ p * 2 ^ p / b.lo := by gcongr
        _ ≤ x * 2 ^ p * 2 ^ p / (y * 2 ^ p) := by
          have h1 : -(x * 2 ^ p * 2 ^ p) / (y * 2 ^ p) ≤ -(x * 2 ^ p * 2 ^ p) / b.lo :=
            div_le_div_of_nonneg_left (by nlinarith) hlo b1
          rw [neg_div, neg_div] at h1; linarith
  · rcases le_total 0 (x * 2 ^ p) with hx | hx
    · refine le_trans ?_ ((c _ _ hpos).trans (le_max_left _ _))
      calc x * 2 ^ p * 2 ^ p / (y * 2 ^ p) ≤ x * 2 ^ p * 2 ^ p / b.lo :=
            div_le_div_of_nonneg_left (by positivity) hlo b1
        _ ≤ _ := by gcongr
    · refine le_trans ?_ ((c _ _ hhi).trans (le_max_right _ _))
      calc x * 2 ^ p * 2 ^ p / (y * 2 ^ p) ≤ x * 2 ^ p * 2 ^ p / b.hi := by
            have h1 : -(x * 2 ^ p * 2 ^ p) / b.hi ≤ -(x * 2 ^ p * 2 ^ p) / (y * 2 ^ p) :=
              div_le_div_of_nonneg_left (by nlinarith) hY b2
            rw [neg_div, neg_div] at h1; linarith
        _ ≤ _ := by gcongr

/-- The quotient. -/
theorem Ival.div_holds {p : ℕ} {x y : ℝ} {a b : Ival} (ha : a.Holds p x) (hb : b.Holds p y) : (a.div p b).Holds p (x / y) := by
  unfold Ival.div
  split_ifs with h1 h2
  · exact Ival.divPos_holds ha hb h1
  · have := Ival.divPos_holds (Ival.neg_holds ha) (Ival.neg_holds hb) (by simp only [Ival.neg]; omega)
    rwa [neg_div_neg_eq] at this
  · intro hk; simp [Ival.unknown] at hk

/-- The Hamming window (45_decoder R392). -/
theorem hamming_holds {p : ℕ} (hp : firstPrec ≤ p) {wd : ℕ} (hwd : 2 ≤ wd) (n : ℕ) :
    (hamming p wd n).Holds p (Exact.hamming wd n : ℝ) := by
  have h1 := Disc.mulInt_holds (Disc.real_holds (unitTurn_holds hp n (b := wd - 1) (by omega))) 46
  have h2 := Disc.real_holds (Disc.divNat_holds (Disc.sub_holds (Disc.ofInt_holds p 54) h1) (d := 100) (by norm_num))
  have e : ((((54 : ℤ) : ℂ) - (((Complex.exp ((2 * Real.pi * n / (wd - 1 : ℕ) : ℝ) * Complex.I)).re : ℝ) : ℂ) * ((46 : ℤ) : ℂ)) / (100 : ℕ)).re =
      Exact.hamming wd n := by
    have : ((54 : ℤ) : ℂ) - (((Complex.exp ((2 * Real.pi * n / (wd - 1 : ℕ) : ℝ) * Complex.I)).re : ℝ) : ℂ) * ((46 : ℤ) : ℂ) =
        ((54 - (Complex.exp ((2 * Real.pi * n / (wd - 1 : ℕ) : ℝ) * Complex.I)).re * 46 : ℝ) : ℂ) := by push_cast; rfl
    rw [this, show ((100 : ℕ) : ℂ) = ((100 : ℝ) : ℂ) by push_cast; rfl, ← Complex.ofReal_div, Complex.ofReal_re, Complex.exp_ofReal_mul_I_re, Exact.hamming, Nat.cast_sub (by omega), Nat.cast_one]
    norm_num
    ring
  rw [e] at h2
  exact h2

/-- The magnitude of a bin (45_decoder R392). -/
theorem magnitude_holds {p : ℕ} (hp : firstPrec ≤ p) {c : DecodeSetup} (hwd : 2 ≤ c.wd) {k : ℕ} (hk : k ≤ c.wd) (x : List Word) (f : ℕ) :
    (binMagnitude c.wd (binWeights p ((List.range c.wd).map (hamming p c.wd)) (turnTable p c.wd) c.wd k)
      (((x.map f32Fix).drop (f * c.hop)).take c.wd)).Holds p (Exact.magnitude c x f k) := by
  have hwd' : (c.wd : ℝ) ≠ 0 := by exact_mod_cast (by omega : c.wd ≠ 0)
  have hw0 : 0 < c.wd := by omega
  have hwts : Tracks p (binWeights p ((List.range c.wd).map (hamming p c.wd)) (turnTable p c.wd) c.wd k)
      fun n => (Exact.hamming c.wd n : ℂ) * Complex.exp ((-(2 * Real.pi * k * n / c.wd) : ℝ) * Complex.I) := by
    intro i hi
    have hi' : i < c.wd := by simpa [binWeights] using hi
    have hm : (c.wd - k) * i % c.wd < c.wd := Nat.mod_lt _ hw0
    have hu := unitTurn_holds hp ((c.wd - k) * i % c.wd) hw0
    have hexp : Complex.exp ((2 * Real.pi * ((c.wd - k) * i % c.wd : ℕ) / c.wd : ℝ) * Complex.I) =
        Complex.exp ((-(2 * Real.pi * k * i / c.wd) : ℝ) * Complex.I) := by
      have hd : ((c.wd : ℝ) - k) * i = c.wd * ((c.wd - k) * i / c.wd : ℕ) + ((c.wd - k) * i % c.wd : ℕ) := by
        rw [← Nat.cast_sub hk]; exact_mod_cast (Nat.div_add_mod ((c.wd - k) * i) c.wd).symm
      have e1 : (2 * Real.pi * ((c.wd - k) * i % c.wd : ℕ) / c.wd : ℝ) + ((c.wd - k) * i / c.wd : ℕ) * (2 * Real.pi) =
          -(2 * Real.pi * k * i / c.wd) + i * (2 * Real.pi) := by
        field_simp
        linear_combination (-1) * hd
      have hexp2 : ∀ (t : ℝ) (m : ℕ), Complex.exp (((t + m * (2 * Real.pi) : ℝ) : ℂ) * Complex.I) = Complex.exp ((t : ℂ) * Complex.I) := by
        intro t m
        rw [Complex.ofReal_add, add_mul, Complex.exp_add]
        have : (((m : ℝ) * (2 * Real.pi) : ℝ) : ℂ) * Complex.I = (m : ℂ) * (2 * Real.pi * Complex.I) := by push_cast; ring
        rw [this, Complex.exp_nat_mul_two_pi_mul_I, mul_one]
      rw [← hexp2 _ ((c.wd - k) * i / c.wd), e1, hexp2]
    have e2 : (binWeights p ((List.range c.wd).map (hamming p c.wd)) (turnTable p c.wd) c.wd k)[i] =
        Disc.mul p (hamming p c.wd i) ((turnTable p c.wd).getD ((c.wd - k) * i % c.wd) .zero) := by
      simp [binWeights]
    rw [e2]
    refine Disc.mul_holds (hamming_holds hp hwd i) ?_
    rw [← hexp]
    simpa [turnTable, Array.getD, hm] using hu
  set W := binWeights p ((List.range c.wd).map (hamming p c.wd)) (turnTable p c.wd) c.wd k with hW
  have hWl : W.length = c.wd := by simp [hW, binWeights]
  set X := (((x.map f32Fix).drop (f * c.hop)).take c.wd) with hX
  have hprod : Tracks p (List.zipWith Disc.mulInt W X)
      fun n => (Exact.hamming c.wd n : ℂ) * Complex.exp ((-(2 * Real.pi * k * n / c.wd) : ℝ) * Complex.I) *
        ((((x.map f32Fix).getD (f * c.hop + n) 0 : ℤ)) : ℂ) := by
    intro i hi
    have hi' : i < W.length ∧ i < X.length := by simpa using hi
    rw [List.getElem_zipWith]
    have hx : X[i]'hi'.2 = (x.map f32Fix).getD (f * c.hop + i) 0 := by
      have h1 : f * c.hop + i < x.length := by
        have := hi'.2
        simp [hX] at this; omega
      simp [hX, h1]
    rw [hx]
    exact Disc.mulInt_holds (hwts i hi'.1) _
  have hsum := hprod.foldl_add
  have htail : ∑ n ∈ range (List.zipWith Disc.mulInt W X).length, (Exact.hamming c.wd n : ℂ) *
      Complex.exp ((-(2 * Real.pi * k * n / c.wd) : ℝ) * Complex.I) * ((((x.map f32Fix).getD (f * c.hop + n) 0 : ℤ)) : ℂ) =
      ∑ n ∈ range c.wd, (Exact.hamming c.wd n : ℂ) *
      Complex.exp ((-(2 * Real.pi * k * n / c.wd) : ℝ) * Complex.I) * ((((x.map f32Fix).getD (f * c.hop + n) 0 : ℤ)) : ℂ) := by
    refine sum_subset (range_subset_range.2 (by simp [hWl])) fun n hn hn' => ?_
    have h1 : n < c.wd := mem_range.1 hn
    have h2 : x.length ≤ f * c.hop + n := by
      simp [hWl, hX] at hn'
      omega
    rw [List.getD_eq_default _ _ (by simpa using h2)]
    simp
  rw [htail] at hsum
  have hd := Disc.abs_holds (Disc.divNat_holds hsum (d := 2 ^ 149 * c.wd) (by positivity))
  have e3 : ‖(∑ n ∈ range c.wd, (Exact.hamming c.wd n : ℂ) *
      Complex.exp ((-(2 * Real.pi * k * n / c.wd) : ℝ) * Complex.I) * ((((x.map f32Fix).getD (f * c.hop + n) 0 : ℤ)) : ℂ)) / (2 ^ 149 * c.wd : ℕ)‖ =
      Exact.magnitude c x f k := by
    have hf : ∀ n, ((((x.map f32Fix).getD (f * c.hop + n) 0 : ℤ)) : ℂ) = ((x.map Exact.f32).getD (f * c.hop + n) 0 : ℝ) * 2 ^ 149 := by
      intro n
      simp only [List.getD_eq_getElem?_getD, List.getElem?_map]
      rcases x[f * c.hop + n]? with _ | v
      · simp
      · simp only [Option.map_some, Option.getD_some]
        have := f32Fix_eq v
        rw [← Complex.ofReal_intCast, this, Complex.ofReal_mul, Complex.ofReal_pow]; rfl
    have hs : (∑ n ∈ range c.wd, (Exact.hamming c.wd n : ℂ) *
      Complex.exp ((-(2 * Real.pi * k * n / c.wd) : ℝ) * Complex.I) * ((((x.map f32Fix).getD (f * c.hop + n) 0 : ℤ)) : ℂ)) =
        (∑ n ∈ range c.wd, (Exact.hamming c.wd n : ℂ) * ((x.map Exact.f32).getD (f * c.hop + n) 0 : ℝ) *
    Complex.exp ((-(2 * Real.pi * k * n / c.wd) : ℝ) * Complex.I)) * 2 ^ 149 := by
      rw [sum_mul]
      refine sum_congr rfl fun n _ => ?_
      rw [hf]; ring
    rw [hs, Exact.magnitude, Nat.cast_mul, Nat.cast_pow, Nat.cast_ofNat, mul_comm ((2 : ℂ) ^ 149), mul_div_mul_right _ _ (pow_ne_zero _ two_ne_zero), norm_div, Complex.norm_natCast]
  rw [e3] at hd
  exact hd

/-- An operation on every element. -/
theorem TracksReal.map {p : ℕ} {l : List Ival} {f g : ℕ → ℝ} (h : TracksReal p l f) {φ : Ival → Ival}
    (hφ : ∀ i d, d.Holds p (f i) → (φ d).Holds p (g i)) : TracksReal p (l.map φ) g := by
  intro i hi
  rw [List.getElem_map]
  exact hφ i _ (h i (by simpa using hi))

/-- A normalized frame (45_decoder R394). -/
theorem normalizeFrame_holds {p : ℕ} (hp : firstPrec ≤ p) {m : List Ival} {f : ℕ → ℝ} (h : TracksReal p m f) :
    TracksReal p (normalizeFrame p m) fun i =>
      let sum := ∑ j ∈ range m.length, Real.log (f j + 1 / 10 ^ 10)
      if sum ≠ 0 then Real.log (f i + 1 / 10 ^ 10) / sum else 0 := by
  have hv : TracksReal p (m.map fun x => (x.add (epsFloor p)).ln p) fun i => Real.log (f i + 1 / 10 ^ 10) :=
    h.map fun i d hd => Ival.ln_holds hp (Ival.add_holds hd (by
      have := Ival.ofRat_holds p 1 (d := 10 ^ 10) (by norm_num)
      rwa [Int.cast_one, Nat.cast_pow, Nat.cast_ofNat] at this))
  have hs := hv.foldl_add
  rw [List.length_map] at hs
  unfold normalizeFrame
  simp only
  set sum := (m.map fun x => (x.add (epsFloor p)).ln p).foldl Ival.add .zero with hsum
  by_cases h0 : sum = .zero
  · rw [if_pos h0]
    have hz : ∑ j ∈ range m.length, Real.log (f j + 1 / 10 ^ 10) = 0 := by
      rw [h0] at hs
      obtain ⟨h1, h2⟩ := hs rfl
      have : (0 : ℝ) < 2 ^ p := by positivity
      simp only [Ival.zero, Int.cast_zero] at h1 h2
      have : (∑ j ∈ range m.length, Real.log (f j + 1 / 10 ^ 10)) * 2 ^ p = 0 := le_antisymm h2 h1
      simpa using this
    rw [hz]
    exact hv.map fun i d _ => by simpa using Ival.zero_holds p
  · rw [if_neg h0]
    refine hv.map fun i d hd => ?_
    split_ifs with hne
    · exact Ival.div_holds hd hs
    · rw [not_not] at hne
      have := Ival.div_holds hd hs
      rwa [hne, div_zero] at this

end Sys2Proof.Machine
end

