-- ==== Sys2Proof/Laws/State.lean ====
section
/-! SUPPORT. What each named update of the state does to each field, and that it leaves every other field as it was. -/

namespace Sys2Proof.Machine

/-! ## writeCtrl -/

@[simp] theorem writeCtrl_hw (s : State) (w : Word) : (s.writeCtrl w).hw = s.hw := rfl
@[simp] theorem writeCtrl_ctrlContinuous (s : State) (w : Word) : (s.writeCtrl w).ctrlContinuous = w.getLsbD 0 := rfl
@[simp] theorem writeCtrl_ctrlSpectrumEn (s : State) (w : Word) : (s.writeCtrl w).ctrlSpectrumEn = w.getLsbD 1 := rfl
@[simp] theorem writeCtrl_ctrlIrqEn (s : State) (w : Word) : (s.writeCtrl w).ctrlIrqEn = w.getLsbD 2 := rfl
@[simp] theorem writeCtrl_rxState (s : State) (w : Word) : (s.writeCtrl w).rxState = s.rxState := rfl
@[simp] theorem writeCtrl_txState (s : State) (w : Word) : (s.writeCtrl w).txState = s.txState := rfl
@[simp] theorem writeCtrl_cfgValid (s : State) (w : Word) : (s.writeCtrl w).cfgValid = s.cfgValid := rfl
@[simp] theorem writeCtrl_rbValid (s : State) (w : Word) : (s.writeCtrl w).rbValid = s.rbValid := rfl
@[simp] theorem writeCtrl_stopReq (s : State) (w : Word) : (s.writeCtrl w).stopReq = s.stopReq := rfl
@[simp] theorem writeCtrl_cancelReq (s : State) (w : Word) : (s.writeCtrl w).cancelReq = s.cancelReq := rfl
@[simp] theorem writeCtrl_err (s : State) (w : Word) : (s.writeCtrl w).err = s.err := rfl
@[simp] theorem writeCtrl_warnMalformed (s : State) (w : Word) :
    (s.writeCtrl w).warnMalformed = s.warnMalformed := rfl
@[simp] theorem writeCtrl_partialBlock (s : State) (w : Word) : (s.writeCtrl w).partialBlock = s.partialBlock := rfl
@[simp] theorem writeCtrl_crcOk (s : State) (w : Word) : (s.writeCtrl w).crcOk = s.crcOk := rfl
@[simp] theorem writeCtrl_syncStart (s : State) (w : Word) : (s.writeCtrl w).syncStart = s.syncStart := rfl
@[simp] theorem writeCtrl_syncEnd (s : State) (w : Word) : (s.writeCtrl w).syncEnd = s.syncEnd := rfl
@[simp] theorem writeCtrl_arg0 (s : State) (w : Word) : (s.writeCtrl w).arg0 = s.arg0 := rfl
@[simp] theorem writeCtrl_arg1 (s : State) (w : Word) : (s.writeCtrl w).arg1 = s.arg1 := rfl
@[simp] theorem writeCtrl_plen (s : State) (w : Word) : (s.writeCtrl w).plen = s.plen := rfl
@[simp] theorem writeCtrl_blen (s : State) (w : Word) : (s.writeCtrl w).blen = s.blen := rfl
@[simp] theorem writeCtrl_nblocks (s : State) (w : Word) : (s.writeCtrl w).nblocks = s.nblocks := rfl
@[simp] theorem writeCtrl_pcmlen (s : State) (w : Word) : (s.writeCtrl w).pcmlen = s.pcmlen := rfl
@[simp] theorem writeCtrl_wlen (s : State) (w : Word) : (s.writeCtrl w).wlen = s.wlen := rfl
@[simp] theorem writeCtrl_crcParity (s : State) (w : Word) : (s.writeCtrl w).crcParity = s.crcParity := rfl
@[simp] theorem writeCtrl_crcWeight (s : State) (w : Word) : (s.writeCtrl w).crcWeight = s.crcWeight := rfl
@[simp] theorem writeCtrl_byteRes (s : State) (w : Word) : (s.writeCtrl w).byteRes = s.byteRes := rfl
@[simp] theorem writeCtrl_rxBlen (s : State) (w : Word) : (s.writeCtrl w).rxBlen = s.rxBlen := rfl
@[simp] theorem writeCtrl_rxWeight (s : State) (w : Word) : (s.writeCtrl w).rxWeight = s.rxWeight := rfl
@[simp] theorem writeCtrl_profile (s : State) (w : Word) : (s.writeCtrl w).profile = s.profile := rfl
@[simp] theorem writeCtrl_tuning (s : State) (w : Word) : (s.writeCtrl w).tuning = s.tuning := rfl
@[simp] theorem writeCtrl_activeProfile (s : State) (w : Word) :
    (s.writeCtrl w).activeProfile = s.activeProfile := rfl
@[simp] theorem writeCtrl_activeTuning (s : State) (w : Word) : (s.writeCtrl w).activeTuning = s.activeTuning := rfl
@[simp] theorem writeCtrl_derived (s : State) (w : Word) : (s.writeCtrl w).derived = s.derived := rfl
@[simp] theorem writeCtrl_freq (s : State) (w : Word) : (s.writeCtrl w).freq = s.freq := rfl
@[simp] theorem writeCtrl_evq (s : State) (w : Word) : (s.writeCtrl w).evq = s.evq := rfl
@[simp] theorem writeCtrl_rbWr (s : State) (w : Word) : (s.writeCtrl w).rbWr = s.rbWr := rfl
@[simp] theorem writeCtrl_rbSteps (s : State) (w : Word) : (s.writeCtrl w).rbSteps = s.rbSteps := rfl
@[simp] theorem writeCtrl_sumUpFirst (s : State) (w : Word) : (s.writeCtrl w).sumUpFirst = s.sumUpFirst := rfl
@[simp] theorem writeCtrl_sumDownFirst (s : State) (w : Word) : (s.writeCtrl w).sumDownFirst = s.sumDownFirst := rfl
@[simp] theorem writeCtrl_sumUpLast (s : State) (w : Word) : (s.writeCtrl w).sumUpLast = s.sumUpLast := rfl
@[simp] theorem writeCtrl_sumDownLast (s : State) (w : Word) : (s.writeCtrl w).sumDownLast = s.sumDownLast := rfl
@[simp] theorem writeCtrl_captureOpen (s : State) (w : Word) : (s.writeCtrl w).captureOpen = s.captureOpen := rfl
@[simp] theorem writeCtrl_handoff (s : State) (w : Word) : (s.writeCtrl w).handoff = s.handoff := rfl
@[simp] theorem writeCtrl_mem (s : State) (w : Word) : (s.writeCtrl w).mem = s.mem := rfl
@[simp] theorem writeCtrl_pending (s : State) (w : Word) : (s.writeCtrl w).pending = s.pending := rfl
@[simp] theorem writeCtrl_busData (s : State) (w : Word) : (s.writeCtrl w).busData = s.busData := rfl
@[simp] theorem writeCtrl_env (s : State) (w : Word) : (s.writeCtrl w).env = s.env := rfl

/-! ## emit -/

@[simp] theorem emit_hw (e : Event) (s : State) : (emit e s).hw = s.hw := rfl
@[simp] theorem emit_ctrlContinuous (e : Event) (s : State) : (emit e s).ctrlContinuous = s.ctrlContinuous := rfl
@[simp] theorem emit_ctrlSpectrumEn (e : Event) (s : State) : (emit e s).ctrlSpectrumEn = s.ctrlSpectrumEn := rfl
@[simp] theorem emit_ctrlIrqEn (e : Event) (s : State) : (emit e s).ctrlIrqEn = s.ctrlIrqEn := rfl
@[simp] theorem emit_rxState (e : Event) (s : State) : (emit e s).rxState = s.rxState := rfl
@[simp] theorem emit_txState (e : Event) (s : State) : (emit e s).txState = s.txState := rfl
@[simp] theorem emit_cfgValid (e : Event) (s : State) : (emit e s).cfgValid = s.cfgValid := rfl
@[simp] theorem emit_rbValid (e : Event) (s : State) : (emit e s).rbValid = s.rbValid := rfl
@[simp] theorem emit_stopReq (e : Event) (s : State) : (emit e s).stopReq = s.stopReq := rfl
@[simp] theorem emit_cancelReq (e : Event) (s : State) : (emit e s).cancelReq = s.cancelReq := rfl
@[simp] theorem emit_err (e : Event) (s : State) : (emit e s).err = s.err := rfl
@[simp] theorem emit_warnMalformed (e : Event) (s : State) : (emit e s).warnMalformed = s.warnMalformed := rfl
@[simp] theorem emit_partialBlock (e : Event) (s : State) : (emit e s).partialBlock = s.partialBlock := rfl
@[simp] theorem emit_crcOk (e : Event) (s : State) : (emit e s).crcOk = s.crcOk := rfl
@[simp] theorem emit_syncStart (e : Event) (s : State) : (emit e s).syncStart = s.syncStart := rfl
@[simp] theorem emit_syncEnd (e : Event) (s : State) : (emit e s).syncEnd = s.syncEnd := rfl
@[simp] theorem emit_arg0 (e : Event) (s : State) : (emit e s).arg0 = s.arg0 := rfl
@[simp] theorem emit_arg1 (e : Event) (s : State) : (emit e s).arg1 = s.arg1 := rfl
@[simp] theorem emit_plen (e : Event) (s : State) : (emit e s).plen = s.plen := rfl
@[simp] theorem emit_blen (e : Event) (s : State) : (emit e s).blen = s.blen := rfl
@[simp] theorem emit_nblocks (e : Event) (s : State) : (emit e s).nblocks = s.nblocks := rfl
@[simp] theorem emit_pcmlen (e : Event) (s : State) : (emit e s).pcmlen = s.pcmlen := rfl
@[simp] theorem emit_wlen (e : Event) (s : State) : (emit e s).wlen = s.wlen := rfl
@[simp] theorem emit_crcParity (e : Event) (s : State) : (emit e s).crcParity = s.crcParity := rfl
@[simp] theorem emit_crcWeight (e : Event) (s : State) : (emit e s).crcWeight = s.crcWeight := rfl
@[simp] theorem emit_byteRes (e : Event) (s : State) : (emit e s).byteRes = s.byteRes := rfl
@[simp] theorem emit_rxBlen (e : Event) (s : State) : (emit e s).rxBlen = s.rxBlen := rfl
@[simp] theorem emit_rxWeight (e : Event) (s : State) : (emit e s).rxWeight = s.rxWeight := rfl
@[simp] theorem emit_profile (e : Event) (s : State) : (emit e s).profile = s.profile := rfl
@[simp] theorem emit_tuning (e : Event) (s : State) : (emit e s).tuning = s.tuning := rfl
@[simp] theorem emit_activeProfile (e : Event) (s : State) : (emit e s).activeProfile = s.activeProfile := rfl
@[simp] theorem emit_activeTuning (e : Event) (s : State) : (emit e s).activeTuning = s.activeTuning := rfl
@[simp] theorem emit_derived (e : Event) (s : State) : (emit e s).derived = s.derived := rfl
@[simp] theorem emit_freq (e : Event) (s : State) : (emit e s).freq = s.freq := rfl
@[simp] theorem emit_evq (e : Event) (s : State) : (emit e s).evq = s.evq ++ [e] := rfl
@[simp] theorem emit_rbWr (e : Event) (s : State) : (emit e s).rbWr = s.rbWr := rfl
@[simp] theorem emit_rbSteps (e : Event) (s : State) : (emit e s).rbSteps = s.rbSteps := rfl
@[simp] theorem emit_sumUpFirst (e : Event) (s : State) : (emit e s).sumUpFirst = s.sumUpFirst := rfl
@[simp] theorem emit_sumDownFirst (e : Event) (s : State) : (emit e s).sumDownFirst = s.sumDownFirst := rfl
@[simp] theorem emit_sumUpLast (e : Event) (s : State) : (emit e s).sumUpLast = s.sumUpLast := rfl
@[simp] theorem emit_sumDownLast (e : Event) (s : State) : (emit e s).sumDownLast = s.sumDownLast := rfl
@[simp] theorem emit_captureOpen (e : Event) (s : State) : (emit e s).captureOpen = s.captureOpen := rfl
@[simp] theorem emit_handoff (e : Event) (s : State) : (emit e s).handoff = s.handoff := rfl
@[simp] theorem emit_mem (e : Event) (s : State) : (emit e s).mem = s.mem := rfl
@[simp] theorem emit_pending (e : Event) (s : State) : (emit e s).pending = s.pending := rfl
@[simp] theorem emit_busData (e : Event) (s : State) : (emit e s).busData = s.busData := rfl
@[simp] theorem emit_env (e : Event) (s : State) : (emit e s).env = s.env := rfl

/-! ## ringAdd -/

@[simp] theorem ringAdd_hw (x : List Word) (s : State) : (ringAdd x s).hw = s.hw := rfl
@[simp] theorem ringAdd_ctrlContinuous (x : List Word) (s : State) :
    (ringAdd x s).ctrlContinuous = s.ctrlContinuous := rfl
@[simp] theorem ringAdd_ctrlSpectrumEn (x : List Word) (s : State) :
    (ringAdd x s).ctrlSpectrumEn = s.ctrlSpectrumEn := rfl
@[simp] theorem ringAdd_ctrlIrqEn (x : List Word) (s : State) : (ringAdd x s).ctrlIrqEn = s.ctrlIrqEn := rfl
@[simp] theorem ringAdd_rxState (x : List Word) (s : State) : (ringAdd x s).rxState = s.rxState := rfl
@[simp] theorem ringAdd_txState (x : List Word) (s : State) : (ringAdd x s).txState = s.txState := rfl
@[simp] theorem ringAdd_cfgValid (x : List Word) (s : State) : (ringAdd x s).cfgValid = s.cfgValid := rfl
@[simp] theorem ringAdd_rbValid (x : List Word) (s : State) : (ringAdd x s).rbValid = s.rbValid := rfl
@[simp] theorem ringAdd_stopReq (x : List Word) (s : State) : (ringAdd x s).stopReq = s.stopReq := rfl
@[simp] theorem ringAdd_cancelReq (x : List Word) (s : State) : (ringAdd x s).cancelReq = s.cancelReq := rfl
@[simp] theorem ringAdd_err (x : List Word) (s : State) : (ringAdd x s).err = s.err := rfl
@[simp] theorem ringAdd_warnMalformed (x : List Word) (s : State) :
    (ringAdd x s).warnMalformed = s.warnMalformed := rfl
@[simp] theorem ringAdd_partialBlock (x : List Word) (s : State) : (ringAdd x s).partialBlock = s.partialBlock := rfl
@[simp] theorem ringAdd_crcOk (x : List Word) (s : State) : (ringAdd x s).crcOk = s.crcOk := rfl
@[simp] theorem ringAdd_syncStart (x : List Word) (s : State) : (ringAdd x s).syncStart = s.syncStart := rfl
@[simp] theorem ringAdd_syncEnd (x : List Word) (s : State) : (ringAdd x s).syncEnd = s.syncEnd := rfl
@[simp] theorem ringAdd_arg0 (x : List Word) (s : State) : (ringAdd x s).arg0 = s.arg0 := rfl
@[simp] theorem ringAdd_arg1 (x : List Word) (s : State) : (ringAdd x s).arg1 = s.arg1 := rfl
@[simp] theorem ringAdd_plen (x : List Word) (s : State) : (ringAdd x s).plen = s.plen := rfl
@[simp] theorem ringAdd_blen (x : List Word) (s : State) : (ringAdd x s).blen = s.blen := rfl
@[simp] theorem ringAdd_nblocks (x : List Word) (s : State) : (ringAdd x s).nblocks = s.nblocks := rfl
@[simp] theorem ringAdd_pcmlen (x : List Word) (s : State) : (ringAdd x s).pcmlen = s.pcmlen := rfl
@[simp] theorem ringAdd_wlen (x : List Word) (s : State) : (ringAdd x s).wlen = s.wlen := rfl
@[simp] theorem ringAdd_crcParity (x : List Word) (s : State) : (ringAdd x s).crcParity = s.crcParity := rfl
@[simp] theorem ringAdd_crcWeight (x : List Word) (s : State) : (ringAdd x s).crcWeight = s.crcWeight := rfl
@[simp] theorem ringAdd_byteRes (x : List Word) (s : State) : (ringAdd x s).byteRes = s.byteRes := rfl
@[simp] theorem ringAdd_rxBlen (x : List Word) (s : State) : (ringAdd x s).rxBlen = s.rxBlen := rfl
@[simp] theorem ringAdd_rxWeight (x : List Word) (s : State) : (ringAdd x s).rxWeight = s.rxWeight := rfl
@[simp] theorem ringAdd_profile (x : List Word) (s : State) : (ringAdd x s).profile = s.profile := rfl
@[simp] theorem ringAdd_tuning (x : List Word) (s : State) : (ringAdd x s).tuning = s.tuning := rfl
@[simp] theorem ringAdd_activeProfile (x : List Word) (s : State) :
    (ringAdd x s).activeProfile = s.activeProfile := rfl
@[simp] theorem ringAdd_activeTuning (x : List Word) (s : State) : (ringAdd x s).activeTuning = s.activeTuning := rfl
@[simp] theorem ringAdd_derived (x : List Word) (s : State) : (ringAdd x s).derived = s.derived := rfl
@[simp] theorem ringAdd_freq (x : List Word) (s : State) : (ringAdd x s).freq = s.freq := rfl
@[simp] theorem ringAdd_evq (x : List Word) (s : State) : (ringAdd x s).evq = s.evq := rfl
@[simp] theorem ringAdd_rbWr (x : List Word) (s : State) :
    (ringAdd x s).rbWr = BitVec.ofNat 32 ((s.rbWr.toNat + x.length % s.rbCapNat) % s.rbCapNat) := rfl
@[simp] theorem ringAdd_rbSteps (x : List Word) (s : State) : (ringAdd x s).rbSteps = nextSteps s.rbSteps := rfl
@[simp] theorem ringAdd_sumUpFirst (x : List Word) (s : State) : (ringAdd x s).sumUpFirst = s.sumUpFirst := rfl
@[simp] theorem ringAdd_sumDownFirst (x : List Word) (s : State) : (ringAdd x s).sumDownFirst = s.sumDownFirst := rfl
@[simp] theorem ringAdd_sumUpLast (x : List Word) (s : State) : (ringAdd x s).sumUpLast = s.sumUpLast := rfl
@[simp] theorem ringAdd_sumDownLast (x : List Word) (s : State) : (ringAdd x s).sumDownLast = s.sumDownLast := rfl
@[simp] theorem ringAdd_captureOpen (x : List Word) (s : State) : (ringAdd x s).captureOpen = s.captureOpen := rfl
@[simp] theorem ringAdd_handoff (x : List Word) (s : State) : (ringAdd x s).handoff = s.handoff := rfl
@[simp] theorem ringAdd_mem (x : List Word) (s : State) :
    (ringAdd x s).mem = ringWrite s.rbCapNat s.rbWr.toNat 0 x s.mem := rfl
@[simp] theorem ringAdd_pending (x : List Word) (s : State) : (ringAdd x s).pending = s.pending := rfl
@[simp] theorem ringAdd_busData (x : List Word) (s : State) : (ringAdd x s).busData = s.busData := rfl
@[simp] theorem ringAdd_env (x : List Word) (s : State) : (ringAdd x s).env = s.env := rfl

/-! ## ringClear -/

@[simp] theorem ringClear_hw (s : State) : (ringClear s).hw = s.hw := rfl
@[simp] theorem ringClear_ctrlContinuous (s : State) : (ringClear s).ctrlContinuous = s.ctrlContinuous := rfl
@[simp] theorem ringClear_ctrlSpectrumEn (s : State) : (ringClear s).ctrlSpectrumEn = s.ctrlSpectrumEn := rfl
@[simp] theorem ringClear_ctrlIrqEn (s : State) : (ringClear s).ctrlIrqEn = s.ctrlIrqEn := rfl
@[simp] theorem ringClear_rxState (s : State) : (ringClear s).rxState = s.rxState := rfl
@[simp] theorem ringClear_txState (s : State) : (ringClear s).txState = s.txState := rfl
@[simp] theorem ringClear_cfgValid (s : State) : (ringClear s).cfgValid = s.cfgValid := rfl
@[simp] theorem ringClear_rbValid (s : State) : (ringClear s).rbValid = true := rfl
@[simp] theorem ringClear_stopReq (s : State) : (ringClear s).stopReq = s.stopReq := rfl
@[simp] theorem ringClear_cancelReq (s : State) : (ringClear s).cancelReq = s.cancelReq := rfl
@[simp] theorem ringClear_err (s : State) : (ringClear s).err = s.err := rfl
@[simp] theorem ringClear_warnMalformed (s : State) : (ringClear s).warnMalformed = s.warnMalformed := rfl
@[simp] theorem ringClear_partialBlock (s : State) : (ringClear s).partialBlock = s.partialBlock := rfl
@[simp] theorem ringClear_crcOk (s : State) : (ringClear s).crcOk = s.crcOk := rfl
@[simp] theorem ringClear_syncStart (s : State) : (ringClear s).syncStart = s.syncStart := rfl
@[simp] theorem ringClear_syncEnd (s : State) : (ringClear s).syncEnd = s.syncEnd := rfl
@[simp] theorem ringClear_arg0 (s : State) : (ringClear s).arg0 = s.arg0 := rfl
@[simp] theorem ringClear_arg1 (s : State) : (ringClear s).arg1 = s.arg1 := rfl
@[simp] theorem ringClear_plen (s : State) : (ringClear s).plen = s.plen := rfl
@[simp] theorem ringClear_blen (s : State) : (ringClear s).blen = s.blen := rfl
@[simp] theorem ringClear_nblocks (s : State) : (ringClear s).nblocks = s.nblocks := rfl
@[simp] theorem ringClear_pcmlen (s : State) : (ringClear s).pcmlen = s.pcmlen := rfl
@[simp] theorem ringClear_wlen (s : State) : (ringClear s).wlen = s.wlen := rfl
@[simp] theorem ringClear_crcParity (s : State) : (ringClear s).crcParity = s.crcParity := rfl
@[simp] theorem ringClear_crcWeight (s : State) : (ringClear s).crcWeight = s.crcWeight := rfl
@[simp] theorem ringClear_byteRes (s : State) : (ringClear s).byteRes = s.byteRes := rfl
@[simp] theorem ringClear_rxBlen (s : State) : (ringClear s).rxBlen = s.rxBlen := rfl
@[simp] theorem ringClear_rxWeight (s : State) : (ringClear s).rxWeight = s.rxWeight := rfl
@[simp] theorem ringClear_profile (s : State) : (ringClear s).profile = s.profile := rfl
@[simp] theorem ringClear_tuning (s : State) : (ringClear s).tuning = s.tuning := rfl
@[simp] theorem ringClear_activeProfile (s : State) : (ringClear s).activeProfile = s.activeProfile := rfl
@[simp] theorem ringClear_activeTuning (s : State) : (ringClear s).activeTuning = s.activeTuning := rfl
@[simp] theorem ringClear_derived (s : State) : (ringClear s).derived = s.derived := rfl
@[simp] theorem ringClear_freq (s : State) : (ringClear s).freq = s.freq := rfl
@[simp] theorem ringClear_evq (s : State) : (ringClear s).evq = s.evq := rfl
@[simp] theorem ringClear_rbWr (s : State) : (ringClear s).rbWr = 0 := rfl
@[simp] theorem ringClear_rbSteps (s : State) : (ringClear s).rbSteps = 0 := rfl
@[simp] theorem ringClear_sumUpFirst (s : State) : (ringClear s).sumUpFirst = s.sumUpFirst := rfl
@[simp] theorem ringClear_sumDownFirst (s : State) : (ringClear s).sumDownFirst = s.sumDownFirst := rfl
@[simp] theorem ringClear_sumUpLast (s : State) : (ringClear s).sumUpLast = s.sumUpLast := rfl
@[simp] theorem ringClear_sumDownLast (s : State) : (ringClear s).sumDownLast = s.sumDownLast := rfl
@[simp] theorem ringClear_captureOpen (s : State) : (ringClear s).captureOpen = s.captureOpen := rfl
@[simp] theorem ringClear_handoff (s : State) : (ringClear s).handoff = s.handoff := rfl
@[simp] theorem ringClear_mem (s : State) :
    (ringClear s).mem = Memory.writeWords s.mem rbBase (List.replicate s.rbCapNat 0#32) := rfl
@[simp] theorem ringClear_pending (s : State) : (ringClear s).pending = s.pending := rfl
@[simp] theorem ringClear_busData (s : State) : (ringClear s).busData = s.busData := rfl
@[simp] theorem ringClear_env (s : State) : (ringClear s).env = s.env := rfl

/-! ## storeWindow -/

@[simp] theorem storeWindow_hw (o : List Word) (s : State) : (storeWindow o s).hw = s.hw := rfl
@[simp] theorem storeWindow_ctrlContinuous (o : List Word) (s : State) :
    (storeWindow o s).ctrlContinuous = s.ctrlContinuous := rfl
@[simp] theorem storeWindow_ctrlSpectrumEn (o : List Word) (s : State) :
    (storeWindow o s).ctrlSpectrumEn = s.ctrlSpectrumEn := rfl
@[simp] theorem storeWindow_ctrlIrqEn (o : List Word) (s : State) : (storeWindow o s).ctrlIrqEn = s.ctrlIrqEn := rfl
@[simp] theorem storeWindow_rxState (o : List Word) (s : State) : (storeWindow o s).rxState = s.rxState := rfl
@[simp] theorem storeWindow_txState (o : List Word) (s : State) : (storeWindow o s).txState = s.txState := rfl
@[simp] theorem storeWindow_cfgValid (o : List Word) (s : State) : (storeWindow o s).cfgValid = s.cfgValid := rfl
@[simp] theorem storeWindow_rbValid (o : List Word) (s : State) : (storeWindow o s).rbValid = s.rbValid := rfl
@[simp] theorem storeWindow_stopReq (o : List Word) (s : State) : (storeWindow o s).stopReq = s.stopReq := rfl
@[simp] theorem storeWindow_cancelReq (o : List Word) (s : State) : (storeWindow o s).cancelReq = s.cancelReq := rfl
@[simp] theorem storeWindow_err (o : List Word) (s : State) : (storeWindow o s).err = s.err := rfl
@[simp] theorem storeWindow_warnMalformed (o : List Word) (s : State) :
    (storeWindow o s).warnMalformed = s.warnMalformed := rfl
@[simp] theorem storeWindow_partialBlock (o : List Word) (s : State) :
    (storeWindow o s).partialBlock = s.partialBlock := rfl
@[simp] theorem storeWindow_crcOk (o : List Word) (s : State) : (storeWindow o s).crcOk = s.crcOk := rfl
@[simp] theorem storeWindow_syncStart (o : List Word) (s : State) : (storeWindow o s).syncStart = s.syncStart := rfl
@[simp] theorem storeWindow_syncEnd (o : List Word) (s : State) : (storeWindow o s).syncEnd = s.syncEnd := rfl
@[simp] theorem storeWindow_arg0 (o : List Word) (s : State) : (storeWindow o s).arg0 = s.arg0 := rfl
@[simp] theorem storeWindow_arg1 (o : List Word) (s : State) : (storeWindow o s).arg1 = s.arg1 := rfl
@[simp] theorem storeWindow_plen (o : List Word) (s : State) : (storeWindow o s).plen = s.plen := rfl
@[simp] theorem storeWindow_blen (o : List Word) (s : State) : (storeWindow o s).blen = s.blen := rfl
@[simp] theorem storeWindow_nblocks (o : List Word) (s : State) : (storeWindow o s).nblocks = s.nblocks := rfl
@[simp] theorem storeWindow_pcmlen (o : List Word) (s : State) : (storeWindow o s).pcmlen = s.pcmlen := rfl
@[simp] theorem storeWindow_wlen (o : List Word) (s : State) :
    (storeWindow o s).wlen = BitVec.ofNat 32 o.length := rfl
@[simp] theorem storeWindow_crcParity (o : List Word) (s : State) : (storeWindow o s).crcParity = s.crcParity := rfl
@[simp] theorem storeWindow_crcWeight (o : List Word) (s : State) : (storeWindow o s).crcWeight = s.crcWeight := rfl
@[simp] theorem storeWindow_byteRes (o : List Word) (s : State) : (storeWindow o s).byteRes = s.byteRes := rfl
@[simp] theorem storeWindow_rxBlen (o : List Word) (s : State) : (storeWindow o s).rxBlen = s.rxBlen := rfl
@[simp] theorem storeWindow_rxWeight (o : List Word) (s : State) : (storeWindow o s).rxWeight = s.rxWeight := rfl
@[simp] theorem storeWindow_profile (o : List Word) (s : State) : (storeWindow o s).profile = s.profile := rfl
@[simp] theorem storeWindow_tuning (o : List Word) (s : State) : (storeWindow o s).tuning = s.tuning := rfl
@[simp] theorem storeWindow_activeProfile (o : List Word) (s : State) :
    (storeWindow o s).activeProfile = s.activeProfile := rfl
@[simp] theorem storeWindow_activeTuning (o : List Word) (s : State) :
    (storeWindow o s).activeTuning = s.activeTuning := rfl
@[simp] theorem storeWindow_derived (o : List Word) (s : State) : (storeWindow o s).derived = s.derived := rfl
@[simp] theorem storeWindow_freq (o : List Word) (s : State) : (storeWindow o s).freq = s.freq := rfl
@[simp] theorem storeWindow_evq (o : List Word) (s : State) : (storeWindow o s).evq = s.evq := rfl
@[simp] theorem storeWindow_rbWr (o : List Word) (s : State) : (storeWindow o s).rbWr = s.rbWr := rfl
@[simp] theorem storeWindow_rbSteps (o : List Word) (s : State) : (storeWindow o s).rbSteps = s.rbSteps := rfl
@[simp] theorem storeWindow_sumUpFirst (o : List Word) (s : State) :
    (storeWindow o s).sumUpFirst = s.sumUpFirst := rfl
@[simp] theorem storeWindow_sumDownFirst (o : List Word) (s : State) :
    (storeWindow o s).sumDownFirst = s.sumDownFirst := rfl
@[simp] theorem storeWindow_sumUpLast (o : List Word) (s : State) : (storeWindow o s).sumUpLast = s.sumUpLast := rfl
@[simp] theorem storeWindow_sumDownLast (o : List Word) (s : State) :
    (storeWindow o s).sumDownLast = s.sumDownLast := rfl
@[simp] theorem storeWindow_captureOpen (o : List Word) (s : State) :
    (storeWindow o s).captureOpen = s.captureOpen := rfl
@[simp] theorem storeWindow_handoff (o : List Word) (s : State) : (storeWindow o s).handoff = s.handoff := rfl
@[simp] theorem storeWindow_mem (o : List Word) (s : State) :
    (storeWindow o s).mem = Memory.writeWords s.mem wbufBase o := rfl
@[simp] theorem storeWindow_pending (o : List Word) (s : State) : (storeWindow o s).pending = s.pending := rfl
@[simp] theorem storeWindow_busData (o : List Word) (s : State) : (storeWindow o s).busData = s.busData := rfl
@[simp] theorem storeWindow_env (o : List Word) (s : State) : (storeWindow o s).env = s.env := rfl

/-! ## storePcm -/

@[simp] theorem storePcm_hw (q : List Sample × Env) (s : State) : (storePcm q s).hw = s.hw := rfl
@[simp] theorem storePcm_ctrlContinuous (q : List Sample × Env) (s : State) :
    (storePcm q s).ctrlContinuous = s.ctrlContinuous := rfl
@[simp] theorem storePcm_ctrlSpectrumEn (q : List Sample × Env) (s : State) :
    (storePcm q s).ctrlSpectrumEn = s.ctrlSpectrumEn := rfl
@[simp] theorem storePcm_ctrlIrqEn (q : List Sample × Env) (s : State) : (storePcm q s).ctrlIrqEn = s.ctrlIrqEn := rfl
@[simp] theorem storePcm_rxState (q : List Sample × Env) (s : State) : (storePcm q s).rxState = s.rxState := rfl
@[simp] theorem storePcm_txState (q : List Sample × Env) (s : State) : (storePcm q s).txState = s.txState := rfl
@[simp] theorem storePcm_cfgValid (q : List Sample × Env) (s : State) : (storePcm q s).cfgValid = s.cfgValid := rfl
@[simp] theorem storePcm_rbValid (q : List Sample × Env) (s : State) : (storePcm q s).rbValid = s.rbValid := rfl
@[simp] theorem storePcm_stopReq (q : List Sample × Env) (s : State) : (storePcm q s).stopReq = s.stopReq := rfl
@[simp] theorem storePcm_cancelReq (q : List Sample × Env) (s : State) : (storePcm q s).cancelReq = s.cancelReq := rfl
@[simp] theorem storePcm_err (q : List Sample × Env) (s : State) : (storePcm q s).err = s.err := rfl
@[simp] theorem storePcm_warnMalformed (q : List Sample × Env) (s : State) :
    (storePcm q s).warnMalformed = s.warnMalformed := rfl
@[simp] theorem storePcm_partialBlock (q : List Sample × Env) (s : State) :
    (storePcm q s).partialBlock = s.partialBlock := rfl
@[simp] theorem storePcm_crcOk (q : List Sample × Env) (s : State) : (storePcm q s).crcOk = s.crcOk := rfl
@[simp] theorem storePcm_syncStart (q : List Sample × Env) (s : State) : (storePcm q s).syncStart = s.syncStart := rfl
@[simp] theorem storePcm_syncEnd (q : List Sample × Env) (s : State) : (storePcm q s).syncEnd = s.syncEnd := rfl
@[simp] theorem storePcm_arg0 (q : List Sample × Env) (s : State) : (storePcm q s).arg0 = s.arg0 := rfl
@[simp] theorem storePcm_arg1 (q : List Sample × Env) (s : State) : (storePcm q s).arg1 = s.arg1 := rfl
@[simp] theorem storePcm_plen (q : List Sample × Env) (s : State) : (storePcm q s).plen = s.plen := rfl
@[simp] theorem storePcm_blen (q : List Sample × Env) (s : State) : (storePcm q s).blen = s.blen := rfl
@[simp] theorem storePcm_nblocks (q : List Sample × Env) (s : State) : (storePcm q s).nblocks = s.nblocks := rfl
@[simp] theorem storePcm_pcmlen (q : List Sample × Env) (s : State) :
    (storePcm q s).pcmlen = BitVec.ofNat 32 q.1.length := rfl
@[simp] theorem storePcm_wlen (q : List Sample × Env) (s : State) : (storePcm q s).wlen = s.wlen := rfl
@[simp] theorem storePcm_crcParity (q : List Sample × Env) (s : State) : (storePcm q s).crcParity = s.crcParity := rfl
@[simp] theorem storePcm_crcWeight (q : List Sample × Env) (s : State) : (storePcm q s).crcWeight = s.crcWeight := rfl
@[simp] theorem storePcm_byteRes (q : List Sample × Env) (s : State) : (storePcm q s).byteRes = s.byteRes := rfl
@[simp] theorem storePcm_rxBlen (q : List Sample × Env) (s : State) : (storePcm q s).rxBlen = s.rxBlen := rfl
@[simp] theorem storePcm_rxWeight (q : List Sample × Env) (s : State) : (storePcm q s).rxWeight = s.rxWeight := rfl
@[simp] theorem storePcm_profile (q : List Sample × Env) (s : State) : (storePcm q s).profile = s.profile := rfl
@[simp] theorem storePcm_tuning (q : List Sample × Env) (s : State) : (storePcm q s).tuning = s.tuning := rfl
@[simp] theorem storePcm_activeProfile (q : List Sample × Env) (s : State) :
    (storePcm q s).activeProfile = s.activeProfile := rfl
@[simp] theorem storePcm_activeTuning (q : List Sample × Env) (s : State) :
    (storePcm q s).activeTuning = s.activeTuning := rfl
@[simp] theorem storePcm_derived (q : List Sample × Env) (s : State) : (storePcm q s).derived = s.derived := rfl
@[simp] theorem storePcm_freq (q : List Sample × Env) (s : State) : (storePcm q s).freq = s.freq := rfl
@[simp] theorem storePcm_evq (q : List Sample × Env) (s : State) : (storePcm q s).evq = s.evq := rfl
@[simp] theorem storePcm_rbWr (q : List Sample × Env) (s : State) : (storePcm q s).rbWr = s.rbWr := rfl
@[simp] theorem storePcm_rbSteps (q : List Sample × Env) (s : State) : (storePcm q s).rbSteps = s.rbSteps := rfl
@[simp] theorem storePcm_sumUpFirst (q : List Sample × Env) (s : State) :
    (storePcm q s).sumUpFirst = s.sumUpFirst := rfl
@[simp] theorem storePcm_sumDownFirst (q : List Sample × Env) (s : State) :
    (storePcm q s).sumDownFirst = s.sumDownFirst := rfl
@[simp] theorem storePcm_sumUpLast (q : List Sample × Env) (s : State) : (storePcm q s).sumUpLast = s.sumUpLast := rfl
@[simp] theorem storePcm_sumDownLast (q : List Sample × Env) (s : State) :
    (storePcm q s).sumDownLast = s.sumDownLast := rfl
@[simp] theorem storePcm_captureOpen (q : List Sample × Env) (s : State) :
    (storePcm q s).captureOpen = s.captureOpen := rfl
@[simp] theorem storePcm_handoff (q : List Sample × Env) (s : State) : (storePcm q s).handoff = s.handoff := rfl
@[simp] theorem storePcm_mem (q : List Sample × Env) (s : State) :
    (storePcm q s).mem = Memory.writeWords s.mem pcmBase (q.1.map sampleWord) := rfl
@[simp] theorem storePcm_pending (q : List Sample × Env) (s : State) : (storePcm q s).pending = s.pending := rfl
@[simp] theorem storePcm_busData (q : List Sample × Env) (s : State) : (storePcm q s).busData = s.busData := rfl
@[simp] theorem storePcm_env (q : List Sample × Env) (s : State) : (storePcm q s).env = q.2 := rfl

/-! ## commit -/

@[simp] theorem commit_hw (s : State) : (commit s).hw = s.hw := rfl
@[simp] theorem commit_ctrlContinuous (s : State) : (commit s).ctrlContinuous = s.ctrlContinuous := rfl
@[simp] theorem commit_ctrlSpectrumEn (s : State) : (commit s).ctrlSpectrumEn = s.ctrlSpectrumEn := rfl
@[simp] theorem commit_ctrlIrqEn (s : State) : (commit s).ctrlIrqEn = s.ctrlIrqEn := rfl
@[simp] theorem commit_rxState (s : State) : (commit s).rxState = s.rxState := rfl
@[simp] theorem commit_txState (s : State) : (commit s).txState = s.txState := rfl
@[simp] theorem commit_cfgValid (s : State) : (commit s).cfgValid = true := rfl
@[simp] theorem commit_rbValid (s : State) : (commit s).rbValid = false := rfl
@[simp] theorem commit_stopReq (s : State) : (commit s).stopReq = s.stopReq := rfl
@[simp] theorem commit_cancelReq (s : State) : (commit s).cancelReq = s.cancelReq := rfl
@[simp] theorem commit_err (s : State) : (commit s).err = s.err := rfl
@[simp] theorem commit_warnMalformed (s : State) : (commit s).warnMalformed = s.warnMalformed := rfl
@[simp] theorem commit_partialBlock (s : State) : (commit s).partialBlock = s.partialBlock := rfl
@[simp] theorem commit_crcOk (s : State) : (commit s).crcOk = s.crcOk := rfl
@[simp] theorem commit_syncStart (s : State) : (commit s).syncStart = s.syncStart := rfl
@[simp] theorem commit_syncEnd (s : State) : (commit s).syncEnd = s.syncEnd := rfl
@[simp] theorem commit_arg0 (s : State) : (commit s).arg0 = s.arg0 := rfl
@[simp] theorem commit_arg1 (s : State) : (commit s).arg1 = s.arg1 := rfl
@[simp] theorem commit_plen (s : State) : (commit s).plen = s.plen := rfl
@[simp] theorem commit_blen (s : State) : (commit s).blen = s.blen := rfl
@[simp] theorem commit_nblocks (s : State) : (commit s).nblocks = s.nblocks := rfl
@[simp] theorem commit_pcmlen (s : State) : (commit s).pcmlen = s.pcmlen := rfl
@[simp] theorem commit_wlen (s : State) : (commit s).wlen = s.wlen := rfl
@[simp] theorem commit_crcParity (s : State) : (commit s).crcParity = s.crcParity := rfl
@[simp] theorem commit_crcWeight (s : State) : (commit s).crcWeight = s.crcWeight := rfl
@[simp] theorem commit_byteRes (s : State) : (commit s).byteRes = s.byteRes := rfl
@[simp] theorem commit_rxBlen (s : State) : (commit s).rxBlen = s.rxBlen := rfl
@[simp] theorem commit_rxWeight (s : State) : (commit s).rxWeight = s.rxWeight := rfl
@[simp] theorem commit_profile (s : State) : (commit s).profile = s.profile := rfl
@[simp] theorem commit_tuning (s : State) : (commit s).tuning = s.tuning := rfl
@[simp] theorem commit_activeProfile (s : State) : (commit s).activeProfile = s.profile := rfl
@[simp] theorem commit_activeTuning (s : State) : (commit s).activeTuning = s.tuning := rfl
@[simp] theorem commit_derived (s : State) : (commit s).derived = (quantities s.profile s.tuning).derived := rfl
@[simp] theorem commit_freq (s : State) : (commit s).freq = freqTable s.profile := rfl
@[simp] theorem commit_evq (s : State) : (commit s).evq = s.evq := rfl
@[simp] theorem commit_rbWr (s : State) : (commit s).rbWr = s.rbWr := rfl
@[simp] theorem commit_rbSteps (s : State) : (commit s).rbSteps = s.rbSteps := rfl
@[simp] theorem commit_sumUpFirst (s : State) : (commit s).sumUpFirst = s.sumUpFirst := rfl
@[simp] theorem commit_sumDownFirst (s : State) : (commit s).sumDownFirst = s.sumDownFirst := rfl
@[simp] theorem commit_sumUpLast (s : State) : (commit s).sumUpLast = s.sumUpLast := rfl
@[simp] theorem commit_sumDownLast (s : State) : (commit s).sumDownLast = s.sumDownLast := rfl
@[simp] theorem commit_captureOpen (s : State) : (commit s).captureOpen = s.captureOpen := rfl
@[simp] theorem commit_handoff (s : State) : (commit s).handoff = s.handoff := rfl
@[simp] theorem commit_mem (s : State) : (commit s).mem = s.mem := rfl
@[simp] theorem commit_pending (s : State) : (commit s).pending = s.pending := rfl
@[simp] theorem commit_busData (s : State) : (commit s).busData = s.busData := rfl
@[simp] theorem commit_env (s : State) : (commit s).env = s.env := rfl

/-! ## endSession -/

@[simp] theorem endSession_hw (r : RxState) (s : State) : (endSession r s).hw = s.hw := rfl
@[simp] theorem endSession_ctrlContinuous (r : RxState) (s : State) :
    (endSession r s).ctrlContinuous = s.ctrlContinuous := rfl
@[simp] theorem endSession_ctrlSpectrumEn (r : RxState) (s : State) :
    (endSession r s).ctrlSpectrumEn = s.ctrlSpectrumEn := rfl
@[simp] theorem endSession_ctrlIrqEn (r : RxState) (s : State) : (endSession r s).ctrlIrqEn = s.ctrlIrqEn := rfl
@[simp] theorem endSession_rxState (r : RxState) (s : State) : (endSession r s).rxState = r := rfl
@[simp] theorem endSession_txState (r : RxState) (s : State) : (endSession r s).txState = s.txState := rfl
@[simp] theorem endSession_cfgValid (r : RxState) (s : State) : (endSession r s).cfgValid = s.cfgValid := rfl
@[simp] theorem endSession_rbValid (r : RxState) (s : State) : (endSession r s).rbValid = false := rfl
@[simp] theorem endSession_stopReq (r : RxState) (s : State) : (endSession r s).stopReq = false := rfl
@[simp] theorem endSession_cancelReq (r : RxState) (s : State) : (endSession r s).cancelReq = false := rfl
@[simp] theorem endSession_err (r : RxState) (s : State) : (endSession r s).err = s.err := rfl
@[simp] theorem endSession_warnMalformed (r : RxState) (s : State) :
    (endSession r s).warnMalformed = s.warnMalformed := rfl
@[simp] theorem endSession_partialBlock (r : RxState) (s : State) :
    (endSession r s).partialBlock = s.partialBlock := rfl
@[simp] theorem endSession_crcOk (r : RxState) (s : State) : (endSession r s).crcOk = s.crcOk := rfl
@[simp] theorem endSession_syncStart (r : RxState) (s : State) : (endSession r s).syncStart = s.syncStart := rfl
@[simp] theorem endSession_syncEnd (r : RxState) (s : State) : (endSession r s).syncEnd = s.syncEnd := rfl
@[simp] theorem endSession_arg0 (r : RxState) (s : State) : (endSession r s).arg0 = s.arg0 := rfl
@[simp] theorem endSession_arg1 (r : RxState) (s : State) : (endSession r s).arg1 = s.arg1 := rfl
@[simp] theorem endSession_plen (r : RxState) (s : State) : (endSession r s).plen = s.plen := rfl
@[simp] theorem endSession_blen (r : RxState) (s : State) : (endSession r s).blen = s.blen := rfl
@[simp] theorem endSession_nblocks (r : RxState) (s : State) : (endSession r s).nblocks = s.nblocks := rfl
@[simp] theorem endSession_pcmlen (r : RxState) (s : State) : (endSession r s).pcmlen = s.pcmlen := rfl
@[simp] theorem endSession_wlen (r : RxState) (s : State) : (endSession r s).wlen = s.wlen := rfl
@[simp] theorem endSession_crcParity (r : RxState) (s : State) : (endSession r s).crcParity = s.crcParity := rfl
@[simp] theorem endSession_crcWeight (r : RxState) (s : State) : (endSession r s).crcWeight = s.crcWeight := rfl
@[simp] theorem endSession_byteRes (r : RxState) (s : State) : (endSession r s).byteRes = s.byteRes := rfl
@[simp] theorem endSession_rxBlen (r : RxState) (s : State) : (endSession r s).rxBlen = s.rxBlen := rfl
@[simp] theorem endSession_rxWeight (r : RxState) (s : State) : (endSession r s).rxWeight = s.rxWeight := rfl
@[simp] theorem endSession_profile (r : RxState) (s : State) : (endSession r s).profile = s.profile := rfl
@[simp] theorem endSession_tuning (r : RxState) (s : State) : (endSession r s).tuning = s.tuning := rfl
@[simp] theorem endSession_activeProfile (r : RxState) (s : State) :
    (endSession r s).activeProfile = s.activeProfile := rfl
@[simp] theorem endSession_activeTuning (r : RxState) (s : State) :
    (endSession r s).activeTuning = s.activeTuning := rfl
@[simp] theorem endSession_derived (r : RxState) (s : State) : (endSession r s).derived = s.derived := rfl
@[simp] theorem endSession_freq (r : RxState) (s : State) : (endSession r s).freq = s.freq := rfl
@[simp] theorem endSession_evq (r : RxState) (s : State) : (endSession r s).evq = s.evq := rfl
@[simp] theorem endSession_rbWr (r : RxState) (s : State) : (endSession r s).rbWr = s.rbWr := rfl
@[simp] theorem endSession_rbSteps (r : RxState) (s : State) : (endSession r s).rbSteps = s.rbSteps := rfl
@[simp] theorem endSession_sumUpFirst (r : RxState) (s : State) : (endSession r s).sumUpFirst = s.sumUpFirst := rfl
@[simp] theorem endSession_sumDownFirst (r : RxState) (s : State) :
    (endSession r s).sumDownFirst = s.sumDownFirst := rfl
@[simp] theorem endSession_sumUpLast (r : RxState) (s : State) : (endSession r s).sumUpLast = s.sumUpLast := rfl
@[simp] theorem endSession_sumDownLast (r : RxState) (s : State) : (endSession r s).sumDownLast = s.sumDownLast := rfl
@[simp] theorem endSession_captureOpen (r : RxState) (s : State) : (endSession r s).captureOpen = false := rfl
@[simp] theorem endSession_handoff (r : RxState) (s : State) : (endSession r s).handoff = s.handoff := rfl
@[simp] theorem endSession_mem (r : RxState) (s : State) : (endSession r s).mem = s.mem := rfl
@[simp] theorem endSession_pending (r : RxState) (s : State) : (endSession r s).pending = s.pending := rfl
@[simp] theorem endSession_busData (r : RxState) (s : State) : (endSession r s).busData = s.busData := rfl
@[simp] theorem endSession_env (r : RxState) (s : State) : (endSession r s).env = s.env := rfl

/-! ## placeCommand -/

@[simp] theorem placeCommand_hw (w : Word) (s : State) : (placeCommand w s).hw = s.hw := rfl
@[simp] theorem placeCommand_ctrlContinuous (w : Word) (s : State) :
    (placeCommand w s).ctrlContinuous = s.ctrlContinuous := rfl
@[simp] theorem placeCommand_ctrlSpectrumEn (w : Word) (s : State) :
    (placeCommand w s).ctrlSpectrumEn = s.ctrlSpectrumEn := rfl
@[simp] theorem placeCommand_ctrlIrqEn (w : Word) (s : State) : (placeCommand w s).ctrlIrqEn = s.ctrlIrqEn := rfl
@[simp] theorem placeCommand_rxState (w : Word) (s : State) : (placeCommand w s).rxState = s.rxState := rfl
@[simp] theorem placeCommand_txState (w : Word) (s : State) : (placeCommand w s).txState = s.txState := rfl
@[simp] theorem placeCommand_cfgValid (w : Word) (s : State) : (placeCommand w s).cfgValid = s.cfgValid := rfl
@[simp] theorem placeCommand_rbValid (w : Word) (s : State) : (placeCommand w s).rbValid = s.rbValid := rfl
@[simp] theorem placeCommand_stopReq (w : Word) (s : State) : (placeCommand w s).stopReq = s.stopReq := rfl
@[simp] theorem placeCommand_cancelReq (w : Word) (s : State) : (placeCommand w s).cancelReq = s.cancelReq := rfl
@[simp] theorem placeCommand_err (w : Word) (s : State) : (placeCommand w s).err = s.err := rfl
@[simp] theorem placeCommand_warnMalformed (w : Word) (s : State) :
    (placeCommand w s).warnMalformed = s.warnMalformed := rfl
@[simp] theorem placeCommand_partialBlock (w : Word) (s : State) :
    (placeCommand w s).partialBlock = s.partialBlock := rfl
@[simp] theorem placeCommand_crcOk (w : Word) (s : State) : (placeCommand w s).crcOk = s.crcOk := rfl
@[simp] theorem placeCommand_syncStart (w : Word) (s : State) : (placeCommand w s).syncStart = s.syncStart := rfl
@[simp] theorem placeCommand_syncEnd (w : Word) (s : State) : (placeCommand w s).syncEnd = s.syncEnd := rfl
@[simp] theorem placeCommand_arg0 (w : Word) (s : State) : (placeCommand w s).arg0 = s.arg0 := rfl
@[simp] theorem placeCommand_arg1 (w : Word) (s : State) : (placeCommand w s).arg1 = s.arg1 := rfl
@[simp] theorem placeCommand_plen (w : Word) (s : State) : (placeCommand w s).plen = s.plen := rfl
@[simp] theorem placeCommand_blen (w : Word) (s : State) : (placeCommand w s).blen = s.blen := rfl
@[simp] theorem placeCommand_nblocks (w : Word) (s : State) : (placeCommand w s).nblocks = s.nblocks := rfl
@[simp] theorem placeCommand_pcmlen (w : Word) (s : State) : (placeCommand w s).pcmlen = s.pcmlen := rfl
@[simp] theorem placeCommand_wlen (w : Word) (s : State) : (placeCommand w s).wlen = s.wlen := rfl
@[simp] theorem placeCommand_crcParity (w : Word) (s : State) : (placeCommand w s).crcParity = s.crcParity := rfl
@[simp] theorem placeCommand_crcWeight (w : Word) (s : State) : (placeCommand w s).crcWeight = s.crcWeight := rfl
@[simp] theorem placeCommand_byteRes (w : Word) (s : State) : (placeCommand w s).byteRes = s.byteRes := rfl
@[simp] theorem placeCommand_rxBlen (w : Word) (s : State) : (placeCommand w s).rxBlen = s.rxBlen := rfl
@[simp] theorem placeCommand_rxWeight (w : Word) (s : State) : (placeCommand w s).rxWeight = s.rxWeight := rfl
@[simp] theorem placeCommand_profile (w : Word) (s : State) : (placeCommand w s).profile = s.profile := rfl
@[simp] theorem placeCommand_tuning (w : Word) (s : State) : (placeCommand w s).tuning = s.tuning := rfl
@[simp] theorem placeCommand_activeProfile (w : Word) (s : State) :
    (placeCommand w s).activeProfile = s.activeProfile := rfl
@[simp] theorem placeCommand_activeTuning (w : Word) (s : State) :
    (placeCommand w s).activeTuning = s.activeTuning := rfl
@[simp] theorem placeCommand_derived (w : Word) (s : State) : (placeCommand w s).derived = s.derived := rfl
@[simp] theorem placeCommand_freq (w : Word) (s : State) : (placeCommand w s).freq = s.freq := rfl
@[simp] theorem placeCommand_evq (w : Word) (s : State) : (placeCommand w s).evq = s.evq := rfl
@[simp] theorem placeCommand_rbWr (w : Word) (s : State) : (placeCommand w s).rbWr = s.rbWr := rfl
@[simp] theorem placeCommand_rbSteps (w : Word) (s : State) : (placeCommand w s).rbSteps = s.rbSteps := rfl
@[simp] theorem placeCommand_sumUpFirst (w : Word) (s : State) : (placeCommand w s).sumUpFirst = s.sumUpFirst := rfl
@[simp] theorem placeCommand_sumDownFirst (w : Word) (s : State) :
    (placeCommand w s).sumDownFirst = s.sumDownFirst := rfl
@[simp] theorem placeCommand_sumUpLast (w : Word) (s : State) : (placeCommand w s).sumUpLast = s.sumUpLast := rfl
@[simp] theorem placeCommand_sumDownLast (w : Word) (s : State) :
    (placeCommand w s).sumDownLast = s.sumDownLast := rfl
@[simp] theorem placeCommand_captureOpen (w : Word) (s : State) :
    (placeCommand w s).captureOpen = s.captureOpen := rfl
@[simp] theorem placeCommand_handoff (w : Word) (s : State) : (placeCommand w s).handoff = s.handoff := rfl
@[simp] theorem placeCommand_mem (w : Word) (s : State) : (placeCommand w s).mem = s.mem := rfl
@[simp] theorem placeCommand_pending (w : Word) (s : State) :
    (placeCommand w s).pending = commandMove w :: s.pending := rfl
@[simp] theorem placeCommand_busData (w : Word) (s : State) : (placeCommand w s).busData = s.busData := rfl
@[simp] theorem placeCommand_env (w : Word) (s : State) : (placeCommand w s).env = s.env := rfl

/-! ## resetWith -/

@[simp] theorem resetWith_hw (hw : Params) : (State.resetWith hw).hw = hw := rfl
@[simp] theorem resetWith_ctrlContinuous (hw : Params) : (State.resetWith hw).ctrlContinuous = false := rfl
@[simp] theorem resetWith_ctrlSpectrumEn (hw : Params) : (State.resetWith hw).ctrlSpectrumEn = false := rfl
@[simp] theorem resetWith_ctrlIrqEn (hw : Params) : (State.resetWith hw).ctrlIrqEn = false := rfl
@[simp] theorem resetWith_rxState (hw : Params) : (State.resetWith hw).rxState = .initialized := rfl
@[simp] theorem resetWith_txState (hw : Params) : (State.resetWith hw).txState = .idle := rfl
@[simp] theorem resetWith_cfgValid (hw : Params) : (State.resetWith hw).cfgValid = false := rfl
@[simp] theorem resetWith_rbValid (hw : Params) : (State.resetWith hw).rbValid = false := rfl
@[simp] theorem resetWith_stopReq (hw : Params) : (State.resetWith hw).stopReq = false := rfl
@[simp] theorem resetWith_cancelReq (hw : Params) : (State.resetWith hw).cancelReq = false := rfl
@[simp] theorem resetWith_err (hw : Params) : (State.resetWith hw).err = .ok := rfl
@[simp] theorem resetWith_warnMalformed (hw : Params) : (State.resetWith hw).warnMalformed = false := rfl
@[simp] theorem resetWith_partialBlock (hw : Params) : (State.resetWith hw).partialBlock = false := rfl
@[simp] theorem resetWith_crcOk (hw : Params) : (State.resetWith hw).crcOk = false := rfl
@[simp] theorem resetWith_syncStart (hw : Params) : (State.resetWith hw).syncStart = false := rfl
@[simp] theorem resetWith_syncEnd (hw : Params) : (State.resetWith hw).syncEnd = false := rfl
@[simp] theorem resetWith_arg0 (hw : Params) : (State.resetWith hw).arg0 = 0 := rfl
@[simp] theorem resetWith_arg1 (hw : Params) : (State.resetWith hw).arg1 = 0 := rfl
@[simp] theorem resetWith_plen (hw : Params) : (State.resetWith hw).plen = 0 := rfl
@[simp] theorem resetWith_blen (hw : Params) : (State.resetWith hw).blen = 0 := rfl
@[simp] theorem resetWith_nblocks (hw : Params) : (State.resetWith hw).nblocks = 0 := rfl
@[simp] theorem resetWith_pcmlen (hw : Params) : (State.resetWith hw).pcmlen = 0 := rfl
@[simp] theorem resetWith_wlen (hw : Params) : (State.resetWith hw).wlen = 0 := rfl
@[simp] theorem resetWith_crcParity (hw : Params) : (State.resetWith hw).crcParity = 0 := rfl
@[simp] theorem resetWith_crcWeight (hw : Params) : (State.resetWith hw).crcWeight = 0 := rfl
@[simp] theorem resetWith_byteRes (hw : Params) : (State.resetWith hw).byteRes = 0 := rfl
@[simp] theorem resetWith_rxBlen (hw : Params) : (State.resetWith hw).rxBlen = 0 := rfl
@[simp] theorem resetWith_rxWeight (hw : Params) : (State.resetWith hw).rxWeight = 0 := rfl
@[simp] theorem resetWith_profile (hw : Params) : (State.resetWith hw).profile = Profile.zero := rfl
@[simp] theorem resetWith_tuning (hw : Params) : (State.resetWith hw).tuning = Tuning.initial := rfl
@[simp] theorem resetWith_activeProfile (hw : Params) : (State.resetWith hw).activeProfile = Profile.zero := rfl
@[simp] theorem resetWith_activeTuning (hw : Params) : (State.resetWith hw).activeTuning = Tuning.initial := rfl
@[simp] theorem resetWith_derived (hw : Params) : (State.resetWith hw).derived = Derived.zero := rfl
@[simp] theorem resetWith_freq (hw : Params) : (State.resetWith hw).freq = List.replicate 256 0 := rfl
@[simp] theorem resetWith_evq (hw : Params) : (State.resetWith hw).evq = [] := rfl
@[simp] theorem resetWith_rbWr (hw : Params) : (State.resetWith hw).rbWr = 0 := rfl
@[simp] theorem resetWith_rbSteps (hw : Params) : (State.resetWith hw).rbSteps = 0 := rfl
@[simp] theorem resetWith_sumUpFirst (hw : Params) : (State.resetWith hw).sumUpFirst = 0 := rfl
@[simp] theorem resetWith_sumDownFirst (hw : Params) : (State.resetWith hw).sumDownFirst = 0 := rfl
@[simp] theorem resetWith_sumUpLast (hw : Params) : (State.resetWith hw).sumUpLast = 0 := rfl
@[simp] theorem resetWith_sumDownLast (hw : Params) : (State.resetWith hw).sumDownLast = 0 := rfl
@[simp] theorem resetWith_captureOpen (hw : Params) : (State.resetWith hw).captureOpen = false := rfl
@[simp] theorem resetWith_handoff (hw : Params) : (State.resetWith hw).handoff = none := rfl
@[simp] theorem resetWith_mem (hw : Params) : (State.resetWith hw).mem = [] := rfl
@[simp] theorem resetWith_pending (hw : Params) : (State.resetWith hw).pending = [] := rfl
@[simp] theorem resetWith_busData (hw : Params) : (State.resetWith hw).busData = none := rfl
@[simp] theorem resetWith_env (hw : Params) : (State.resetWith hw).env = Env.empty := rfl

/-! ## resetInput -/

@[simp] theorem resetInput_hw (s : State) : (resetInput s).hw = s.hw := rfl
@[simp] theorem resetInput_ctrlContinuous (s : State) : (resetInput s).ctrlContinuous = false := rfl
@[simp] theorem resetInput_ctrlSpectrumEn (s : State) : (resetInput s).ctrlSpectrumEn = false := rfl
@[simp] theorem resetInput_ctrlIrqEn (s : State) : (resetInput s).ctrlIrqEn = false := rfl
@[simp] theorem resetInput_rxState (s : State) : (resetInput s).rxState = .initialized := rfl
@[simp] theorem resetInput_txState (s : State) : (resetInput s).txState = .idle := rfl
@[simp] theorem resetInput_cfgValid (s : State) : (resetInput s).cfgValid = false := rfl
@[simp] theorem resetInput_rbValid (s : State) : (resetInput s).rbValid = false := rfl
@[simp] theorem resetInput_stopReq (s : State) : (resetInput s).stopReq = false := rfl
@[simp] theorem resetInput_cancelReq (s : State) : (resetInput s).cancelReq = false := rfl
@[simp] theorem resetInput_err (s : State) : (resetInput s).err = .ok := rfl
@[simp] theorem resetInput_warnMalformed (s : State) : (resetInput s).warnMalformed = false := rfl
@[simp] theorem resetInput_partialBlock (s : State) : (resetInput s).partialBlock = false := rfl
@[simp] theorem resetInput_crcOk (s : State) : (resetInput s).crcOk = false := rfl
@[simp] theorem resetInput_syncStart (s : State) : (resetInput s).syncStart = false := rfl
@[simp] theorem resetInput_syncEnd (s : State) : (resetInput s).syncEnd = false := rfl
@[simp] theorem resetInput_arg0 (s : State) : (resetInput s).arg0 = 0 := rfl
@[simp] theorem resetInput_arg1 (s : State) : (resetInput s).arg1 = 0 := rfl
@[simp] theorem resetInput_plen (s : State) : (resetInput s).plen = 0 := rfl
@[simp] theorem resetInput_blen (s : State) : (resetInput s).blen = 0 := rfl
@[simp] theorem resetInput_nblocks (s : State) : (resetInput s).nblocks = 0 := rfl
@[simp] theorem resetInput_pcmlen (s : State) : (resetInput s).pcmlen = 0 := rfl
@[simp] theorem resetInput_wlen (s : State) : (resetInput s).wlen = 0 := rfl
@[simp] theorem resetInput_crcParity (s : State) : (resetInput s).crcParity = 0 := rfl
@[simp] theorem resetInput_crcWeight (s : State) : (resetInput s).crcWeight = 0 := rfl
@[simp] theorem resetInput_byteRes (s : State) : (resetInput s).byteRes = 0 := rfl
@[simp] theorem resetInput_rxBlen (s : State) : (resetInput s).rxBlen = 0 := rfl
@[simp] theorem resetInput_rxWeight (s : State) : (resetInput s).rxWeight = 0 := rfl
@[simp] theorem resetInput_profile (s : State) : (resetInput s).profile = Profile.zero := rfl
@[simp] theorem resetInput_tuning (s : State) : (resetInput s).tuning = Tuning.initial := rfl
@[simp] theorem resetInput_activeProfile (s : State) : (resetInput s).activeProfile = Profile.zero := rfl
@[simp] theorem resetInput_activeTuning (s : State) : (resetInput s).activeTuning = Tuning.initial := rfl
@[simp] theorem resetInput_derived (s : State) : (resetInput s).derived = Derived.zero := rfl
@[simp] theorem resetInput_freq (s : State) : (resetInput s).freq = List.replicate 256 0 := rfl
@[simp] theorem resetInput_evq (s : State) : (resetInput s).evq = [] := rfl
@[simp] theorem resetInput_rbWr (s : State) : (resetInput s).rbWr = 0 := rfl
@[simp] theorem resetInput_rbSteps (s : State) : (resetInput s).rbSteps = 0 := rfl
@[simp] theorem resetInput_sumUpFirst (s : State) : (resetInput s).sumUpFirst = 0 := rfl
@[simp] theorem resetInput_sumDownFirst (s : State) : (resetInput s).sumDownFirst = 0 := rfl
@[simp] theorem resetInput_sumUpLast (s : State) : (resetInput s).sumUpLast = 0 := rfl
@[simp] theorem resetInput_sumDownLast (s : State) : (resetInput s).sumDownLast = 0 := rfl
@[simp] theorem resetInput_captureOpen (s : State) : (resetInput s).captureOpen = false := rfl
@[simp] theorem resetInput_handoff (s : State) : (resetInput s).handoff = none := rfl
@[simp] theorem resetInput_mem (s : State) : (resetInput s).mem = [] := rfl
@[simp] theorem resetInput_pending (s : State) : (resetInput s).pending = s.pending := rfl
@[simp] theorem resetInput_busData (s : State) : (resetInput s).busData = s.busData := rfl
@[simp] theorem resetInput_env (s : State) : (resetInput s).env = s.env := rfl

end Sys2Proof.Machine
end

