-- ==== Sys2Proof/Tests/Slice0.lean ====
section
/-! SUPPORT. The model's own tests. Expected values come from the worked vectors of 95_test_vectors and the encodings of
30_encoding, never from the model. -/

namespace Sys2Proof.Tests

open Sys2Proof.Machine

set_option Elab.async false

/-! ## Small states -/

/-- What a transition's next state shows through `f`; none where it stops. -/
def shows {α : Type} (o : Out) (f : State → α) : Option α :=
  match o with
  | .next t => some (f t)
  | _ => none

/-- Profile P_T of 95_test_vectors section 0, with its tuning. -/
def liveT : State :=
  { State.reset with
    profile := { f0 := 200, bitMs := 2, pauseMs := 0, nblk := 1, nfreq := 16, spacing := 10, fs := 1000 }
    tuning := { Tuning.initial with stepFactor := 2, freqOffset := 200 } }

/-- P_T committed. -/
def confT : State := commit liveT

/-- P_T after RB_INIT. -/
def ringT : State := ringClear confT

/-- Profile P_S. -/
def liveS : State :=
  { State.reset with
    profile := { f0 := 100, bitMs := 8, pauseMs := 0, nblk := 2, nfreq := 16, spacing := 10, fs := 1000 } }

/-- P_S committed. -/
def confS : State := commit liveS

/-- Profile P_S4: P_S with a pause of 4 ms, committed. -/
def confS4 : State := commit { liveS with profile := { liveS.profile with pauseMs := 4 } }

/-- BBUF and BLEN. -/
def withBits (bits : Bits) (s : State) : State :=
  { s with mem := Memory.writeWords s.mem bbufBase (bits.map bitWord), blen := BitVec.ofNat 32 bits.length }

/-- PBUF and PLEN. -/
def withBytes (p : List Byte) (s : State) : State :=
  { s with mem := Memory.writeWords s.mem pbufBase (p.map byteWord), plen := BitVec.ofNat 32 p.length }

/-- INBUF and ARG0. -/
def withSamples (x : List Int) (s : State) : State :=
  { s with
    mem := Memory.writeWords s.mem inbufBase (x.map fun v => sampleWord (BitVec.ofInt 16 v))
    arg0 := BitVec.ofNat 32 x.length }

/-- The bits of a number, first bit most significant. -/
def bitsOf (len n : Nat) : Bits := (List.range len).map fun k => n.testBit (len - 1 - k)

/-- Binary32 elements of int16 values. -/
def f32s (x : List Int) : List Word := x.map fun v => sampleF32 (BitVec.ofInt 16 v)

/-- P_T after the two RB_ADDs of 42_ringbuffer R283's example. -/
def ringTwo : State := ringAdd (f32s [6, 7, 8, 9, 10, 11, 12]) (ringAdd (f32s [1, 2, 3, 4, 5]) ringT)

/-- Listening on P_T, with an empty queue. -/
def listenT : State := { ringT with rxState := .listening, captureOpen := true }

/-- Two PCM samples being played on P_S. -/
def playS : State :=
  { storePcm ([0x0001#16, 0xFFFE#16], Env.empty) confS with
    handoff := some [0x0001#16, 0xFFFE#16], txState := .sending }

/-! ## WellFormed: a term each check refuses -/

theorem test_word_reserved_bits : wordWellFormed 0x00000100#32 = false := by decide
theorem test_word_reserved_opcode : wordWellFormed 0x0000007E#32 = false := by decide
theorem test_word_ok : wordWellFormed 0x0000007F#32 = true := by decide
theorem test_params_ok : Params.reference.wellFormed = true := by decide
theorem test_params_gen_high : { Params.reference with gen := 0x01021#17 }.wellFormed = false := by decide
theorem test_params_gen_low : { Params.reference with gen := 0x11020#17 }.wellFormed = false := by decide
theorem test_params_payload : { Params.reference with maxPayload := 8191 }.wellFormed = false := by decide
theorem test_params_bits : { Params.reference with maxBits := 15 }.wellFormed = false := by decide
theorem test_params_in : { Params.reference with maxIn := 0 }.wellFormed = false := by decide
theorem test_params_rb : { Params.reference with maxRb := 7 }.wellFormed = false := by decide
theorem test_params_pcm : { Params.reference with maxPcm := 1048575 }.wellFormed = false := by decide
theorem test_params_spec : { Params.reference with maxSpec := 0 }.wellFormed = false := by decide
theorem test_params_queue : { Params.reference with evqDepth := 1 }.wellFormed = false := by decide
theorem test_params_order : { Params.reference with maxOrder := 7 }.wellFormed = false := by decide
theorem test_params_payload_top : { Params.reference with maxPayload := 262145 }.wellFormed = false := by decide
theorem test_params_bits_top : { Params.reference with maxBits := 262145, maxPayload := 100000 }.wellFormed = false := by
  decide
theorem test_params_in_top : { Params.reference with maxIn := 1048577 }.wellFormed = false := by decide
theorem test_params_rb_top : { Params.reference with maxRb := 2097153, maxPcm := 4194304 }.wellFormed = false := by
  decide
theorem test_params_pcm_top : { Params.reference with maxPcm := 4194305 }.wellFormed = false := by decide
theorem test_params_spec_top : { Params.reference with maxSpec := 8388609 }.wellFormed = false := by decide

/-! ## Decode: each command's word, written bit by bit from 30_encoding R170 and R173 (RSV in bits 31:8, OPC in 7:0) -/

theorem test_decode_nop : decodeWord 0b000000000000000000000000_00000000#32 = .ok .nop := by decide
theorem test_decode_cfgCommit : decodeWord 0b000000000000000000000000_00000001#32 = .ok .cfgCommit := by decide
theorem test_decode_byteToBits : decodeWord 0b000000000000000000000000_00010000#32 = .ok .byteToBits := by decide
theorem test_decode_bitsToByte : decodeWord 0b000000000000000000000000_00010001#32 = .ok .bitsToByte := by decide
theorem test_decode_pack : decodeWord 0b000000000000000000000000_00010010#32 = .ok .pack := by decide
theorem test_decode_unpack : decodeWord 0b000000000000000000000000_00010011#32 = .ok .unpack := by decide
theorem test_decode_split : decodeWord 0b000000000000000000000000_00010100#32 = .ok .split := by decide
theorem test_decode_invert : decodeWord 0b000000000000000000000000_00010101#32 = .ok .invert := by decide
theorem test_decode_crcParity : decodeWord 0b000000000000000000000000_00100000#32 = .ok .crcParity := by decide
theorem test_decode_crcCheck : decodeWord 0b000000000000000000000000_00100001#32 = .ok .crcCheck := by decide
theorem test_decode_rbInit : decodeWord 0b000000000000000000000000_00110000#32 = .ok .rbInit := by decide
theorem test_decode_rbAdd : decodeWord 0b000000000000000000000000_00110001#32 = .ok .rbAdd := by decide
theorem test_decode_rbSnapshot : decodeWord 0b000000000000000000000000_00110010#32 = .ok .rbSnapshot := by decide
theorem test_decode_rbFirst : decodeWord 0b000000000000000000000000_00110011#32 = .ok .rbFirst := by decide
theorem test_decode_rbLast : decodeWord 0b000000000000000000000000_00110100#32 = .ok .rbLast := by decide
theorem test_decode_synBlock : decodeWord 0b000000000000000000000000_01000000#32 = .ok .synBlock := by decide
theorem test_decode_buildSignal : decodeWord 0b000000000000000000000000_01000001#32 = .ok .buildSignal := by decide
theorem test_decode_syncTest : decodeWord 0b000000000000000000000000_01010000#32 = .ok .syncTest := by decide
theorem test_decode_decode : decodeWord 0b000000000000000000000000_01100000#32 = .ok .decode := by decide
theorem test_decode_rxStart : decodeWord 0b000000000000000000000000_01110000#32 = .ok .rxStart := by decide
theorem test_decode_rxStop : decodeWord 0b000000000000000000000000_01110001#32 = .ok .rxStop := by decide
theorem test_decode_rxCancel : decodeWord 0b000000000000000000000000_01110010#32 = .ok .rxCancel := by decide
theorem test_decode_txSend : decodeWord 0b000000000000000000000000_01111000#32 = .ok .txSend := by decide
theorem test_decode_evqPop : decodeWord 0b000000000000000000000000_01111111#32 = .ok .evqPop := by decide
theorem test_decode_table_word : decodeTableWord 32 0x00000078 = some .txSend := by decide
theorem test_decode_table_byte : decodeTableWord 8 0x33 = some .rbFirst := by decide

/-! ## Commands: one step each, on the vectors of 95_test_vectors -/

-- 5: NOP clears ERR (46_orchestrator R443's example).
theorem test_nop : shows (exec .nop { State.reset with err := .badArgument }) State.err = some .ok := by decide

-- L1.4: ARG0 = 0xFFFFFF80 gives 10000000.
theorem test_byteToBits : shows (exec .byteToBits { State.reset with arg0 := 0xFFFFFF80#32 }) (fun t => t.bbuf 8) =
    some (some [true, false, false, false, false, false, false, false]) := by decide

-- 2.1: only the first eight bits count; 7 bits are too few.
theorem test_bitsToByte : shows (exec .bitsToByte (withBits (bitsOf 10 0b0100100011) State.reset)) State.byteRes =
    some 0x48#8 := by decide
theorem test_bitsToByte_short : shows (exec .bitsToByte { State.reset with blen := 7 }) State.err =
    some .badArgument := by decide

-- 2.1: PACK of [0x41] on P_S is 0x4119BDE5.
theorem test_pack : shows (exec .pack (withBytes [0x41#8] confS)) (fun t => (t.bbuf 32, t.blen)) =
    some (some (bitsOf 32 0x4119BDE5), 32) := by decide +kernel
theorem test_pack_too_large : shows (exec .pack { confS with plen := 3 }) State.err = some .payloadTooLarge := by decide

-- 2.1: UNPACK of 0x4119BDE5, and of 01000001 1111 with sixteen more bits.
theorem test_unpack : shows (exec .unpack (withBits (bitsOf 32 0x4119BDE5) State.reset))
    (fun t => (t.pbuf 1, t.plen, t.warnMalformed)) = some (some [0x41#8], 1, false) := by decide +kernel
theorem test_unpack_malformed : shows (exec .unpack (withBits (bitsOf 28 0x41F0000) State.reset))
    (fun t => (t.pbuf 1, t.plen, t.warnMalformed)) = some (some [0x41#8], 1, true) := by decide +kernel

-- 2.1: SPLIT of 20 bits on P_S.
theorem test_split : shows (exec .split (withBits (bitsOf 20 0xFFFFF) confS))
    (fun t => (t.nblocks, t.partialBlock, t.bbuf 32)) = some (2, true, some (bitsOf 32 0xFFFFF000)) := by decide +kernel
-- 70_reset R552: BBUF[0..20) was never written.
theorem test_split_unwritten :
    (match exec .split { confS with blen := 20 } with | .fault (.unwrittenElement a) => a | _ => 0) = 0x00200000 := by
  decide +kernel

-- 2.1: INVERT of the partial block 1 of 20 bits on P_S; there is no block 2.
theorem test_invert : shows (exec .invert { withBits (bitsOf 20 0xFFFFA) confS with arg0 := 1 }) (fun t => t.ibuf 16) =
    some (some (bitsOf 16 0x5FFF)) := by decide +kernel
theorem test_invert_no_block : shows (exec .invert { confS with blen := 32, arg0 := 2 }) State.err =
    some .badArgument := by decide

-- 2.2: CRC_PARITY of ASCII "123456789", and of a single 1.
theorem test_crcParity : shows (exec .crcParity (withBits (bitsOf 72 0x313233343536373839) State.reset))
    State.crcParity = some 0x31C3#16 := by decide +kernel
theorem test_crcParity_one : shows (exec .crcParity (withBits [true] State.reset)) State.crcParity =
    some 0x1021#16 := by decide +kernel

-- 2.2: CRC_CHECK of 0x4142567B, and with bit 0 flipped.
theorem test_crcCheck : shows (exec .crcCheck (withBits (bitsOf 32 0x4142567B) State.reset))
    (fun t => (t.crcWeight, t.crcOk)) = some (0, true) := by decide +kernel
theorem test_crcCheck_flip : shows (exec .crcCheck (withBits (bitsOf 32 0xC142567B) State.reset))
    (fun t => (t.crcWeight, t.crcOk)) = some (7, false) := by decide +kernel

-- 3: RB_INIT on P_T.
theorem test_rbInit : shows (exec .rbInit { confT with rbWr := 5, rbSteps := 9 })
    (fun t => (t.rb, t.rbWr, t.rbSteps, t.rbValid)) = some (some (List.replicate 8 0), 0, 0, true) := by decide +kernel

-- 42_ringbuffer R283's example: the second add wraps. 3: the extreme samples.
theorem test_rbAdd_wraps : shows (exec .rbAdd (withSamples [6, 7, 8, 9, 10, 11, 12] (ringAdd (f32s [1, 2, 3, 4, 5]) ringT)))
    (fun t => (t.rb, t.rbWr, t.rbSteps)) = some (some (f32s [9, 10, 11, 12, 5, 6, 7, 8]), 4, 2) := by decide +kernel
theorem test_rbAdd_extremes : shows (exec .rbAdd (withSamples [-32768, 32767] ringT)) (fun t => t.rb.map (List.take 2)) =
    some (some [0xBF800000#32, 0x3F7FFE00#32]) := by decide +kernel

-- 3: the windows of L1.3 step 2.
theorem test_rbSnapshot : shows (exec .rbSnapshot ringTwo) (fun t => (Memory.readWords t.mem wbufBase 8, t.wlen)) =
    some (some (f32s [5, 6, 7, 8, 9, 10, 11, 12]), 8) := by decide +kernel
theorem test_rbFirst : shows (exec .rbFirst { ringTwo with arg0 := 3 })
    (fun t => (Memory.readWords t.mem wbufBase 3, t.wlen)) = some (some (f32s [5, 6, 7]), 3) := by decide +kernel
theorem test_rbLast : shows (exec .rbLast { ringTwo with arg0 := 3 })
    (fun t => (Memory.readWords t.mem wbufBase 3, t.wlen)) = some (some (f32s [10, 11, 12]), 3) := by decide +kernel
theorem test_rbLast_too_long : shows (exec .rbLast { ringTwo with arg0 := 9 }) State.err = some .badArgument := by decide

-- 43_synth R319's example: the start sentinel on P_S with the named draw 0; the picks name the truncations at the ties.
theorem test_synBlock : shows (exec .synBlock { confS with
      arg0 := 2, env := { Env.empty with phases := [(0, 1)], picks := [0, 0, 0, 0, 0, 0, 0, 0] } })
    (fun t => (Memory.readWords t.mem pcmBase 3, t.pcmlen)) =
    some (some [0, 0, 0xFFFF8008#32], 8) := by decide +kernel
-- 4.1: a pause on P_S4 is four zeros.
theorem test_synBlock_pause : shows (exec .synBlock { confS4 with arg0 := 4 })
    (fun t => (Memory.readWords t.mem pcmBase 4, t.pcmlen)) = some (some [0, 0, 0, 0], 4) := by decide +kernel

-- 4.1: BUILD_SIGNAL with BLEN = 0 on P_S4: START, pause, END, twenty samples; no bin of P_T's blocks is on.
theorem test_buildSignal : shows (exec .buildSignal confT) State.pcmlen = some 4 := by decide +kernel

-- 4.2: SYNC_TEST on a zero-filled buffer.
theorem test_syncTest : shows (exec .syncTest { ringT with activeTuning := { ringT.activeTuning with bwOrder := 1 } })
    (fun t => (t.syncStart, t.syncEnd, t.sumUpFirst, t.sumDownLast)) = some (false, false, 0, 0) := by decide +kernel

-- 4.3: DECODE of a zero-filled buffer: all bits 0, CRC_OK = 1, every element 1/NBINS = 0.5.
theorem test_decode : shows (exec .decode ringT)
    (fun t => (t.bbuf 16, t.blen, t.crcOk, Memory.readWords t.mem specBase 14)) =
    some (some (List.replicate 16 false), 16, true, some (List.replicate 14 0x3F000000#32)) := by decide +kernel

-- 5.1 and section 0: CFG_COMMIT of P_S and of a profile with SPACING = 30.
theorem test_cfgCommit : shows (exec .cfgCommit liveS)
    (fun t => (t.derived.rbCap, t.derived.syncThresh, t.derived.decFrames, t.freq.take 17)) =
    some (48, 12, 41, [100, 110, 120, 130, 140, 150, 160, 170, 180, 190, 200, 210, 220, 230, 240, 250, 0]) := by
  decide +kernel
theorem test_cfgCommit_spacing : shows (exec .cfgCommit { liveS with profile := { liveS.profile with spacing := 30 } })
    State.err = some .configError := by decide +kernel

-- 46_orchestrator R444's example: both answers of cap_open.
theorem test_rxStart : shows (exec .rxStart { confS with env := { Env.empty with capOpen := [true] } })
    (fun t => (t.rxState, t.rbValid, t.rbSteps)) = some (.listening, true, 0) := by decide +kernel
theorem test_rxStart_fails : shows (exec .rxStart { confS with env := { Env.empty with capOpen := [false] } })
    (fun t => (t.rxState, t.evq.length, t.readRegister 0x044)) = some (.stopped, 1, 0x00030002#32) := by decide +kernel

-- 46_orchestrator R445's and R446's examples.
theorem test_rxStop : shows (exec .rxStop listenT) (fun t => (t.rxState, t.stopReq)) = some (.listening, true) := by decide
theorem test_rxCancel : shows (exec .rxCancel { State.reset with rxState := .stopped }) State.rxState =
    some .cancelled := by decide

-- 46_orchestrator R447: a payload beyond K is refused and TX stays Idle; on P_T a send of no byte is C = 8 samples.
theorem test_txSend_too_large : shows (exec .txSend { confT with plen := 1 }) (fun t => (t.err, t.txState)) =
    some (.payloadTooLarge, .idle) := by decide
theorem test_txSend : shows (exec .txSend confT) (fun t => (t.pcmlen, t.txState, t.handoff)) =
    some (8, .sending, some (List.replicate 8 0)) := by decide +kernel

-- 46_orchestrator R448.
theorem test_evqPop : shows (exec .evqPop { State.reset with evq := [captureErrorEvent, Event.blank .spectrum] })
    (fun t => (t.evq.length, t.readRegister 0x044)) = some (1, 3) := by decide

/-! ## Agents and the host bus -/

-- 46_orchestrator R445's example: the next step ends the session.
theorem test_rx_stop : shows (rxStep { listenT with stopReq := true })
    (fun t => (t.rxState, t.stopReq, t.rbValid, t.captureOpen)) = some (.stopped, false, false, false) := by decide

-- 46_orchestrator R463: a short read changes nothing but what the port has delivered.
theorem test_rx_short : shows (rxStep { listenT with env := { Env.empty with capRead := [[]] } })
    (fun t => (t.rbSteps, t.rbWr, t.rxState)) = some (0, 0, .listening) := by decide

-- L1.5: silence on P_T: the test runs, nothing is emitted, the agent keeps Listening.
theorem test_rx_silence : shows (analyse { listenT with rbSteps := 8, activeTuning := { listenT.activeTuning with bwOrder := 1 } })
    (fun t => (t.evq.length, t.rxState, t.rbSteps)) = some (0, .listening, 8) := by decide +kernel

-- 20_memory R124: an int16 element reads back sign-extended.
theorem test_bus_sample : shows (busWrite 32 0x00400004#32 0x1234FFFE#32 State.reset)
    (fun t => t.readRegion .inbuf 0x00400004) = some (some 0xFFFFFFFE#32) := by decide

-- 10_state R41, 20_memory R122: ID, and an access of 16 bits.
theorem test_bus_id : shows (busRead 32 0#32 State.reset) State.busData = some (some 0x534E5407#32) := by decide
theorem test_bus_width : shows (busRead 16 0#32 State.reset) State.busData = none := by decide

-- 46_orchestrator R448: with an empty queue EVDATA shows 0.
theorem test_bus_evdata_empty : shows (busRead 32 0x09000000#32 State.reset) State.busData = some (some 0) := by decide

-- 44_framesync R357 and R360: with a factor of 0 a positive sum, however small, starts; a tie is left open.
theorem test_greater_tiny : greaterThan (fun p => .ofRat p 1 (2 ^ 300)) noEnergy = ⟨1, 0⟩ := by decide +kernel
theorem test_greater_tie : greaterThan (fun p => .ofRat p 1 3) (fun p => .ofRat p 1 3) = ⟨0, 1⟩ := by decide +kernel

-- 43_synth R325: k + 2^-20 + 2^-31 with k = 5 is 5; within 2^-20 of 5 it may be 4.
theorem test_pcm_band :
    pcmAt 256 (.ofRat 256 (5 * 2 ^ 31 + 2 ^ 11 + 1) (2 ^ 31 * 32760)) = ⟨⟨5, 0⟩, true⟩ ∧
    pcmAt 256 (.ofRat 256 (5 * 2 ^ 31 + 2 ^ 11 - 1) (2 ^ 31 * 32760)) = ⟨⟨4, 1⟩, true⟩ := by decide +kernel

-- The constants written out for the first precision are those the series give.
theorem test_constants : piFix 255 = piFix 256 / 2 ∧ ln2Fix 255 = ln2Fix 256 / 2 := by decide +kernel

/-! ## Witnesses: for each statement with hypotheses, a state and operands that meet them, clause by clause -/

theorem confT_config : ConfigInv confT := ⟨by decide, fun _ => by decide +kernel, rfl, rfl⟩
theorem confS_config : ConfigInv confS := ⟨by decide, fun _ => by decide +kernel, rfl, rfl⟩
theorem ringT_config : ConfigInv ringT := ⟨by decide, fun _ => by decide +kernel, rfl, rfl⟩
theorem ringT_agents : AgentInv ringT := ⟨rfl, by decide, rfl, by decide, by decide, by decide, by decide⟩
theorem ringT_ring : RingInv ringT := fun _ => ⟨by decide +kernel, List.replicate 8 0#16, by decide +kernel, by decide +kernel⟩
theorem playS_agents : AgentInv playS := ⟨rfl, by decide, rfl, by decide, by decide, by decide, by decide⟩
theorem playS_config : ConfigInv playS := ⟨by decide, fun _ => by decide +kernel, rfl, rfl⟩
theorem playS_playback : PlaybackInv playS := by
  intro q hq
  obtain rfl : [0x0001#16, 0xFFFE#16] = q := Option.some.inj hq
  decide +kernel

/-- Bits whose analysis on P_T is a hit: both factors 0, every sample 1, order 1. -/
def hitT : State :=
  ringAdd (f32s [1, 1, 1, 1, 1, 1, 1, 1])
    { commit { liveT with tuning := { liveT.tuning with startFactor := 0, endFactor := 0, bwOrder := 1 } } with
      rbValid := true, rbSteps := 7, rxState := .listening, captureOpen := true }

theorem wit_IllegalWords :
    0x02 < 256 ∧ 0xFF < 256 ∧ (0x00000100#32 : Word).extractLsb' 8 24 ≠ 0#24 ∧
    reservedOpcode ((0x00000002#32 : Word).extractLsb' 0 8).toNat = true ∧
    reservedOpcode ((0x000000FF#32 : Word).extractLsb' 0 8).toNat = true ∧
    (0x0000007F#32 : Word).extractLsb' 8 24 = 0#24 ∧
    reservedOpcode ((0x0000007F#32 : Word).extractLsb' 0 8).toNat = false := by decide

theorem wit_StepRunsCommand :
    (placeCommand 0x00000000#32 State.reset).pending = [.write 32 0x0000000C#32 0x00000000#32] ∧
    decodeWord 0x00000000#32 = .ok .nop ∧ State.reset.pending = [] := by decide

theorem wit_steps_of_invariants :
    (Memory.wf (placeCommand (encode .rbSnapshot) ringT).mem ∧ AgentInv (placeCommand (encode .rbSnapshot) ringT) ∧
      ConfigInv (placeCommand (encode .rbSnapshot) ringT) ∧ RingInv (placeCommand (encode .rbSnapshot) ringT) ∧
      ∃ t, step (placeCommand (encode .rbSnapshot) ringT) = .next t) ∧
    Memory.wf { playS with pending := [.playDone] }.mem ∧ AgentInv { playS with pending := [.playDone] } ∧
    ConfigInv { playS with pending := [.playDone] } ∧ PlaybackInv { playS with pending := [.playDone] } ∧
    ∃ t, step { playS with pending := [.playDone] } = .next t :=
  ⟨⟨by decide +kernel, ⟨rfl, by decide, rfl, by decide, by decide, by decide, by decide⟩,
      ⟨ringT_config.1, ringT_config.2, rfl, rfl⟩, ringT_ring, _, rfl⟩,
    by decide +kernel, ⟨rfl, by decide, rfl, by decide, by decide, by decide, by decide⟩,
    ⟨playS_config.1, playS_config.2, rfl, rfl⟩, playS_playback, _, rfl⟩

theorem wit_moves :
    ({ State.reset with pending := [.write 32 0x00000020#32 7] }.pending = [.write 32 0x00000020#32 7]) ∧
    (∃ t, step { State.reset with pending := [.write 32 0x00000020#32 7] } = .next t) ∧
    (Move.write 32 0x00000020#32 7 ≠ .reset) ∧ (∀ w, Move.write 32 0x00000020#32 7 ≠ .write 32 0x0000000C#32 w) ∧
    (∀ v, Move.write 32 0x00000020#32 7 ≠ .write 32 0x00000010#32 v) ∧
    ∀ v, Move.write 32 0x00000020#32 7 ≠ .write 32 0x00000014#32 v :=
  ⟨rfl, ⟨_, rfl⟩, by decide, by simp, by simp, by simp⟩

theorem wit_commands :
    (∃ t, exec .nop State.reset = .next t) ∧ (∃ t, rxStep { listenT with cancelReq := true } = .next t) ∧
    (∃ t, exec .cfgCommit liveT = .next t ∧ t.err = .ok) ∧ listenT.rxState = .listening ∧ playS.txState = .sending ∧
    Instr.nop ≠ .cfgCommit :=
  ⟨⟨_, rfl⟩, ⟨_, rfl⟩, ⟨_, rfl, rfl⟩, rfl, rfl, by decide⟩

theorem wit_ErrorPriority :
    firstError State.reset .evqPop = some .badState ∧ firstError State.reset .nop = none ∧
    firstError { listenT with cfgValid := false } .decode = some .busy ∧
    firstError { confT with plen := 1 } .pack = some .payloadTooLarge ∧
    firstError { ringT with arg0 := 9 } .rbLast = some .badArgument ∧
    firstError { ringT with arg0 := 8 } .rbLast = none := by decide +kernel

theorem wit_HostAccessFrame :
    (∃ t, busRead 32 0x00000008#32 State.reset = .next t) ∧
    (∃ t, busWrite 32 0x00100000#32 7 State.reset = .next t) ∧ (0x00100000#32 : Word) ≠ 0x0000000C#32 ∧
    { State.reset with evq := [captureErrorEvent] }.evq = [captureErrorEvent] :=
  ⟨⟨_, rfl⟩, ⟨_, rfl⟩, by decide, rfl⟩

theorem wit_HostWritable :
    (0x004#32 : Word).toNat ∈ writableOffsets ∧ (0x138#32 : Word).toNat ∈ writableOffsets ∧
    ((0xFFC#32 : Word).toNat < 0x1000 ∧ (0xFFC#32 : Word).toNat % 4 = 0 ∧ (0xFFC#32 : Word).toNat ∉ writableOffsets) ∧
    (0x078 ∉ namedOffsets ∧ 0xFFC ∉ namedOffsets ∧ 0x800 ∉ namedOffsets) ∧
    regionOf ringT 32 0x003003FC#32 = some .ibuf ∧ regionOf ringT 32 0x0080001C#32 = some .rb ∧
    regionOf ringT 32 0x01000000#32 = some .wbuf ∧ regionOf ringT 32 0x02000000#32 = some .pcm ∧
    regionOf ringT 32 0x04000000#32 = some .spec ∧ regionOf ringT 32 0x08000000#32 = some .rxbits ∧
    regionOf { State.reset with evq := [{ Event.blank .message with len := 1, payload := [7] }] } 32 0x09000000#32 =
      some .evdata := by decide +kernel

theorem wit_ElementLayout :
    Memory.wf State.reset.mem ∧ regionOf State.reset 32 0x00107FFC#32 = some .pbuf ∧
    regionOf State.reset 32 0x0023FFFC#32 = some .bbuf ∧ regionOf State.reset 32 0x004FFFFC#32 = some .inbuf := by
  decide +kernel

theorem wit_BusErrors :
    (16 ≠ 32) ∧ ((0x002#32 : Word).toNat % 4 ≠ 0) ∧
    (∀ r, Region.holds State.reset (0x00001000#32 : Word).toNat r = false) ∧
    Region.holds State.reset (0x00000FFC#32 : Word).toNat .registers = true :=
  ⟨by decide, by decide, fun r => by cases r <;> decide +kernel, by decide +kernel⟩

theorem wit_RegionsDisjoint :
    ringT.hw.wellFormed = true ∧ (ringT.rbValid = true → ringT.rbCapNat ≤ ringT.hw.maxRb) ∧
    Region.holds ringT 0x0080001F .rb = true := by decide +kernel

theorem wit_PackShape :
    (0 < 16 ∧ 16 % 8 = 0 ∧ 16 ≤ 2 * 16 ∧ [0x41#8, 0x42#8].length ≤ 2 * (16 / 8) - 2) ∧
    0 < 8 ∧ 8 % 8 = 0 ∧ 16 ≤ 2 * 8 ∧ ([] : List Byte).length ≤ 2 * (8 / 8) - 2 := by decide

theorem wit_ByteCommands :
    Memory.wf State.reset.mem ∧ { State.reset with blen := 7 }.blen.toNat < 8 ∧
    { State.reset with blen := 65537 }.hw.maxBits < { State.reset with blen := 65537 }.blen.toNat ∧
    8 ≤ (withBits (bits8 0x48#8) State.reset).blen.toNat ∧
    (withBits (bits8 0x48#8) State.reset).blen.toNat ≤ (withBits (bits8 0x48#8) State.reset).hw.maxBits ∧
    (withBits (bits8 0x48#8) State.reset).bbuf 8 = some (bits8 0x48#8) := by decide +kernel

theorem wit_PackCommand :
    State.reset.cfgValid = false ∧ { confS with plen := 3 }.payloadCapNat < { confS with plen := 3 }.plen.toNat ∧
    Memory.wf (withBytes [0x41#8, 0x42#8] confS).mem ∧ ConfigInv (withBytes [0x41#8, 0x42#8] confS) ∧
    (withBytes [0x41#8, 0x42#8] confS).cfgValid = true ∧ (withBytes [0x41#8, 0x42#8] confS).txState ≠ .sending ∧
    (withBytes [0x41#8, 0x42#8] confS).plen.toNat ≤ (withBytes [0x41#8, 0x42#8] confS).payloadCapNat ∧
    (withBytes [0x41#8, 0x42#8] confS).pbuf 2 = some [0x41#8, 0x42#8] :=
  ⟨rfl, by decide +kernel, by decide +kernel, ⟨confS_config.1, confS_config.2, rfl, rfl⟩, rfl, by decide,
    by decide +kernel, by decide +kernel⟩

theorem wit_bit_commands :
    Memory.wf (withBits (bitsOf 20 0xFFFFA) confS).mem ∧ (withBits (bitsOf 20 0xFFFFA) confS).cfgValid = true ∧
    (withBits (bitsOf 20 0xFFFFA) confS).blen.toNat ≤ (withBits (bitsOf 20 0xFFFFA) confS).hw.maxBits ∧
    (withBits (bitsOf 20 0xFFFFA) confS).bbuf 20 = some (bitsOf 20 0xFFFFA) ∧
    0 < (withBits (bitsOf 20 0xFFFFA) confS).nfreqNat ∧
    ceilDiv 20 (withBits (bitsOf 20 0xFFFFA) confS).nfreqNat * (withBits (bitsOf 20 0xFFFFA) confS).nfreqNat ≤
      (withBits (bitsOf 20 0xFFFFA) confS).hw.maxBits ∧
    { withBits (bitsOf 20 0xFFFFA) confS with arg0 := 1 }.arg0.toNat < ceilDiv 20 confS.nfreqNat ∧
    ceilDiv 20 confS.nfreqNat ≤ { withBits (bitsOf 20 0xFFFFA) confS with arg0 := 2 }.arg0.toNat ∧
    { confS with blen := 65537 }.hw.maxBits < { confS with blen := 65537 }.blen.toNat ∧
    confS.blen.toNat = 0 ∧ confS.bbuf 0 = some [] ∧
    { confS with blen := 20 }.blen.toNat ≤ { confS with blen := 20 }.hw.maxBits ∧
    ceilDiv 20 confS.nfreqNat * confS.nfreqNat ≤ confS.hw.maxBits ∧ { confS with blen := 20 }.bbuf 20 = none ∧
    (bitsOf 15 0x7FFF).length < 16 ∧ (bitsOf 16 0xFFFF).length = 16 := by decide +kernel

theorem wit_CrcSound :
    (0x11021#17 : BitVec 17).getLsbD 16 = true ∧ (0x11021#17 : BitVec 17).getLsbD 0 = true ∧
    31 < (bitsOf 16 0x4142 ++ parity 0x11021#17 (bitsOf 16 0x4142)).length ∧ (bitsOf 16 0x4142).length ≤ 16 := by
  decide +kernel

theorem wit_RingFillAndAdd :
    Memory.wf confT.mem ∧ confT.rxState ≠ .listening ∧ confT.cfgValid = true ∧
    Memory.wf (withSamples [1, 2, 3, 4, 5, 6, 7, 8, 9] ringT).mem ∧
    (withSamples [1, 2, 3, 4, 5, 6, 7, 8, 9] ringT).rbValid = true ∧
    (withSamples [1, 2, 3, 4, 5, 6, 7, 8, 9] ringT).arg0.toNat ≤ ringT.hw.maxIn ∧
    (withSamples [1, 2, 3, 4, 5, 6, 7, 8, 9] ringT).inbuf 9 = some [1, 2, 3, 4, 5, 6, 7, 8, 9] ∧
    (withSamples [1, 2, 3, 4, 5, 6, 7, 8, 9] ringT).rb = some (List.replicate 8 0) ∧
    ringT.rbWr.toNat < ringT.rbCapNat := by decide +kernel

theorem wit_RingWindows :
    Memory.wf ringTwo.mem ∧ ringTwo.rxState ≠ .listening ∧ ringTwo.rbValid = true ∧
    ringTwo.rb = some (f32s [9, 10, 11, 12, 5, 6, 7, 8]) ∧ ringTwo.rbWr.toNat < ringTwo.rbCapNat ∧
    ringTwo.rbCapNat ≤ 2 ^ 21 ∧ { ringTwo with arg0 := 8 }.arg0.toNat ≤ ringTwo.rbCapNat ∧ 0 < ringTwo.rbCapNat := by
  decide +kernel

theorem wit_SynthProperties :
    2 ≤ confS.tone.fadeDiv ∧ 1 ≤ 3 / confS.tone.fadeDiv ∧ onBins confS.tone (List.replicate 16 false) 8 = [] ∧
    onBins confS.tone (List.replicate 16 true) 2 = [] := by decide +kernel

theorem wit_MessageSlots :
    ConfigInv confS ∧ confS.cfgValid = true ∧ (bitsOf 32 0x4119BDE5).length = confS.derived.msgBits.toNat ∧
    1 < ceilDiv 32 confS.nfreqNat := ⟨confS_config, rfl, by decide +kernel, by decide +kernel⟩

theorem wit_SynBlockCommand :
    Memory.wf (withBits (bitsOf 20 0xFFFFA) confS).mem ∧ confS.txState ≠ .sending ∧ confS.cfgValid = true ∧
    { confS with arg0 := 1, arg1 := 1 }.arg0.toNat < 2 ∧ { confS with arg0 := 1, arg1 := 1 }.arg1.toNat < ceilDiv 20 16 ∧
    (withBits (bitsOf 20 0xFFFFA) confS).bbuf 20 = some (bitsOf 20 0xFFFFA) ∧
    { confS with arg0 := 2 }.arg0.toNat = 2 ∧ { confS with arg0 := 3 }.arg0.toNat = 3 ∧
    { confS with arg0 := 4 }.arg0.toNat = 4 ∧ { confS with arg0 := 5 }.arg0.toNat = 5 ∧
    { confS with mem := Memory.writeWords [] ibufBase ((bitsOf 16 0x00FF).map bitWord) }.ibuf confS.nfreqNat =
      some (bitsOf 16 0x00FF) := by decide +kernel

theorem wit_BuildSignalCommand :
    (withBits (bitsOf 20 0xFFFFA) confS).hw.maxPcm < 2 ^ 32 ∧
    confS.derived.bitSamples.toNat * (2 * ceilDiv 20 confS.nfreqNat + 2) +
      confS.derived.pauseSamples.toNat * (2 * ceilDiv 20 confS.nfreqNat + 1) ≤ confS.hw.maxPcm := by decide +kernel

theorem wit_SyncAndDecode :
    Memory.wf ringT.mem ∧ ringT.rxState ≠ .listening ∧ ringT.cfgValid = true ∧ ringT.rbValid = true ∧
    ringT.snapshot = some (List.replicate 8 0) ∧ (∀ x ∈ (List.replicate 8 (0 : Word)).take ringT.stepLenNat, x = 0#32) ∧
    ringTwo.snapshot = some (f32s [5, 6, 7, 8, 9, 10, 11, 12]) ∧ (∃ v ∈ f32s [5, 6, 7, 8, 9, 10, 11, 12], f32Fix v ≠ 0) ∧
    ConfigInv ringT :=
  ⟨by decide +kernel, by decide, rfl, rfl, by decide +kernel,
    fun _ hx => List.eq_of_mem_replicate (List.mem_of_mem_take hx), by decide +kernel, ⟨sampleF32 5#16, by simp [f32s], by decide +kernel⟩,
    ringT_config⟩

theorem wit_CfgCommitCommand :
    listenT.rxState = .listening ∧ playS.txState = .sending ∧ liveS.rxState ≠ .listening ∧ liveS.txState ≠ .sending ∧
    configValid liveS.hw liveS.profile liveS.tuning = true ∧
    configValid State.reset.hw State.reset.profile State.reset.tuning = false ∧ liveS.hw.wellFormed = true ∧
    15 < liveS.profile.nfreq.toNat := by decide +kernel

theorem wit_RxStartCommand :
    Memory.wf confS.mem ∧ confS.evq.length ≠ confS.hw.evqDepth ∧ confS.rxState ≠ .listening ∧
    confS.rxState ≠ .cancelled ∧ confS.cfgValid = true ∧ confS.evq = [] ∧
    (drawCapOpen { Env.empty with capOpen := [true] }).1 = true ∧
    (drawCapOpen { Env.empty with capOpen := [false] }).1 = false := by decide +kernel

theorem wit_RxStopCancelCommands :
    { State.reset with rxState := .cancelled }.rxState = .cancelled ∧ listenT.rxState = .listening ∧
    State.reset.rxState = .initialized ∧ State.reset.evq.length ≠ State.reset.hw.evqDepth := by decide

theorem wit_StateMachines :
    (∃ t, step { listenT with cancelReq := true, pending := [.rx] } = .next t ∧ t.rxState ≠ listenT.rxState) ∧
    (∃ t, step (placeCommand 0x00000072#32 State.reset) = .next t ∧ t.rxState ≠ State.reset.rxState) ∧
    ∃ t, step { playS with pending := [.playDone] } = .next t ∧ t.txState ≠ playS.txState :=
  ⟨⟨_, rfl, by decide⟩, ⟨_, rfl, by decide⟩, ⟨_, rfl, by decide⟩⟩

theorem wit_RxStepRule :
    listenT.rxState = .listening ∧ listenT.evq.length + 2 ≤ listenT.hw.evqDepth ∧
    { listenT with evq := List.replicate 6 captureErrorEvent }.evq.length + 2 ≤ listenT.hw.evqDepth ∧
    listenT.cancelReq = false ∧ listenT.stopReq = false ∧
    ([] : List Sample).length < listenT.stepLenNat ∧ listenT.stepLenNat < [0#16, 0#16].length ∧
    [0#16].length = listenT.stepLenNat ∧ (nextSteps listenT.rbSteps).toNat < listenT.derived.syncThresh.toNat ∧
    listenT.env.capRead = [] ∧ listenT.derived.syncThresh.toNat ≤ { listenT with rbSteps := 100 }.rbSteps.toNat ∧
    listenT.snapshot = some (List.replicate 8 0) ∧
    ¬ ((listenT.syncOn (List.replicate 8 0)).1.start = true ∧ (listenT.syncOn (List.replicate 8 0)).1.stop = true) := by
  decide +kernel

theorem wit_HitEmitsMessage :
    Memory.wf hitT.mem ∧ ConfigInv hitT ∧ hitT.cfgValid = true ∧
    hitT.snapshot = some (f32s [1, 1, 1, 1, 1, 1, 1, 1]) ∧ hitT.derived.syncThresh.toNat ≤ hitT.rbSteps.toNat ∧
    (hitT.syncOn (f32s [1, 1, 1, 1, 1, 1, 1, 1])).1.start = true ∧
    (hitT.syncOn (f32s [1, 1, 1, 1, 1, 1, 1, 1])).1.stop = true :=
  ⟨by decide +kernel, ⟨by decide, fun _ => by decide +kernel, rfl, rfl⟩, rfl, by decide +kernel, by decide +kernel,
    by decide +kernel, by decide +kernel⟩

theorem wit_EnclosuresHold :
    Ival.Holds 256 (1 / 2) (.ofRat 256 1 2) ∧ Disc.Holds 256 1 (.ofInt 256 1) ∧
    List.Forall₂ (Ival.Holds 256) [1 / 2] [.ofRat 256 1 2] ∧ (∀ p, Ival.Holds p 0 (noEnergy p)) ∧
    ((|(1 : ℝ)| + |0|) / 2 ^ 30 < 1 - 0) ∧ (|(1 : ℝ) - 1| ≤ (|1| + |1|) / 2 ^ 30) ∧ (|(1 / 2 : ℝ)| ≤ 1) ∧
    ((1 : ℤ) ≠ 0 ∧ |(1 / 32760 : ℝ) * 32760 - (1 : ℤ)| ≤ 1 / 2 ^ 20) ∧
    (pcmAt 256 (.ofRat 256 1 65520)).settled = true ∧ ∀ m : ℤ, 1 / 2 ^ 20 < |(1 / 65520 : ℝ) * 32760 - m| := by
  have half : Ival.Holds 256 (1 / 2) (.ofRat 256 1 2) := by
    intro _
    have h : Ival.ofRat 256 1 2 = ⟨2 ^ 255, 2 ^ 255, true⟩ := by decide +kernel
    rw [h]
    constructor <;> norm_num
  refine ⟨half, ?_, .cons half .nil, fun p _ => by simp [noEnergy, Ival.zero], by norm_num, by norm_num, by norm_num,
    by norm_num, by decide +kernel, fun m => ?_⟩
  · intro _
    simp [Disc.ofInt, fixOne]
    norm_num
  · have h : (1 / 65520 : ℝ) * 32760 - m = ((1 - 2 * m : ℤ) : ℝ) / 2 := by push_cast; ring
    have h1 : (1 : ℤ) ≤ |1 - 2 * m| := Int.one_le_abs (by omega)
    have h2 : (1 : ℝ) ≤ |((1 - 2 * m : ℤ) : ℝ)| := by exact_mod_cast h1
    rw [h, abs_div, abs_two]
    calc (1 : ℝ) / 2 ^ 20 < 1 / 2 := by norm_num
      _ ≤ _ := by linarith

theorem wit_exact :
    0 ≤ Exact.f32 0x40000000#32 ∧ 200 ≤ 280 ∧ 2 * 280 < 1000 ∧ 2 ≤ confT.decodeSetup.wd ∧
    confT.decodeSetup.binLo ≤ confT.decodeSetup.binHi ∧ confT.decodeSetup.binHi ≤ confT.decodeSetup.wd / 2 ∧
    6 < confT.decodeSetup.frames ∧ 1 < confT.decodeSetup.nbins := by
  refine ⟨?_, by decide +kernel⟩
  have h : (0x40000000#32 : Word).getLsbD 31 = false := by decide
  simp only [Exact.f32, h, Bool.false_eq_true, if_false, one_mul]
  split_ifs <;> positivity

theorem wit_reads :
    (0x00000008#32 : Word).toNat < 0x1000 ∧ regionOf ringT 32 0x00800000#32 = some .rb ∧
    Memory.readWords ringT.mem (0x00800000#32 : Word).toNat 1 = some [0#32] := by decide +kernel

theorem wit_burst :
    firstPrec ≤ 256 ∧
    let x : Nat → ℝ := fun n =>
      ([(1, Phase.named 0 1)].map fun kp => Real.cos (2 * Real.pi * kp.1 * n / (4 : ℕ) + kp.2.angle)).sum
    (∀ m < 4, |x m| ≤ 1) ∧ ∃ m < 4, |x m| = 1 := by
  refine ⟨le_rfl, fun m _ => ?_, 0, by decide, ?_⟩
  · simpa using Real.abs_cos_le_one _
  · simp [Phase.angle]

theorem wit_ElementLayout_evdata :
    { State.reset with evq := [{ Event.blank .message with len := 2, payload := [7, 9] }] }.hw.wellFormed = true ∧
    (2 : Word).toNat = [7#8, 9#8].length ∧ 1 < [7#8, 9#8].length ∧ 1 < 2 ^ 29 ∧ State.reset.evq = [] ∧
    8191 < State.reset.hw.maxPayload := by decide +kernel

end Sys2Proof.Tests
end

section
/-! SUPPORT. Every invariant holds after reset (70_reset R550). -/

namespace Sys2Proof.Machine

variable (hw : Params)

theorem resetWith_memoryWf : Memory.wf (State.resetWith hw).mem := .nil

theorem resetWith_agentInv : AgentInv (State.resetWith hw) where
  captureOpen := rfl
  requests := by rintro (h | h) <;> cases h
  handoff := rfl
  listeningBuffer := nofun
  bufferConfig := nofun
  queue := Nat.zero_le _
  syncOrder := nofun

theorem resetWith_configInv (h : hw.wellFormed = true) : ConfigInv (State.resetWith hw) where
  params := h
  valid := nofun
  derived := rfl
  freq := rfl

theorem resetWith_ringInv : RingInv (State.resetWith hw) := nofun

theorem resetWith_playbackInv : PlaybackInv (State.resetWith hw) := nofun

end Sys2Proof.Machine
end

section
/-! SUPPORT. The operations on bounds that Energy.lean and Spectrum.lean do not need hold the exact real numbers, and
the two aggregated numbers of a detector and a decoder do: band energies and spectrogram elements. -/

open Finset

namespace Sys2Proof.Machine

section
variable {p : ℕ} {x y : ℝ} {a b : Ival}

/-- The difference. -/
theorem Ival.sub_holds (ha : a.Holds p x) (hb : b.Holds p y) : (a.sub b).Holds p (x - y) := by
  rw [sub_eq_add_neg]
  exact Ival.add_holds ha (Ival.neg_holds hb)

/-- The magnitude: the bounds lie on one side of 0 or on both. -/
theorem Ival.abs_holds (ha : a.Holds p x) : a.abs.Holds p |x| := by
  have hP : (0 : ℝ) < 2 ^ p := by positivity
  unfold Ival.abs
  split_ifs with hlo hhi
  · intro hk
    have h0 : (0 : ℝ) ≤ a.lo := by exact_mod_cast hlo
    rw [abs_of_nonneg (nonneg_of_mul_nonneg_left (h0.trans (ha hk).1) hP)]
    exact ha hk
  · intro hk
    have h0 : (a.hi : ℝ) ≤ 0 := by exact_mod_cast hhi
    rw [abs_of_nonpos (nonpos_of_mul_nonpos_left ((ha hk).2.trans h0) hP)]
    exact Ival.neg_holds ha hk
  · intro hk
    obtain ⟨h1, h2⟩ := ha hk
    have e : |x| * 2 ^ p = |x * 2 ^ p| := by rw [abs_mul, abs_of_pos hP]
    rw [e]
    push_cast
    exact ⟨abs_nonneg _, abs_le.2 ⟨neg_le.1 (le_max_of_le_left (neg_le_neg h1)), le_max_of_le_right h2⟩⟩

/-- The larger number. -/
theorem Ival.larger_holds (ha : a.Holds p x) (hb : b.Holds p y) : (a.larger b).Holds p (max x y) := by
  intro hk
  simp only [Ival.larger, Bool.and_eq_true] at hk ⊢
  obtain ⟨a1, a2⟩ := ha hk.1
  obtain ⟨b1, b2⟩ := hb hk.2
  rw [max_mul_of_nonneg _ _ (by positivity)]
  push_cast
  exact ⟨max_le_max a1 b1, max_le_max a2 b2⟩

/-- The product with a rational number. -/
theorem Ival.scale_holds (ha : a.Holds p x) (n : ℕ) {d : ℕ} (hd : 0 < d) : (a.scale n d).Holds p (x * n / d) := by
  unfold Ival.scale
  split_ifs with hn
  · simpa [hn] using Ival.zero_holds p
  · intro hk
    obtain ⟨h1, h2⟩ := ha hk
    have q := (ediv_sub_bounds (a.lo * n) hd).1
    have c := (ceilDivInt_bounds (a.hi * n) hd).1
    push_cast at q c
    have e : x * n / d * 2 ^ p = x * 2 ^ p * n / d := by ring
    rw [e]
    constructor
    · calc ((a.lo * n / (d : ℤ) : ℤ) : ℝ) ≤ a.lo * n / d := by linarith
        _ ≤ x * 2 ^ p * n / d := by gcongr
    · exact le_trans (by gcongr) c

/-- A binary32 factor that is not negative, times a number (44_framesync R355). -/
theorem factorTimes_holds {w : Word} (hw : 0 ≤ Exact.f32 w) (ha : a.Holds p x) :
    (factorTimes w a).Holds p (Exact.f32 w * x) := by
  have hn : (((f32Fix w).toNat : ℕ) : ℝ) = Exact.f32 w * 2 ^ 149 := by
    have h0 : (0 : ℝ) ≤ (f32Fix w : ℤ) := by rw [f32Fix_eq]; positivity
    rw [← f32Fix_eq]
    exact_mod_cast Int.toNat_of_nonneg (by exact_mod_cast h0)
  have h := Ival.scale_holds ha (f32Fix w).toNat (d := 2 ^ 149) (by positivity)
  rw [hn, Nat.cast_pow, Nat.cast_ofNat, ← mul_assoc, mul_div_cancel_right₀ _ (by positivity), mul_comm] at h
  exact h

end

/-! ## Band energies and spectrogram elements -/

/-- The energy of a window in a band (44_framesync R354). -/
theorem bandEnergy_holds {p fs n fl fh : ℕ} (hp : firstPrec ≤ p) (hn : 0 < n) (hl : fl ≤ fh) (hh : 2 * fh < fs)
    (w : List Word) : (bandEnergy fs n fl fh w p).Holds p (Exact.energy fs n fl fh w) := by
  unfold bandEnergy
  split_ifs with hz
  · rw [energy_of_zero (by simpa using hz)]
    exact Ival.zero_holds p
  · have hw : 0 ≤ Exact.warp fs fl * Exact.warp fs fh := mul_nonneg (warp_nonneg (by omega)) (warp_nonneg hh)
    have h := (envelope_holds hp (bandPass_holds hp (by omega) hn hw w)).foldl_add
    simpa [envelope, length_bandPass, Exact.energy] using h

/-- A list of bounds over the first indices. -/
theorem TracksReal.of_range {p n : ℕ} {φ : ℕ → Ival} {f : ℕ → ℝ} (h : ∀ i < n, (φ i).Holds p (f i)) :
    TracksReal p ((List.range n).map φ) f := by
  intro i hi
  rw [List.getElem_map, List.getElem_range]
  exact h i (by simpa using hi)

/-- A frame of the spectrogram is the normalized list of its bins' magnitudes (45_decoder R391 to R394). -/
theorem spectrogram_getD (p : ℕ) {c : DecodeSetup} (x : List ℤ) {f : ℕ} (hf : f < c.frames) :
    (spectrogram p c x).getD f [] = normalizeFrame p ((List.range c.nbins).map fun b =>
      binMagnitude c.wd (binWeights p ((List.range c.wd).map (hamming p c.wd)) (turnTable p c.wd) c.wd (c.binLo + b))
        ((x.drop (f * c.hop)).take c.wd)) := by
  simp [spectrogram, hf, Function.comp_def]

@[simp] theorem length_normalizeFrame (p : ℕ) (m : List Ival) : (normalizeFrame p m).length = m.length := by
  simp only [normalizeFrame]
  split_ifs <;> simp

/-- An element of the spectrogram (45_decoder R394). -/
theorem spectrogram_holds {p : ℕ} {c : DecodeSetup} (hp : firstPrec ≤ p) (hwd : 2 ≤ c.wd) (hlo : c.binLo ≤ c.binHi)
    (hhi : c.binHi ≤ c.wd / 2) (x : List Word) {f b : ℕ} (hf : f < c.frames) (hb : b < c.nbins) :
    (((spectrogram p c (x.map f32Fix)).getD f []).getD b .zero).Holds p (Exact.spec c x f (c.binLo + b)) := by
  have hbin : ∀ k < c.nbins, c.binLo + k ≤ c.wd := fun k hk => by unfold DecodeSetup.nbins at hk; omega
  have hsum : ∑ j ∈ range c.nbins, Exact.logMagnitude c x f (c.binLo + j) =
      ∑ j ∈ Icc c.binLo c.binHi, Exact.logMagnitude c x f j := by
    rw [← Ico_add_one_right_eq_Icc, sum_Ico_eq_sum_range, DecodeSetup.nbins, Nat.sub_add_comm hlo]
  have h := normalizeFrame_holds hp (TracksReal.of_range fun k hk => magnitude_holds hp hwd (hbin k hk) x f) b
    (by simpa using hb)
  rw [spectrogram_getD p _ hf, List.getD_eq_getElem _ _ (by simpa using hb), Exact.spec, ← hsum]
  simpa [Exact.logMagnitude] using h

end Sys2Proof.Machine
end

section
/-! SUPPORT. The aggregates of 45_decoder R398: each mode rises with every one of its arguments, so the aggregate of the
bounds bounds the aggregate. The median is reached by counting: the `k`-th number of an ascending list is at most `t`
exactly when more than `k` numbers of the list are. -/

namespace Sys2Proof.Machine

/-! ## Ascending lists -/

theorem insertSorted_eq (a : ℤ) (l : List ℤ) : insertSorted a l = l.orderedInsert (· ≤ ·) a := by
  induction l with
  | nil => rfl
  | cons b l ih => simp [insertSorted, List.orderedInsert, ih]

theorem sortAscending_eq (l : List ℤ) : sortAscending l = l.insertionSort (· ≤ ·) := by
  induction l with
  | nil => rfl
  | cons a l ih => simp [← ih, sortAscending, insertSorted_eq]

theorem sortAscending_perm (l : List ℤ) : (sortAscending l).Perm l := by
  rw [sortAscending_eq]
  exact List.perm_insertionSort _ l

theorem sortAscending_pairwise (l : List ℤ) : (sortAscending l).Pairwise (· ≤ ·) := by
  rw [sortAscending_eq]
  exact List.pairwise_insertionSort _ l

/-- The order statistics of an ascending list, by counting. -/
theorem getElem_le_iff_lt_countP {s : List ℝ} (hs : s.Pairwise (· ≤ ·)) {k : ℕ} (hk : k < s.length) (t : ℝ) :
    s[k] ≤ t ↔ k < s.countP fun v => decide (v ≤ t) := by
  induction s generalizing k with
  | nil => simp at hk
  | cons a s ih =>
    obtain ⟨ha, hs⟩ := List.pairwise_cons.1 hs
    by_cases hat : a ≤ t
    · cases k with
      | zero => simp [hat]
      | succ k => simpa [hat] using ih hs (by simpa using hk)
    · have h0 : s.countP (fun v => decide (v ≤ t)) = 0 :=
        List.countP_eq_zero.2 fun v hv => by simpa using (not_le.1 hat).trans_le (ha v hv)
      cases k with
      | zero => simp [hat, h0]
      | succ k => simpa [hat, h0] using (not_le.1 hat).trans_le (ha _ (List.getElem_mem _))

/-- Of the larger list no more numbers are at most `t`. -/
theorem countP_le_of_forall₂_le {l m : List ℝ} (h : List.Forall₂ (· ≤ ·) l m) (t : ℝ) :
    m.countP (fun v => decide (v ≤ t)) ≤ l.countP fun v => decide (v ≤ t) := by
  induction h with
  | nil => rfl
  | @cons a b l m hab _ ih =>
    simp only [List.countP_cons, decide_eq_true_eq]
    split_ifs with hb ha
    · omega
    · exact absurd (hab.trans hb) ha
    · omega
    · omega

/-- Putting both lists in ascending order keeps one below the other. -/
theorem forall₂_le_of_perm {l m l' m' : List ℝ} (h : List.Forall₂ (· ≤ ·) l m) (hl : l'.Perm l) (hm : m'.Perm m)
    (sl : l'.Pairwise (· ≤ ·)) (sm : m'.Pairwise (· ≤ ·)) : List.Forall₂ (· ≤ ·) l' m' := by
  have hlen : l'.length = m'.length := by rw [hl.length_eq, hm.length_eq, h.length_eq]
  refine List.forall₂_iff_get.2 ⟨hlen, fun k hk hk' => (getElem_le_iff_lt_countP sl hk _).2 ?_⟩
  calc k < m'.countP fun v => decide (v ≤ m'[k]) := (getElem_le_iff_lt_countP sm hk' _).1 le_rfl
    _ = m.countP fun v => decide (v ≤ m'[k]) := hm.countP_eq _
    _ ≤ l.countP fun v => decide (v ≤ m'[k]) := countP_le_of_forall₂_le h _
    _ = l'.countP fun v => decide (v ≤ m'[k]) := (hl.countP_eq _).symm

/-! ## The median -/

/-- The middle number of an ascending list, the mean of the middle two of an even count. -/
noncomputable def middle (s : List ℝ) : ℝ :=
  if s.length % 2 = 1 then s.getD (s.length / 2) 0 else (s.getD (s.length / 2 - 1) 0 + s.getD (s.length / 2) 0) / 2

theorem getD_le_getD_of_forall₂ {l m : List ℝ} (h : List.Forall₂ (· ≤ ·) l m) (k : ℕ) : l.getD k 0 ≤ m.getD k 0 := by
  induction h generalizing k with
  | nil => rfl
  | cons hab _ ih => cases k with
    | zero => simpa using hab
    | succ k => simpa using ih k

theorem middle_le_middle {l m : List ℝ} (h : List.Forall₂ (· ≤ ·) l m) : middle l ≤ middle m := by
  have hk := getD_le_getD_of_forall₂ h
  unfold middle
  rw [← h.length_eq]
  split_ifs
  · exact hk _
  · linarith [hk (l.length / 2 - 1), hk (l.length / 2)]

theorem middle_map_mul (l : List ℝ) (c : ℝ) : middle (l.map (· * c)) = middle l * c := by
  have hk : ∀ k, (l.map (· * c)).getD k 0 = l.getD k 0 * c := fun k => by
    rw [← List.getD_map (f := (· * c)), zero_mul]
  simp only [middle, hk, List.length_map]
  split_ifs <;> ring

/-! ## The aggregates -/

/-- The number an exact aggregate stands for. -/
noncomputable def fractionValue (q : ℤ × ℕ) : ℝ := q.1 / q.2

theorem fractionValue_median (l : List ℤ) :
    fractionValue (aggregateExact 0 l) = middle ((sortAscending l).map (Int.cast : ℤ → ℝ)) := by
  have hk : ∀ k, ((sortAscending l).map (Int.cast : ℤ → ℝ)).getD k 0 = ((sortAscending l).getD k 0 : ℤ) := fun k => by
    rw [← Int.cast_zero, List.getD_map]
  simp only [aggregateExact, middle, List.length_map, (sortAscending_perm l).length_eq, hk]
  split_ifs <;> simp [fractionValue]

theorem fractionValue_mean (l : List ℤ) :
    fractionValue (aggregateExact 1 l) = (l.map (Int.cast : ℤ → ℝ)).sum / l.length := by
  simp [fractionValue, aggregateExact, ← List.sum_eq_foldl]

theorem aggregateExact_den_pos (mode : ℕ) {l : List ℤ} (h : l ≠ []) : 0 < (aggregateExact mode l).2 := by
  unfold aggregateExact
  split
  · dsimp only
    split_ifs <;> simp
  · exact List.length_pos_iff.2 h
  · simp

/-- The largest number of a list that is not empty is one of its numbers and at least each of them. -/
theorem foldl_max_spec {l : List ℤ} (h : l ≠ []) :
    l.foldl max (l.headD 0) ∈ l ∧ ∀ v ∈ l, v ≤ l.foldl max (l.headD 0) := by
  obtain ⟨a, l, rfl⟩ := List.exists_cons_of_ne_nil h
  exact List.max?_eq_some_iff.1 (by simp [List.max?_cons', -List.max?_cons])

/-- Each number of the one list has its partner in the other. -/
theorem exists_mem_right_of_forall₂ {α β : Type} {R : α → β → Prop} {l : List α} {m : List β} (h : List.Forall₂ R l m)
    {a : α} (ha : a ∈ l) : ∃ b ∈ m, R a b := by
  induction h with
  | nil => simp at ha
  | cons hab _ ih =>
    obtain rfl | ha := List.mem_cons.1 ha
    · exact ⟨_, List.mem_cons_self, hab⟩
    · obtain ⟨b, hb, hr⟩ := ih ha
      exact ⟨b, List.mem_cons_of_mem _ hb, hr⟩

theorem fractionValue_max {l : List ℤ} (h : l ≠ []) : ∃ M : ℤ, fractionValue (aggregateExact 2 l) = M ∧
    M ∈ l ∧ ∀ v ∈ l, v ≤ M :=
  ⟨_, by simp [fractionValue, aggregateExact], foldl_max_spec h⟩

/-- Bounds on a number from the aggregates of the lower and of the upper bounds. -/
theorem aggregate_holds_of_bounds {p mode : ℕ} {x : ℝ} {l : List Ival} (hl : l ≠ [])
    (h : (∀ v ∈ l, v.known = true) → fractionValue (aggregateExact mode (l.map Ival.lo)) ≤ x * 2 ^ p ∧
      x * 2 ^ p ≤ fractionValue (aggregateExact mode (l.map Ival.hi))) : (aggregate mode l).Holds p x := by
  intro hk
  obtain ⟨h1, h2⟩ := h (by simpa [aggregate] using hk)
  have hd : ∀ f : Ival → ℤ, 0 < (aggregateExact mode (l.map f)).2 := fun f =>
    aggregateExact_den_pos mode (by simpa using hl)
  exact ⟨(sub_nonneg.1 (ediv_sub_bounds _ (hd Ival.lo)).1).trans h1, h2.trans (ceilDivInt_bounds _ (hd Ival.hi)).1⟩

section
variable {p : ℕ} {xs : List ℝ} {l : List Ival} (h : List.Forall₂ (Ival.Holds p) xs l) (hk : ∀ v ∈ l, v.known = true)

include h hk

/-- The lower bounds lie below the numbers, scaled. -/
theorem forall₂_lo_le : List.Forall₂ (· ≤ ·) ((l.map Ival.lo).map (Int.cast : ℤ → ℝ)) (xs.map (· * 2 ^ p)) := by
  induction h with
  | nil => exact .nil
  | cons hx _ ih =>
    obtain ⟨hv, hk⟩ := List.forall_mem_cons.1 hk
    exact .cons (hx hv).1 (ih hk)

/-- The upper bounds lie above the numbers, scaled. -/
theorem forall₂_le_hi : List.Forall₂ (· ≤ ·) (xs.map (· * 2 ^ p)) ((l.map Ival.hi).map (Int.cast : ℤ → ℝ)) := by
  induction h with
  | nil => exact .nil
  | cons hx _ ih =>
    obtain ⟨hv, hk⟩ := List.forall_mem_cons.1 hk
    exact .cons (hx hv).2 (ih hk)

end

section
variable {p : ℕ} {xs : List ℝ} {l : List Ival} (hl : l ≠ []) (h : List.Forall₂ (Ival.Holds p) xs l)

include hl h

/-- The median. -/
theorem aggregate_median_holds {ys : List ℝ} (hp : ys.Perm xs) (hs : ys.Pairwise (· ≤ ·)) :
    (aggregate 0 l).Holds p (middle ys) := by
  have hc : ∀ m : List ℤ, ((sortAscending m).map (Int.cast : ℤ → ℝ)).Perm (m.map Int.cast) ∧
      ((sortAscending m).map (Int.cast : ℤ → ℝ)).Pairwise (· ≤ ·) := fun m =>
    ⟨(sortAscending_perm m).map _, (sortAscending_pairwise m).map _ fun _ _ => Int.cast_le.2⟩
  have hy : (ys.map (· * 2 ^ p)).Perm (xs.map (· * 2 ^ p)) ∧ (ys.map (· * (2 : ℝ) ^ p)).Pairwise (· ≤ ·) :=
    ⟨hp.map _, hs.map _ fun _ _ hab => mul_le_mul_of_nonneg_right hab (by positivity)⟩
  refine aggregate_holds_of_bounds hl fun hk => ?_
  rw [fractionValue_median, fractionValue_median, ← middle_map_mul]
  exact ⟨middle_le_middle (forall₂_le_of_perm (forall₂_lo_le h hk) (hc _).1 hy.1 (hc _).2 hy.2),
    middle_le_middle (forall₂_le_of_perm (forall₂_le_hi h hk) hy.1 (hc _).1 hy.2 (hc _).2)⟩

/-- The mean. -/
theorem aggregate_mean_holds : (aggregate 1 l).Holds p (xs.sum / xs.length) := by
  refine aggregate_holds_of_bounds hl fun hk => ?_
  have e : xs.sum / xs.length * 2 ^ p = (xs.map (· * 2 ^ p)).sum / l.length := by
    rw [List.sum_map_mul_right, List.map_id', h.length_eq]; ring
  rw [fractionValue_mean, fractionValue_mean, e, List.length_map, List.length_map]
  constructor
  · have := (forall₂_lo_le h hk).sum_le_sum
    gcongr
  · have := (forall₂_le_hi h hk).sum_le_sum
    gcongr

/-- The largest. -/
theorem aggregate_max_holds {m : ℝ} (hm : m ∈ xs) (hx : ∀ x ∈ xs, x ≤ m) : (aggregate 2 l).Holds p m := by
  refine aggregate_holds_of_bounds hl fun hk => ?_
  obtain ⟨a, ea, ha, -⟩ := fractionValue_max (l := l.map Ival.lo) (by simpa using hl)
  obtain ⟨b, eb, -, hb⟩ := fractionValue_max (l := l.map Ival.hi) (by simpa using hl)
  rw [ea, eb]
  constructor
  · obtain ⟨y, hy, hay⟩ := exists_mem_right_of_forall₂ (forall₂_lo_le h hk) (List.mem_map_of_mem ha)
    obtain ⟨x, hx', rfl⟩ := List.mem_map.1 hy
    exact hay.trans (mul_le_mul_of_nonneg_right (hx x hx') (by positivity))
  · obtain ⟨y, hy, hmy⟩ := exists_mem_right_of_forall₂ (forall₂_le_hi h hk) (List.mem_map_of_mem hm)
    obtain ⟨v, hv, rfl⟩ := List.mem_map.1 hy
    exact hmy.trans (Int.cast_le.2 (hb v hv))

end

end Sys2Proof.Machine
end

section
/-! SUPPORT. What a comparison answers (44_framesync R360, 45_decoder R405): one inversion lemma, from which each case
of the rule follows. -/

namespace Sys2Proof.Machine

/-- The near-tie band of a comparison: the verdict is free where the numbers differ by no more. -/
noncomputable def tieBand (x y : ℝ) : ℝ := (|x| + |y|) / 2 ^ 30

theorem tieBand_nonneg (x y : ℝ) : 0 ≤ tieBand x y := by unfold tieBand; positivity

@[simp] theorem verdict_allows {b : Bool} {n : ℤ} : (Choices.verdict b).Allows n ↔ n = if b then 1 else 0 := by
  simp only [Choices.Allows, Choices.verdict, Choices.exactly]
  omega

@[simp] theorem either_allows {n : ℤ} : Choices.either.Allows n ↔ n = 0 ∨ n = 1 := by
  simp only [Choices.Allows, Choices.either]
  omega

@[simp] theorem Ival.abs_known (a : Ival) : a.abs.known = a.known := by
  unfold Ival.abs
  split_ifs <;> rfl

theorem Ival.eq_zero_of_holds_zero {p : ℕ} {x : ℝ} (h : Ival.zero.Holds p x) : x = 0 := by
  obtain ⟨h1, h2⟩ := h rfl
  have e : x * 2 ^ p = 0 := le_antisymm (by simpa [Ival.zero] using h2) (by simpa [Ival.zero] using h1)
  simpa using e

section
variable {p : ℕ} {x y : ℝ} {a b : Ival} (ha : a.Holds p x) (hb : b.Holds p y)

include ha hb

/-- The outer bound of the band, as `greaterAt` computes it. -/
theorem tieBand_le_ceilDiv (ka : a.known = true) (kb : b.known = true) :
    tieBand x y * 2 ^ p ≤ ceilDivInt (a.abs.hi + b.abs.hi) (2 ^ 30) := by
  have hx := (Ival.abs_holds ha (by simpa using ka)).2
  have hy := (Ival.abs_holds hb (by simpa using kb)).2
  calc tieBand x y * 2 ^ p = (|x| * 2 ^ p + |y| * 2 ^ p) / 2 ^ 30 := by unfold tieBand; ring
    _ ≤ (a.abs.hi + b.abs.hi : ℝ) / 2 ^ 30 := by gcongr
    _ ≤ _ := by exact_mod_cast (ceilDivInt_bounds (a.abs.hi + b.abs.hi) (d := 2 ^ 30) (by norm_num)).1

/-- The inner bound of the band. -/
theorem ediv_le_tieBand (ka : a.known = true) (kb : b.known = true) :
    (((a.abs.lo + b.abs.lo) / 2 ^ 30 : ℤ) : ℝ) ≤ tieBand x y * 2 ^ p := by
  have hx := (Ival.abs_holds ha (by simpa using ka)).1
  have hy := (Ival.abs_holds hb (by simpa using kb)).1
  calc (((a.abs.lo + b.abs.lo) / 2 ^ 30 : ℤ) : ℝ) ≤ (a.abs.lo + b.abs.lo : ℝ) / 2 ^ 30 := by
        exact_mod_cast sub_nonneg.1 (ediv_sub_bounds (a.abs.lo + b.abs.lo) (d := 2 ^ 30) (by norm_num)).1
    _ ≤ (|x| * 2 ^ p + |y| * 2 ^ p) / 2 ^ 30 := by gcongr
    _ = tieBand x y * 2 ^ p := by unfold tieBand; ring

/-- What a comparison answers: two exact zeros are equal, a verdict is right and outside the band, and where the verdict
is free and settled the numbers lie inside the band. -/
theorem greaterAt_cases :
    (x = 0 ∧ y = 0) ∧ (greaterAt a b).choices = .verdict false ∨
    tieBand x y < x - y ∧ (greaterAt a b).choices = .verdict true ∨
    tieBand x y < y - x ∧ (greaterAt a b).choices = .verdict false ∨
    ((greaterAt a b).settled = true → |x - y| ≤ tieBand x y) ∧ (greaterAt a b).choices = .either := by
  have hP : (0 : ℝ) < 2 ^ p := by positivity
  unfold greaterAt
  split_ifs with hz hk hl hr
  · obtain ⟨rfl, rfl⟩ := hz
    exact .inl ⟨⟨Ival.eq_zero_of_holds_zero ha, Ival.eq_zero_of_holds_zero hb⟩, rfl⟩
  · exact .inr (.inr (.inr ⟨nofun, rfl⟩))
  all_goals
    obtain ⟨ka, kb⟩ : a.known = true ∧ b.known = true := by simpa using hk
    obtain ⟨a1, a2⟩ := ha ka
    obtain ⟨b1, b2⟩ := hb kb
    have outer := tieBand_le_ceilDiv ha hb ka kb
    have inner := ediv_le_tieBand ha hb ka kb
  · have hl' : (ceilDivInt (a.abs.hi + b.abs.hi) (2 ^ 30) : ℝ) < a.lo - b.hi := by exact_mod_cast hl
    exact .inr (.inl ⟨lt_of_mul_lt_mul_right (by linarith) hP.le, rfl⟩)
  · have hr' : (ceilDivInt (a.abs.hi + b.abs.hi) (2 ^ 30) : ℝ) < b.lo - a.hi := by exact_mod_cast hr
    exact .inr (.inr (.inl ⟨lt_of_mul_lt_mul_right (by linarith) hP.le, rfl⟩))
  · refine .inr (.inr (.inr ⟨fun hs => ?_, rfl⟩))
    obtain ⟨h1, h2⟩ := max_le_iff.1 (of_decide_eq_true hs)
    have h1' : (a.hi - b.lo : ℝ) ≤ ((a.abs.lo + b.abs.lo) / 2 ^ 30 : ℤ) := by exact_mod_cast h1
    have h2' : (b.hi - a.lo : ℝ) ≤ ((a.abs.lo + b.abs.lo) / 2 ^ 30 : ℤ) := by exact_mod_cast h2
    exact abs_le.2 ⟨le_of_mul_le_mul_right (by linarith) hP, le_of_mul_le_mul_right (by linarith) hP⟩

/-- Left above right, outside the band: 1 is allowed. -/
theorem greaterAt_allows_one (h : tieBand x y < x - y) : (greaterAt a b).choices.Allows 1 := by
  have h0 := tieBand_nonneg x y
  rcases greaterAt_cases ha hb with ⟨⟨rfl, rfl⟩, e⟩ | ⟨-, e⟩ | ⟨h', e⟩ | ⟨-, e⟩
  · linarith
  · simp [e]
  · linarith
  · simp [e]

/-- Right above left, outside the band: 0 is allowed. -/
theorem greaterAt_allows_zero (h : tieBand x y < y - x) : (greaterAt a b).choices.Allows 0 := by
  have h0 := tieBand_nonneg x y
  rcases greaterAt_cases ha hb with ⟨-, e⟩ | ⟨h', e⟩ | ⟨-, e⟩ | ⟨-, e⟩
  · simp [e]
  · linarith
  · simp [e]
  · simp [e]

/-- Inside the band both verdicts are allowed, but for two zeros. -/
theorem greaterAt_allows_both (h : |x - y| ≤ tieBand x y) (hne : x ≠ 0 ∨ y ≠ 0) :
    (greaterAt a b).choices.Allows 0 ∧ (greaterAt a b).choices.Allows 1 := by
  obtain ⟨h1, h2⟩ := abs_le.1 h
  rcases greaterAt_cases ha hb with ⟨⟨hx, hy⟩, -⟩ | ⟨h', -⟩ | ⟨h', -⟩ | ⟨-, e⟩
  · exact absurd hne (by simp [hx, hy])
  · linarith
  · linarith
  · simp [e]

/-- A settled comparison outside the band has the one right verdict. -/
theorem greaterAt_settled_exact (hs : (greaterAt a b).settled = true) (h : tieBand x y < |x - y|) {n : ℤ}
    (hn : (greaterAt a b).choices.Allows n) : n = if y < x then 1 else 0 := by
  have h0 := tieBand_nonneg x y
  rcases greaterAt_cases ha hb with ⟨⟨rfl, rfl⟩, e⟩ | ⟨h', e⟩ | ⟨h', e⟩ | ⟨h', -⟩
  · simpa [e] using hn
  · have : y < x := by linarith
    simpa [e, this] using hn
  · have : ¬ y < x := by linarith
    simpa [e, this] using hn
  · exact absurd (h' hs) (not_le.2 h)

end

end Sys2Proof.Machine
end

section
/-! SUPPORT. What the truncation of a sample may be (43_synth R316, R325). The outcomes reach from `pcmLow` of the lower
bound to the same bound of the negated number, so each fact is proved of the lower end and used on both. -/

namespace Sys2Proof.Machine

/-- The least outcome that a number `v / 2^p` leaves open: the `low` of `pcmAt`. -/
def pcmLow (p : ℕ) (v : ℤ) : ℤ := clampPcm (truncLow p (v * 32760 - pcmBand p))

/-- The upper end of the outcomes is the lower end of the negated number, negated. -/
theorem clampPcm_truncHigh (p : ℕ) (v : ℤ) :
    clampPcm (truncHigh p (v * 32760 + pcmBand p)) = -pcmLow p (-v) := by
  have e : -v * 32760 - pcmBand p = -(v * 32760 + pcmBand p) := by ring
  unfold pcmLow
  rw [e]
  generalize v * 32760 + pcmBand p = a
  have h : truncHigh p a = -truncLow p (-a) := by
    simp only [truncHigh, truncLow, ceilDivInt, neg_neg, Int.neg_nonpos_iff]
    split_ifs <;> ring
  rw [h]
  unfold clampPcm
  omega

theorem pcmAt_of_known {p : ℕ} {z : Ival} (hk : z.known = true) : pcmAt p z =
    ⟨.between (pcmLow p z.lo) (-pcmLow p z.neg.lo),
      pcmLow p z.lo == pcmLow p z.hi && -pcmLow p z.neg.hi == -pcmLow p z.neg.lo⟩ := by
  simp only [pcmAt, hk, Bool.true_eq_false, if_false, clampPcm_truncHigh]
  rfl

theorem pcmAt_of_unknown {p : ℕ} {z : Ival} (hk : z.known = false) :
    pcmAt p z = ⟨.between (-32760) 32760, false⟩ := if_pos hk

theorem between_allows {a b n : ℤ} : (Choices.between a b).Allows n ↔ a ≤ n ∧ (n ≤ b ∨ n = a) := by
  simp only [Choices.Allows, Choices.between]
  omega

theorem le_ceilDivInt_iff {a n : ℤ} {d : ℕ} (hd : 0 < d) : n ≤ ceilDivInt a d ↔ (n - 1) * d < a := by
  have h := Int.ediv_lt_iff_lt_mul (a := -a) (b := 1 - n) (c := d) (by omega)
  have e : (n - 1) * d = -((1 - n) * d) := by ring
  unfold ceilDivInt
  omega

/-- The least truncation left open is at least `n` exactly for the numbers above `n`, or above `n - 1` where the
truncation goes up. -/
theorem le_truncLow_iff {p : ℕ} {a n : ℤ} :
    n ≤ truncLow p a ↔ (if 0 < n then n else n - 1) * (fixOne p : ℕ) < a := by
  have hP : 0 < fixOne p := by unfold fixOne; positivity
  have hP' : (0 : ℤ) < fixOne p := by exact_mod_cast hP
  have up := le_ceilDivInt_iff (a := a) (n := n) hP
  have down := le_ceilDivInt_iff (a := a) (n := n + 1) hP
  rw [add_sub_cancel_right] at down
  unfold truncLow
  split_ifs with ha hn hn
  · have h1 : 0 < n * fixOne p := mul_pos hn hP'
    have h2 : 0 ≤ (n - 1) * fixOne p := mul_nonneg (by omega) hP'.le
    omega
  · exact up
  · omega
  · have h1 : n * fixOne p ≤ 0 := mul_nonpos_of_nonpos_of_nonneg (by omega) hP'.le
    have h2 : (n - 1) * fixOne p ≤ 0 := mul_nonpos_of_nonpos_of_nonneg (by omega) hP'.le
    omega

/-- The same of a sample's number, over the reals. -/
theorem le_truncLow_pcm_iff {p : ℕ} (hp : 20 ≤ p) {v n : ℤ} :
    n ≤ truncLow p (v * 32760 - pcmBand p) ↔
      (if 0 < n then (n : ℝ) else n - 1) * 2 ^ p < v * 32760 - 1 / 2 ^ 20 * 2 ^ p := by
  have hb : ((pcmBand p : ℤ) : ℝ) = 1 / 2 ^ 20 * 2 ^ p := by
    obtain ⟨k, rfl⟩ := Nat.exists_eq_add_of_le hp
    simp [pcmBand, pow_add]
  rw [le_truncLow_iff, ← hb, ← Int.cast_lt (R := ℝ)]
  simp [fixOne, apply_ite (Int.cast : ℤ → ℝ)]

/-- Truncation toward 0. -/
noncomputable def truncReal (x : ℝ) : ℤ := if 0 ≤ x then ⌊x⌋ else ⌈x⌉

theorem truncReal_neg (x : ℝ) : truncReal (-x) = -truncReal x := by
  unfold truncReal
  rcases lt_trichotomy x 0 with h | rfl | h
  · simp [h.le, not_le.2 h, Int.floor_neg]
  · simp
  · simp [h.le, not_le.2 h, Int.ceil_neg]

section
variable {p : ℕ} {x : ℝ} {v m : ℤ} (hp : 20 ≤ p)

include hp

/-- A number at least `v / 2^p` and, less the band, at most what truncates to `m`. -/
theorem pcmLow_le (hv : v ≤ x * 2 ^ p) (hm : -32760 ≤ m)
    (h : x * 32760 - 1 / 2 ^ 20 ≤ if 0 ≤ m then (m : ℝ) + 1 else m) : pcmLow p v ≤ m := by
  have hP : (0 : ℝ) < 2 ^ p := by positivity
  have ht : truncLow p (v * 32760 - pcmBand p) ≤ m := by
    rw [← Int.lt_add_one_iff, ← not_le, le_truncLow_pcm_iff hp, not_lt]
    have e : (if 0 < m + 1 then ((m + 1 : ℤ) : ℝ) else (m + 1 : ℤ) - 1) = if 0 ≤ m then (m : ℝ) + 1 else m := by
      simp
    rw [e]
    calc (v : ℝ) * 32760 - 1 / 2 ^ 20 * 2 ^ p ≤ (x * 32760 - 1 / 2 ^ 20) * 2 ^ p := by linarith
      _ ≤ _ := by gcongr
  unfold pcmLow clampPcm
  omega

/-- A number at most `v / 2^p` and, less the band, above all that truncates below `m`. -/
theorem le_pcmLow (hv : x * 2 ^ p ≤ v) (hm : m ≤ 32760)
    (h : (if 0 < m then (m : ℝ) else m - 1) < x * 32760 - 1 / 2 ^ 20) : m ≤ pcmLow p v := by
  have hP : (0 : ℝ) < 2 ^ p := by positivity
  have ht : m ≤ truncLow p (v * 32760 - pcmBand p) := (le_truncLow_pcm_iff hp).2 <|
    calc _ < (x * 32760 - 1 / 2 ^ 20) * 2 ^ p := by gcongr
      _ ≤ _ := by linarith
  unfold pcmLow clampPcm
  omega

end

/-- A number in the range of a sample is truncated into it. -/
theorem truncReal_range {y : ℝ} (hy : |y| ≤ 32760) : -32760 ≤ truncReal y ∧ truncReal y ≤ 32760 := by
  obtain ⟨h1, h2⟩ := abs_le.1 hy
  unfold truncReal
  split_ifs
  · exact ⟨Int.le_floor.2 (by push_cast; linarith), by exact_mod_cast (Int.floor_le y).trans h2⟩
  · exact ⟨by exact_mod_cast h1.trans (Int.le_ceil y), Int.ceil_le.2 (by push_cast; linarith)⟩

/-- An integer within the band of a sample's range lies in it. -/
theorem range_of_near {y : ℝ} (hy : |y| ≤ 32760) {m : ℤ} (h : |y - m| ≤ 1 / 2 ^ 20) : -32760 ≤ m ∧ m ≤ 32760 := by
  obtain ⟨h1, h2⟩ := abs_le.1 h
  obtain ⟨y1, y2⟩ := abs_le.1 hy
  have lo : -32761 < m := by exact_mod_cast (by linarith : (-32761 : ℝ) < m)
  have hi : m < 32761 := by exact_mod_cast (by linarith : (m : ℝ) < 32761)
  omega

section
variable {p : ℕ} {x : ℝ} {v : ℤ} (hp : 20 ≤ p) (hx : |x * 32760| ≤ 32760)

include hp hx

/-- The exact truncation is left open. -/
theorem pcmLow_le_truncReal (hv : v ≤ x * 2 ^ p) : pcmLow p v ≤ truncReal (x * 32760) := by
  refine pcmLow_le hp hv (truncReal_range hx).1 ?_
  unfold truncReal
  by_cases h0 : 0 ≤ x * 32760
  · rw [if_pos h0, if_pos (Int.floor_nonneg.2 h0)]
    linarith [Int.lt_floor_add_one (x * 32760)]
  · rw [if_neg h0]
    split_ifs <;> linarith [Int.le_ceil (x * 32760)]

/-- Within the band of an integer other than 0, that integer and its neighbour toward 0 are left open. -/
theorem pcmLow_le_of_near (hv : v ≤ x * 2 ^ p) {m : ℤ} (hm : m ≠ 0) (h : |x * 32760 - m| ≤ 1 / 2 ^ 20) :
    pcmLow p v ≤ m ∧ pcmLow p v ≤ m - m.sign := by
  have hlo := (range_of_near hx h).1
  have h1 := (abs_le.1 h).2
  rcases lt_or_gt_of_ne hm with hneg | hpos
  · rw [Int.sign_eq_neg_one_of_neg hneg, sub_neg_eq_add]
    refine ⟨pcmLow_le hp hv hlo ?_, pcmLow_le hp hv (by omega) ?_⟩
    · rw [if_neg (by omega)]; linarith
    · push_cast; split_ifs <;> linarith
  · rw [Int.sign_eq_one_of_pos hpos]
    refine ⟨pcmLow_le hp hv hlo ?_, pcmLow_le hp hv (by omega) ?_⟩
    · rw [if_pos hpos.le]; linarith
    · rw [if_pos (by omega)]; push_cast; linarith

/-- Away from the bands nothing less than the truncation is left open. -/
theorem truncReal_le_pcmLow (hv : x * 2 ^ p ≤ v) (h : ∀ m : ℤ, 1 / 2 ^ 20 < |x * 32760 - m|) :
    truncReal (x * 32760) ≤ pcmLow p v := by
  refine le_pcmLow hp hv (truncReal_range hx).2 ?_
  unfold truncReal
  by_cases h0 : 0 ≤ x * 32760
  · have hf := h ⌊x * 32760⌋
    rw [abs_of_nonneg (sub_nonneg.2 (Int.floor_le _))] at hf
    rw [if_pos h0]
    split_ifs <;> linarith
  · have hc := Int.ceil_lt_add_one (x * 32760)
    have hf := h (⌈x * 32760⌉ - 1)
    push_cast at hf
    rw [abs_of_nonneg (by linarith)] at hf
    have hn : ¬ 0 < ⌈x * 32760⌉ := fun hpos => h0 (Int.ceil_pos.1 hpos).le
    rw [if_neg h0, if_neg hn]
    linarith

end

/-- An outcome in range is allowed where both ends leave it open. -/
theorem pcmAt_allows {p : ℕ} {z : Ival} {n : ℤ} (hn : -32760 ≤ n ∧ n ≤ 32760)
    (h : z.known = true → pcmLow p z.lo ≤ n ∧ pcmLow p z.neg.lo ≤ -n) : (pcmAt p z).choices.Allows n := by
  cases hk : z.known with
  | true =>
    rw [pcmAt_of_known hk]
    exact between_allows.2 ⟨(h hk).1, .inl (le_neg.1 (h hk).2)⟩
  | false =>
    rw [pcmAt_of_unknown hk]
    exact between_allows.2 ⟨hn.1, .inl hn.2⟩

section
variable {p : ℕ} {x : ℝ} {z : Ival} (hp : 20 ≤ p) (hz : z.Holds p x) (hx : |x * 32760| ≤ 32760)

include hp hz hx

/-- The exact truncation of a sample is allowed. -/
theorem pcmAt_allows_truncReal : (pcmAt p z).choices.Allows (truncReal (x * 32760)) := by
  refine pcmAt_allows (truncReal_range hx) fun hk => ⟨pcmLow_le_truncReal hp hx (hz hk).1, ?_⟩
  rw [← truncReal_neg, ← neg_mul]
  exact pcmLow_le_truncReal hp (by rwa [neg_mul, abs_neg]) (Ival.neg_holds hz hk).1

/-- Within the band of an integer other than 0, that integer and its neighbour toward 0 are allowed. -/
theorem pcmAt_allows_of_near {m : ℤ} (hm : m ≠ 0) (h : |x * 32760 - m| ≤ 1 / 2 ^ 20) :
    (pcmAt p z).choices.Allows m ∧ (pcmAt p z).choices.Allows (m - m.sign) := by
  have hx' : |-x * 32760| ≤ 32760 := by rwa [neg_mul, abs_neg]
  have h' : |-x * 32760 - (-m : ℤ)| ≤ 1 / 2 ^ 20 := by
    rwa [Int.cast_neg, neg_mul, sub_neg_eq_add, neg_add_eq_sub, abs_sub_comm]
  have hr := range_of_near hx h
  have hs : -32760 ≤ m - m.sign ∧ m - m.sign ≤ 32760 := by
    rcases lt_or_gt_of_ne hm with hneg | hpos
    · rw [Int.sign_eq_neg_one_of_neg hneg]; omega
    · rw [Int.sign_eq_one_of_pos hpos]; omega
  have lo := fun hk => pcmLow_le_of_near hp hx (hz hk).1 hm h
  have hi := fun hk => pcmLow_le_of_near hp hx' (Ival.neg_holds hz hk).1 (neg_ne_zero.2 hm) h'
  rw [Int.sign_neg, ← neg_sub'] at hi
  exact ⟨pcmAt_allows hr fun hk => ⟨(lo hk).1, (hi hk).1⟩, pcmAt_allows hs fun hk => ⟨(lo hk).2, (hi hk).2⟩⟩

/-- A settled truncation away from the bands has the one right outcome. -/
theorem pcmAt_settled_exact (hs : (pcmAt p z).settled = true) (h : ∀ m : ℤ, 1 / 2 ^ 20 < |x * 32760 - m|) {n : ℤ}
    (hn : (pcmAt p z).choices.Allows n) : n = truncReal (x * 32760) := by
  cases hk : z.known with
  | false => simp [pcmAt_of_unknown hk] at hs
  | true =>
    have h' : ∀ m : ℤ, 1 / 2 ^ 20 < |-x * 32760 - m| := fun m => by
      rw [← abs_neg, neg_sub, neg_mul, sub_neg_eq_add, add_comm]
      simpa using h (-m)
    have lo := pcmLow_le_truncReal hp hx (hz hk).1
    have hi := truncReal_le_pcmLow hp hx (hz hk).2 h
    have hi' := truncReal_le_pcmLow hp (by rwa [neg_mul, abs_neg]) (Ival.neg_holds hz hk).2 h'
    rw [neg_mul, truncReal_neg] at hi'
    rw [pcmAt_of_known hk] at hs hn
    simp only [Bool.and_eq_true, beq_iff_eq] at hs
    obtain ⟨e1, e2⟩ := hs
    obtain ⟨n1, n2⟩ := between_allows.1 hn
    omega

end

end Sys2Proof.Machine
end

section
/-! The obligations of the scope family (00_scope). -/

open Sys2Proof Sys2Proof.Machine

/-- Settles O7, invariant by invariant. -/
theorem invariantsAtReset : Obligations.InvariantsAtReset :=
  ⟨by decide, rfl, fun hw h => ⟨resetWith_memoryWf hw, resetWith_agentInv hw, resetWith_configInv hw h,
    resetWith_ringInv hw, resetWith_playbackInv hw⟩⟩

/-- Settles O60, operation by operation; the two examples are evaluated. -/
theorem enclosuresHold : Obligations.EnclosuresHold := by
  refine ⟨isqrt_spec, ?reals, ?complexes, ?aggregates, ?verdicts, ?readings, fun p w x a => factorTimes_holds,
    fun p fs n fl fh w hp hn hl hh => bandEnergy_holds hp hn hl hh w,
    fun p c x f b hp hwd hlo hhi hf hb => spectrogram_holds hp hwd hlo hhi x hf hb, by decide +kernel, by decide +kernel,
    ?samples⟩
  case reals =>
    exact fun p x y a b ha hb => ⟨Ival.add_holds ha hb, Ival.sub_holds ha hb, Ival.abs_holds ha, Ival.larger_holds ha hb,
      Ival.div_holds ha hb, fun n d => Ival.scale_holds ha n⟩
  case complexes =>
    exact fun p z w a b ha hb => ⟨Disc.add_holds ha hb, Disc.sub_holds ha hb, Disc.mul_holds ha hb, Disc.div_holds ha hb,
      Disc.abs_holds ha, fun d => Disc.divNat_holds ha⟩
  case aggregates =>
    intro p mode xs l hne h
    have hl : l ≠ [] := by rintro rfl; exact hne (List.forall₂_nil_right_iff.1 h)
    refine ⟨?_, ?_, ?_⟩
    · rintro rfl ys hp hs
      rw [← hp.length_eq]
      exact aggregate_median_holds hl h hp hs
    · rintro rfl
      exact aggregate_mean_holds hl h
    · rintro rfl m hm hx
      exact aggregate_max_holds hl h hm hx
  case verdicts =>
    intro x y l r hl hr
    obtain ⟨q, -, e⟩ : ∃ q, firstPrec ≤ q ∧ greaterThan l r = (greaterAt (l q) (r q)).choices := settleOne_eq _
    rw [e]
    exact ⟨greaterAt_allows_one (hl q) (hr q), greaterAt_allows_zero (hl q) (hr q),
      greaterAt_allows_both (hl q) (hr q),
      fun p hs h n => greaterAt_settled_exact (hl p) (hr p) hs h⟩
  case readings =>
    exact fun p x y a b ha hb => ⟨greaterAt_allows_one ha hb, greaterAt_allows_zero ha hb, greaterAt_allows_both ha hb⟩
  case samples =>
    intro p x z hp hz hx
    have hx' : |x * 32760| ≤ 32760 := by rw [abs_mul, abs_of_pos (by norm_num : (0 : ℝ) < 32760)]; linarith
    have ht : truncReal (x * 32760) = if 0 ≤ x then ⌊x * 32760⌋ else ⌈x * 32760⌉ := by simp [truncReal]
    rw [← ht]
    exact ⟨pcmAt_allows_truncReal hp hz hx', fun m => pcmAt_allows_of_near hp hz hx',
      fun hs h n => pcmAt_settled_exact hp hz hx' hs h⟩

end

section
/-! SUPPORT. Who writes what: for each command, for an RX step, for `play_done` and for a host write to a register the
fields it may change, and everything one move of the interleaving can do to the state. -/

namespace Sys2Proof.Machine

variable {s t : State}

/-! ## Commands -/

/-- `s` with the fields that the command's rule names (10_state R46 to R81) taken from `t`. -/
def writtenBy (s t : State) : Instr → State
  | .nop => { s with err := t.err }
  | .cfgCommit => { s with
      activeProfile := t.activeProfile, activeTuning := t.activeTuning, derived := t.derived, freq := t.freq
      cfgValid := t.cfgValid, rbValid := t.rbValid, err := t.err }
  | .byteToBits | .pack => { s with mem := t.mem, blen := t.blen, err := t.err }
  | .bitsToByte => { s with byteRes := t.byteRes, err := t.err }
  | .unpack => { s with mem := t.mem, plen := t.plen, warnMalformed := t.warnMalformed, err := t.err }
  | .split => { s with mem := t.mem, nblocks := t.nblocks, partialBlock := t.partialBlock, err := t.err }
  | .invert => { s with mem := t.mem, err := t.err }
  | .crcParity => { s with crcParity := t.crcParity, err := t.err }
  | .crcCheck => { s with crcWeight := t.crcWeight, crcOk := t.crcOk, err := t.err }
  | .rbInit => { s with mem := t.mem, rbWr := t.rbWr, rbSteps := t.rbSteps, rbValid := t.rbValid, err := t.err }
  | .rbAdd => { s with mem := t.mem, rbWr := t.rbWr, rbSteps := t.rbSteps, err := t.err }
  | .rbSnapshot | .rbFirst | .rbLast => { s with mem := t.mem, wlen := t.wlen, err := t.err }
  | .synBlock | .buildSignal => { s with mem := t.mem, pcmlen := t.pcmlen, env := t.env, err := t.err }
  | .syncTest => { s with
      sumUpFirst := t.sumUpFirst, sumDownFirst := t.sumDownFirst, sumUpLast := t.sumUpLast
      sumDownLast := t.sumDownLast, syncStart := t.syncStart, syncEnd := t.syncEnd, env := t.env, err := t.err }
  | .decode => { s with
      mem := t.mem, blen := t.blen, crcWeight := t.crcWeight, crcOk := t.crcOk, env := t.env, err := t.err }
  | .rxStart => { s with
      mem := t.mem, rbWr := t.rbWr, rbSteps := t.rbSteps, rbValid := t.rbValid, stopReq := t.stopReq
      cancelReq := t.cancelReq, rxState := t.rxState, captureOpen := t.captureOpen, evq := t.evq, env := t.env
      err := t.err }
  | .rxStop => { s with stopReq := t.stopReq, err := t.err }
  | .rxCancel => { s with cancelReq := t.cancelReq, rxState := t.rxState, err := t.err }
  | .txSend => { s with
      mem := t.mem, pcmlen := t.pcmlen, handoff := t.handoff, txState := t.txState, env := t.env, err := t.err }
  | .evqPop => { s with evq := t.evq, err := t.err }

/-- A command changes the fields its rule names and nothing else. -/
theorem exec_frame {i : Instr} (h : exec i s = .next t) : t = writtenBy s t i := by
  cases i with
  | nop => rw [execNop_next h]; rfl
  | cfgCommit => obtain ⟨c, -, ht⟩ | ⟨-, -, -, ht⟩ := execCfgCommit_next h <;> rw [ht] <;> rfl
  | byteToBits => rw [execByteToBits_next h]; rfl
  | bitsToByte => obtain ⟨c, -, ht⟩ | ⟨-, -, b, -, ht⟩ := execBitsToByte_next h <;> rw [ht] <;> rfl
  | pack => obtain ⟨c, -, ht⟩ | ⟨-, -, p, -, ht⟩ := execPack_next h <;> rw [ht] <;> rfl
  | unpack => obtain ⟨c, -, ht⟩ | ⟨-, b, -, ht⟩ := execUnpack_next h <;> rw [ht] <;> rfl
  | split => obtain ⟨c, -, ht⟩ | ⟨-, -, -, -, ht⟩ := execSplit_next h <;> rw [ht] <;> rfl
  | invert => obtain ⟨c, -, ht⟩ | ⟨-, -, -, b, -, ht⟩ := execInvert_next h <;> rw [ht] <;> rfl
  | crcParity => obtain ⟨c, -, ht⟩ | ⟨-, b, -, ht⟩ := execCrcParity_next h <;> rw [ht] <;> rfl
  | crcCheck => obtain ⟨c, -, ht⟩ | ⟨-, b, -, ht⟩ := execCrcCheck_next h <;> rw [ht] <;> rfl
  | rbInit => obtain ⟨c, -, ht⟩ | ⟨-, -, ht⟩ := execRbInit_next h <;> rw [ht] <;> rfl
  | rbAdd => obtain ⟨c, -, ht⟩ | ⟨-, -, -, x, -, ht⟩ := execRbAdd_next h <;> rw [ht] <;> rfl
  | rbSnapshot => obtain ⟨c, -, ht⟩ | ⟨-, -, o, -, ht⟩ := execRbSnapshot_next h <;> rw [ht] <;> rfl
  | rbFirst => obtain ⟨c, -, ht⟩ | ⟨-, -, -, o, -, ht⟩ := execRbFirst_next h <;> rw [ht] <;> rfl
  | rbLast => obtain ⟨c, -, ht⟩ | ⟨-, -, -, o, -, ht⟩ := execRbLast_next h <;> rw [ht] <;> rfl
  | synBlock => obtain ⟨c, -, ht⟩ | ⟨-, -, -, -, b, -, ht⟩ := execSynBlock_next h <;> rw [ht] <;> rfl
  | buildSignal => obtain ⟨c, -, ht⟩ | ⟨-, -, -, -, b, -, ht⟩ := execBuildSignal_next h <;> rw [ht] <;> rfl
  | syncTest => obtain ⟨c, -, ht⟩ | ⟨-, -, -, o, -, ht⟩ := execSyncTest_next h <;> rw [ht] <;> simp only [writtenBy]
  | decode => obtain ⟨c, -, ht⟩ | ⟨-, -, -, o, -, ht⟩ := execDecode_next h <;> rw [ht] <;> rfl
  | rxStart =>
    obtain ⟨c, -, ht⟩ | ⟨-, -, -, -, ⟨-, ht⟩ | ⟨-, ht⟩⟩ := execRxStart_next h <;> rw [ht] <;>
      simp only [writtenBy, ringClear]
  | rxStop => obtain ⟨c, -, ht⟩ | ⟨-, ht⟩ | ⟨-, ht⟩ := execRxStop_next h <;> rw [ht] <;> rfl
  | rxCancel => obtain ⟨c, -, ht⟩ | ⟨-, ht⟩ | ⟨-, ht⟩ := execRxCancel_next h <;> rw [ht] <;> rfl
  | txSend => obtain ⟨c, -, ht⟩ | ⟨-, -, -, p, -, ht⟩ := execTxSend_next h <;> rw [ht] <;> rfl
  | evqPop => obtain ⟨c, -, ht⟩ | ⟨e, rest, -, ht⟩ := execEvqPop_next h <;> rw [ht] <;> rfl

/-! ## The agents -/

/-- The decode of a hit writes the message registers, memory, the queue and the environment. -/
theorem decodeAndEmit_frame (x : List Word) (s : State) :
    (decodeAndEmit x s).2 = { s with
      mem := (decodeAndEmit x s).2.mem, rxBlen := (decodeAndEmit x s).2.rxBlen
      rxWeight := (decodeAndEmit x s).2.rxWeight, evq := (decodeAndEmit x s).2.evq
      env := (decodeAndEmit x s).2.env } := by
  simp only [decodeAndEmit]
  split_ifs <;> rfl

/-- `s` with the fields that an RX step names (46_orchestrator R462 to R466) taken from `t`. -/
def State.rxWritten (s t : State) : State :=
  { s with
    rbWr := t.rbWr, rbSteps := t.rbSteps, rbValid := t.rbValid, stopReq := t.stopReq, cancelReq := t.cancelReq
    rxState := t.rxState, captureOpen := t.captureOpen, rxBlen := t.rxBlen, rxWeight := t.rxWeight, evq := t.evq
    mem := t.mem, env := t.env }

/-- What follows a hit writes no more than an RX step does. -/
theorem afterHit_frame (x : List Word) (s : State) :
    afterHit (decodeAndEmit x s) = s.rxWritten (afterHit (decodeAndEmit x s)) := by
  unfold afterHit
  split_ifs <;> rw [decodeAndEmit_frame] <;> rfl

/-- An RX step changes the fields its rule names and nothing else. -/
theorem rxStep_frame (h : rxStep s = .next t) : t = s.rxWritten t := by
  obtain ⟨-, ⟨-, ht⟩ | ⟨-, -, ht⟩ | ⟨-, -, -, ht⟩ | ⟨-, -, -, ha⟩⟩ := rxStep_next h
  · rw [ht]; rfl
  · rw [ht]; rfl
  · rw [ht]; rfl
  · obtain ⟨-, ht⟩ | ⟨-, o, -, ⟨-, ht⟩ | ⟨-, -, ht⟩⟩ := analyse_next ha
    · rw [ht]; simp only [State.rxWritten, ringAdd]
    · rw [ht]; simp only [State.rxWritten, ringAdd]
    · rw [ht, afterHit_frame]; simp only [State.rxWritten, ringAdd]

/-- `play_done` changes TX's state and the hand-off. -/
theorem playDone_frame (h : playDone s = .next t) : t = { s with txState := t.txState, handoff := t.handoff } := by
  rw [(playDone_next h).2]

/-! ## The host -/

/-- A write to a register other than CMD changes host-written fields only (20_memory R129). -/
theorem writeRegister_frame (s : State) (o : Nat) (v : Word) :
    s.writeRegister o v = { s with
      ctrlContinuous := (s.writeRegister o v).ctrlContinuous
      ctrlSpectrumEn := (s.writeRegister o v).ctrlSpectrumEn, ctrlIrqEn := (s.writeRegister o v).ctrlIrqEn
      arg0 := (s.writeRegister o v).arg0, arg1 := (s.writeRegister o v).arg1, plen := (s.writeRegister o v).plen
      blen := (s.writeRegister o v).blen, profile := (s.writeRegister o v).profile
      tuning := (s.writeRegister o v).tuning } := by
  unfold State.writeRegister
  split <;> rfl

/-- A register write to another offset leaves ARG0 alone. -/
theorem writeRegister_arg0 (s : State) {o : Nat} (h : o ≠ 0x010) (v : Word) : (s.writeRegister o v).arg0 = s.arg0 := by
  unfold State.writeRegister
  split
  case h_2 => exact absurd rfl h
  all_goals rfl

/-- A register write to another offset leaves ARG1 alone. -/
theorem writeRegister_arg1 (s : State) {o : Nat} (h : o ≠ 0x014) (v : Word) : (s.writeRegister o v).arg1 = s.arg1 := by
  unfold State.writeRegister
  split
  case h_3 => exact absurd rfl h
  all_goals rfl

/-! ## One move of the interleaving -/

/-- The address of CMD. -/
theorem toNat_eq_cmdOffset {a : Word} : a.toNat = cmdOffset ↔ a = 0x0000000C#32 :=
  ⟨fun h => BitVec.eq_of_toNat_eq h, fun h => h ▸ rfl⟩

/-- A mapped access is a 32-bit one. -/
theorem width_of_regionOf {w : Nat} {a : Word} {r : Region} (h : regionOf s w a = some r) : w = 32 := by
  unfold regionOf at h
  split_ifs at h with hw
  exact hw.1

/-- What a move can do: run a command, store a word where the host may write, take an agent's step, reset the core, or
change no more than the word the host reads and the draws. -/
inductive MoveEffect : Move → State → State → Prop
  | command {s t : State} {w : Word} {i : Instr} (hi : decodeWord w = .ok i) (h : exec i s = .next t) :
    MoveEffect (.write 32 0x0000000C#32 w) s t
  | illegal {s : State} {w : Word} : MoveEffect (.write 32 0x0000000C#32 w) s { s with err := .illegalCommand }
  | register {s : State} {a v : Word} (ha : a.toNat ≠ cmdOffset) :
    MoveEffect (.write 32 a v) s (s.writeRegister a.toNat v)
  | element {s : State} {a v w : Word} {r : Region} (hr : regionOf s 32 a = some r)
    (hw : r ∈ [Region.pbuf, .bbuf, .inbuf]) :
    MoveEffect (.write 32 a v) s { s with mem := Memory.writeWords s.mem a.toNat [w] }
  | rx {s t : State} (h : rxStep s = .next t) : MoveEffect .rx s t
  | playDone {s t : State} (h : playDone s = .next t) : MoveEffect .playDone s t
  | reset {s : State} : MoveEffect .reset s (resetInput s)
  | outside {m : Move} {s : State} (b : Option Word) (e : Env) : MoveEffect m s { s with busData := b, env := e }

/-- A host write does what its move can do. -/
theorem busWrite_effect {n : Nat} {a v : Word} (h : busWrite n a v s = .next t) : MoveEffect (.write n a v) s t := by
  obtain ⟨hr, ha, hc⟩ | ⟨hr, ha, rfl⟩ | ⟨hr, rfl⟩ | ⟨hr, rfl⟩ | ⟨hr, rfl⟩ | ⟨-, rfl⟩ := busWrite_next h
  · obtain rfl := width_of_regionOf hr
    obtain rfl := toNat_eq_cmdOffset.1 ha
    cases hd : decodeWord v with
    | ok i => exact .command hd (runCommand_ok hd s ▸ hc)
    | error e =>
      rw [runCommand_error hd, raise_eq_next] at hc
      exact hc ▸ .illegal
  · obtain rfl := width_of_regionOf hr
    exact .register ha
  · obtain rfl := width_of_regionOf hr
    exact .element hr (by simp)
  · obtain rfl := width_of_regionOf hr
    exact .element hr (by simp)
  · obtain rfl := width_of_regionOf hr
    exact .element hr (by simp)
  · exact .outside _ _

/-- Every move that answers a next state does one of these. -/
theorem runMove_effect {m : Move} (h : runMove m s = .next t) : MoveEffect m s t := by
  cases m with
  | read n a =>
    obtain ⟨r, v, -, -, rfl⟩ := busRead_next h
    exact .outside _ _
  | write n a v => exact busWrite_effect h
  | rx => exact .rx h
  | rxFault => cases h
  | playDone => exact .playDone h
  | reset => cases h; exact .reset
  | capOpen ok => cases h; exact .outside _ _
  | capRead q => cases h; exact .outside _ _
  | phase num den => cases h; exact .outside _ _
  | pick n => cases h; exact .outside _ _
  | latency v => cases h; exact .outside _ _

/-- A step with a pending move has the effect of that move. -/
theorem step_effect {m : Move} {rest : List Move} (hp : s.pending = m :: rest) (h : step s = .next t) :
    MoveEffect m { s with pending := rest } t := runMove_effect (step_cons hp ▸ h)

/-- What holds of the state with its first move taken, whatever that move does, holds after a step. -/
theorem step_induction {Q : State → Prop} (h : step s = .next t) (wait : Q s)
    (move : ∀ m rest, MoveEffect m { s with pending := rest } t → Q t) : Q t := by
  cases hp : s.pending with
  | nil =>
    rw [step_nil hp, Host.Outcome.next.injEq] at h
    exact h ▸ wait
  | cons m rest => exact move m rest (step_effect hp h)

end Sys2Proof.Machine
end

section
/-! The obligations of the state family (10_state) about who writes what. -/

open Sys2Proof Sys2Proof.Machine

/-- Settles O19: a command, an RX step and `play_done` change the fields of their frames. -/
theorem registerWriters : Obligations.RegisterWriters := by
  refine ⟨fun i s t h => ?_, fun s t h => playDone_frame h, fun s t h => rxStep_frame h⟩
  rw [exec_frame h]
  cases i <;> simp [writtenBy]

/-- Settles O17: no frame of a command or of an agent holds ARG0 or ARG1, and of the register writes one stores each. -/
theorem argsHostOnly : Obligations.ArgsHostOnly := by
  have command : ∀ (i : Instr) (s t : State), exec i s = .next t → t.arg0 = s.arg0 ∧ t.arg1 = s.arg1 := by
    intro i s t h
    rw [exec_frame h]
    cases i <;> exact ⟨rfl, rfl⟩
  refine ⟨fun s v => ⟨rfl, rfl, rfl, rfl⟩, command, fun s t m rest hp h hr => ?_, fun hw => ⟨rfl, rfl⟩⟩
  cases step_effect hp h with
  | command _ h => exact ⟨fun _ => (command _ _ _ h).1, fun _ => (command _ _ _ h).2⟩
  | illegal => exact ⟨fun _ => rfl, fun _ => rfl⟩
  | @register _ a v _ =>
    refine ⟨fun hm => writeRegister_arg0 _ (fun ha => hm v ?_) v, fun hm => writeRegister_arg1 _ (fun ha => hm v ?_) v⟩
    · rw [show a = 0x010#32 from BitVec.eq_of_toNat_eq ha]
    · rw [show a = 0x014#32 from BitVec.eq_of_toNat_eq ha]
  | element => exact ⟨fun _ => rfl, fun _ => rfl⟩
  | rx h => rw [rxStep_frame h]; exact ⟨fun _ => rfl, fun _ => rfl⟩
  | playDone h => rw [playDone_frame h]; exact ⟨fun _ => rfl, fun _ => rfl⟩
  | reset => exact absurd rfl hr
  | outside => exact ⟨fun _ => rfl, fun _ => rfl⟩

end

section
/-! SUPPORT. The flags of STATUS steer nothing (10_state R73): a command or an RX step from a state that differs in them
alone answers the same, up to the flags the command writes. -/

namespace Sys2Proof.Machine

/-- The outcome `o` with `f` applied to the next state it answers. -/
def onNext (f : State → State) : Out → Out
  | .next t => .next (f t)
  | .fault r => .fault r
  | .refused r => .refused r

@[simp] theorem onNext_next (f : State → State) (t : State) : onNext f (.next t) = .next (f t) := rfl

@[simp] theorem onNext_withRead {α : Type} (f : State → State) (b : Nat) (r : Option α) (k : α → Out) :
    onNext f (withRead b r k) = withRead b r fun x => onNext f (k x) := by cases r <;> rfl

variable (f1 f2 f3 f4 f5 : Bool)

/-- `s` with other values of the five flags (10_state R73). -/
def State.withFlags (s : State) : State :=
  { s with warnMalformed := f1, partialBlock := f2, crcOk := f3, syncStart := f4, syncEnd := f5 }

/-- `t` with the flags `f1` to `f5`, but for those that the command `i` has written on its way to `t`. -/
def flagsAfter (i : Instr) (t : State) : State :=
  { t with
    warnMalformed := if i = .unpack ∧ t.err = .ok then t.warnMalformed else f1
    partialBlock := if i = .split ∧ t.err = .ok then t.partialBlock else f2
    crcOk := if (i = .crcCheck ∨ i = .decode) ∧ t.err = .ok then t.crcOk else f3
    syncStart := if i = .syncTest ∧ t.err = .ok then t.syncStart else f4
    syncEnd := if i = .syncTest ∧ t.err = .ok then t.syncEnd else f5 }

@[simp] theorem withFlags_rxState (s : State) : (s.withFlags f1 f2 f3 f4 f5).rxState = s.rxState := rfl

@[simp] theorem withFlags_evq (s : State) : (s.withFlags f1 f2 f3 f4 f5).evq = s.evq := rfl

@[simp] theorem withFlags_syncOn (s : State) : (s.withFlags f1 f2 f3 f4 f5).syncOn = s.syncOn := rfl

theorem withFlags_env (s : State) (e : Env) :
    { s.withFlags f1 f2 f3 f4 f5 with env := e } = { s with env := e }.withFlags f1 f2 f3 f4 f5 := rfl

/-- A command answers the same whatever the flags hold, and writes its own flags the same: `onNext` passes through its
checks and its reads, and where it ends the two states agree field by field. -/
theorem exec_withFlags (i : Instr) (s : State) :
    exec i (s.withFlags f1 f2 f3 f4 f5) = onNext (flagsAfter f1 f2 f3 f4 f5 i) (exec i s) := by
  cases i with
  | nop | byteToBits => rfl
  | rxStop => simp only [exec, execRxStop, withFlags_rxState]; cases s.rxState <;> rfl
  | rxCancel => simp only [exec, execRxCancel, withFlags_rxState]; cases s.rxState <;> rfl
  | evqPop => simp only [exec, execEvqPop, withFlags_evq]; cases s.evq <;> rfl
  | syncTest =>
    simp only [exec, execSyncTest, apply_ite (onNext _), onNext_withRead, withFlags_syncOn, finish, onNext_next,
      flagsAfter, reduceCtorEq, or_self, false_and, and_self, if_true, if_false]
    rfl
  | _ =>
    simp only [exec, execCfgCommit, execBitsToByte, execPack, execUnpack, execSplit, execInvert, execCrcParity,
      execCrcCheck, execRbInit, execRbAdd, execRbSnapshot, execRbFirst, execRbLast, execSynBlock, execBuildSignal,
      execDecode, execRxStart, execTxSend, apply_ite (onNext _), onNext_withRead]
    rfl

theorem decodeAndEmit_withFlags (x : List Word) (s : State) :
    decodeAndEmit x (s.withFlags f1 f2 f3 f4 f5) =
      ((decodeAndEmit x s).1, (decodeAndEmit x s).2.withFlags f1 f2 f3 f4 f5) := by
  refine Prod.ext rfl ?_
  simp only [decodeAndEmit, apply_ite (State.withFlags f1 f2 f3 f4 f5)]
  rfl

theorem afterHit_withFlags (x : List Word) (s : State) :
    afterHit (decodeAndEmit x (s.withFlags f1 f2 f3 f4 f5)) =
      (afterHit (decodeAndEmit x s)).withFlags f1 f2 f3 f4 f5 := by
  simp only [afterHit, decodeAndEmit_withFlags, apply_ite (State.withFlags f1 f2 f3 f4 f5)]
  rfl

theorem analyse_withFlags (s : State) :
    analyse (s.withFlags f1 f2 f3 f4 f5) = onNext (State.withFlags f1 f2 f3 f4 f5) (analyse s) := by
  simp only [analyse, apply_ite (onNext _), onNext_withRead]
  refine if_congr Iff.rfl rfl (congrArg (withRead _ _) (funext fun o => ?_))
  rw [withFlags_syncOn]
  generalize s.syncOn o = r
  rw [withFlags_env, afterHit_withFlags]
  rfl

/-- An RX step does the same whatever the flags hold, and keeps all five. -/
theorem rxStep_withFlags (s : State) :
    rxStep (s.withFlags f1 f2 f3 f4 f5) = onNext (State.withFlags f1 f2 f3 f4 f5) (rxStep s) := by
  simp only [rxStep, apply_ite (onNext _), ← analyse_withFlags]
  simp only [State.withFlags]
  rfl

end Sys2Proof.Machine
end

section
/-! SUPPORT. The registers composed of fields, read bit by bit (10_state R45, R46, R54, R56, R64, R67). -/

namespace Sys2Proof.Machine

theorem irq_eq (s : State) : s.irq = (s.ctrlIrqEn && decide (0 < s.evq.length)) := by
  cases h : s.evq <;> simp [State.irq, h]

/-- The one-bit fields of STATUS. -/
theorem statusWord_bits (s : State) :
    s.statusWord.getLsbD 3 = (s.txState == .sending) ∧ s.statusWord.getLsbD 4 = s.cfgValid ∧
    s.statusWord.getLsbD 5 = s.rbValid ∧ s.statusWord.getLsbD 6 = s.stopReq ∧ s.statusWord.getLsbD 7 = s.cancelReq ∧
    s.statusWord.getLsbD 16 = s.warnMalformed ∧ s.statusWord.getLsbD 17 = s.partialBlock ∧
    s.statusWord.getLsbD 18 = s.crcOk ∧ s.statusWord.getLsbD 19 = s.syncStart ∧ s.statusWord.getLsbD 20 = s.syncEnd ∧
    s.statusWord.getLsbD 21 = (s.ctrlIrqEn && decide (0 < s.evq.length)) := by
  rw [← irq_eq]
  simp only [State.statusWord, BitVec.getLsbD_append, BitVec.getLsbD_ofBool]
  simp [State.sending]

/-- The wider fields of STATUS. -/
theorem statusWord_fields (s : State) :
    s.statusWord.extractLsb' 0 3 = s.rxState.field ∧ s.statusWord.extractLsb' 8 8 = s.err.byte ∧
    s.statusWord.extractLsb' 22 10 = 0#10 := by
  refine ⟨?_, ?_, ?_⟩
  all_goals
    refine BitVec.eq_of_getLsbD_eq fun i hi => ?_
    simp only [State.statusWord, BitVec.getLsbD_append, BitVec.getLsbD_extractLsb', BitVec.getLsbD_ofBool]
    interval_cases i <;> simp

theorem ctrlWord_fields (s : State) :
    s.ctrlWord.getLsbD 0 = s.ctrlContinuous ∧ s.ctrlWord.getLsbD 1 = s.ctrlSpectrumEn ∧
    s.ctrlWord.getLsbD 2 = s.ctrlIrqEn ∧ s.ctrlWord.extractLsb' 3 29 = 0#29 := by
  refine ⟨?_, ?_, ?_, BitVec.eq_of_getLsbD_eq fun i hi => ?_⟩
  all_goals
    simp only [State.ctrlWord, BitVec.getLsbD_extractLsb', BitVec.getLsbD_append, BitVec.getLsbD_ofBool]
    simp

theorem typeWord_bits (e : Event) : e.typeWord.getLsbD 8 = e.crcOk ∧ e.typeWord.getLsbD 9 = e.malformed := by
  simp only [Event.typeWord, BitVec.getLsbD_append, BitVec.getLsbD_ofBool]
  simp

theorem typeWord_fields (e : Event) :
    e.typeWord.extractLsb' 0 8 = e.type.byte ∧ e.typeWord.extractLsb' 10 6 = 0#6 ∧
    e.typeWord.extractLsb' 16 8 = e.reason.byte ∧ e.typeWord.extractLsb' 24 8 = 0#8 := by
  refine ⟨?_, ?_, ?_, ?_⟩
  all_goals
    refine BitVec.eq_of_getLsbD_eq fun i hi => ?_
    simp only [Event.typeWord, BitVec.getLsbD_append, BitVec.getLsbD_extractLsb', BitVec.getLsbD_ofBool]
    interval_cases i <;> simp

/-- A value in the low bits of a wider word, with zeros above it. -/
theorem setWidth_fields {n : Nat} (m : Nat) (x : BitVec n) :
    (x.setWidth (n + m)).extractLsb' 0 n = x ∧ (x.setWidth (n + m)).extractLsb' n m = 0#m := by
  constructor
  · ext i hi
    simp [show i < n + m by omega, BitVec.getLsbD_eq_getElem hi]
  · ext i hi
    simp

theorem readRegister_freq (s : State) {i : Nat} (hi : i < 256) : s.readRegister (0x400 + 4 * i) = s.freq.getD i 0 := by
  unfold State.readRegister
  split
  case h_61 =>
    rw [if_pos (by omega)]
    congr 1
    omega
  all_goals omega

end Sys2Proof.Machine
end

section
/-! SUPPORT. What single moves keep. -/

namespace Sys2Proof.Machine

variable {s t : State}

/-- A move that is neither the reset input nor a write to CMD keeps ERR and the flags (10_state R47, R73). -/
theorem step_keeps_err_flags {m : Move} {rest : List Move} (hp : s.pending = m :: rest) (h : step s = .next t)
    (hr : m ≠ .reset) (hc : ∀ w, m ≠ .write 32 0x0000000C#32 w) :
    t.err = s.err ∧ t.warnMalformed = s.warnMalformed ∧ t.partialBlock = s.partialBlock ∧ t.crcOk = s.crcOk ∧
      t.syncStart = s.syncStart ∧ t.syncEnd = s.syncEnd := by
  cases step_effect hp h with
  | command => exact absurd rfl (hc _)
  | illegal => exact absurd rfl (hc _)
  | register => rw [writeRegister_frame]; simp
  | element => simp
  | rx h => rw [rxStep_frame h]; simp [State.rxWritten]
  | playDone h => rw [playDone_frame h]; simp
  | reset => exact absurd rfl hr
  | outside => simp

theorem exec_keeps_hw {i : Instr} (h : exec i s = .next t) : t.hw = s.hw := by
  rw [exec_frame h]
  cases i <;> rfl

theorem step_keeps_hw (h : step s = .next t) : t.hw = s.hw := by
  refine step_induction (Q := fun t => t.hw = s.hw) h rfl fun m rest e => ?_
  cases e with
  | command _ h => exact (exec_keeps_hw h :)
  | illegal => rfl
  | register => rw [writeRegister_frame]
  | element => rfl
  | rx h => rw [rxStep_frame h]; rfl
  | playDone h => rw [playDone_frame h]
  | reset => rfl
  | outside => rfl

/-- What ERR held before a command is read by none (10_state R47). -/
theorem exec_err (i : Instr) (s : State) (e : ErrCode) : exec i { s with err := e } = exec i s := by
  cases i with
  | rxStart => simp only [exec, execRxStart, ringClear, raise, finish, emit]; rfl
  | syncTest =>
    have hs : State.syncOn { s with err := e } = s.syncOn := rfl
    simp only [exec, execSyncTest, finish, hs]
    rfl
  | _ => rfl

/-! ## The active configuration -/

/-- The invariant speaks of the parameters, the active configuration and what shows it. -/
theorem configInv_congr (hs : ConfigInv s) (hw : t.hw = s.hw) (hv : t.cfgValid = s.cfgValid)
    (hp : t.activeProfile = s.activeProfile) (hu : t.activeTuning = s.activeTuning) (hd : t.derived = s.derived)
    (hf : t.freq = s.freq) : ConfigInv t where
  params := hw ▸ hs.params
  valid := by rw [hv, hw, hp, hu]; exact hs.valid
  derived := by rw [hd, hv, hp, hu]; exact hs.derived
  freq := by rw [hf, hv, hp]; exact hs.freq

/-- CFG_COMMIT latches a valid configuration; no other command writes one (46_orchestrator R441). -/
theorem exec_keeps_configInv {i : Instr} (hs : ConfigInv s) (h : exec i s = .next t) : ConfigInv t := by
  cases i with
  | cfgCommit =>
    obtain ⟨c, -, rfl⟩ | ⟨-, -, hv, rfl⟩ := execCfgCommit_next h
    · exact configInv_congr hs rfl rfl rfl rfl rfl rfl
    · exact ⟨hs.params, fun _ => hv, rfl, rfl⟩
  | _ =>
    rw [exec_frame h]
    exact configInv_congr hs rfl rfl rfl rfl rfl rfl

/-- A move keeps the configuration; the reset input gives that of the reset state. -/
theorem moveEffect_keeps_configInv {m : Move} (h : MoveEffect m s t) (hs : ConfigInv s) : ConfigInv t := by
  cases h with
  | command _ h => exact exec_keeps_configInv hs h
  | illegal => exact configInv_congr hs rfl rfl rfl rfl rfl rfl
  | register => rw [writeRegister_frame]; exact configInv_congr hs rfl rfl rfl rfl rfl rfl
  | element => exact configInv_congr hs rfl rfl rfl rfl rfl rfl
  | rx h => rw [rxStep_frame h]; exact configInv_congr hs rfl rfl rfl rfl rfl rfl
  | playDone h => rw [playDone_frame h]; exact configInv_congr hs rfl rfl rfl rfl rfl rfl
  | reset => exact configInv_congr (resetWith_configInv s.hw hs.params) rfl rfl rfl rfl rfl rfl
  | outside => exact configInv_congr hs rfl rfl rfl rfl rfl rfl

/-! ## A write to CMD -/

/-- An aligned access below 0x1000 goes to the register block (20_memory R123). -/
theorem regionOf_registers (s : State) {a : Word} (h : a.toNat < 0x1000) (h4 : a.toNat % 4 = 0) :
    regionOf s 32 a = some .registers := by
  rw [regionOf, if_pos ⟨rfl, h4⟩]
  exact List.find?_cons_of_pos (by simpa [Region.holds, Region.base, Region.size] using h)

theorem busWrite_cmd (w : Word) (s : State) : busWrite 32 0x0000000C#32 w s = runCommand w s := by
  rw [busWrite, regionOf_registers s (by decide) (by decide)]
  rfl

/-- The word of a table row, its opcode with zeros above it (30_encoding R170). -/
theorem decodeWord_opcode (i : Instr) : decodeWord (BitVec.ofNat 32 (i.opcode.toNat % 2 ^ 8)) = .ok i := by
  cases i <;> rfl

end Sys2Proof.Machine
end

section
/-! The obligations of the state family about registers, flags, constants and the active configuration. -/

open Sys2Proof Sys2Proof.Machine

/-- Settles O10, move by move. -/
theorem stepKeepsConfiguration : Obligations.StepKeepsConfiguration := fun _ _ hs h =>
  step_induction h hs fun _ _ e => moveEffect_keeps_configInv e (configInv_congr hs rfl rfl rfl rfl rfl rfl)

/-- Settles O13: the three words field by field, and every move keeps the parameters. -/
theorem constants : Obligations.Constants := by
  refine ⟨fun s => ⟨(by decide : idWord.extractLsb' 8 24 = 0x534E54#24),
    (by decide : idWord.extractLsb' 0 8 = 0x07#8), (setWidth_fields 15 s.hw.gen).1, (setWidth_fields 15 s.hw.gen).2,
    (setWidth_fields 24 fillByte).1, (setWidth_fields 24 fillByte).2, fun v a ha => ?_⟩, fun s t h => step_keeps_hw h⟩
  simp only [List.mem_cons, List.not_mem_nil, or_false] at ha
  obtain rfl | rfl | rfl := ha <;> rfl

/-- Settles O14: ERR is overwritten at every end of a command and kept by every other move. -/
theorem errOverwritten : Obligations.ErrOverwritten :=
  ⟨exec_err, fun _ _ _ _ hp h hr hc => (step_keeps_err_flags hp h hr hc).1, fun s => (statusWord_fields s).2.1,
    fun e => by cases e <;> decide, fun _ => rfl⟩

/-- Settles O18: the frames of the commands hold no flag but their own, and the flags steer nothing. -/
theorem flagsWrittenAndRead : Obligations.FlagsWrittenAndRead := by
  refine ⟨fun i s t h => ?_, fun s t m rest hp h hr hc => (step_keeps_err_flags hp h hr hc).2,
    fun i s f1 f2 f3 f4 f5 => ?_, fun s f1 f2 f3 f4 f5 => ?_, fun hw => ⟨rfl, rfl, rfl, rfl, rfl⟩⟩
  · rw [exec_frame h]
    cases i <;> simp [writtenBy]
  · have hx := exec_withFlags f1 f2 f3 f4 f5 i s
    cases he : exec i s <;> rw [he] at hx <;> exact hx
  · have hx := rxStep_withFlags f1 f2 f3 f4 f5 s
    cases he : rxStep s <;> rw [he] at hx <;> exact hx

/-- Settles O4: the pending move is run, and a write to CMD runs the command its word decodes to. -/
theorem stepRunsCommand : Obligations.StepRunsCommand := by
  refine ⟨fun s m rest hp => step_cons hp, fun s w i rest hp hd => ?_, fun s i => ?_, fun s hp => step_nil hp⟩
  · rw [step_cons hp]
    exact (busWrite_cmd w _).trans (runCommand_ok hd _)
  · rw [step_cons (s := s.withFetchWord 8 i.opcode.toNat) rfl]
    exact (busWrite_cmd _ s).trans (runCommand_ok (decodeWord_opcode i) s)

/-- Settles O26: each offset's arm of the register map, and the words composed of fields. -/
theorem statusFields : Obligations.StatusFields := by
  refine ⟨⟨rfl, rfl, rfl, rfl⟩, by decide, fun s => ?status, fun s => ?plain, fun s e rest he => ?head,
    fun s he => ?empty⟩
  case status =>
    obtain ⟨tx, cfg, rb, stop, cancel, warn, part, crc, start, stop', irq⟩ := statusWord_bits s
    obtain ⟨rx, err, zero⟩ := statusWord_fields s
    exact ⟨rx, tx, cfg, rb, stop, cancel, err, warn, part, crc, start, stop', irq, zero⟩
  case plain =>
    obtain ⟨c0, c1, c2, c3⟩ := ctrlWord_fields s
    refine ⟨c0, c1, c2, c3, (setWidth_fields 16 s.crcParity).1, (setWidth_fields 16 s.crcParity).2,
      (setWidth_fields 24 s.byteRes).1, (setWidth_fields 24 s.byteRes).2, fun i => readRegister_freq s, ?_, ?_⟩
    all_goals
      intro r hr
      fin_cases hr <;> rfl
  case head =>
    have hw (f : Event → Word) : s.headWord f = f e := by simp [State.headWord, he]
    obtain ⟨ty, z1, re, z2⟩ := typeWord_fields e
    obtain ⟨ok, mal⟩ := typeWord_bits e
    have h44 : s.readRegister 0x044 = e.typeWord := hw _
    rw [h44]
    refine ⟨?_, ty.trans ?_, ok, mal, z1, re, z2, hw _, hw _⟩
    · simp [State.readRegister, he]
    · cases e.type <;> rfl
  case empty =>
    simp [State.readRegister, State.headWord, he]

end

section
/-! SUPPORT. What the checks of a commit bound (46_orchestrator R442, 20_memory R123): the derived values and the
frequencies fit in 32 bits (10_state R72). -/

namespace Sys2Proof.Machine

variable {hw : Params} {p : Profile} {u : Tuning}

/-- The bounds of 20_memory R123 on the parameters. -/
theorem wellFormed_bounds (h : hw.wellFormed = true) :
    hw.maxPayload ≤ 2 ^ 18 ∧ hw.maxBits ≤ 2 ^ 18 ∧ hw.maxIn ≤ 2 ^ 20 ∧ hw.maxRb ≤ 2 ^ 21 ∧ hw.maxPcm ≤ 2 ^ 22 ∧
      hw.maxSpec ≤ 2 ^ 23 := by
  simp only [Params.wellFormed, Bool.and_eq_true, decide_eq_true_eq] at h
  omega

/-- The lines of 46_orchestrator R442 that bound a number. -/
theorem configValid_bounds (h : configValid hw p u = true) :
    p.nblk.toNat ≠ 0 ∧ p.nfreq.toNat ≤ 256 ∧ 2 ≤ (quantities p u).pb ∧
      2 * (p.f0.toNat + p.nfreq.toNat * p.spacing.toNat) < p.fs.toNat ∧
      (quantities p u).c ≤ hw.maxRb ∧ (quantities p u).msgBits ≤ hw.maxBits ∧ (quantities p u).pfloor ≤ hw.maxPcm ∧
      (quantities p u).binLo ≤ (quantities p u).binHi := by
  simp only [configValid, Bool.and_eq_true, decide_eq_true_eq, bne_iff_ne, ne_eq] at h
  have hb : p.nblk.toNat ≠ 0 := fun e => by simp_all [BitVec.toNat_eq]
  tauto

/-- A message of `t ≥ 4` blocks bounds the block, the pause and the count of blocks. -/
theorem parts_le_capacity {pb pp t : ℕ} (ht : 4 ≤ t) (hpb : 2 ≤ pb) :
    pb ≤ pb * t + pp * (t - 1) ∧ pp ≤ pb * t + pp * (t - 1) ∧ t ≤ pb * t + pp * (t - 1) := by
  have h1 : pb * 1 ≤ pb * t := Nat.mul_le_mul_left _ (by omega)
  have h2 : pp * 1 ≤ pp * (t - 1) := Nat.mul_le_mul_left _ (by omega)
  have h3 : 1 * t ≤ pb * t := Nat.mul_le_mul_right _ (by omega)
  omega

/-- The lengths in samples are no longer than the message. -/
theorem quantities_samples_le (h : configValid hw p u = true) :
    let q := quantities p u
    q.pb ≤ q.c ∧ q.pp ≤ q.c ∧ q.t ≤ q.c ∧ q.s ≤ q.pb ∧ q.wpb ≤ q.pb ∧ q.wpp ≤ q.pp ∧ q.syncThresh ≤ q.c ∧
      q.wd ≤ q.pb ∧ q.h ≤ q.pb ∧ q.f ≤ q.c + 1 := by
  intro q
  obtain ⟨hb, -, hpb, -⟩ := configValid_bounds h
  have ht : 4 ≤ q.t := show 4 ≤ 2 * p.nblk.toNat + 2 by omega
  obtain ⟨h1, h2, h3⟩ := parts_le_capacity (pp := q.pp) ht hpb
  have hwpb : q.wpb ≤ q.pb := Nat.div_le_self _ _
  have hwd : q.wd ≤ q.pb := Nat.sub_le _ _
  refine ⟨h1, h2, h3, Nat.div_le_self _ _, hwpb, Nat.div_le_self _ _, ?_, hwd, (Nat.div_le_self _ _).trans hwd, ?_⟩
  · calc q.t * q.wpb - q.wpp ≤ q.t * q.wpb := Nat.sub_le _ _
      _ ≤ q.pb * q.t := by rw [mul_comm]; exact Nat.mul_le_mul_right _ hwpb
      _ ≤ q.c := Nat.le_add_right _ _
  · exact Nat.succ_le_succ ((Nat.div_le_self _ _).trans (Nat.sub_le _ _))

/-- The band of half the channels ends below the last channel. -/
theorem quantities_band_le (p : Profile) (u : Tuning) : 2 * (quantities p u).bpw ≤ p.nfreq.toNat * p.spacing.toNat := by
  calc 2 * (p.spacing.toNat * (p.nfreq.toNat / 2)) = p.nfreq.toNat / 2 * 2 * p.spacing.toNat := by ring
    _ ≤ p.nfreq.toNat * p.spacing.toNat := Nat.mul_le_mul_right _ (Nat.div_mul_le_self _ _)

/-- The payload of a message is no longer than its bits. -/
theorem quantities_payload_le (p : Profile) (u : Tuning) : 8 * (quantities p u).k ≤ (quantities p u).msgBits := by
  calc 8 * (p.nblk.toNat * (p.nfreq.toNat / 8) - 2) ≤ 8 * (p.nblk.toNat * (p.nfreq.toNat / 8)) := by omega
    _ = p.nblk.toNat * (p.nfreq.toNat / 8 * 8) := by ring
    _ ≤ p.nblk.toNat * p.nfreq.toNat := Nat.mul_le_mul_left _ (Nat.div_mul_le_self _ _)

/-- A number below `2^32` is what a register of that number shows. -/
theorem toNat_ofNat_word {n : ℕ} (h : n < 2 ^ 32) : (BitVec.ofNat 32 n).toNat = n := by
  rw [BitVec.toNat_ofNat, Nat.mod_eq_of_lt h]

end Sys2Proof.Machine
end

section
/-! The obligation of the state family about the derived registers. -/

open Sys2Proof Sys2Proof.Machine

/-- Settles O52: lengths are bounded by the ring buffer, bins by the window, frequencies by half the sample rate. -/
theorem derivedFit : Obligations.DerivedFit := by
  intro hw p u hwf hv
  generalize hq : quantities p u = q
  obtain ⟨-, bits, -, rb, pcm, -⟩ := wellFormed_bounds hwf
  obtain ⟨-, -, -, hf, hc, hm, hpf, hlo⟩ := configValid_bounds hv
  obtain ⟨pb, pp, t, s, wpb, wpp, sync, wd, hop, fr⟩ := quantities_samples_le hv
  have band := quantities_band_le p u
  have hfs : p.fs.toNat < 2 ^ 32 := p.fs.isLt
  have hk := quantities_payload_le p u
  have hhi : q.binHi ≤ q.wd / 2 := hq ▸ Nat.min_le_left _ _
  have hdn : q.downCenter = p.f0.toNat + q.bpw / 2 := hq ▸ rfl
  have hup : q.upCenter = p.f0.toNat + q.bpw + q.bpw / 2 := hq ▸ rfl
  rw [hq] at hc hm hpf hlo pb pp t s wpb wpp sync wd hop fr band hk
  refine ⟨?_, ?_, ?_, ?_, ?_, ?_, ?_, ?_, ?_, ?_, ?_, ?_, ?_, ?_, ?_, ?_, ?_, ?_, ?_, fun i hi => ?_⟩
  case refine_20 =>
    have : i * p.spacing.toNat ≤ p.nfreq.toNat * p.spacing.toNat := Nat.mul_le_mul_right _ hi.le
    omega
  all_goals
    refine toNat_ofNat_word ?_
    omega

end

section
/-! SUPPORT. Host accesses to registers and to elements (20_memory R121 to R129). -/

namespace Sys2Proof.Machine

variable {s : State}

/-! ## Registers -/

theorem busRead_register (s : State) {a : Word} (h : a.toNat < 0x1000) (h4 : a.toNat % 4 = 0) :
    busRead 32 a s = .next { s with busData := some (s.readRegister a.toNat) } := by
  rw [busRead, regionOf_registers s h h4]
  rfl

theorem busWrite_register (s : State) {a : Word} (v : Word) (h : a.toNat < 0x1000) (h4 : a.toNat % 4 = 0)
    (hc : a.toNat ≠ 0x00C) : busWrite 32 a v s = .next (s.writeRegister a.toNat v) := by
  rw [busWrite, regionOf_registers s h h4]
  exact if_neg hc

/-- The host may write no other offset (20_memory R129). -/
theorem writeRegister_of_not_mem (s : State) {o : Nat} (h : o ∉ writableOffsets) (v : Word) :
    s.writeRegister o v = s := by
  unfold State.writeRegister
  split
  case h_20 => rfl
  all_goals exact absurd (by decide) h

/-- A write to CTRL stores the three low bits (10_state R45). -/
theorem ctrlWord_writeCtrl (s : State) (v : Word) : (s.writeCtrl v).ctrlWord = v &&& 7#32 := by
  refine BitVec.eq_of_getLsbD_eq fun i hi => ?_
  simp only [State.ctrlWord, State.writeCtrl, BitVec.getLsbD_append, BitVec.getLsbD_ofBool, BitVec.getLsbD_and]
  interval_cases i <;> simp

/-- A writable register shows what was written (10_state R45; 20_memory R129). -/
theorem readRegister_writeRegister (s : State) {o : Nat} (h : o ∈ writableOffsets) (v : Word) :
    (s.writeRegister o v).readRegister o = if o = 0x004 then v &&& 7#32 else v := by
  fin_cases h
  · exact ctrlWord_writeCtrl s v
  all_goals rfl

/-- An offset that names no register reads 0 (10_state R68). -/
theorem readRegister_of_not_mem (s : State) {o : Nat} (h : o ∉ namedOffsets) (hf : ¬ (0x400 ≤ o ∧ o < 0x800)) :
    s.readRegister o = 0 := by
  unfold State.readRegister
  split
  case h_61 => exact if_neg hf
  all_goals exact absurd (by decide) h

theorem writableOffsets_bounds : ∀ o ∈ writableOffsets, o < 0x1000 ∧ o % 4 = 0 ∧ o ≠ 0x00C := by decide

/-! ## Elements -/

/-- A store does not move a region. -/
@[simp] theorem regionOf_setMem (s : State) (m : Memory) (n : Nat) (a : Word) :
    regionOf { s with mem := m } n a = regionOf s n a := rfl

/-- The regions that hold cells. -/
def cellRegions : List Region := [.pbuf, .bbuf, .ibuf, .inbuf, .rb, .wbuf, .pcm, .spec, .rxbits]

/-- An element of a region of cells reads as the word the cells hold. -/
theorem busRead_element {a v : Word} {r : Region} (hr : r ∈ cellRegions) (h : regionOf s 32 a = some r)
    (hv : Memory.readWords s.mem a.toNat 1 = some [v]) : busRead 32 a s = .next { s with busData := some v } := by
  rw [busRead, h]
  have hw : s.readRegion r a.toNat = (Memory.readWords s.mem a.toNat 1).map fun ws => ws.headD 0 := by
    fin_cases hr <;> rfl
  simp [hw, hv]

/-- A stored element is read back. -/
theorem busRead_stored (hm : Memory.wf s.mem) {a : Word} (w : Word) {r : Region} (hr : r ∈ cellRegions)
    (h : regionOf s 32 a = some r) :
    busRead 32 a { s with mem := Memory.writeWords s.mem a.toNat [w] } =
      .next { s with mem := Memory.writeWords s.mem a.toNat [w], busData := some w } :=
  busRead_element (s := { s with mem := Memory.writeWords s.mem a.toNat [w] }) hr ((regionOf_setMem _ _ _ _).trans h)
    (readWords_writeWords hm a.toNat [w])

theorem byteWord_wordByte (v : Word) : byteWord (wordByte v) = v &&& 0xFF#32 := by
  refine BitVec.eq_of_getLsbD_eq fun i hi => ?_
  simp only [byteWord, wordByte]
  interval_cases i <;> simp

theorem bitWord_wordBit (v : Word) : bitWord (wordBit v) = v &&& 1#32 := by
  refine BitVec.eq_of_getLsbD_eq fun i hi => ?_
  cases h : v.getLsbD 0 <;> interval_cases i <;> simp_all [bitWord, wordBit]

theorem sampleWord_wordSample (v : Word) : sampleWord (wordSample v) = (v.extractLsb' 0 16).signExtend 32 := by
  rw [sampleWord, wordSample, BitVec.setWidth_eq_extractLsb' (by decide)]

/-! ## EVDATA -/

/-- Every other region ends where EVDATA begins or before it (20_memory R123). -/
theorem region_end_le_evdata (hw : s.hw.wellFormed = true) (hc : s.rbValid = true → s.rbCapNat ≤ s.hw.maxRb)
    {r : Region} (hr : r ≠ .evdata) : r.base + 4 * r.size s ≤ evdataBase := by
  obtain ⟨h1, h2, h3, h4, h5, h6⟩ := wellFormed_bounds hw
  cases r with
  | evdata => exact absurd rfl hr
  | rb =>
    cases hv : s.rbValid
    · simp [Region.base, Region.size, hv, rbBase, evdataBase]
    · have := hc hv
      simp only [Region.base, Region.size, hv, rbBase, evdataBase, if_true]
      omega
  | _ =>
    simp only [Region.base, Region.size, pbufBase, bbufBase, ibufBase, ibufSize, inbufBase, wbufBase, pcmBase, specBase,
      rxbitsBase, evdataBase]
    omega

/-- Element `i` of EVDATA. -/
theorem regionOf_evdata (hw : s.hw.wellFormed = true) (hc : s.rbValid = true → s.rbCapNat ≤ s.hw.maxRb) {i : Nat}
    (hi : i < 2 ^ 29) (hs : i < Region.evdata.size s) :
    regionOf s 32 (BitVec.ofNat 32 (0x09000000 + 4 * i)) = some .evdata := by
  have ha : (BitVec.ofNat 32 (0x09000000 + 4 * i)).toNat = evdataBase + 4 * i := toNat_ofNat_word (by omega)
  have hother (r : Region) (hr : r ≠ .evdata) : Region.holds s (evdataBase + 4 * i) r = false := by
    have := region_end_le_evdata hw hc hr
    simp only [Region.holds, Bool.and_eq_false_iff, decide_eq_false_iff_not]
    omega
  have hev : Region.holds s (evdataBase + 4 * i) .evdata = true := by simpa [Region.holds, Region.base] using hs
  rw [regionOf, ha, if_pos ⟨rfl, by unfold evdataBase; omega⟩]
  simp [Region.all, hother, hev]

/-- Element `i` of EVDATA reads as the queue says. -/
theorem busRead_evdata (hw : s.hw.wellFormed = true) (hc : s.rbValid = true → s.rbCapNat ≤ s.hw.maxRb) {i : Nat}
    (hi : i < 2 ^ 29) (hs : i < Region.evdata.size s) {v : Word} (hv : s.evdataWord i = some v) :
    busRead 32 (BitVec.ofNat 32 (0x09000000 + 4 * i)) s = .next { s with busData := some v } := by
  have ha : (BitVec.ofNat 32 (0x09000000 + 4 * i)).toNat = evdataBase + 4 * i := toNat_ofNat_word (by omega)
  rw [busRead, regionOf_evdata hw hc hi hs]
  simp [State.readRegion, ha, hv]

end Sys2Proof.Machine
end

section
/-! The obligations of the state family about host accesses. -/

open Sys2Proof Sys2Proof.Machine

/-- Settles O22: writable, read-only and unnamed offsets, then the read-only buffers. -/
theorem hostWritable : Obligations.HostWritable := by
  refine ⟨fun s a v ha => ?_, fun s a v h h4 ha hc => ?_, fun s o h h4 hn hf => readRegister_of_not_mem s hn hf,
    fun s a v r hr hm => ?_⟩
  · obtain ⟨h, h4, hc⟩ := writableOffsets_bounds _ ha
    exact ⟨_, busWrite_register s v h h4 hc, readRegister_writeRegister s ha v⟩
  · rw [busWrite_register s v h h4 hc, writeRegister_of_not_mem s ha]
  · rw [busWrite, hr]
    fin_cases hm <;> rfl

/-- Settles O23: registers, cells, EVDATA, and a store read back. -/
theorem elementLayout : Obligations.ElementLayout := by
  refine ⟨fun s a h h4 => busRead_register s h h4, fun s a v r hr h hv => busRead_element hr h hv,
    fun s i hw hc hi => ⟨fun e rest he hl hp => ?_, fun he hp => ?_⟩,
    fun s a v hm => ⟨fun h => ?_, fun h => ?_, fun h => ?_⟩⟩
  · refine busRead_evdata hw hc hi ?_ ?_
    · simpa [Region.size, he, hl] using hp
    · simp [State.evdataWord, he, hp, byteWord]
  · refine busRead_evdata hw hc hi ?_ ?_
    · simpa [Region.size, he] using hp
    · simp [State.evdataWord, he]
  · refine ⟨_, by rw [busWrite, h]; rfl, ?_⟩
    rw [busRead_stored hm _ (by decide) h, byteWord_wordByte]
  · refine ⟨_, by rw [busWrite, h]; rfl, ?_⟩
    rw [busRead_stored hm _ (by decide) h, bitWord_wordBit]
  · refine ⟨_, by rw [busWrite, h]; rfl, ?_⟩
    rw [busRead_stored hm _ (by decide) h, sampleWord_wordSample]

end

section
/-! SUPPORT. Every move stores by `Memory.writeWords` alone, so memory keeps its canonical form (10_state R82; 20_memory
R123). -/

namespace Sys2Proof.Machine

variable {s t : State}

theorem exec_keeps_memoryWf {i : Instr} (hm : Memory.wf s.mem) (h : exec i s = .next t) : Memory.wf t.mem := by
  cases i with
  | byteToBits => obtain rfl := execByteToBits_next h; exact wf_writeWords hm _ _
  | pack => obtain ⟨c, -, rfl⟩ | ⟨-, -, p, -, rfl⟩ := execPack_next h; exacts [hm, wf_writeWords hm _ _]
  | unpack => obtain ⟨c, -, rfl⟩ | ⟨-, b, -, rfl⟩ := execUnpack_next h; exacts [hm, wf_writeWords hm _ _]
  | split => obtain ⟨c, -, rfl⟩ | ⟨-, -, -, -, rfl⟩ := execSplit_next h; exacts [hm, wf_writeWords hm _ _]
  | invert => obtain ⟨c, -, rfl⟩ | ⟨-, -, -, b, -, rfl⟩ := execInvert_next h; exacts [hm, wf_writeWords hm _ _]
  | rbInit => obtain ⟨c, -, rfl⟩ | ⟨-, -, rfl⟩ := execRbInit_next h; exacts [hm, wf_writeWords hm _ _]
  | rbAdd => obtain ⟨c, -, rfl⟩ | ⟨-, -, -, x, -, rfl⟩ := execRbAdd_next h; exacts [hm, wf_ringWrite hm _ _ _ _]
  | rbSnapshot => obtain ⟨c, -, rfl⟩ | ⟨-, -, o, -, rfl⟩ := execRbSnapshot_next h; exacts [hm, wf_writeWords hm _ _]
  | rbFirst => obtain ⟨c, -, rfl⟩ | ⟨-, -, -, o, -, rfl⟩ := execRbFirst_next h; exacts [hm, wf_writeWords hm _ _]
  | rbLast => obtain ⟨c, -, rfl⟩ | ⟨-, -, -, o, -, rfl⟩ := execRbLast_next h; exacts [hm, wf_writeWords hm _ _]
  | synBlock => obtain ⟨c, -, rfl⟩ | ⟨-, -, -, -, b, -, rfl⟩ := execSynBlock_next h; exacts [hm, wf_writeWords hm _ _]
  | buildSignal =>
    obtain ⟨c, -, rfl⟩ | ⟨-, -, -, -, b, -, rfl⟩ := execBuildSignal_next h
    exacts [hm, wf_writeWords hm _ _]
  | decode =>
    obtain ⟨c, -, rfl⟩ | ⟨-, -, -, o, -, ht⟩ := execDecode_next h
    · exact hm
    · rw [ht]; exact wf_writeWords (wf_writeWords hm _ _) _ _
  | rxStart =>
    obtain ⟨c, -, rfl⟩ | ⟨-, -, -, -, ⟨-, rfl⟩ | ⟨-, rfl⟩⟩ := execRxStart_next h
    exacts [hm, wf_writeWords hm _ _, wf_writeWords hm _ _]
  | txSend => obtain ⟨c, -, rfl⟩ | ⟨-, -, -, p, -, rfl⟩ := execTxSend_next h; exacts [hm, wf_writeWords hm _ _]
  | _ => rw [exec_frame h]; exact hm

/-- A hit stores RXBITS and SPECBUF (46_orchestrator R465). -/
theorem afterHit_mem (x : List Word) (s : State) :
    (afterHit (decodeAndEmit x s)).mem =
      Memory.writeWords
        (Memory.writeWords s.mem rxbitsBase ((decodeBuffer s.decodeSetup x s.env).1.map bitWord))
        specBase (decodeBuffer s.decodeSetup x s.env).2.1 := by
  unfold afterHit
  split_ifs <;> simp only [decodeAndEmit, endSession_mem] <;> split_ifs <;> rfl

theorem analyse_keeps_memoryWf (hm : Memory.wf s.mem) (h : analyse s = .next t) : Memory.wf t.mem := by
  obtain ⟨-, rfl⟩ | ⟨-, o, -, ⟨-, rfl⟩ | ⟨-, -, rfl⟩⟩ := analyse_next h
  · exact hm
  · exact hm
  · rw [afterHit_mem]
    exact wf_writeWords (wf_writeWords hm _ _) _ _

theorem rxStep_keeps_memoryWf (hm : Memory.wf s.mem) (h : rxStep s = .next t) : Memory.wf t.mem := by
  obtain ⟨-, ⟨-, rfl⟩ | ⟨-, -, rfl⟩ | ⟨-, -, -, rfl⟩ | ⟨-, -, -, ha⟩⟩ := rxStep_next h
  · exact hm
  · exact hm
  · exact hm
  · exact analyse_keeps_memoryWf (wf_ringWrite hm _ _ _ _) ha

theorem moveEffect_keeps_memoryWf {m : Move} (h : MoveEffect m s t) (hm : Memory.wf s.mem) : Memory.wf t.mem := by
  cases h with
  | command _ h => exact exec_keeps_memoryWf hm h
  | illegal => exact hm
  | register => rw [writeRegister_frame]; exact hm
  | element => exact wf_writeWords hm _ _
  | rx h => exact rxStep_keeps_memoryWf hm h
  | playDone h => rw [playDone_frame h]; exact hm
  | reset => exact wf_nil
  | outside => exact hm

end Sys2Proof.Machine
end

section
/-! The obligation of the state family about the form of memory. -/

open Sys2Proof Sys2Proof.Machine

/-- Settles O8, move by move. -/
theorem stepKeepsMemoryForm : Obligations.StepKeepsMemoryForm := fun _ _ hm h =>
  step_induction (Q := fun t => Memory.wf t.mem) h hm fun _ _ e => moveEffect_keeps_memoryWf e hm

end

section
/-! SUPPORT. Lengths of what the commands store. -/

namespace Sys2Proof.Machine

@[simp] theorem length_xorInto (g d : Bits) : (xorInto g d).length = d.length := by
  induction g generalizing d with
  | nil => rfl
  | cons b g ih => cases d <;> simp [xorInto, ih]

theorem length_divideSteps (g : Bits) (n : Nat) (d : Bits) : (divideSteps g n d).length = d.length - n := by
  induction n generalizing d with
  | zero => cases d <;> rfl
  | succ n ih =>
    cases d with
    | nil => simp [divideSteps]
    | cons b d =>
      rw [divideSteps, ih]
      split_ifs <;> simp

@[simp] theorem length_crcRem (gen : BitVec 17) (s : Bits) : (crcRem gen s).length = 16 := by
  simp only [crcRem, List.length_append, List.length_replicate, length_divideSteps]
  omega

theorem length_padLoop_le (n k fuel : Nat) (s : Bits) : (padLoop n k fuel s).length ≤ s.length + 8 * fuel := by
  induction fuel generalizing s with
  | zero => exact le_rfl
  | succ fuel ih =>
    rw [padLoop]
    split_ifs
    · refine (ih _).trans ?_
      simp only [List.length_append, show fillBits.length = 8 from rfl]
      omega
    · omega

theorem length_payloadBits (p : List Byte) : (payloadBits p).length = 8 * p.length := by
  induction p with
  | nil => rfl
  | cons b p ih =>
    simp only [payloadBits, List.flatMap_cons, List.length_append] at ih ⊢
    simp only [ih, bits8, List.length_cons, List.length_nil]
    omega

/-- A packed payload is no longer than its bits, one filler byte a round of the padding loop, and the parity bits. -/
theorem length_packBits_le (gen : BitVec 17) (n k : Nat) (p : List Byte) :
    (packBits gen n k p).length ≤ 8 * p.length + 8 * (n + k + 1) + 16 := by
  have := length_padLoop_le n k (n + k + 1) (payloadBits p)
  rw [length_payloadBits] at this
  simp only [packBits, parity, List.length_append, length_crcRem]
  omega

theorem length_octets_le (s : Bits) : (octets s).length ≤ s.length := by
  fun_induction octets s with
  | case1 => simp only [List.length_cons]; omega
  | case2 => simp

theorem length_unpackBits_le (s : Bits) : (unpackBits s).1.length ≤ s.length := by
  unfold unpackBits
  split_ifs
  · simp
  · simp only [List.length_map]
    calc _ ≤ (octets (s.take (s.length - 16))).length := List.length_filter_le _ _
      _ ≤ (s.take (s.length - 16)).length := length_octets_le _
      _ ≤ s.length := by simp

theorem length_decodeBuffer_le (c : DecodeSetup) (x : List Word) (e : Env) :
    (decodeBuffer c x e).1.length ≤ c.nblk * c.nfreq := by
  simp only [decodeBuffer, List.length_map, length_drawChoices]
  unfold decodeChoices
  split_ifs <;> simp

end Sys2Proof.Machine
end

section
/-! SUPPORT. Elements one at a time, and the ring buffer of int16 samples as binary32 values (10_state R75). -/

namespace Sys2Proof.Machine

theorem getElem?_flatMap_wordBytes (ws : List Word) (i : Nat) {r : Nat} (hr : r < 4) :
    (ws.flatMap wordBytes)[4 * i + r]? = ws[i]?.bind fun w => (wordBytes w)[r]? := by
  induction ws generalizing i with
  | nil => rfl
  | cons w ws ih =>
    have hl : (wordBytes w).length = 4 := rfl
    cases i with
    | zero => simp [List.getElem?_append_left, hl, hr]
    | succ i =>
      rw [List.flatMap_cons, List.getElem?_append_right (by omega), hl, show 4 * (i + 1) + r - 4 = 4 * i + r by omega,
        ih]
      rfl

/-- Elements of a canonical memory are read exactly when each of them is. -/
theorem readWords_eq_some_iff_getElem {m : Memory} (h : m.wf) (a n : Nat) (ws : List Word) :
    Memory.readWords m a n = some ws ↔
      ws.length = n ∧ ∀ i (_ : i < ws.length), Memory.readWords m (a + 4 * i) 1 = some [ws[i]] := by
  rw [readWords_eq_some h]
  refine and_congr_right fun hl => ⟨fun hb i hi => ?_, fun hb j hj => ?_⟩
  · refine (readWords_eq_some h _ _ _).2 ⟨rfl, fun r hr => ?_⟩
    have := getElem?_flatMap_wordBytes [ws[i]] 0 (r := r) (by omega)
    rw [Nat.mul_zero, Nat.zero_add] at this
    rw [add_assoc, hb _ (by omega), getElem?_flatMap_wordBytes ws i (by omega), this]
    simp [hi]
  · have hi : j / 4 < ws.length := by omega
    have := ((readWords_eq_some h _ _ _).1 (hb _ hi)).2 (j % 4) (by omega)
    rw [add_assoc, Nat.div_add_mod] at this
    have h0 := getElem?_flatMap_wordBytes [ws[j / 4]] 0 (r := j % 4) (by omega)
    rw [Nat.mul_zero, Nat.zero_add] at h0
    have h1 := getElem?_flatMap_wordBytes ws (j / 4) (r := j % 4) (by omega)
    rw [Nat.div_add_mod] at h1
    rw [this, h0, h1]
    simp [hi]

/-- A store of one element sets it where it is among those read. -/
theorem readWords_writeWords_set {m : Memory} (h : m.wf) {a n i : Nat} {ws : List Word} (w : Word)
    (hr : Memory.readWords m a n = some ws) :
    Memory.readWords (Memory.writeWords m (a + 4 * i) [w]) a n = some (ws.set i w) := by
  obtain ⟨hl, hb⟩ := (readWords_eq_some_iff_getElem h _ _ _).1 hr
  refine (readWords_eq_some_iff_getElem (wf_writeWords h _ _) _ _ _).2 ⟨by simpa using hl, fun j hj => ?_⟩
  rw [List.length_set] at hj
  by_cases hij : i = j
  · subst hij
    rw [List.getElem_set_self]
    exact readWords_writeWords h _ [w]
  · rw [List.getElem_set_ne hij, readWords_writeWords_disjoint h _ _ _ _ (by simp only [List.length_singleton]; omega)]
    exact hb j hj

/-- The `c` elements of the ring buffer are binary32 values of int16 samples. -/
def HoldsSamples (c : Nat) (m : Memory) : Prop :=
  ∃ x : List Sample, x.length = c ∧ Memory.readWords m rbBase c = some (x.map sampleF32)

/-- The writes of `add` leave samples where samples were (42_ringbuffer R282). -/
theorem holdsSamples_ringWrite {c : Nat} (wr k : Nat) (x : List Sample) {m : Memory} (hm : m.wf)
    (h : HoldsSamples c m) : HoldsSamples c (ringWrite c wr k (x.map sampleF32) m) := by
  induction x generalizing m k with
  | nil => exact h
  | cons v x ih =>
    obtain ⟨y, hy, hr⟩ := h
    refine ih _ (wf_writeWords hm _ _) ⟨y.set ((wr + k) % c) v, by simpa using hy, ?_⟩
    rw [readWords_writeWords_set hm _ hr, List.map_set]

/-- Zeros are samples. -/
theorem holdsSamples_zeros (c : Nat) {m : Memory} (hm : m.wf) :
    HoldsSamples c (Memory.writeWords m rbBase (List.replicate c 0#32)) := by
  have h0 : sampleF32 0 = 0#32 := by decide +kernel
  refine ⟨List.replicate c 0, List.length_replicate, ?_⟩
  rw [List.map_replicate, h0]
  simpa using readWords_writeWords hm rbBase (List.replicate c 0#32)

end Sys2Proof.Machine
end

section
/-! SUPPORT. The ring buffer stays whole (10_state R66, R74, R75): what adds to it or clears it leaves samples in it,
and every other store lies outside it (20_memory R123). -/

namespace Sys2Proof.Machine

variable {s t : State}

/-! ## Stores outside the ring buffer -/

/-- The bytes of the ring buffer's region read the same. -/
def RingBytesKept (m m' : Memory) : Prop :=
  ∀ k, rbBase ≤ k → k < wbufBase → Memory.readByte m' k = Memory.readByte m k

theorem RingBytesKept.refl (m : Memory) : RingBytesKept m m := fun _ _ _ => rfl

theorem RingBytesKept.trans {m m' m'' : Memory} (h : RingBytesKept m m') (h' : RingBytesKept m' m'') :
    RingBytesKept m m'' := fun k h1 h2 => (h' k h1 h2).trans (h k h1 h2)

/-- A store that ends below the ring buffer. -/
theorem ringBytesKept_below (m : Memory) {a : Nat} {ws : List Word} (h : a + 4 * ws.length ≤ rbBase) :
    RingBytesKept m (Memory.writeWords m a ws) :=
  fun k h1 _ => readByte_writeWords_outside m a ws k (by omega)

/-- A store that begins above the ring buffer. -/
theorem ringBytesKept_above (m : Memory) {a : Nat} (ws : List Word) (h : wbufBase ≤ a) :
    RingBytesKept m (Memory.writeWords m a ws) :=
  fun k _ h2 => readByte_writeWords_outside m a ws k (by omega)

/-- What a valid active configuration bounds. -/
theorem configInv_bounds (hc : ConfigInv s) (hv : s.cfgValid = true) :
    0 < s.rbCapNat ∧ s.rbCapNat ≤ 2 ^ 21 ∧ s.nfreqNat ≤ 256 ∧ 8 * s.payloadCapNat ≤ 2 ^ 18 ∧
      s.decodeSetup.nblk * s.decodeSetup.nfreq ≤ 2 ^ 18 := by
  have hd := hc.derived
  rw [hv, if_pos rfl] at hd
  have hvalid := hc.valid hv
  obtain ⟨-, hbits, -, hrb, -, -⟩ := wellFormed_bounds hc.params
  obtain ⟨-, hn, hpb, -, hcap, hmsg, -, -⟩ := configValid_bounds hvalid
  obtain ⟨hle, -⟩ := quantities_samples_le hvalid
  obtain ⟨-, -, -, -, ec, ek, -⟩ := derivedFit s.hw s.activeProfile s.activeTuning hc.params hvalid
  have hk := quantities_payload_le s.activeProfile s.activeTuning
  have hm : (quantities s.activeProfile s.activeTuning).msgBits = s.decodeSetup.nblk * s.decodeSetup.nfreq := rfl
  rw [← hd] at ec ek
  change s.rbCapNat = _ at ec
  change s.payloadCapNat = _ at ek
  change s.nfreqNat ≤ 256 at hn
  omega

theorem length_bbuf (hm : Memory.wf s.mem) {n : Nat} {bits : Bits} (h : s.bbuf n = some bits) : bits.length = n := by
  obtain ⟨ws, hr, rfl⟩ := Option.map_eq_some_iff.1 h
  rw [List.length_map, length_readWords hm hr]

theorem length_pbuf (hm : Memory.wf s.mem) {n : Nat} {p : List Byte} (h : s.pbuf n = some p) : p.length = n := by
  obtain ⟨ws, hr, rfl⟩ := Option.map_eq_some_iff.1 h
  rw [List.length_map, length_readWords hm hr]

theorem length_bbufBlock (hm : Memory.wf s.mem) {j : Nat} {blk : Bits} (h : s.bbufBlock j = some blk) :
    blk.length = s.nfreqNat := by
  obtain ⟨bits, hb, rfl⟩ := Option.map_eq_some_iff.1 h
  obtain ⟨ws, hr, rfl⟩ := Option.map_eq_some_iff.1 hb
  rw [List.length_append, List.length_map, length_readWords hm hr, List.length_replicate]
  omega

/-- PACK fits below the ring buffer. -/
theorem pack_below (hm : Memory.wf s.mem) (hc : ConfigInv s) (hv : s.cfgValid = true)
    (hp : s.plenNat ≤ s.payloadCapNat) {p : List Byte} (h : s.pbuf s.plenNat = some p) :
    bbufBase + 4 * ((packBits s.hw.gen s.nfreqNat s.payloadCapNat p).map bitWord).length ≤ rbBase := by
  obtain ⟨-, -, hn, hk, -⟩ := configInv_bounds hc hv
  have := length_packBits_le s.hw.gen s.nfreqNat s.payloadCapNat p
  have := length_pbuf hm h
  rw [List.length_map, bbufBase, rbBase]
  omega

/-- UNPACK fits below the ring buffer. -/
theorem unpack_below (hm : Memory.wf s.mem) (hc : ConfigInv s) (hb : s.blenNat ≤ s.hw.maxBits) {bits : Bits}
    (h : s.bbuf s.blenNat = some bits) : pbufBase + 4 * ((unpackBits bits).1.map byteWord).length ≤ rbBase := by
  obtain ⟨-, hbits, -⟩ := wellFormed_bounds hc.params
  have := length_unpackBits_le bits
  have := length_bbuf hm h
  rw [List.length_map, pbufBase, rbBase]
  omega

/-- SPLIT fits below the ring buffer. -/
theorem split_below (hc : ConfigInv s) {n : Nat} (hb : s.blenNat ≤ s.hw.maxBits) (hn : n ≤ s.hw.maxBits) :
    bbufBase + 4 * s.blenNat + 4 * (List.replicate (n - s.blenNat) (bitWord false)).length ≤ rbBase := by
  obtain ⟨-, hbits, -⟩ := wellFormed_bounds hc.params
  rw [List.length_replicate, bbufBase, rbBase]
  omega

/-- INVERT fits below the ring buffer. -/
theorem invert_below (hm : Memory.wf s.mem) (hc : ConfigInv s) (hv : s.cfgValid = true) {j : Nat} {blk : Bits}
    (h : s.bbufBlock j = some blk) : ibufBase + 4 * ((invertBits blk).map bitWord).length ≤ rbBase := by
  obtain ⟨-, -, hn, -⟩ := configInv_bounds hc hv
  have := length_bbufBlock hm h
  rw [List.length_map, invertBits, List.length_map, ibufBase, rbBase]
  omega

/-- The bits of DECODE fit below the ring buffer. -/
theorem decode_below (hc : ConfigInv s) (hv : s.cfgValid = true) (x : List Word) (e : Env) :
    bbufBase + 4 * ((decodeBuffer s.decodeSetup x e).1.map bitWord).length ≤ rbBase := by
  obtain ⟨-, -, -, -, hb⟩ := configInv_bounds hc hv
  have := length_decodeBuffer_le s.decodeSetup x e
  rw [List.length_map, bbufBase, rbBase]
  omega

/-- The commands that do not write the ring buffer store outside it. -/
theorem exec_ringBytesKept {i : Instr} (hm : Memory.wf s.mem) (hc : ConfigInv s)
    (hi : i ∉ [Instr.rbInit, .rbAdd, .rxStart]) (h : exec i s = .next t) : RingBytesKept s.mem t.mem := by
  have hbuf (o : List Word) : RingBytesKept s.mem (Memory.writeWords s.mem wbufBase o) :=
    ringBytesKept_above _ _ le_rfl
  have hpcm (ws : List Word) : RingBytesKept s.mem (Memory.writeWords s.mem pcmBase ws) :=
    ringBytesKept_above _ _ (by decide)
  cases i with
  | rbInit => exact absurd (by decide) hi
  | rbAdd => exact absurd (by decide) hi
  | rxStart => exact absurd (by decide) hi
  | byteToBits =>
    obtain rfl := execByteToBits_next h
    exact ringBytesKept_below _ (by simp [bits8, bbufBase, rbBase])
  | pack =>
    obtain ⟨c, -, rfl⟩ | ⟨hv, hp, p, hr, rfl⟩ := execPack_next h
    exacts [.refl _, ringBytesKept_below _ (pack_below hm hc hv hp hr)]
  | unpack =>
    obtain ⟨c, -, rfl⟩ | ⟨hb, bits, hr, rfl⟩ := execUnpack_next h
    exacts [.refl _, ringBytesKept_below _ (unpack_below hm hc hb hr)]
  | split =>
    obtain ⟨c, -, rfl⟩ | ⟨-, hb, hn, -, rfl⟩ := execSplit_next h
    exacts [.refl _, ringBytesKept_below _ (split_below hc hb hn)]
  | invert =>
    obtain ⟨c, -, rfl⟩ | ⟨hv, -, -, blk, hr, rfl⟩ := execInvert_next h
    exacts [.refl _, ringBytesKept_below _ (invert_below hm hc hv hr)]
  | rbSnapshot => obtain ⟨c, -, rfl⟩ | ⟨-, -, o, -, rfl⟩ := execRbSnapshot_next h; exacts [.refl _, hbuf _]
  | rbFirst => obtain ⟨c, -, rfl⟩ | ⟨-, -, -, o, -, rfl⟩ := execRbFirst_next h; exacts [.refl _, hbuf _]
  | rbLast => obtain ⟨c, -, rfl⟩ | ⟨-, -, -, o, -, rfl⟩ := execRbLast_next h; exacts [.refl _, hbuf _]
  | synBlock => obtain ⟨c, -, rfl⟩ | ⟨-, -, -, -, b, -, rfl⟩ := execSynBlock_next h; exacts [.refl _, hpcm _]
  | buildSignal => obtain ⟨c, -, rfl⟩ | ⟨-, -, -, -, b, -, rfl⟩ := execBuildSignal_next h; exacts [.refl _, hpcm _]
  | txSend => obtain ⟨c, -, rfl⟩ | ⟨-, -, -, p, -, rfl⟩ := execTxSend_next h; exacts [.refl _, hpcm _]
  | decode =>
    obtain ⟨c, -, rfl⟩ | ⟨-, hv, -, x, -, ht⟩ := execDecode_next h
    · exact .refl _
    · rw [ht]
      exact (ringBytesKept_below _ (decode_below hc hv x s.env)).trans (ringBytesKept_above _ _ (by decide))
  | _ => rw [exec_frame h]; exact .refl _

/-- A host write reaches an element below the ring buffer. -/
theorem element_below (hc : ConfigInv s) {a w : Word} {r : Region} (hr : regionOf s 32 a = some r)
    (hw : r ∈ [Region.pbuf, .bbuf, .inbuf]) : a.toNat + 4 * [w].length ≤ rbBase := by
  obtain ⟨hp, hb, hi, -⟩ := wellFormed_bounds hc.params
  unfold regionOf at hr
  split_ifs at hr with ha
  have hh := List.find?_some hr
  simp only [Region.holds, Bool.and_eq_true, decide_eq_true_eq] at hh
  rw [List.length_singleton, rbBase]
  fin_cases hw <;> simp only [Region.base, Region.size, pbufBase, bbufBase, inbufBase] at hh <;> omega

/-! ## The invariant -/

theorem ringInv_iff : RingInv s ↔ (s.rbValid = true → s.rbWr.toNat < s.rbCapNat ∧ HoldsSamples s.rbCapNat s.mem) :=
  Iff.rfl

/-- Draws do not touch the ring buffer. -/
theorem ringInv_env (hs : RingInv s) (e : Env) : RingInv { s with env := e } := hs

/-- Stores outside the ring buffer keep it whole. -/
theorem ringInv_of_kept (hs : RingInv s) (hm : Memory.wf s.mem) (hm' : Memory.wf t.mem)
    (hcap : s.rbValid = true → s.rbCapNat ≤ 2 ^ 21) (hk : RingBytesKept s.mem t.mem) (hv : t.rbValid = s.rbValid)
    (hw : t.rbWr = s.rbWr) (hd : t.derived = s.derived) : RingInv t := by
  intro h
  rw [hv] at h
  have hC : t.rbCapNat = s.rbCapNat := by rw [State.rbCapNat, hd, State.rbCapNat]
  have hrb : t.rb = s.rb := by
    rw [State.rb, hC]
    refine readWords_congr hm hm' _ _ fun k h1 h2 => hk k h1 (h2.trans_le ?_)
    have := hcap h
    rw [rbBase, wbufBase]
    omega
  rw [hw, hC, hrb]
  exact hs h

/-- An `add` of samples keeps the buffer whole (42_ringbuffer R282). -/
theorem ringInv_ringAdd (hs : RingInv s) (hm : Memory.wf s.mem) (x : List Sample) :
    RingInv (ringAdd (x.map sampleF32) s) := by
  intro h
  obtain ⟨hw, hx⟩ := ringInv_iff.1 hs h
  refine ⟨?_, holdsSamples_ringWrite _ _ _ hm hx⟩
  rw [ringAdd_rbWr, BitVec.toNat_ofNat]
  exact (Nat.mod_le _ _).trans_lt (Nat.mod_lt _ (Nat.zero_lt_of_lt hw))

/-- The zero-fill makes the buffer whole (42_ringbuffer R281). -/
theorem ringInv_ringClear (hm : Memory.wf s.mem) (hc : 0 < s.rbCapNat) : RingInv (ringClear s) :=
  fun _ => ⟨hc, holdsSamples_zeros _ hm⟩

theorem exec_keeps_ringInv {i : Instr} (hm : Memory.wf s.mem) (hc : ConfigInv s)
    (hcap : s.rbValid = true → s.rbCapNat ≤ 2 ^ 21) (hs : RingInv s) (h : exec i s = .next t) : RingInv t := by
  cases i with
  | rbInit =>
    obtain ⟨c, -, rfl⟩ | ⟨-, hv, rfl⟩ := execRbInit_next h
    · exact hs
    · exact ringInv_ringClear hm (configInv_bounds hc hv).1
  | rbAdd =>
    obtain ⟨c, -, rfl⟩ | ⟨-, -, -, x, -, rfl⟩ := execRbAdd_next h
    · exact hs
    · exact ringInv_ringAdd hs hm x
  | rxStart =>
    obtain ⟨c, -, rfl⟩ | ⟨-, -, -, hv, ⟨-, rfl⟩ | ⟨-, rfl⟩⟩ := execRxStart_next h
    · exact hs
    · exact ringInv_ringClear hm (configInv_bounds hc hv).1
    · exact nofun
  | cfgCommit =>
    obtain ⟨c, -, rfl⟩ | ⟨-, -, -, rfl⟩ := execCfgCommit_next h
    · exact hs
    · exact nofun
  | _ =>
    have hk := exec_ringBytesKept hm hc (by decide) h
    have hm' := exec_keeps_memoryWf hm h
    rw [exec_frame h] at hk hm' ⊢
    exact ringInv_of_kept hs hm hm' hcap hk rfl rfl rfl

/-- After a hit the ring buffer is dropped, or it and its write cursor stand (46_orchestrator R466). -/
theorem afterHit_ring (x : List Word) (s : State) :
    (afterHit (decodeAndEmit x s)).rbValid = false ∨
      ((afterHit (decodeAndEmit x s)).rbValid = s.rbValid ∧ (afterHit (decodeAndEmit x s)).rbWr = s.rbWr ∧
        (afterHit (decodeAndEmit x s)).derived = s.derived) := by
  unfold afterHit
  split_ifs
  · exact .inl rfl
  · rw [decodeAndEmit_frame]
    exact .inr ⟨rfl, rfl, rfl⟩

theorem analyse_keeps_ringInv (h : analyse s = .next t) (hm : Memory.wf s.mem)
    (hcap : s.rbValid = true → s.rbCapNat ≤ 2 ^ 21) (hs : RingInv s) : RingInv t := by
  have hm' := analyse_keeps_memoryWf hm h
  obtain ⟨-, rfl⟩ | ⟨-, o, -, ⟨-, rfl⟩ | ⟨-, -, rfl⟩⟩ := analyse_next h
  · exact hs
  · exact ringInv_env hs _
  · obtain hv | ⟨hv, hw, hd⟩ := afterHit_ring o { s with env := (s.syncOn o).2 }
    · exact fun hv' => absurd (hv.symm.trans hv') Bool.false_ne_true
    · refine ringInv_of_kept hs hm hm' hcap ?_ hv hw hd
      rw [afterHit_mem]
      exact (ringBytesKept_above _ _ (by decide)).trans (ringBytesKept_above _ _ (by decide))

theorem rxStep_keeps_ringInv (hm : Memory.wf s.mem) (hcap : s.rbValid = true → s.rbCapNat ≤ 2 ^ 21) (hs : RingInv s)
    (h : rxStep s = .next t) : RingInv t := by
  obtain ⟨-, ⟨-, rfl⟩ | ⟨-, -, rfl⟩ | ⟨-, -, -, rfl⟩ | ⟨-, -, -, ha⟩⟩ := rxStep_next h
  · exact nofun
  · exact nofun
  · exact hs
  · exact analyse_keeps_ringInv ha (wf_ringWrite hm _ _ _ _) hcap (ringInv_ringAdd hs hm _)

theorem moveEffect_keeps_ringInv {m : Move} (h : MoveEffect m s t) (hm : Memory.wf s.mem) (hc : ConfigInv s)
    (hcap : s.rbValid = true → s.rbCapNat ≤ 2 ^ 21) (hs : RingInv s) : RingInv t := by
  cases h with
  | command _ h => exact exec_keeps_ringInv hm hc hcap hs h
  | illegal => exact hs
  | register => rw [writeRegister_frame]; exact hs
  | element hr hw =>
    exact ringInv_of_kept hs hm (wf_writeWords hm _ _) hcap (ringBytesKept_below _ (element_below hc hr hw)) rfl rfl rfl
  | rx h => exact rxStep_keeps_ringInv hm hcap hs h
  | playDone h => rw [playDone_frame h]; exact hs
  | reset => exact resetWith_ringInv s.hw
  | outside => exact hs

end Sys2Proof.Machine
end

section
/-! The obligation of the state family about the ring buffer. -/

open Sys2Proof Sys2Proof.Machine

/-- Settles O11, move by move: a ring buffer has a configuration, and with it room for its C elements. -/
theorem stepKeepsRing : Obligations.StepKeepsRing := fun _ _ hm ha hc hs h =>
  step_induction h hs fun _ _ e =>
    moveEffect_keeps_ringInv e hm (configInv_congr hc rfl rfl rfl rfl rfl rfl)
      (fun hv => (configInv_bounds hc (ha.bufferConfig hv)).2.1) hs

end

section
/-! SUPPORT. How long a packed payload and a rendered message are (40_bitframer R205 to R207, 43_synth R320), and that
PCMBUF holds a message of the active configuration (46_orchestrator R442, R447). -/

namespace Sys2Proof.Machine

/-! ## Packed payloads -/

/-- The padding loop appends one filler byte for each byte that the payload is short of its capacity (40_bitframer
R207): below the capacity `k` it goes on, and at `k` the packed length is the whole number of blocks it looks for. -/
theorem padLoop_eq {n k : Nat} (hk : (8 * k + 16) % n = 0) {fuel l : Nat} {s : Bits} (hs : s.length = 8 * l)
    (hl : l ≤ k) (hf : k - l ≤ fuel) : padLoop n k fuel s = s ++ (List.replicate (k - l) fillBits).flatten := by
  induction fuel generalizing l s with
  | zero => simp [padLoop, show k - l = 0 by omega]
  | succ fuel ih =>
    rw [padLoop]
    obtain rfl | hlt := hl.eq_or_lt
    · rw [if_neg (by rw [hs]; omega)]
      simp
    · have hs' : (s ++ fillBits).length = 8 * (l + 1) := by rw [List.length_append, hs]; rfl
      rw [if_pos (.inr (by omega)), ih hs' (by omega) (by omega), show k - l = k - (l + 1) + 1 by omega,
        List.replicate_succ, List.flatten_cons, List.append_assoc]

/-- A payload that fits is packed to its capacity and 16 parity bits. -/
theorem length_packBits (gen : BitVec 17) {n k : Nat} (hk : (8 * k + 16) % n = 0) {p : List Byte} (hp : p.length ≤ k) :
    (packBits gen n k p).length = 8 * k + 16 := by
  have hf : (List.replicate (k - p.length) fillBits).flatten.length = (k - p.length) * 8 := by simp [fillBits]
  have hs := padLoop_eq hk (length_payloadBits p) hp (show k - p.length ≤ n + k + 1 by omega)
  rw [packBits, hs]
  simp only [List.length_append, hf, length_payloadBits, parity, length_crcRem]
  omega

/-! ## Rendered messages -/

@[simp] theorem length_burst (p w : Nat) (tones : List (Nat × Disc)) : (burst p w tones).length = w := by simp [burst]

@[simp] theorem length_synthAt (w fadeDiv : Nat) (tones : List (Nat × Phase)) (p : Nat) :
    (synthAt w fadeDiv tones p).length = w := by simp [synthAt]

@[simp] theorem length_synthChoices (t : Tone) (b : Bits) (w : Nat) (phases : List Phase) :
    (synthChoices t b w phases).length = w := by
  simp only [synthChoices]
  split_ifs
  · exact List.length_replicate
  · exact length_settle fun p => length_synthAt _ _ _ p

@[simp] theorem length_synth (t : Tone) (b : Bits) (w : Nat) (e : Env) : (synth t b w e).1.length = w := by
  simp [synth]

/-- Blocks of `pb` samples, and `pp` after each but the last (43_synth R318). -/
theorem length_renderBlocks (t : Tone) (pb pp : Nat) (b : Bits) (l : List Bits) (e : Env) :
    (renderBlocks t pb pp (b :: l) e).1.length = pb * (l.length + 1) + pp * l.length := by
  induction l generalizing b e with
  | nil => simp [renderBlocks]
  | cons b' l ih =>
    simp only [renderBlocks, List.length_append, length_synth, List.length_replicate, ih, List.length_cons]
    ring

/-- The sentinels stand around each payload block and its inverse (43_synth R318). -/
theorem length_msgBlocks (n : Nat) (s : Bits) : (msgBlocks n s).length = 2 * ceilDiv s.length n + 2 := by
  simp [msgBlocks, splitBits, List.length_flatMap, Function.comp_def, mul_comm]

/-- The length of a message (43_synth R320). -/
theorem length_message (s : State) (bits : Bits) :
    (s.message bits).1.length =
      msgLength s.derived.bitSamples.toNat s.derived.pauseSamples.toNat (ceilDiv bits.length s.nfreqNat) := by
  have h := length_msgBlocks s.nfreqNat bits
  rw [msgBlocks, List.cons_append, List.length_cons] at h
  rw [State.message, msgBlocks, List.cons_append, length_renderBlocks, h, Nat.succ.inj h, msgLength]

end Sys2Proof.Machine
end

section
/-! SUPPORT. What a store leaves of PCMBUF (20_memory R123, R132): every store but those of SYN_BLOCK, BUILD_SIGNAL and
TX_SEND ends below PCMBUF or begins above it. -/

namespace Sys2Proof.Machine

variable {s t : State}

/-- The bytes of PCMBUF's region read the same. -/
def PcmBytesKept (m m' : Memory) : Prop :=
  ∀ k, pcmBase ≤ k → k < specBase → Memory.readByte m' k = Memory.readByte m k

theorem PcmBytesKept.refl (m : Memory) : PcmBytesKept m m := fun _ _ _ => rfl

theorem PcmBytesKept.trans {m m' m'' : Memory} (h : PcmBytesKept m m') (h' : PcmBytesKept m' m'') :
    PcmBytesKept m m'' := fun k h1 h2 => (h' k h1 h2).trans (h k h1 h2)

/-- A store that ends below PCMBUF. -/
theorem pcmBytesKept_below (m : Memory) {a : Nat} {ws : List Word} (h : a + 4 * ws.length ≤ pcmBase) :
    PcmBytesKept m (Memory.writeWords m a ws) :=
  fun k h1 _ => readByte_writeWords_outside m a ws k (by omega)

/-- A store that begins above PCMBUF. -/
theorem pcmBytesKept_above (m : Memory) {a : Nat} (ws : List Word) (h : specBase ≤ a) :
    PcmBytesKept m (Memory.writeWords m a ws) :=
  fun k _ h2 => readByte_writeWords_outside m a ws k (by omega)

/-- A window of at most MAX_RB elements ends below PCMBUF. -/
theorem pcmBytesKept_window (m : Memory) {o : List Word} (h : o.length ≤ 2 ^ 21) :
    PcmBytesKept m (Memory.writeWords m wbufBase o) := pcmBytesKept_below m (by unfold wbufBase pcmBase; omega)

/-- The writes of `add` stay inside the ring buffer (42_ringbuffer R282). -/
theorem pcmBytesKept_ringWrite {c : Nat} (h0 : 0 < c) (hc : c ≤ 2 ^ 21) (wr k : Nat) (ws : List Word) (m : Memory) :
    PcmBytesKept m (ringWrite c wr k ws m) := by
  induction ws generalizing m k with
  | nil => exact .refl m
  | cons w ws ih =>
    have hi : (wr + k) % c < c := Nat.mod_lt _ h0
    refine .trans (pcmBytesKept_below m ?_) (ih _ _)
    simp only [List.length_singleton, rbBase, pcmBase]
    omega

/-- The zero-fill stays inside the ring buffer (42_ringbuffer R281). -/
theorem pcmBytesKept_ringClear (hc : s.rbCapNat ≤ 2 ^ 21) : PcmBytesKept s.mem (ringClear s).mem :=
  pcmBytesKept_below s.mem (by simp only [List.length_replicate, rbBase, pcmBase]; omega)

/-- A snapshot holds every element of the ring buffer (42_ringbuffer R284). -/
theorem length_snapshot (hm : Memory.wf s.mem) {o : List Word} (h : s.snapshot = some o) : o.length = s.rbCapNat := by
  obtain ⟨rb, hr, rfl⟩ := Option.map_eq_some_iff.1 h
  have := length_readWords hm hr
  simp only [ordered, List.length_append, List.length_drop, List.length_take]
  omega

/-- The commands that do not render a signal store outside PCMBUF; a ring buffer they add to or read has `C` elements,
none outside its region. -/
theorem exec_pcmBytesKept {i : Instr} (hm : Memory.wf s.mem) (hc : ConfigInv s)
    (hb : s.rbValid = true → s.cfgValid = true) (hi : i ∉ [Instr.synBlock, .buildSignal, .txSend])
    (h : exec i s = .next t) : PcmBytesKept s.mem t.mem := by
  have low {a : Nat} {ws : List Word} (h : a + 4 * ws.length ≤ rbBase) :
      PcmBytesKept s.mem (Memory.writeWords s.mem a ws) := pcmBytesKept_below _ (h.trans (by decide))
  have window {o ws : List Word} (hv : s.rbValid = true) (ho : s.snapshot = some o) (hl : ws.length ≤ o.length) :
      PcmBytesKept s.mem (Memory.writeWords s.mem wbufBase ws) :=
    pcmBytesKept_window _ (hl.trans ((length_snapshot hm ho).trans_le (configInv_bounds hc (hb hv)).2.1))
  cases i with
  | synBlock => exact absurd (by decide) hi
  | buildSignal => exact absurd (by decide) hi
  | txSend => exact absurd (by decide) hi
  | byteToBits =>
    obtain rfl := execByteToBits_next h
    exact low (by simp [bits8, bbufBase, rbBase])
  | pack =>
    obtain ⟨c, -, rfl⟩ | ⟨hv, hp, p, hr, rfl⟩ := execPack_next h
    exacts [.refl _, low (pack_below hm hc hv hp hr)]
  | unpack =>
    obtain ⟨c, -, rfl⟩ | ⟨hl, bits, hr, rfl⟩ := execUnpack_next h
    exacts [.refl _, low (unpack_below hm hc hl hr)]
  | split =>
    obtain ⟨c, -, rfl⟩ | ⟨-, hl, hn, -, rfl⟩ := execSplit_next h
    exacts [.refl _, low (split_below hc hl hn)]
  | invert =>
    obtain ⟨c, -, rfl⟩ | ⟨hv, -, -, blk, hr, rfl⟩ := execInvert_next h
    exacts [.refl _, low (invert_below hm hc hv hr)]
  | rbInit =>
    obtain ⟨c, -, rfl⟩ | ⟨-, hv, rfl⟩ := execRbInit_next h
    exacts [.refl _, pcmBytesKept_ringClear (configInv_bounds hc hv).2.1]
  | rbAdd =>
    obtain ⟨c, -, rfl⟩ | ⟨-, hv, -, x, -, rfl⟩ := execRbAdd_next h
    · exact .refl _
    · obtain ⟨h0, hC, -⟩ := configInv_bounds hc (hb hv)
      exact pcmBytesKept_ringWrite h0 hC _ _ _ _
  | rxStart =>
    obtain ⟨c, -, rfl⟩ | ⟨-, -, -, hv, ⟨-, rfl⟩ | ⟨-, rfl⟩⟩ := execRxStart_next h
    · exact .refl _
    all_goals exact pcmBytesKept_ringClear (configInv_bounds hc hv).2.1
  | rbSnapshot =>
    obtain ⟨c, -, rfl⟩ | ⟨-, hv, o, ho, rfl⟩ := execRbSnapshot_next h
    exacts [.refl _, window hv ho le_rfl]
  | rbFirst =>
    obtain ⟨c, -, rfl⟩ | ⟨-, hv, -, o, ho, rfl⟩ := execRbFirst_next h
    exacts [.refl _, window hv ho (List.length_take_le' _ _)]
  | rbLast =>
    obtain ⟨c, -, rfl⟩ | ⟨-, hv, -, o, ho, rfl⟩ := execRbLast_next h
    exacts [.refl _, window hv ho ((List.drop_sublist _ _).length_le)]
  | decode =>
    obtain ⟨c, -, rfl⟩ | ⟨-, hv, -, x, -, ht⟩ := execDecode_next h
    · exact .refl _
    · rw [ht]
      exact (low (decode_below hc hv x s.env)).trans (pcmBytesKept_above _ _ le_rfl)
  | _ => rw [exec_frame h]; exact .refl _

theorem analyse_pcmBytesKept (h : analyse s = .next t) : PcmBytesKept s.mem t.mem := by
  obtain ⟨-, rfl⟩ | ⟨-, o, -, ⟨-, rfl⟩ | ⟨-, -, rfl⟩⟩ := analyse_next h
  · exact .refl _
  · exact .refl _
  · rw [afterHit_mem]
    exact (pcmBytesKept_above _ _ (by decide)).trans (pcmBytesKept_above _ _ le_rfl)

/-- An RX step stores the ring buffer, RXBITS and SPECBUF (46_orchestrator R462, R465). -/
theorem rxStep_pcmBytesKept (ha : AgentInv s) (hc : ConfigInv s) (h : rxStep s = .next t) :
    PcmBytesKept s.mem t.mem := by
  obtain ⟨hen, ⟨-, rfl⟩ | ⟨-, -, rfl⟩ | ⟨-, -, -, rfl⟩ | ⟨-, -, -, hx⟩⟩ := rxStep_next h
  · exact .refl _
  · exact .refl _
  · exact .refl _
  · have hl : s.listening = true := (Bool.and_eq_true_iff.1 hen).1
    obtain ⟨h0, hC, -⟩ := configInv_bounds hc (ha.bufferConfig (ha.listeningBuffer hl))
    exact (pcmBytesKept_ringWrite h0 hC _ _ _ _).trans (analyse_pcmBytesKept hx)

end Sys2Proof.Machine
end

section
/-! SUPPORT. PCMBUF holds what the sink plays (20_memory R153, R154): while a playback is pending no command renders a
signal and no other store reaches PCMBUF, and TX_SEND hands over what it stored. -/

namespace Sys2Proof.Machine

variable {s t : State}

/-- The agents agree whatever moves are pending. -/
theorem agentInv_pending (ha : AgentInv s) (l : List Move) : AgentInv { s with pending := l } :=
  ⟨ha.captureOpen, ha.requests, ha.handoff, ha.listeningBuffer, ha.bufferConfig, ha.queue, ha.syncOrder⟩

/-- With nothing handed to the sink there is nothing to keep. -/
theorem playbackInv_of_none (h : s.handoff = none) : PlaybackInv s := fun _ hq => nomatch h.symm.trans hq

/-- Nothing is handed to the sink while TX is Idle (10_state R81). -/
theorem handoff_of_not_sending (ha : AgentInv s) (h : s.sending = false) : s.handoff = none := by
  simpa [h] using ha.handoff

/-- Stores outside PCMBUF keep it what the sink plays. -/
theorem playbackInv_of_kept (hs : PlaybackInv s) (hc : ConfigInv s) (hm : Memory.wf s.mem) (hm' : Memory.wf t.mem)
    (hk : PcmBytesKept s.mem t.mem) (hw : t.hw = s.hw) (ho : t.handoff = s.handoff) (hl : t.pcmlen = s.pcmlen) :
    PlaybackInv t := by
  intro q hq
  obtain ⟨h1, h2, h3⟩ := hs q (ho ▸ hq)
  obtain ⟨-, -, -, -, hpcm, -⟩ := wellFormed_bounds hc.params
  refine ⟨hw ▸ h1, hl ▸ h2, (readWords_congr hm hm' _ _ fun k hk1 hk2 => hk k hk1 ?_).trans h3⟩
  unfold pcmBase specBase at *
  omega

/-- A stored signal is read back (43_synth R322). -/
theorem readWords_storePcm (hm : Memory.wf s.mem) (q : List Sample × Env) :
    Memory.readWords (storePcm q s).mem pcmBase q.1.length = some (q.1.map sampleWord) := by
  simpa [storePcm] using readWords_writeWords hm pcmBase (q.1.map sampleWord)

/-- The lines 3, 4 and 12 of 46_orchestrator R442, on blocks and message bits and on the room for a message. -/
theorem configValid_blocks {hw : Params} {p : Profile} {u : Tuning} (h : configValid hw p u = true) :
    p.nfreq.toNat % 8 = 0 ∧ p.nfreq.toNat ≠ 0 ∧ 16 ≤ p.nblk.toNat * p.nfreq.toNat ∧ (quantities p u).c ≤ hw.maxPcm := by
  simp only [configValid, Bool.and_eq_true, decide_eq_true_eq, bne_iff_ne, beq_iff_eq, ne_eq, BitVec.toNat_eq] at h
  simp_all

/-- Whole blocks are counted exactly (00_scope R17). -/
theorem ceilDiv_mul_self (b : Nat) {n : Nat} (hn : 0 < n) : ceilDiv (b * n) n = b := by
  rw [ceilDiv, Nat.add_sub_assoc hn, mul_comm, Nat.mul_add_div hn, Nat.div_eq_of_lt (by omega)]
  rfl

/-- The payload capacity with its parity bits is the number of message bits (10_state R70). -/
theorem quantities_packed_eq {hw : Params} {p : Profile} {u : Tuning} (h : configValid hw p u = true) :
    8 * (quantities p u).k + 16 = p.nblk.toNat * p.nfreq.toNat := by
  obtain ⟨h8, -, h16, -⟩ := configValid_blocks h
  have e : p.nblk.toNat * p.nfreq.toNat = 8 * (p.nblk.toNat * (p.nfreq.toNat / 8)) := by
    conv_lhs => rw [← Nat.div_mul_cancel (Nat.dvd_of_mod_eq_zero h8)]
    ring
  have hk : (quantities p u).k = p.nblk.toNat * (p.nfreq.toNat / 8) - 2 := rfl
  omega

/-- The derived registers that the length of a message is made of (10_state R70, R71). -/
theorem derived_of_valid (hc : ConfigInv s) (hv : s.cfgValid = true) :
    let q := quantities s.activeProfile s.activeTuning
    s.derived.bitSamples.toNat = q.pb ∧ s.derived.pauseSamples.toNat = q.pp ∧ s.rbCapNat = q.c ∧
      s.payloadCapNat = q.k := by
  have hd := hc.derived
  rw [hv, if_pos rfl] at hd
  obtain ⟨epb, epp, -, -, ec, ek, -⟩ := derivedFit s.hw s.activeProfile s.activeTuning hc.params (hc.valid hv)
  rw [← hd] at epb epp ec ek
  exact ⟨epb, epp, ec, ek⟩

/-- PCMBUF has room for the `C` samples of a message (46_orchestrator R442). -/
theorem rbCapNat_le_maxPcm (hc : ConfigInv s) (hv : s.cfgValid = true) : s.rbCapNat ≤ s.hw.maxPcm := by
  obtain ⟨-, -, -, hcap⟩ := configValid_blocks (hc.valid hv)
  obtain ⟨-, -, ec, -⟩ := derived_of_valid hc hv
  exact ec.trans_le hcap

/-- Under a valid configuration a payload that fits is rendered to `C` samples (43_synth R320). -/
theorem length_message_packBits (hc : ConfigInv s) (hv : s.cfgValid = true) {p : List Byte}
    (hp : p.length ≤ s.payloadCapNat) :
    (s.message (packBits s.hw.gen s.nfreqNat s.payloadCapNat p)).1.length = s.rbCapNat := by
  obtain ⟨-, hn, -, -⟩ := configValid_blocks (hc.valid hv)
  obtain ⟨epb, epp, ec, ek⟩ := derived_of_valid hc hv
  have hbits : 8 * s.payloadCapNat + 16 = s.nblkNat * s.nfreqNat := ek ▸ quantities_packed_eq (hc.valid hv)
  have hlen := length_packBits s.hw.gen (n := s.nfreqNat) (by rw [hbits]; exact Nat.mul_mod_left _ _) hp
  have hblocks : ceilDiv (s.nblkNat * s.nfreqNat) s.nfreqNat = s.nblkNat := ceilDiv_mul_self _ (Nat.pos_of_ne_zero hn)
  rw [length_message, hlen, hbits, hblocks, epb, epp, ec]
  rfl

theorem exec_keeps_playbackInv {i : Instr} (hm : Memory.wf s.mem) (ha : AgentInv s) (hc : ConfigInv s)
    (hs : PlaybackInv s) (h : exec i s = .next t) : PlaybackInv t := by
  have idle (hi : s.sending = false) : s.handoff = none := handoff_of_not_sending ha hi
  cases i with
  | synBlock =>
    obtain ⟨c, -, rfl⟩ | ⟨hi, -, -, -, b, -, rfl⟩ := execSynBlock_next h
    · exact hs
    · exact playbackInv_of_none (idle hi)
  | buildSignal =>
    obtain ⟨c, -, rfl⟩ | ⟨hi, -, -, -, b, -, rfl⟩ := execBuildSignal_next h
    · exact hs
    · exact playbackInv_of_none (idle hi)
  | txSend =>
    obtain ⟨c, -, rfl⟩ | ⟨-, hv, hp, p, hr, rfl⟩ := execTxSend_next h
    · exact hs
    · rintro q hq
      obtain rfl := Option.some.inj hq
      have hl := length_message_packBits hc hv ((length_pbuf hm hr).trans_le hp) ▸ rbCapNat_le_maxPcm hc hv
      obtain ⟨-, -, -, -, hpcm, -⟩ := wellFormed_bounds hc.params
      exact ⟨hl, (toNat_ofNat_word (by omega)).symm, readWords_storePcm hm _⟩
  | _ =>
    have hk := exec_pcmBytesKept hm hc ha.bufferConfig (by decide) h
    have hm' := exec_keeps_memoryWf hm h
    rw [exec_frame h] at hk hm' ⊢
    exact playbackInv_of_kept hs hc hm hm' hk rfl rfl rfl

theorem moveEffect_keeps_playbackInv {m : Move} (h : MoveEffect m s t) (hm : Memory.wf s.mem) (ha : AgentInv s)
    (hc : ConfigInv s) (hs : PlaybackInv s) : PlaybackInv t := by
  cases h with
  | command _ h => exact exec_keeps_playbackInv hm ha hc hs h
  | illegal => exact hs
  | register => rw [writeRegister_frame]; exact hs
  | element hr hw =>
    refine playbackInv_of_kept hs hc hm (wf_writeWords hm _ _) (pcmBytesKept_below _ ?_) rfl rfl rfl
    exact (element_below hc hr hw).trans (by decide)
  | rx h =>
    have hk := rxStep_pcmBytesKept ha hc h
    have hm' := rxStep_keeps_memoryWf hm h
    rw [rxStep_frame h] at hk hm' ⊢
    exact playbackInv_of_kept hs hc hm hm' hk rfl rfl rfl
  | playDone h =>
    rw [(playDone_next h).2]
    exact playbackInv_of_none rfl
  | reset => exact resetWith_playbackInv s.hw
  | outside => exact hs

end Sys2Proof.Machine
end

section
/-! The obligation of the memory family about playback. -/

open Sys2Proof Sys2Proof.Machine

/-- Settles O12, move by move. -/
theorem stepKeepsPlayback : Obligations.StepKeepsPlayback := fun _ _ hm ha hc hs h =>
  step_induction h hs fun _ rest e =>
    moveEffect_keeps_playbackInv e hm (agentInv_pending ha rest) (configInv_congr hc rfl rfl rfl rfl rfl rfl) hs

end

section
/-! SUPPORT. The address map (20_memory R122, R123): no two regions overlap, and an access is a bus error exactly when
no region takes it. -/

namespace Sys2Proof.Machine

variable {s : State}

theorem Region.mem_all (r : Region) : r ∈ Region.all := by cases r <;> decide

/-! ## No two regions overlap -/

/-- Where the next region begins; EVDATA is the last one. -/
def Region.limit : Region → Nat
  | .registers => pbufBase
  | .pbuf => bbufBase
  | .bbuf => ibufBase
  | .ibuf => inbufBase
  | .inbuf => rbBase
  | .rb => wbufBase
  | .wbuf => pcmBase
  | .pcm => specBase
  | .spec => rxbitsBase
  | .rxbits | .evdata => evdataBase

/-- Each region but EVDATA ends where the next begins or before it. -/
theorem region_end_le_limit (hw : s.hw.wellFormed = true) (hc : s.rbValid = true → s.rbCapNat ≤ s.hw.maxRb)
    {r : Region} (hr : r ≠ .evdata) : r.base + 4 * r.size s ≤ r.limit := by
  obtain ⟨h1, h2, h3, h4, h5, h6⟩ := wellFormed_bounds hw
  cases r with
  | evdata => exact absurd rfl hr
  | rb =>
    have hsize : Region.rb.size s ≤ 2 ^ 21 := by
      unfold Region.size
      split_ifs with hv
      · exact (hc hv).trans h4
      · exact Nat.zero_le _
    simp only [Region.base, Region.limit, rbBase, wbufBase]
    omega
  | _ =>
    simp only [Region.base, Region.limit, Region.size, pbufBase, bbufBase, ibufBase, ibufSize, inbufBase, rbBase, wbufBase,
      pcmBase, specBase, rxbitsBase, evdataBase]
    omega

/-- A region with a base above that of another lies beyond the other's limit. -/
theorem limit_le_base : ∀ r ∈ Region.all, ∀ r' ∈ Region.all, r.base < r'.base → r ≠ .evdata ∧ r.limit ≤ r'.base := by
  decide

theorem base_injective : ∀ r ∈ Region.all, ∀ r' ∈ Region.all, r.base = r'.base → r = r' := by decide

theorem holds_iff {a : Nat} {r : Region} :
    Region.holds s a r = true ↔ r.base ≤ a ∧ a < r.base + 4 * r.size s := by simp [Region.holds]

/-- Of two regions that hold an address neither begins above the other. -/
theorem base_le_of_holds (hw : s.hw.wellFormed = true) (hc : s.rbValid = true → s.rbCapNat ≤ s.hw.maxRb) {a : Nat}
    {r r' : Region} (h : Region.holds s a r = true) (h' : Region.holds s a r' = true) : r'.base ≤ r.base := by
  by_contra hlt
  obtain ⟨hr, hl⟩ := limit_le_base r r.mem_all r' r'.mem_all (not_le.1 hlt)
  have hend := region_end_le_limit hw hc hr
  have ha := (holds_iff.1 h).2
  have ha' := (holds_iff.1 h').1
  omega

/-- Element `i` of a region is one of its elements (20_memory R123). -/
theorem holds_element (r : Region) (i : Nat) : Region.holds s (r.base + 4 * i) r = decide (i < r.size s) := by
  simp [Region.holds]

/-! ## Bus errors -/

/-- An access is unmapped when it is not an aligned word access inside a region (20_memory R122). -/
theorem regionOf_eq_none {n : Nat} {a : Word} :
    regionOf s n a = none ↔ n ≠ 32 ∨ a.toNat % 4 ≠ 0 ∨ ∀ r, Region.holds s a.toNat r = false := by
  unfold regionOf
  split_ifs with h
  · simp [h, List.find?_eq_none, Region.mem_all]
  · simp only [true_iff]
    tauto

theorem busRead_unmapped {n : Nat} {a : Word} (h : regionOf s n a = none) : busRead n a s = .refused .busError := by
  rw [busRead, h]

theorem busWrite_unmapped {n : Nat} {a : Word} (h : regionOf s n a = none) (v : Word) :
    busWrite n a v s = .refused .busError := by rw [busWrite, h]

/-- No command is refused: it raises, faults at an operand, or finishes (60_exceptions R503). -/
theorem exec_ne_refused (i : Instr) (s : State) (f : Refusal) : exec i s ≠ .refused f := by
  cases i with
  | rxStop => simp only [exec, execRxStop]; cases s.rxState <;> simp
  | rxCancel => simp only [exec, execRxCancel]; cases s.rxState <;> simp
  | evqPop => simp only [exec, execEvqPop]; cases s.evq <;> simp
  | _ =>
    simp only [exec, execNop, execCfgCommit, execByteToBits, execBitsToByte, execPack, execUnpack, execSplit, execInvert,
      execCrcParity, execCrcCheck, execRbInit, execRbAdd, execRbSnapshot, execRbFirst, execRbLast, execSynBlock,
      execBuildSignal, execSyncTest, execDecode, execRxStart, execTxSend]
    simp [ite_eq_iff, withRead_eq_refused]

theorem runCommand_ne_refused (w : Word) (s : State) (f : Refusal) : runCommand w s ≠ .refused f := by
  cases hd : decodeWord w with
  | ok i => rw [runCommand_ok hd]; exact exec_ne_refused i s f
  | error e => rw [runCommand_error hd]; exact raise_ne_refused

/-- A mapped read answers a word or faults. -/
theorem busRead_mapped {n : Nat} {a : Word} {r : Region} (h : regionOf s n a = some r) (f : Refusal) :
    busRead n a s ≠ .refused f := by
  simp [busRead, h, withRead_eq_refused]

/-- A mapped write runs a command, stores, or is ignored. -/
theorem busWrite_mapped {n : Nat} {a : Word} {r : Region} (h : regionOf s n a = some r) (v : Word) (f : Refusal) :
    busWrite n a v s ≠ .refused f := by
  rw [busWrite, h]
  cases r with
  | registers => simp [writeRegion, ite_eq_iff, runCommand_ne_refused]
  | _ => exact nofun

end Sys2Proof.Machine
end

section
/-! SUPPORT. What a host access leaves unchanged (20_memory R130). -/

namespace Sys2Proof.Machine

variable {s t : State}

/-- What the host last read is read by no register or buffer. -/
theorem busRead_busData (n : Nat) (a : Word) (b : Option Word) (s : State) :
    busRead n a { s with busData := b } = busRead n a s := rfl

/-- The words that the writable registers show, in the order of `writableOffsets` (20_memory R129). -/
def State.hostWords (s : State) : List Word :=
  [s.ctrlWord, s.arg0, s.arg1, s.plen, s.blen, s.profile.f0, s.profile.bitMs, s.profile.pauseMs, s.profile.nblk,
    s.profile.nfreq, s.profile.spacing, s.profile.fs, s.tuning.startFactor, s.tuning.endFactor, s.tuning.bwOrder,
    s.tuning.stepFactor, s.tuning.freqOffset, s.tuning.agg, s.tuning.fadeDiv]

theorem map_readRegister_writable (s : State) : writableOffsets.map s.readRegister = s.hostWords := rfl

theorem getElem?_hostWords (s : State) {o : Nat} (ho : o ∈ writableOffsets) :
    s.hostWords[writableOffsets.idxOf o]? = some (s.readRegister o) := by
  rw [← map_readRegister_writable, List.getElem?_map, List.getElem?_idxOf ho]
  rfl

/-- A register write replaces one of these words. -/
theorem hostWords_writeRegister (s : State) {x : Nat} (hx : x ∈ writableOffsets) (v : Word) :
    (s.writeRegister x v).hostWords =
      s.hostWords.set (writableOffsets.idxOf x) ((s.writeRegister x v).readRegister x) := by
  fin_cases hx <;> rfl

/-- A write to one register leaves what every other one shows. -/
theorem readRegister_writeRegister_ne (s : State) {o x : Nat} (ho : o ∈ writableOffsets) (hx : o ≠ x) (v : Word) :
    (s.writeRegister x v).readRegister o = s.readRegister o := by
  by_cases hm : x ∈ writableOffsets
  · have hi : writableOffsets.idxOf x ≠ writableOffsets.idxOf o := fun e => hx ((List.idxOf_inj hm).1 e).symm
    rw [← Option.some_inj, ← getElem?_hostWords _ ho, ← getElem?_hostWords _ ho, hostWords_writeRegister s hm,
      List.getElem?_set_ne hi]
  · rw [writeRegister_of_not_mem s hm]

/-- A host write other than to CMD writes a register or an element at its address, or nothing. -/
theorem busWrite_stores {n : Nat} {a v : Word} (h : busWrite n a v s = .next t) (hc : a ≠ 0x0000000C#32) :
    t = s.writeRegister a.toNat v ∨ (∃ w, t = { s with mem := Memory.writeWords s.mem a.toNat [w] }) ∨ t = s := by
  obtain ⟨-, ha, -⟩ | ⟨-, -, ht⟩ | ⟨-, ht⟩ | ⟨-, ht⟩ | ⟨-, ht⟩ | ⟨-, ht⟩ := busWrite_next h
  · exact absurd (toNat_eq_cmdOffset.1 ha) hc
  · exact .inl ht
  · exact .inr (.inl ⟨_, ht⟩)
  · exact .inr (.inl ⟨_, ht⟩)
  · exact .inr (.inl ⟨_, ht⟩)
  · exact .inr (.inr ht)

end Sys2Proof.Machine
end

section
/-! The obligations of the memory family about host accesses and the address map. -/

open Sys2Proof Sys2Proof.Machine

/-- Settles O21: a write to a register keeps the bytes and the other registers, a write to an element the registers and
the other bytes. -/
theorem hostAccessFrame : Obligations.HostAccessFrame := by
  refine ⟨fun n a s t h => ?read, fun n a v s t h hc => ?write, fun s e rest he => ?pop⟩
  case read =>
    obtain ⟨r, v, -, -, rfl⟩ := busRead_next h
    exact ⟨rfl, (busRead_busData n a _ s).trans h⟩
  case write =>
    obtain rfl | ⟨w, rfl⟩ | rfl := busWrite_stores h hc
    · have hmem : (s.writeRegister a.toNat v).mem = s.mem := by rw [writeRegister_frame]
      refine ⟨?_, fun k _ => by rw [hmem], fun o ho hne => readRegister_writeRegister_ne s ho hne v⟩
      rw [hmem]
      exact writeRegister_frame s a.toNat v
    · exact ⟨rfl, fun k hk => readByte_writeWords_outside s.mem a.toNat [w] k hk, fun _ _ _ => rfl⟩
    · exact ⟨rfl, fun _ _ => rfl, fun _ _ _ => rfl⟩
  case pop =>
    simp only [exec, execEvqPop, he, finish]

/-- Settles O24: a bus error is an access that no region takes, and no command is refused. -/
theorem busErrors : Obligations.BusErrors := by
  refine fun s n a v => ⟨fun h => ?_, fun hn h4 ⟨r, hr⟩ => ?_⟩
  · have hu := regionOf_eq_none.2 h
    exact ⟨busRead_unmapped hu, busWrite_unmapped hu v⟩
  · have hm : regionOf s n a ≠ none := by
      rw [ne_eq, regionOf_eq_none]
      rintro (h | h | h)
      · exact h hn
      · exact h h4
      · exact absurd hr (by simp [h r])
    obtain ⟨r', hr'⟩ := Option.ne_none_iff_exists'.1 hm
    exact ⟨busRead_mapped hr' _, busWrite_mapped hr' v _⟩

/-- Settles O25: the map's rows, and of two regions that hold an address neither begins above the other. -/
theorem regionsDisjoint : Obligations.RegionsDisjoint := by
  refine ⟨fun s t ht => ?rows, ⟨rfl, fun s e rest he => ?evdata⟩, fun s a r r' hw hc h h' => ?disjoint,
    fun s r i => holds_element r i⟩
  case rows => fin_cases ht <;> exact ⟨rfl, rfl⟩
  case evdata => simp only [Region.size, he]
  case disjoint =>
    exact base_injective r r.mem_all r' r'.mem_all
      (le_antisymm (base_le_of_holds hw hc h' h) (base_le_of_holds hw hc h h'))

end

section
/-! SUPPORT. The decoder and the encoder are inverse to each other, and what the illegal words are (30_encoding R170 to
R174). -/

namespace Sys2Proof

/-- The opcode map has no row but the commands' own (30_encoding R173). -/
theorem decodeOpcode_eq_ok_iff {n : Nat} {i : Instr} : decodeOpcode n = .ok i ↔ i.opcode.toNat = n := by
  constructor
  · intro h
    unfold decodeOpcode at h
    split at h <;> cases h <;> rfl
  · rintro rfl
    cases i <;> rfl

theorem decodeOpcode_error {n : Nat} {e : DecodeError} (h : decodeOpcode n = .error e) : e = .unassignedOpcode := by
  unfold decodeOpcode at h
  split at h <;> cases h
  rfl

/-- An opcode is unassigned exactly where no command has it (30_encoding R174). -/
theorem decodeOpcode_eq_error_iff {n : Nat} :
    decodeOpcode n = .error .unassignedOpcode ↔ ∀ i : Instr, i.opcode.toNat ≠ n := by
  cases hd : decodeOpcode n with
  | ok i => exact ⟨nofun, fun h => absurd (decodeOpcode_eq_ok_iff.1 hd) (h i)⟩
  | error e =>
    rw [decodeOpcode_error hd]
    refine ⟨fun _ i hi => ?_, fun _ => rfl⟩
    cases hd.symm.trans (decodeOpcode_eq_ok_iff.2 hi)

/-- The listed ranges of reserved values are the gaps of the opcode map (30_encoding R173, R174). -/
theorem reservedOpcode_iff_decodeOpcode :
    ∀ n < 256, reservedOpcode n = true ↔ decodeOpcode n = .error .unassignedOpcode := by
  intro n hn
  unfold decodeOpcode
  split
  case h_25 => -- no row of R173: `n` lies in a gap
    simp only [reservedOpcode, Bool.or_eq_true, Bool.and_eq_true, decide_eq_true_eq, iff_true, imp_false] at *
    omega
  all_goals decide

theorem encode_rsv (i : Instr) : (encode i).extractLsb' 8 24 = 0#24 := BitVec.extractLsb'_append_eq_left

theorem encode_opc (i : Instr) : (encode i).extractLsb' 0 8 = i.opcode := BitVec.extractLsb'_append_eq_right

theorem word_eq_rsv_append_opc (w : Word) : w.extractLsb' 8 24 ++ w.extractLsb' 0 8 = w := by
  rw [BitVec.extractLsb'_append_extractLsb'_eq_extractLsb' (by rfl)]
  exact BitVec.extractLsb'_eq_self

theorem decodeWord_of_rsv_eq_zero {w : Word} (h : w.extractLsb' 8 24 = 0#24) :
    decodeWord w = decodeOpcode (w.extractLsb' 0 8).toNat := if_pos h

theorem decodeWord_of_rsv_ne_zero {w : Word} (h : w.extractLsb' 8 24 ≠ 0#24) :
    decodeWord w = .error .reservedBits := if_neg h

theorem decodeWord_of_reservedOpcode {w : Word} (h : w.extractLsb' 8 24 = 0#24)
    (hr : reservedOpcode (w.extractLsb' 0 8).toNat = true) : decodeWord w = .error .unassignedOpcode := by
  rw [decodeWord_of_rsv_eq_zero h]
  exact (reservedOpcode_iff_decodeOpcode _ (BitVec.isLt _)).1 hr

/-- A command has one word, and that word has one command (30_encoding R176). -/
theorem decodeWord_eq_ok_iff {w : Word} {i : Instr} : decodeWord w = .ok i ↔ w = encode i := by
  constructor
  · intro h
    have hr : w.extractLsb' 8 24 = 0#24 := by
      by_contra hr
      cases (decodeWord_of_rsv_ne_zero hr).symm.trans h
    rw [decodeWord_of_rsv_eq_zero hr, decodeOpcode_eq_ok_iff, BitVec.toNat_inj] at h
    rw [← word_eq_rsv_append_opc w, hr, ← h, encode]
  · rintro rfl
    rw [decodeWord_of_rsv_eq_zero (encode_rsv i), decodeOpcode_eq_ok_iff, encode_opc]

theorem decodeWord_encode (i : Instr) : decodeWord (encode i) = .ok i := decodeWord_eq_ok_iff.2 rfl

/-- Four bytes are one word to the decoder, the lowest first, and the rest stays (20_memory R125). -/
theorem decodeBytes_wordBytes (w : Word) (rest : List Byte) :
    decodeBytes (Machine.wordBytes w ++ rest) = some (decodeWord w, rest) := by
  simp only [Machine.wordBytes, List.cons_append, List.nil_append, decodeBytes, Machine.word_of_bytes]

end Sys2Proof
end

section
/-! The obligations of the encoding family. -/

open Sys2Proof Sys2Proof.Machine

/-- Settles O1: the bytes of a command's word are read back as that word, and the word has no other command. -/
theorem decodeEncodeAgree : Obligations.DecodeEncodeAgree :=
  ⟨fun i rest _ => by rw [decodeBytes_wordBytes, decodeWord_encode], fun _ _ h => decodeWord_eq_ok_iff.1 h⟩

/-- Settles O2: the reserved values are the gaps of the opcode map, an illegal word is a decode error, and every other
word decodes. -/
theorem illegalWords : Obligations.IllegalWords := by
  refine ⟨fun n hn => (reservedOpcode_iff_decodeOpcode n hn).trans decodeOpcode_eq_error_iff, fun s w h => ?illegal,
    fun s w hr ho => ?legal⟩
  case illegal =>
    rw [busWrite_cmd]
    by_cases hr : w.extractLsb' 8 24 = 0#24
    · exact runCommand_error (decodeWord_of_reservedOpcode hr (h.resolve_left (absurd hr))) s
    · exact runCommand_error (decodeWord_of_rsv_ne_zero hr) s
  case legal =>
    cases hd : decodeWord w with
    | ok i => exact ⟨i, rfl, (busWrite_cmd w s).trans (runCommand_ok hd s)⟩
    | error e =>
      rw [decodeWord_of_rsv_eq_zero hr] at hd
      rw [decodeOpcode_error hd, ← reservedOpcode_iff_decodeOpcode _ (BitVec.isLt _), ho] at hd
      cases hd

/-- Settles O3: the legal words are their commands' words, 0x7E is reserved, and 0x112 has a bit of RSV set. -/
theorem tableWordsDecode : Obligations.TableWordsDecode :=
  ⟨decodeWord_encode .nop, decodeWord_encode .pack, decodeWord_encode .crcCheck, decodeWord_encode .rbAdd,
    decodeWord_encode .buildSignal, decodeWord_encode .syncTest, decodeWord_encode .decode, decodeWord_encode .rxStart,
    decodeWord_encode .evqPop, decodeWord_of_reservedOpcode (by decide) (by decide),
    decodeWord_of_rsv_ne_zero (by decide)⟩

end

section
/-! SUPPORT. Runs of elements: two runs end to end, a part of a run, and a run of values that is stored and read back
(20_memory R123, R124). -/

namespace Sys2Proof.Machine

/-- Two runs end to end are read as one. -/
theorem readWords_add {m : Memory} (h : m.wf) {a k l : Nat} {ws vs : List Word}
    (hk : Memory.readWords m a k = some ws) (hl : Memory.readWords m (a + 4 * k) l = some vs) :
    Memory.readWords m a (k + l) = some (ws ++ vs) := by
  obtain ⟨rfl, hw⟩ := (readWords_eq_some_iff_getElem h _ _ _).1 hk
  obtain ⟨rfl, hv⟩ := (readWords_eq_some_iff_getElem h _ _ _).1 hl
  refine (readWords_eq_some_iff_getElem h _ _ _).2 ⟨List.length_append, fun i hi => ?_⟩
  rw [List.getElem_append]
  split_ifs with hlt
  · exact hw i hlt
  · rw [← hv (i - ws.length), show a + 4 * ws.length + 4 * (i - ws.length) = a + 4 * i by omega]

/-- A part of a run is read as that part. -/
theorem readWords_part {m : Memory} (h : m.wf) {a n i k : Nat} {ws : List Word}
    (hr : Memory.readWords m a n = some ws) (hik : i + k ≤ n) :
    Memory.readWords m (a + 4 * i) k = some ((ws.drop i).take k) := by
  obtain ⟨rfl, hw⟩ := (readWords_eq_some_iff_getElem h _ _ _).1 hr
  refine (readWords_eq_some_iff_getElem h _ _ _).2 ⟨by simp; omega, fun j hj => ?_⟩
  rw [List.getElem_take, List.getElem_drop, ← hw, show a + 4 * i + 4 * j = a + 4 * (i + j) by omega]

/-- Values are read back as they were stored where reading an element undoes storing it. -/
theorem readWords_writeWords_map {α : Type} {enc : α → Word} {dec : Word → α} (hd : ∀ x, dec (enc x) = x)
    {m : Memory} (h : m.wf) (a : Nat) {n : Nat} {xs : List α} (hn : xs.length = n) :
    (Memory.readWords (Memory.writeWords m a (xs.map enc)) a n).map (fun ws => ws.map dec) = some xs := by
  subst hn
  have hr := readWords_writeWords h a (xs.map enc)
  rw [List.length_map] at hr
  simp [hr, Function.comp_def, hd]

@[simp] theorem wordBit_bitWord (b : Bool) : wordBit (bitWord b) = b := by cases b <;> rfl

@[simp] theorem wordByte_byteWord (b : Byte) : wordByte (byteWord b) = b := BitVec.setWidth_setWidth_of_le _ (by decide)

/-- A store of `n` elements keeps every byte outside them. -/
theorem bytesKept_of_store {s t : State} {a n : Nat} {ws : List Word} (ht : t.mem = Memory.writeWords s.mem a ws)
    (hn : ws.length = n) : BytesKept s t a n := by
  subst hn
  exact fun k hk => by rw [ht, readByte_writeWords_outside s.mem a ws k hk]

end Sys2Proof.Machine
end

section
/-! SUPPORT. The functions of the bit framer (40_bitframer R200 to R210): bytes and bits, aligned groups, and what
`pack` builds and `unpack` takes apart. -/

namespace Sys2Proof.Machine

/-! ## Bytes and bits -/

@[simp] theorem length_bits8 (b : Byte) : (bits8 b).length = 8 := rfl

theorem bits8_eq_map (b : Byte) : bits8 b = (List.range 8).map fun k => b.getLsbD (7 - k) := rfl

theorem bitsNat_concat (s : Bits) (b : Bool) : bitsNat (s ++ [b]) = 2 * bitsNat s + b.toNat := List.foldl_concat ..

theorem bitsNat_lt (s : Bits) : bitsNat s < 2 ^ s.length := by
  induction s using List.reverseRecOn with
  | nil => exact Nat.one_pos
  | append_singleton s b ih =>
    have hb := b.toNat_le
    rw [bitsNat_concat, List.length_append, List.length_singleton, pow_succ]
    omega

/-- Eight bits are a byte of their own value. -/
theorem toNat_byte8_of_length {s : Bits} (h : s.length = 8) : (byte8 s).toNat = bitsNat s := by
  rw [byte8, BitVec.toNat_ofNat, Nat.mod_eq_of_lt (h ▸ bitsNat_lt s)]

/-- The first bit is the most significant (40_bitframer R201). -/
theorem toNat_byte8 (b0 b1 b2 b3 b4 b5 b6 b7 : Bool) : (byte8 [b0, b1, b2, b3, b4, b5, b6, b7]).toNat =
    128 * b0.toNat + 64 * b1.toNat + 32 * b2.toNat + 16 * b3.toNat + 8 * b4.toNat + 4 * b5.toNat + 2 * b6.toNat +
      b7.toNat := by
  rw [toNat_byte8_of_length rfl]
  simp only [bitsNat, List.foldl_cons, List.foldl_nil]
  ring

@[simp] theorem byte8_bits8 (b : Byte) : byte8 (bits8 b) = b := by
  revert b
  decide

theorem bits8_injective : Function.Injective bits8 := Function.LeftInverse.injective byte8_bits8

theorem bits8_fillByte : bits8 fillByte = fillBits := rfl

theorem bits8_bne_fillBits (b : Byte) : (bits8 b != fillBits) = (b != fillByte) := by
  rw [← bits8_fillByte, Bool.eq_iff_iff, bne_iff_ne, bne_iff_ne, bits8_injective.ne_iff]

/-! ## Aligned groups -/

theorem octets_of_length_lt {s : Bits} (h : s.length < 8) : octets s = [] := by
  fun_cases octets s with
  | case1 => simp only [List.length_cons] at h; omega
  | case2 => rfl

theorem octets_append {g : Bits} (hg : g.length = 8) (s : Bits) : octets (g ++ s) = g :: octets s := by
  match g, hg with
  | [_, _, _, _, _, _, _, _], _ => rfl

/-- Group `g` is the eight bits from `8 g` on (40_bitframer R208). -/
theorem octets_eq_map (s : Bits) :
    octets s = (List.range (s.length / 8)).map fun g => (s.drop (8 * g)).take 8 := by
  induction hn : s.length / 8 generalizing s with
  | zero => exact octets_of_length_lt (by omega)
  | succ n ih =>
    have hg : (s.take 8).length = 8 := by rw [List.length_take]; omega
    have hs : (s.drop 8).length / 8 = n := by rw [List.length_drop]; omega
    conv_lhs => rw [← List.take_append_drop 8 s, octets_append hg, ih _ hs]
    rw [List.range_succ_eq_map, List.map_cons, List.map_map]
    simp [Function.comp_def, List.drop_drop, Nat.mul_succ, Nat.add_comm]

/-- Groups of eight bits put end to end are found again. -/
theorem octets_flatten {gs : List Bits} (h : ∀ g ∈ gs, g.length = 8) : octets gs.flatten = gs := by
  induction gs with
  | nil => rfl
  | cons g gs ih =>
    rw [List.flatten_cons, octets_append (h g List.mem_cons_self), ih fun x hx => h x (List.mem_cons_of_mem _ hx)]

/-! ## unpack and pack -/

theorem unpackBits_of_length_lt {s : Bits} (h : s.length < 16) : unpackBits s = ([], true) := if_pos h

/-- `unpack` drops the sixteen parity bits and the groups that equal the filler (40_bitframer R208). -/
theorem unpackBits_append (d : Bits) {c : Bits} (hc : c.length = 16) :
    unpackBits (d ++ c) = (((octets d).filter fun g => g != fillBits).map byte8, d.length % 8 != 0) := by
  have hl : (d ++ c).length = d.length + 16 := by rw [List.length_append, hc]
  rw [unpackBits, if_neg (by omega)]
  simp only [hl, Nat.add_sub_cancel, List.take_left']

/-- The groups of a packed payload: its bytes and the fillers (40_bitframer R207). -/
def packedGroups (k : Nat) (p : List Byte) : List Bits := p.map bits8 ++ List.replicate (k - p.length) fillBits

theorem length_of_mem_packedGroups {k : Nat} {p : List Byte} : ∀ g ∈ packedGroups k p, g.length = 8 := by
  intro g hg
  obtain hg | hg := List.mem_append.1 hg
  · obtain ⟨b, -, rfl⟩ := List.mem_map.1 hg
    rfl
  · rw [List.eq_of_mem_replicate hg]
    rfl

theorem flatten_packedGroups (k : Nat) (p : List Byte) :
    (packedGroups k p).flatten = p.flatMap bits8 ++ (List.replicate (k - p.length) fillBits).flatten := by
  rw [packedGroups, List.flatten_append, List.flatMap_def]

/-- The groups that `unpack` keeps are the payload bytes other than the filler (40_bitframer R210). -/
theorem filter_packedGroups (k : Nat) (p : List Byte) :
    ((packedGroups k p).filter fun g => g != fillBits).map byte8 = p.filter fun x => x != fillByte := by
  have hf : (List.replicate (k - p.length) fillBits).filter (fun g => g != fillBits) = [] := by simp
  rw [packedGroups, List.filter_append, hf, List.append_nil, List.filter_map, List.map_map]
  simp [Function.comp_def, bits8_bne_fillBits]

/-- A payload that fits is packed to its groups and their parity (40_bitframer R205, R207). -/
theorem packBits_eq (gen : BitVec 17) {n k : Nat} (hk : (8 * k + 16) % n = 0) {p : List Byte} (hp : p.length ≤ k) :
    packBits gen n k p = (packedGroups k p).flatten ++ parity gen (packedGroups k p).flatten := by
  have hs := padLoop_eq hk (length_payloadBits p) hp (show k - p.length ≤ n + k + 1 by omega)
  rw [packBits, hs, flatten_packedGroups, payloadBits]

@[simp] theorem length_parity (gen : BitVec 17) (s : Bits) : (parity gen s).length = 16 := length_crcRem gen _

/-- What comes back of a packed payload (40_bitframer R210). -/
theorem unpackBits_packBits (gen : BitVec 17) {n k : Nat} (hk : (8 * k + 16) % n = 0) {p : List Byte}
    (hp : p.length ≤ k) : unpackBits (packBits gen n k p) = (p.filter fun x => x != fillByte, false) := by
  have hlen : (packedGroups k p).flatten.length % 8 = 0 := by
    rw [List.length_flatten, List.map_congr_left length_of_mem_packedGroups]
    simp
  rw [packBits_eq gen hk hp, unpackBits_append _ (length_parity gen _), octets_flatten length_of_mem_packedGroups,
    filter_packedGroups, hlen]
  rfl

/-- The payload capacity and the parity fill whole blocks (40_bitframer R207). -/
theorem packed_eq_blocks {n b : Nat} (h8 : n % 8 = 0) (h16 : 16 ≤ b * n) : 8 * (b * (n / 8) - 2) + 16 = b * n := by
  have e : b * n = 8 * (b * (n / 8)) := by rw [Nat.mul_left_comm, Nat.mul_div_cancel' (Nat.dvd_of_mod_eq_zero h8)]
  omega

theorem packed_mod_eq_zero {n b : Nat} (h8 : n % 8 = 0) (h16 : 16 ≤ b * n) :
    (8 * (b * (n / 8) - 2) + 16) % n = 0 := by
  rw [packed_eq_blocks h8 h16, Nat.mul_mod_left]

end Sys2Proof.Machine
end

section
/-! SUPPORT. What the commands of the bit framer store, and the equation of each that completes (40_bitframer R202 to
R214). -/

namespace Sys2Proof.Machine

variable {s t : State}

/-! ## Blocks -/

/-- `b` blocks hold `a` bits exactly when they are no fewer than the blocks counted (00_scope R17). -/
theorem ceilDiv_le_iff (a b : Nat) {n : Nat} (hn : 0 < n) : ceilDiv a n ≤ b ↔ a ≤ b * n := by
  rw [mul_comm]
  exact ceilDiv_le_iff_le_mul hn

theorem le_ceilDiv_mul (a : Nat) {n : Nat} (hn : 0 < n) : a ≤ ceilDiv a n * n := (ceilDiv_le_iff a _ hn).1 le_rfl

theorem ceilDiv_le_self (a : Nat) {n : Nat} (hn : 0 < n) : ceilDiv a n ≤ a :=
  (ceilDiv_le_iff a a hn).2 (Nat.le_mul_of_pos_right a hn)

/-- A block among those counted begins before the end of the bits. -/
theorem mul_lt_of_lt_ceilDiv {a n j : Nat} (h : j < ceilDiv a n) : j * n < a := by
  obtain rfl | hn := Nat.eq_zero_or_pos n
  · simp [ceilDiv] at h
  · exact not_le.1 fun ha => absurd ((ceilDiv_le_iff a j hn).2 ha) (not_le.2 h)

/-- A block that begins inside the bits is what is left of them, filled up with zeros (40_bitframer R211). -/
theorem blockOf_eq (bits : Bits) (n j : Nat) :
    blockOf bits n j = (bits.drop (j * n)).take (min n (bits.length - j * n)) ++
      List.replicate (n - min n (bits.length - j * n)) false := by
  refine List.ext_getElem (by simp [blockOf]) fun i hi _ => ?_
  simp only [blockOf, List.length_map, List.length_range] at hi
  simp only [blockOf, List.getElem_map, List.getElem_range, List.getElem_append, List.length_take, List.length_drop,
    List.getElem_take, List.getElem_drop, List.getElem_replicate]
  split_ifs with h
  · exact List.getD_eq_getElem _ _ (by omega)
  · exact List.getD_eq_default _ _ (by omega)

/-- The block that INVERT and the synthesizer read is that of the bit sequence (40_bitframer R211, R214). -/
theorem bbufBlock_eq (hm : Memory.wf s.mem) {bits : Bits} (hb : s.bbuf s.blenNat = some bits) {j : Nat}
    (hj : j * s.nfreqNat ≤ s.blenNat) : s.bbufBlock j = some (blockOf bits s.nfreqNat j) := by
  have hl := length_bbuf hm hb
  obtain ⟨ws, hr, rfl⟩ := Option.map_eq_some_iff.1 hb
  have hp := readWords_part hm hr (i := j * s.nfreqNat) (k := min s.nfreqNat (s.blenNat - j * s.nfreqNat)) (by omega)
  simp only [State.bbufBlock, State.bbufFrom, hp, blockOf_eq, hl, Option.map_some, List.map_take, List.map_drop]

theorem partialFlag_eq_decide (b n : Nat) : partialFlag b n = decide (b % n ≠ 0) := by
  rw [decide_not]
  rfl

/-! ## Completions -/

theorem execBitsToByte_eq (h8 : 8 ≤ s.blenNat) (hl : s.blenNat ≤ s.hw.maxBits) {bits : Bits}
    (hb : s.bbuf 8 = some bits) : execBitsToByte s = .next { s with byteRes := byte8 bits, err := .ok } := by
  rw [execBitsToByte, if_neg (by omega), hb]
  rfl

theorem execPack_eq (hv : s.cfgValid = true) (hp : s.plenNat ≤ s.payloadCapNat) {p : List Byte}
    (hr : s.pbuf s.plenNat = some p) : execPack s = .next { s with
      mem := Memory.writeWords s.mem bbufBase ((packBits s.hw.gen s.nfreqNat s.payloadCapNat p).map bitWord)
      blen := BitVec.ofNat 32 (packBits s.hw.gen s.nfreqNat s.payloadCapNat p).length
      err := .ok } := by
  rw [execPack, if_neg (by simp [hv]), if_neg (not_lt.2 hp), hr]
  rfl

theorem execUnpack_eq (hl : s.blenNat ≤ s.hw.maxBits) {bits : Bits} (hb : s.bbuf s.blenNat = some bits) :
    execUnpack s = .next { s with
      mem := Memory.writeWords s.mem pbufBase ((unpackBits bits).1.map byteWord)
      plen := BitVec.ofNat 32 (unpackBits bits).1.length
      warnMalformed := (unpackBits bits).2
      err := .ok } := by
  rw [execUnpack, if_neg (not_lt.2 hl), hb]
  rfl

/-- Past its checks SPLIT reads the bit sequence. -/
theorem execSplit_of_checked (hv : s.cfgValid = true) (hl : s.blenNat ≤ s.hw.maxBits)
    (hn : ceilDiv s.blenNat s.nfreqNat * s.nfreqNat ≤ s.hw.maxBits) :
    execSplit s = withRead bbufBase (s.bbuf s.blenNat) fun _ => .next { s with
      mem := Memory.writeWords s.mem (bbufBase + 4 * s.blenNat)
        ((List.replicate (ceilDiv s.blenNat s.nfreqNat * s.nfreqNat - s.blenNat) false).map bitWord)
      nblocks := BitVec.ofNat 32 (ceilDiv s.blenNat s.nfreqNat)
      partialBlock := decide (s.blenNat % s.nfreqNat ≠ 0)
      err := .ok } := by
  simp only [execSplit, partialFlag_eq_decide, List.map_replicate]
  rw [if_neg (by simp [hv]), if_neg (by omega)]
  rfl

theorem execInvert_eq (hv : s.cfgValid = true) (hl : s.blenNat ≤ s.hw.maxBits)
    (hj : s.arg0Nat < ceilDiv s.blenNat s.nfreqNat) {blk : Bits} (hb : s.bbufBlock s.arg0Nat = some blk) :
    execInvert s = .next
      { s with mem := Memory.writeWords s.mem ibufBase ((invertBits blk).map bitWord), err := .ok } := by
  rw [execInvert, if_neg (by simp [hv]), if_neg (by omega), hb]
  rfl

/-! ## Results -/

/-- MSG_BITS is the length of a packed payload (10_state R70, 40_bitframer R207). -/
theorem length_packBits_active (hc : ConfigInv s) (hv : s.cfgValid = true) {p : List Byte}
    (hp : p.length ≤ s.payloadCapNat) :
    (packBits s.hw.gen s.nfreqNat s.payloadCapNat p).length = s.derived.msgBits.toNat := by
  have hd := hc.derived
  rw [hv, if_pos rfl] at hd
  have hvalid := hc.valid hv
  obtain ⟨-, -, -, -, -, ek, -, -, -, -, -, -, -, -, -, em, -⟩ :=
    derivedFit s.hw s.activeProfile s.activeTuning hc.params hvalid
  rw [← hd] at ek em
  have hk : 8 * s.payloadCapNat + 16 = s.nblkNat * s.nfreqNat :=
    (congrArg (8 * · + 16) ek).trans (quantities_packed_eq hvalid)
  rw [length_packBits _ (by rw [hk, Nat.mul_mod_left]) hp, hk, em]
  rfl

/-- Bits stored behind those of BBUF extend them. -/
theorem bbuf_extended (hm : Memory.wf s.mem) {n : Nat} {bits : Bits} (hb : s.bbuf n = some bits) (more : Bits)
    (ht : t.mem = Memory.writeWords s.mem (bbufBase + 4 * n) (more.map bitWord)) {k : Nat} (hk : n + more.length = k) :
    t.bbuf k = some (bits ++ more) := by
  subst hk
  obtain ⟨ws, hr, rfl⟩ := Option.map_eq_some_iff.1 hb
  have h0 : Memory.readWords t.mem bbufBase n = some ws := by
    rw [ht, readWords_writeWords_disjoint hm _ _ _ _ (.inl le_rfl), hr]
  have h1 := readWords_writeWords hm (bbufBase + 4 * n) (more.map bitWord)
  rw [← ht, List.length_map] at h1
  have hw : Memory.wf t.mem := ht ▸ wf_writeWords hm _ _
  rw [State.bbuf, readWords_add hw h0 h1]
  simp [Function.comp_def]

end Sys2Proof.Machine
end

section
/-! The obligations of the bit framer family. -/

open Sys2Proof Sys2Proof.Machine

/-- Settles O27: bits and bytes agree in both directions, the first bit the most significant. -/
theorem byteRoundTrip : Obligations.ByteRoundTrip :=
  ⟨bits8_eq_map, fun b => ⟨byte8_bits8 b, length_bits8 b⟩, toNat_byte8, fun s => BitVec.toNat_setWidth 8 s.arg0⟩

/-- Settles O28: the padding loop fills the capacity, and capacity and parity are whole blocks. -/
theorem packShape : Obligations.PackShape := by
  intro gen n b p _ h8 h16 hp d
  have hk := packed_mod_eq_zero h8 h16
  refine ⟨?_, length_parity gen d, length_packBits gen hk hp, packed_eq_blocks h8 h16⟩
  rw [packBits_eq gen hk hp, flatten_packedGroups]

/-- Settles O29: the groups that the recursion finds are those the formula counts. -/
theorem unpackFormula : Obligations.UnpackFormula := by
  intro s
  rw [unpackBits]
  simp only [octets_eq_map, ne_eq, decide_not]
  rfl

/-- Settles O30: the fillers go, and with them the bytes that equal the filler. -/
theorem unpackPack : Obligations.UnpackPack := by
  intro gen n b p _ h8 h16 hp
  have h := unpackBits_packBits gen (packed_mod_eq_zero h8 h16) hp
  refine ⟨h, ?_⟩
  rw [h, List.filter_eq_self]
  exact ⟨fun hx hm => absurd (hx _ hm) (by decide), fun hm x hx => bne_iff_ne.2 fun e => hm (e ▸ hx : fillByte ∈ p)⟩

/-- Settles O31: BYTE_TO_BITS stores eight bits, BITS_TO_BYTE reads them, and the vectors are evaluated. -/
theorem byteCommands : Obligations.ByteCommands := by
  refine ⟨fun s hm => ⟨_, rfl, rfl, ?bits, bytesKept_of_store rfl rfl⟩, fun s h => ?short, fun s bits h8 hl hb => ?byte,
    by decide, by decide, by decide, by decide⟩
  case bits =>
    rw [← BitVec.setWidth_eq_extractLsb' (by decide)]
    exact readWords_writeWords_map wordBit_bitWord hm bbufBase (length_bits8 s.argByte)
  case short => exact if_pos h
  case byte => exact execBitsToByte_eq h8 hl hb

/-- Settles O32: the packed sequence has MSG_BITS bits and is read back. -/
theorem packCommand : Obligations.PackCommand := by
  refine ⟨fun s hv => if_pos hv, fun s hv hp => ?tooLarge, fun s p hm hc hv hp hr => ?packed, by decide +kernel⟩
  case tooLarge => exact (if_neg (by simp [hv])).trans (if_pos hp)
  case packed =>
    have hlen := length_packBits_active hc hv ((length_pbuf hm hr).trans_le hp)
    have hx := execPack_eq hv hp hr
    rw [hlen, BitVec.ofNat_toNat, BitVec.setWidth_eq] at hx
    exact ⟨_, hx, rfl, hlen, readWords_writeWords_map wordBit_bitWord hm bbufBase hlen,
      bytesKept_of_store rfl ((List.length_map _).trans hlen)⟩

/-- Settles O33: the bytes are fewer than the bits, so PLEN counts them, and they are read back. -/
theorem unpackCommand : Obligations.UnpackCommand := by
  refine ⟨fun s h => if_pos h, fun s bits hm hl hb => ?unpacked, fun bits h => unpackBits_of_length_lt h,
    fun c hc => ⟨?_, ?_⟩⟩
  case unpacked =>
    have hn : (BitVec.ofNat 32 (unpackBits bits).1.length).toNat = (unpackBits bits).1.length :=
      toNat_ofNat_word ((length_unpackBits_le bits).trans_lt ((length_bbuf hm hb).trans_lt s.blen.isLt))
    exact ⟨_, execUnpack_eq hl hb, rfl, hn, readWords_writeWords_map wordByte_byteWord hm pbufBase hn.symm,
      bytesKept_of_store rfl (List.length_map _)⟩
  all_goals
    rw [unpackBits_append _ hc]
    decide

/-- Settles O34: the zeros of the partial block follow the bits of BBUF, and the whole blocks are read back. -/
theorem splitCommand : Obligations.SplitCommand := by
  refine ⟨fun s hv => if_pos hv, fun s hv h => (if_neg (by simp [hv])).trans (if_pos h),
    fun s hv hl hn hb => ?unwritten, fun s bits hm hv h0 hl hn hb => ?split⟩
  case unwritten =>
    have hx := execSplit_of_checked hv hl hn
    rwa [State.blenNat, hb] at hx
  case split =>
    have hx := execSplit_of_checked hv hl hn
    rw [State.blenNat, hb, withRead_some] at hx
    have hnb : (BitVec.ofNat 32 (ceilDiv s.blen.toNat s.nfreqNat)).toNat = ceilDiv s.blen.toNat s.nfreqNat :=
      toNat_ofNat_word ((ceilDiv_le_self _ h0).trans_lt s.blen.isLt)
    have hle := le_ceilDiv_mul s.blen.toNat h0
    refine ⟨_, hx, rfl, hnb, ?bits, ?kept, fun h => ⟨?nblocks, ?partialBlock⟩⟩
    case bits =>
      simp only [hnb]
      exact bbuf_extended hm hb _ rfl (by rw [List.length_replicate, Nat.add_sub_cancel' hle])
    case kept => exact bytesKept_of_store rfl (by simp [hnb])
    case nblocks => exact BitVec.eq_of_toNat_eq (hnb.trans (Nat.le_zero.1 ((ceilDiv_le_self _ h0).trans_eq h)))
    case partialBlock => simp [h]

/-- Settles O35: the block that is read is that of the bit sequence, zeros beyond BLEN, and its inverse is read back. -/
theorem invertCommand : Obligations.InvertCommand := by
  refine ⟨fun s hv => if_pos hv, fun s hv h => (if_neg (by simp [hv])).trans (if_pos h),
    fun s bits hm hv hl hj hb => ?_⟩
  have hblk := bbufBlock_eq hm hb (mul_lt_of_lt_ceilDiv hj).le
  have hinv : invertBits (blockOf bits s.nfreqNat s.arg0.toNat) =
      (List.range s.nfreqNat).map fun i => !(bits.getD (s.arg0.toNat * s.nfreqNat + i) false) := by
    simp [invertBits, blockOf, Function.comp_def]
  have hx := execInvert_eq hv hl hj hblk
  rw [hinv] at hx
  exact ⟨_, hx, rfl, readWords_writeWords_map wordBit_bitWord hm ibufBase (by simp), bytesKept_of_store rfl (by simp)⟩

end

section
/-! SUPPORT. The polynomial of a bit sequence over GF(2), and the CRC as a remainder of polynomials
(41_crc R250 to R257). -/

namespace Sys2Proof.Machine

open Polynomial

/-! ## The polynomial of a bit sequence -/

/-- The polynomial over GF(2) of a bit sequence, the first bit its highest-degree coefficient (41_crc R251). -/
noncomputable def bitPoly (s : Bits) : (ZMod 2)[X] := s.foldl (fun p b => p * X + if b then 1 else 0) 0

@[simp] theorem bitPoly_nil : bitPoly [] = 0 := rfl

theorem bitPoly_concat (s : Bits) (b : Bool) : bitPoly (s ++ [b]) = bitPoly s * X + if b then 1 else 0 :=
  List.foldl_concat ..

theorem bitPoly_append (s t : Bits) : bitPoly (s ++ t) = bitPoly s * X ^ t.length + bitPoly t := by
  induction t using List.reverseRecOn with
  | nil => simp
  | append_singleton t b ih =>
    rw [← List.append_assoc, bitPoly_concat, ih, bitPoly_concat, List.length_append, List.length_singleton]
    ring

theorem bitPoly_singleton (b : Bool) : bitPoly [b] = if b then 1 else 0 := (bitPoly_concat [] b).trans (by simp)

theorem bitPoly_cons (b : Bool) (s : Bits) : bitPoly (b :: s) = (if b then X ^ s.length else 0) + bitPoly s := by
  rw [← List.singleton_append, bitPoly_append, bitPoly_singleton, ite_mul, one_mul, zero_mul]

@[simp] theorem bitPoly_cons_false (s : Bits) : bitPoly (false :: s) = bitPoly s := by simp [bitPoly_cons]

theorem bitPoly_cons_true (s : Bits) : bitPoly (true :: s) = X ^ s.length + bitPoly s := by simp [bitPoly_cons]

@[simp] theorem bitPoly_zeros (n : Nat) : bitPoly (List.replicate n false) = 0 := by
  induction n with
  | zero => rfl
  | succ n ih => rw [List.replicate_succ, bitPoly_cons_false, ih]

theorem coeff_zero_bitPoly_concat (s : Bits) (b : Bool) : (bitPoly (s ++ [b])).coeff 0 = if b then 1 else 0 := by
  cases b <;> simp [bitPoly_concat]

theorem degree_bitPoly_lt (s : Bits) : (bitPoly s).degree < s.length := by
  induction s with
  | nil => simp
  | cons b s ih =>
    have hs : (bitPoly s).degree < (s.length + 1 : Nat) := ih.trans (by exact_mod_cast s.length.lt_succ_self)
    cases b with
    | false => rwa [bitPoly_cons_false]
    | true =>
      rw [bitPoly_cons_true]
      exact (degree_add_le _ _).trans_lt (max_lt (by rw [degree_X_pow]; exact_mod_cast s.length.lt_succ_self) hs)

/-- The leading bit is the coefficient above those of the others. -/
theorem coeff_length_bitPoly_cons (b : Bool) (s : Bits) :
    (bitPoly (b :: s)).coeff s.length = if b then 1 else 0 := by
  have hs : (bitPoly s).coeff s.length = 0 := coeff_eq_zero_of_degree_lt (degree_bitPoly_lt s)
  cases b <;> simp [bitPoly_cons, hs]

/-- Bit sequences of one length are told apart by their polynomials. -/
theorem bitPoly_inj {s t : Bits} (hl : s.length = t.length) (h : bitPoly s = bitPoly t) : s = t := by
  induction s generalizing t with
  | nil => exact (List.length_eq_zero_iff.1 hl.symm).symm
  | cons b s ih =>
    obtain _ | ⟨c, t⟩ := t
    · simp at hl
    have hl' : s.length = t.length := Nat.succ.inj hl
    have hbc : b = c := by
      have e := coeff_length_bitPoly_cons b s
      rw [h, hl', coeff_length_bitPoly_cons] at e
      revert e
      cases b <;> cases c <;> simp
    subst hbc
    rw [bitPoly_cons, bitPoly_cons, hl', add_right_inj] at h
    rw [ih hl' h]

/-- Flipping one bit adds one power of x (41_crc R257). -/
theorem bitPoly_flip {s : Bits} {k : Nat} (hk : k < s.length) :
    bitPoly (s.set k (!(s.getD k false))) = bitPoly s + X ^ (s.length - 1 - k) := by
  induction s generalizing k with
  | nil => simp at hk
  | cons b s ih =>
    cases k with
    | zero =>
      cases b with
      | false => simp [bitPoly_cons_true, add_comm]
      | true => simp [bitPoly_cons_true, add_comm, CharTwo.add_cancel_left]
    | succ k =>
      have ih' := ih (Nat.lt_of_succ_lt_succ hk)
      rw [List.getD_cons_succ, List.set_cons_succ, bitPoly_cons, bitPoly_cons, ih', List.length_set, add_assoc,
        List.length_cons, show s.length + 1 - 1 - (k + 1) = s.length - 1 - k by omega]

/-- Exclusive-or into the first bits adds the polynomial there. -/
theorem bitPoly_xorInto {g d : Bits} (h : g.length ≤ d.length) :
    bitPoly (xorInto g d) = bitPoly g * X ^ (d.length - g.length) + bitPoly d := by
  induction g generalizing d with
  | nil => simp [xorInto]
  | cons b g ih =>
    obtain _ | ⟨x, d⟩ := d
    · simp at h
    have h' : g.length ≤ d.length := Nat.le_of_succ_le_succ h
    have hd : (X : (ZMod 2)[X]) ^ g.length * X ^ (d.length - g.length) = X ^ d.length := pow_mul_pow_sub _ h'
    have hbit : (if (b != x) then (X : (ZMod 2)[X]) ^ d.length else 0) =
        (if b then X ^ d.length else 0) + if x then X ^ d.length else 0 := by
      cases b <;> cases x <;> simp [CharTwo.add_self_eq_zero]
    rw [xorInto, bitPoly_cons, length_xorInto, ih h', bitPoly_cons, bitPoly_cons, hbit, List.length_cons,
      List.length_cons, Nat.add_sub_add_right, ← hd]
    split_ifs <;> ring

/-! ## The generator and the division -/

@[simp] theorem length_genTail (gen : BitVec 17) : (genTail gen).length = 16 := rfl

/-- The generator's polynomial, its leading coefficient 1: the division never reads GEN[16] (41_crc R250, R251). -/
noncomputable def genPoly (gen : BitVec 17) : (ZMod 2)[X] := bitPoly (true :: genTail gen)

theorem genPoly_eq (gen : BitVec 17) : genPoly gen = X ^ 16 + bitPoly (genTail gen) := bitPoly_cons_true _

/-- Where GEN[16] is 1, the polynomial is that of all the generator's bits. -/
theorem genPoly_eq_bits {gen : BitVec 17} (h : gen.getLsbD 16 = true) :
    genPoly gen = bitPoly ((List.range 17).map fun j => gen.getLsbD (16 - j)) := by
  rw [genPoly, ← h]
  rfl

theorem genPoly_monic (gen : BitVec 17) : (genPoly gen).Monic := by
  rw [genPoly_eq]
  exact monic_X_pow_add (degree_bitPoly_lt (genTail gen))

theorem degree_genPoly (gen : BitVec 17) : (genPoly gen).degree = (16 : Nat) := by
  have hd : (bitPoly (genTail gen)).degree < ((X : (ZMod 2)[X]) ^ 16).degree := by
    rw [degree_X_pow]
    exact degree_bitPoly_lt (genTail gen)
  rw [genPoly_eq, degree_add_eq_left_of_degree_lt hd, degree_X_pow]

/-- The division subtracts multiples of the generator (41_crc R252). -/
theorem genPoly_dvd_divideSteps (gen : BitVec 17) {n : Nat} {d : Bits} (h : n ≤ d.length - 16) :
    genPoly gen ∣ bitPoly d - bitPoly (divideSteps (genTail gen) n d) := by
  induction n generalizing d with
  | zero => simp [divideSteps]
  | succ n ih =>
    obtain _ | ⟨b, d⟩ := d
    · simp [divideSteps]
    rw [List.length_cons] at h
    cases b with
    | false => simpa [divideSteps] using ih (d := d) (by omega)
    | true =>
      have hg : (genTail gen).length ≤ d.length := by rw [length_genTail]; omega
      have hd : (X : (ZMod 2)[X]) ^ 16 * X ^ (d.length - 16) = X ^ d.length := pow_mul_pow_sub _ hg
      have hstep : bitPoly (true :: d) - bitPoly (xorInto (genTail gen) d) = genPoly gen * X ^ (d.length - 16) := by
        rw [bitPoly_cons_true, bitPoly_xorInto hg, length_genTail, genPoly_eq, add_sub_add_right_eq_sub,
          CharTwo.sub_eq_add, add_mul, hd]
      have hrest := ih (d := xorInto (genTail gen) d) (by rw [length_xorInto]; omega)
      have hsum := dvd_add (Dvd.intro _ hstep.symm) hrest
      rwa [sub_add_sub_cancel] at hsum

theorem genPoly_dvd_sub_crcRem (gen : BitVec 17) (s : Bits) : genPoly gen ∣ bitPoly s - bitPoly (crcRem gen s) := by
  rw [crcRem, bitPoly_append, bitPoly_zeros, zero_mul, zero_add]
  exact genPoly_dvd_divideSteps gen le_rfl

/-! ## The remainder -/

/-- Sixteen bits that differ by a multiple of the generator are the remainder. -/
theorem modByMonic_genPoly_eq {gen : BitVec 17} {p : (ZMod 2)[X]} {r : Bits} (hr : r.length = 16)
    (h : genPoly gen ∣ p - bitPoly r) : p %ₘ genPoly gen = bitPoly r := by
  have hd : (bitPoly r).degree < (genPoly gen).degree := by
    rw [degree_genPoly, ← hr]
    exact degree_bitPoly_lt r
  rw [modByMonic_eq_of_dvd_sub (genPoly_monic gen) h, (modByMonic_eq_self_iff (genPoly_monic gen)).2 hd]

/-- `rem(s)` is the remainder of polynomials (41_crc R252). -/
theorem bitPoly_crcRem (gen : BitVec 17) (s : Bits) : bitPoly (crcRem gen s) = bitPoly s %ₘ genPoly gen :=
  (modByMonic_genPoly_eq (length_crcRem gen s) (genPoly_dvd_sub_crcRem gen s)).symm

/-- `parity(s)` is the remainder of `S(x) x^16` (41_crc R253). -/
theorem bitPoly_parity (gen : BitVec 17) (s : Bits) :
    bitPoly (parity gen s) = (bitPoly s * X ^ 16) %ₘ genPoly gen := by
  rw [parity, bitPoly_crcRem, bitPoly_append, bitPoly_zeros, add_zero, List.length_replicate]

theorem weight_le (gen : BitVec 17) (s : Bits) : weight gen s ≤ 16 :=
  List.count_le_length.trans_eq (length_crcRem gen s)

/-- The weight is 0 exactly on the multiples of the generator (41_crc R255, R257). -/
theorem weight_eq_zero_iff (gen : BitVec 17) (s : Bits) : weight gen s = 0 ↔ genPoly gen ∣ bitPoly s := by
  rw [← modByMonic_eq_zero_iff_dvd (genPoly_monic gen), ← bitPoly_crcRem, weight, List.count_eq_zero]
  constructor
  · intro h
    have hz : crcRem gen s = List.replicate 16 false :=
      List.eq_replicate_iff.2 ⟨length_crcRem gen s, fun b hb => Bool.eq_false_iff.2 fun e => h (e ▸ hb)⟩
    rw [hz, bitPoly_zeros]
  · intro h
    have hz : crcRem gen s = List.replicate 16 false := bitPoly_inj (length_crcRem gen s) (by rw [h, bitPoly_zeros])
    simp [hz]

/-! ## Soundness -/

/-- A sequence followed by its parity is a multiple of the generator (41_crc R257). -/
theorem genPoly_dvd_codeword (gen : BitVec 17) (s : Bits) : genPoly gen ∣ bitPoly (s ++ parity gen s) := by
  rw [bitPoly_append, length_parity, bitPoly_parity, ← CharTwo.sub_eq_add, dvd_sub_comm]
  exact dvd_modByMonic_sub _ _

/-- A generator with GEN[0] = 1 is coprime to x (41_crc R257). -/
theorem isCoprime_genPoly_X {gen : BitVec 17} (h : gen.getLsbD 0 = true) : IsCoprime (genPoly gen) X := by
  have h0 : (genPoly gen).coeff 0 = 1 := by
    have e := coeff_zero_bitPoly_concat (true :: (List.range 15).map fun j => gen.getLsbD (15 - j)) (gen.getLsbD 0)
    rwa [if_pos h] at e
  rw [isCoprime_comm, irreducible_X.coprime_iff_not_dvd, X_dvd_iff, h0]
  exact one_ne_zero

theorem genPoly_dvd_mul_X_pow_iff {gen : BitVec 17} (h : gen.getLsbD 0 = true) (p : (ZMod 2)[X]) (n : Nat) :
    genPoly gen ∣ p * X ^ n ↔ genPoly gen ∣ p :=
  ⟨(isCoprime_genPoly_X h).pow_right.dvd_of_dvd_mul_right, fun hp => hp.mul_right _⟩

/-- A power of x, the polynomial of one wrong bit, is no multiple of the generator (41_crc R257). -/
theorem not_genPoly_dvd_X_pow {gen : BitVec 17} (h : gen.getLsbD 0 = true) (n : Nat) : ¬ genPoly gen ∣ X ^ n := by
  rw [← one_mul (X ^ n), genPoly_dvd_mul_X_pow_iff h]
  have hd : (1 : (ZMod 2)[X]).degree < (genPoly gen).degree := by
    rw [degree_one, degree_genPoly]
    exact_mod_cast Nat.succ_pos 15
  exact (genPoly_monic gen).not_dvd_of_degree_lt one_ne_zero hd

/-! ## Corner cases -/

theorem parity_zeros (gen : BitVec 17) (m : Nat) : parity gen (List.replicate m false) = List.replicate 16 false :=
  bitPoly_inj (by simp) (by simp [bitPoly_parity])

theorem parity_zeros_append (gen : BitVec 17) (m : Nat) (s : Bits) :
    parity gen (List.replicate m false ++ s) = parity gen s :=
  bitPoly_inj (by simp) (by simp [bitPoly_parity, bitPoly_append])

/-- The parity of a single 1 is x^16 less the generator (41_crc R254). -/
theorem parity_one (gen : BitVec 17) : parity gen [true] = genTail gen := by
  have hone : bitPoly [true] = 1 := bitPoly_singleton true
  refine bitPoly_inj (length_parity gen _) ?_
  rw [bitPoly_parity, hone, one_mul]
  refine modByMonic_genPoly_eq (length_genTail gen) ?_
  rw [genPoly_eq, CharTwo.sub_eq_add]

/-- A sequence of at most sixteen bits is its own remainder, behind zeros (41_crc R256). -/
theorem crcRem_of_length_le (gen : BitVec 17) {s : Bits} (h : s.length ≤ 16) :
    crcRem gen s = List.replicate (16 - s.length) false ++ s := by
  rw [crcRem, Nat.sub_eq_zero_of_le h]
  simp [divideSteps]

theorem weight_of_length_le (gen : BitVec 17) {s : Bits} (h : s.length ≤ 16) : weight gen s = s.count true := by
  simp [weight, crcRem_of_length_le gen h, List.count_replicate]

end Sys2Proof.Machine
end

section
/-! SUPPORT. What the two commands of the CRC store (41_crc R254, R256). -/

namespace Sys2Proof.Machine

variable {s : State} {bits : Bits}

/-- Bit `i` of the number of a sequence is its bit `i` counted from the last (20_memory R126). -/
theorem testBit_bitsNat {p : Bits} {i : Nat} (hi : i < p.length) :
    (bitsNat p).testBit i = p.getD (p.length - 1 - i) false := by
  induction p using List.reverseRecOn generalizing i with
  | nil => simp at hi
  | append_singleton p b ih =>
    rw [List.length_append, List.length_singleton] at hi
    have hdouble : 2 * bitsNat p + b.toNat = Nat.bit b (bitsNat p) := by rw [Nat.bit_val]
    rw [bitsNat_concat, hdouble, List.length_append, List.length_singleton]
    cases i with
    | zero => simp
    | succ i =>
      rw [Nat.testBit_bit_succ, ih (by omega), List.getD_append _ _ _ _ (by omega)]
      congr 1
      omega

/-- The first bit of a parity sequence is bit 15 of its number (41_crc R254). -/
theorem getLsbD_parityWord {p : Bits} (hp : p.length = 16) {k : Nat} (hk : k < 16) :
    (BitVec.ofNat 16 (bitsNat p)).getLsbD (15 - k) = p.getD k false := by
  rw [BitVec.getLsbD_ofNat, testBit_bitsNat (by omega), hp, show 16 - 1 - (15 - k) = k by omega]
  simp [show 15 - k < 16 by omega]

theorem execCrcParity_eq (hl : s.blenNat ≤ s.hw.maxBits) (hb : s.bbuf s.blenNat = some bits) :
    execCrcParity s =
      .next { s with crcParity := BitVec.ofNat 16 (bitsNat (parity s.hw.gen bits)), err := .ok } := by
  rw [execCrcParity, if_neg (not_lt.2 hl), hb]
  rfl

theorem execCrcCheck_eq (hl : s.blenNat ≤ s.hw.maxBits) (hb : s.bbuf s.blenNat = some bits) :
    execCrcCheck s = .next { s with
      crcWeight := BitVec.ofNat 32 (weight s.hw.gen bits)
      crcOk := crcOkFlag (weight s.hw.gen bits)
      err := .ok } := by
  rw [execCrcCheck, if_neg (not_lt.2 hl), hb]
  rfl

/-- The weight fits its register. -/
theorem toNat_weightWord (gen : BitVec 17) (c : Bits) : (BitVec.ofNat 32 (weight gen c)).toNat = weight gen c :=
  toNat_ofNat_word ((weight_le gen c).trans_lt (by norm_num))

theorem crcOkFlag_iff (w : Nat) : crcOkFlag w = true ↔ w = 0 := beq_iff_eq

end Sys2Proof.Machine
end

section
/-! The obligations of the CRC family. -/

open Sys2Proof Sys2Proof.Machine

/-- Settles O36: codewords are multiples of the generator, and neither one wrong bit nor sixteen zeros behind a sequence
make a multiple of what is none. -/
theorem crcSound : Obligations.CrcSound := by
  intro gen s _ h0
  refine ⟨?codeword, fun k hk => ?flip, ?zeros⟩
  case codeword => exact (weight_eq_zero_iff _ _).2 (genPoly_dvd_codeword gen s)
  case flip =>
    rw [ne_eq, weight_eq_zero_iff, bitPoly_flip hk, dvd_add_right (genPoly_dvd_codeword gen s)]
    exact not_genPoly_dvd_X_pow h0 _
  case zeros =>
    rw [weight_eq_zero_iff, weight_eq_zero_iff, bitPoly_append, bitPoly_zeros, add_zero, genPoly_dvd_mul_X_pow_iff h0]

/-- Settles O37: each step of the division subtracts a multiple of the generator, and sixteen bits are left. -/
theorem crcIsPolynomialRemainder : Obligations.CrcIsPolynomialRemainder := by
  intro gen s h16
  have hrem := bitPoly_crcRem gen s
  have hparity := bitPoly_parity gen s
  rw [genPoly_eq_bits h16] at hrem hparity
  exact ⟨length_crcRem gen s, hrem, hparity⟩

/-- Settles O38: the parity's bits are those of the number stored, and the corner cases are equal remainders. -/
theorem crcParityCommand : Obligations.CrcParityCommand := by
  refine ⟨fun s h => if_pos h, fun s bits hl hb => ⟨_, execCrcParity_eq hl hb, rfl, fun k hk => ?bit⟩, parity_zeros,
    parity_one, parity_zeros_append, by decide⟩
  case bit => exact getLsbD_parityWord (length_parity _ bits) hk

/-- Settles O39: the weight fits its register, and the vectors are evaluated. -/
theorem crcCheckCommand : Obligations.CrcCheckCommand := by
  refine ⟨fun s h => if_pos h, fun s bits hl hb => ?checked, fun gen s hs => weight_of_length_le gen hs, by decide,
    by decide⟩
  case checked =>
    have hw := toNat_weightWord s.hw.gen bits
    refine ⟨_, execCrcCheck_eq hl hb, rfl, hw, hw.trans_le (weight_le _ _), ?_⟩
    rw [hw, crcOkFlag_iff]

end

section
/-! SUPPORT. The time order of the ring buffer: what `add`, the zero-fill and the windows do to it (42_ringbuffer R280 to
R289). -/

namespace Sys2Proof.Machine

variable {s : State} {rb o : List Word}

/-! ## The logical order -/

/-- The logical order turns the array until the oldest element comes first (42_ringbuffer R280). -/
theorem ordered_eq_rotate {wr : Nat} (h : wr ≤ rb.length) : ordered rb wr = rb.rotate wr :=
  (List.rotate_eq_drop_append_take h).symm

theorem length_ordered (rb : List Word) (wr : Nat) : (ordered rb wr).length = rb.length := by
  rw [ordered, List.length_append, List.length_drop, List.length_take]
  omega

theorem snapshot_of_rb (h : s.rb = some rb) : s.snapshot = some (ordered rb s.rbWr.toNat) := by
  rw [State.snapshot, h]
  rfl

/-- Element `k` in time order stands `k` places after the write cursor (42_ringbuffer R280). -/
theorem getElem?_ordered {wr k : Nat} (hw : wr ≤ rb.length) (hk : k < rb.length) :
    (ordered rb wr)[k]? = rb[(wr + k) % rb.length]? := by
  rw [ordered_eq_rotate hw, List.getElem?_rotate hk, Nat.add_comm]

/-- An element written at the cursor is the newest, and the oldest is gone (42_ringbuffer R282). -/
theorem ordered_set {i : Nat} (h : i < rb.length) (w : Word) :
    ordered (rb.set i w) ((i + 1) % rb.length) = (ordered rb i ++ [w]).drop 1 := by
  have htake : (rb.set i w).take (i + 1) = rb.take i ++ [w] := by
    rw [List.take_add_one, List.getElem?_set_self h, List.take_set_of_le le_rfl]
    rfl
  have hdrop : (rb.set i w).drop (i + 1) = rb.drop (i + 1) := List.drop_set_of_lt (Nat.lt_succ_self i)
  have hright : (ordered rb i ++ [w]).drop 1 = rb.drop (i + 1) ++ (rb.take i ++ [w]) := by
    rw [ordered, List.append_assoc, List.drop_append_of_le_length (by rw [List.length_drop]; omega), List.drop_drop]
  have hl : (rb.set i w).length = rb.length := List.length_set
  have hmod : (i + 1) % (rb.set i w).length ≤ (rb.set i w).length := (Nat.mod_lt _ (by omega)).le
  rw [← hl, ordered_eq_rotate hmod, List.rotate_mod, List.rotate_eq_drop_append_take (by omega), htake, hdrop, hright]

/-! ## add -/

/-- The writes of `add` move the cursor past the elements written and drop as many of the oldest (42_ringbuffer R282). -/
theorem ordered_ringWrite {c : Nat} (hc : 0 < c) (wr k : Nat) (x : List Word) {m : Memory} (hm : m.wf)
    (hr : Memory.readWords m rbBase c = some rb) :
    ∃ rb', Memory.readWords (ringWrite c wr k x m) rbBase c = some rb' ∧
      ordered rb' ((wr + k + x.length) % c) = (ordered rb ((wr + k) % c) ++ x).drop x.length := by
  induction x generalizing m rb k with
  | nil => exact ⟨rb, hr, by simp⟩
  | cons w x ih =>
    have hl := length_readWords hm hr
    have hi : (wr + k) % c < rb.length := hl.symm ▸ Nat.mod_lt _ hc
    have hset := ordered_set hi w
    rw [hl, Nat.mod_add_mod] at hset
    obtain ⟨rb', hr', ho'⟩ := ih (k + 1) (wf_writeWords hm _ _) (readWords_writeWords_set hm w hr)
    refine ⟨rb', hr', ?_⟩
    rw [← add_assoc] at ho'
    calc ordered rb' ((wr + k + (w :: x).length) % c) = ordered rb' ((wr + k + 1 + x.length) % c) := by
          rw [List.length_cons, add_assoc (wr + k), add_comm 1]
      _ = ((ordered rb ((wr + k) % c) ++ [w]).drop 1 ++ x).drop x.length := by rw [ho', hset]
      _ = (ordered rb ((wr + k) % c) ++ w :: x).drop (w :: x).length := by
          rw [← List.drop_append_of_le_length (by simp), List.drop_drop, List.append_assoc, List.singleton_append,
            List.length_cons, add_comm 1]

/-- The writes of `add` reach no byte outside the ring buffer (42_ringbuffer R282). -/
theorem readByte_ringWrite_outside {c j : Nat} (hc : 0 < c) (h : Outside rbBase c j) (wr k : Nat) (x : List Word)
    (m : Memory) : Memory.readByte (ringWrite c wr k x m) j = Memory.readByte m j := by
  induction x generalizing m k with
  | nil => rfl
  | cons w x ih =>
    have hi : (wr + k) % c < c := Nat.mod_lt _ hc
    unfold Outside at h
    rw [ringWrite, ih, readByte_writeWords_outside _ _ _ _ (by rw [List.length_singleton]; omega)]

/-- The cursor moves by the number of samples, modulo C (42_ringbuffer R282). -/
theorem toNat_ringAdd_rbWr (hc : 0 < s.rbCapNat) (x : List Word) :
    (ringAdd x s).rbWr.toNat = (s.rbWr.toNat + x.length) % s.rbCapNat := by
  rw [ringAdd_rbWr, toNat_ofNat_word ((Nat.mod_lt _ hc).trans s.derived.rbCap.isLt), Nat.add_mod_mod]

theorem toNat_nextSteps (w : Word) : (nextSteps w).toNat = min (w.toNat + 1) (2 ^ 32 - 1) :=
  toNat_ofNat_word (by omega)

/-- After an `add` the snapshot ends with the samples added, and as many of the oldest are gone (42_ringbuffer R282,
R284). -/
theorem snapshot_ringAdd (hm : Memory.wf s.mem) (hw : s.rbWr.toNat < s.rbCapNat) (ho : s.snapshot = some o)
    (x : List Word) : (ringAdd x s).snapshot = some ((o ++ x).drop x.length) := by
  have hc := Nat.zero_lt_of_lt hw
  obtain ⟨rb, hr, rfl⟩ := Option.map_eq_some_iff.1 ho
  obtain ⟨rb', hr', ho'⟩ := ordered_ringWrite hc s.rbWr.toNat 0 x hm hr
  rw [add_zero, Nat.mod_eq_of_lt hw, ← toNat_ringAdd_rbWr hc] at ho'
  exact Option.map_eq_some_iff.2 ⟨rb', hr', ho'⟩

/-! ## The zero-fill -/

/-- After the zero-fill the C elements are +0.0 (42_ringbuffer R281). -/
theorem rb_ringClear (hm : Memory.wf s.mem) : (ringClear s).rb = some (List.replicate s.rbCapNat 0#32) := by
  have h := readWords_writeWords hm rbBase (List.replicate s.rbCapNat 0#32)
  rwa [List.length_replicate] at h

/-! ## Any sequence of adds -/

/-- The ring buffer holds the last C elements of C zeros followed by `w`, written in a circle from index 0 on
(42_ringbuffer R289). -/
structure RingHolds (c : Nat) (w : List Word) (s : State) : Prop where
  form : Memory.wf s.mem
  capacity : s.rbCapNat = c
  cursor : s.rbWr.toNat = w.length % c
  snapshot : s.snapshot = some ((List.replicate c 0#32 ++ w).drop w.length)

theorem ringHolds_ringClear (hm : Memory.wf s.mem) : RingHolds s.rbCapNat [] (ringClear s) where
  form := wf_writeWords hm _ _
  capacity := rfl
  cursor := (Nat.zero_mod _).symm
  snapshot := by
    rw [State.snapshot, rb_ringClear hm]
    simp [ringClear, ordered]

theorem ringHolds_ringAdd {c : Nat} (hc : 0 < c) {w : List Word} (h : RingHolds c w s) (x : List Word) :
    RingHolds c (w ++ x) (ringAdd x s) := by
  obtain ⟨hm, rfl, hcur, hsnap⟩ := h
  refine ⟨wf_ringWrite hm _ _ _ _, rfl, ?cursor, ?snapshot⟩
  case cursor => rw [toNat_ringAdd_rbWr hc, hcur, Nat.mod_add_mod, List.length_append]
  case snapshot =>
    have hw : s.rbWr.toNat < s.rbCapNat := hcur ▸ Nat.mod_lt _ hc
    rw [snapshot_ringAdd hm hw hsnap, ← List.drop_append_of_le_length (by simp), List.drop_drop, List.append_assoc,
      List.length_append]

theorem ringHolds_adds {c : Nat} (hc : 0 < c) {w : List Word} (h : RingHolds c w s) (adds : List (List Word)) :
    RingHolds c (w ++ adds.flatten) (adds.foldl (fun u x => ringAdd x u) s) := by
  induction adds generalizing w s with
  | nil => simpa using h
  | cons x adds ih =>
    rw [List.foldl_cons, List.flatten_cons, ← List.append_assoc]
    exact ih (ringHolds_ringAdd hc h x)

/-- The newest `k` of the last C elements of C zeros and `w` are the last `k` of `w`, behind zeros where `w` is shorter
(42_ringbuffer R289). -/
theorem lastOf_zeros_append (w : List Word) {c k : Nat} (hk : k ≤ c) :
    lastOf ((List.replicate c 0#32 ++ w).drop w.length) c k =
      if k ≤ w.length then w.drop (w.length - k) else List.replicate (k - w.length) 0#32 ++ w := by
  rw [lastOf, List.drop_drop, List.drop_append, List.drop_replicate, List.length_replicate]
  split_ifs with h
  · rw [show c - (w.length + (c - k)) = 0 by omega, show w.length + (c - k) - c = w.length - k by omega]
    rfl
  · rw [show c - (w.length + (c - k)) = k - w.length by omega, show w.length + (c - k) - c = 0 by omega, List.drop_zero]

/-! ## Completions -/

theorem length_inbuf (hm : Memory.wf s.mem) {n : Nat} {x : List Sample} (h : s.inbuf n = some x) : x.length = n := by
  obtain ⟨ws, hr, rfl⟩ := Option.map_eq_some_iff.1 h
  rw [List.length_map, length_readWords hm hr]

theorem listening_eq_false (h : s.rxState ≠ .listening) : s.listening = false := beq_eq_false_iff_ne.2 h

theorem execRbInit_eq (hl : s.listening = false) (hv : s.cfgValid = true) :
    execRbInit s = .next { ringClear s with err := .ok } := by
  rw [execRbInit, if_neg (by simp [hl]), if_neg (by simp [hv])]
  rfl

theorem execRbAdd_eq (hl : s.listening = false) (hv : s.rbValid = true) (hn : s.arg0Nat ≤ s.hw.maxIn) {x : List Sample}
    (hx : s.inbuf s.arg0Nat = some x) : execRbAdd s = .next { ringAdd (x.map sampleF32) s with err := .ok } := by
  rw [execRbAdd, if_neg (by simp [hl]), if_neg (by simp [hv]), if_neg (not_lt.2 hn), hx]
  rfl

theorem execRbSnapshot_eq (hl : s.listening = false) (hv : s.rbValid = true) (ho : s.snapshot = some o) :
    execRbSnapshot s = .next { storeWindow o s with err := .ok } := by
  rw [execRbSnapshot, if_neg (by simp [hl]), if_neg (by simp [hv]), ho]
  rfl

theorem execRbFirst_eq (hl : s.listening = false) (hv : s.rbValid = true) (hn : s.arg0Nat ≤ s.rbCapNat)
    (ho : s.snapshot = some o) : execRbFirst s = .next { storeWindow (firstOf o s.arg0Nat) s with err := .ok } := by
  rw [execRbFirst, if_neg (by simp [hl]), if_neg (by simp [hv]), if_neg (not_lt.2 hn), ho]
  rfl

theorem execRbLast_eq (hl : s.listening = false) (hv : s.rbValid = true) (hn : s.arg0Nat ≤ s.rbCapNat)
    (ho : s.snapshot = some o) :
    execRbLast s = .next { storeWindow (lastOf o s.rbCapNat s.arg0Nat) s with err := .ok } := by
  rw [execRbLast, if_neg (by simp [hl]), if_neg (by simp [hv]), if_neg (not_lt.2 hn), ho]
  rfl

/-! ## Windows -/

/-- `w` holds the `n` elements of the array `rb` from index `p` on, around its end (42_ringbuffer R280, R286). -/
structure IsWindow (rb : List Word) (p n : Nat) (w : List Word) : Prop where
  length : w.length = n
  element : ∀ k < n, w[k]? = rb[(p + k) % rb.length]?

theorem isWindow_ordered {wr : Nat} (hw : wr ≤ rb.length) : IsWindow rb wr rb.length (ordered rb wr) where
  length := length_ordered rb wr
  element _ hk := getElem?_ordered hw hk

theorem isWindow_firstOf {wr n : Nat} (hw : wr ≤ rb.length) (hn : n ≤ rb.length) :
    IsWindow rb wr n (firstOf (ordered rb wr) n) where
  length := by rw [firstOf, List.length_take, length_ordered, min_eq_left hn]
  element k hk := by rw [firstOf, List.getElem?_take_of_lt hk, getElem?_ordered hw (hk.trans_le hn)]

theorem isWindow_lastOf {wr n : Nat} (hw : wr ≤ rb.length) (hn : n ≤ rb.length) :
    IsWindow rb (wr + (rb.length - n)) n (lastOf (ordered rb wr) rb.length n) where
  length := by rw [lastOf, List.length_drop, length_ordered, Nat.sub_sub_self hn]
  element k hk := by rw [lastOf, List.getElem?_drop, getElem?_ordered hw (by omega), add_assoc]

/-- A command that ends with a window of the array stored has it in WBUF, its length in WLEN, and leaves everything else
alone, the ring buffer among it (42_ringbuffer R285, R287, R288). -/
theorem window_stored (hm : Memory.wf s.mem) (hC : s.rbCapNat ≤ 2 ^ 21) {r : Out} {w : List Word} {p n : Nat} {v : Word}
    (hv : v.toNat = n) (hw : IsWindow rb p n w) (hx : r = .next { storeWindow w s with err := .ok }) :
    ∃ t w, r = .next t ∧ t = { s with mem := t.mem, wlen := v, err := .ok } ∧
      Memory.readWords t.mem wbufBase n = some w ∧ (∀ k < n, w[k]? = rb[(p + k) % rb.length]?) ∧
      t.rb = s.rb ∧ BytesKept s t wbufBase n := by
  obtain ⟨rfl, helem⟩ := hw
  have hwlen : BitVec.ofNat 32 w.length = v := by rw [← hv, BitVec.ofNat_toNat, BitVec.setWidth_eq]
  have hbelow : rbBase + 4 * s.rbCapNat ≤ wbufBase := by unfold rbBase wbufBase; omega
  rw [storeWindow, hwlen] at hx
  exact ⟨_, w, hx, rfl, readWords_writeWords hm wbufBase w, helem,
    readWords_writeWords_disjoint hm _ _ _ _ (.inl hbelow), bytesKept_of_store rfl rfl⟩

end Sys2Proof.Machine
end

section
/-! The obligations of the ring buffer family. -/

open Sys2Proof Sys2Proof.Machine

/-- Settles O40: the zero-fill is read back, and `add` moves the logical order along by the samples added. -/
theorem ringFillAndAdd : Obligations.RingFillAndAdd := by
  refine ⟨fun s hm hr hv => ?fill, fun s rb x hm hr hv hn hx hrb hw => ?add⟩
  case fill =>
    exact ⟨_, execRbInit_eq (listening_eq_false hr) hv, rfl, rb_ringClear hm, bytesKept_of_store rfl (by simp)⟩
  case add =>
    have hc := Nat.zero_lt_of_lt hw
    have hlen : (x.map sampleF32).length = s.arg0.toNat := by rw [List.length_map, length_inbuf hm hx]
    have hsnap := snapshot_of_rb hrb
    have hcur := toNat_ringAdd_rbWr hc (x.map sampleF32)
    have hord := snapshot_ringAdd hm hw hsnap (x.map sampleF32)
    rw [hlen] at hcur hord
    exact ⟨_, execRbAdd_eq (listening_eq_false hr) hv hn hx, rfl, hcur, toNat_nextSteps _, hord,
      fun k hk => readByte_ringWrite_outside hc hk _ _ _ _⟩

/-- Settles O41: each command stores a window of the snapshot; the snapshot is the window of all C elements. -/
theorem ringWindows : Obligations.RingWindows := by
  intro s rb hm hr hv hrb hw hC
  have hl := listening_eq_false hr
  have hlen : rb.length = s.rbCapNat := length_readWords hm hrb
  have hsnap := snapshot_of_rb hrb
  rw [← hlen] at hw ⊢
  refine ⟨?snapshot, fun hn => ⟨?first, ?last⟩⟩
  case snapshot =>
    obtain ⟨t, w, hx, ht, hstored⟩ :=
      window_stored hm hC hlen.symm (isWindow_ordered hw.le) (execRbSnapshot_eq hl hv hsnap)
    have hwlen : t.wlen = s.derived.rbCap := by rw [ht]
    exact ⟨t, w, hx, hwlen ▸ ht, hwlen ▸ hlen.symm, hstored⟩
  case first => exact window_stored hm hC rfl (isWindow_firstOf hw.le hn) (execRbFirst_eq hl hv (hlen ▸ hn) hsnap)
  case last =>
    have hx := execRbLast_eq hl hv (hlen ▸ hn) hsnap
    rw [← hlen] at hx
    exact window_stored hm hC rfl (isWindow_lastOf hw.le hn) hx

/-- Settles O42: the zero-fill and every `add` keep the ring buffer the end of zeros and samples. -/
theorem ringHistory : Obligations.RingHistory := by
  intro s adds hm hc t w
  obtain ⟨-, hcap, hcur, hsnap⟩ := ringHolds_adds hc (ringHolds_ringClear hm) adds
  rw [List.nil_append] at hcur hsnap
  exact ⟨_, hsnap, by simp, hcap, hcur ▸ Nat.mod_lt _ hc, hcur, rfl, fun k hk => lastOf_zeros_append w hk⟩

end

section
/-! SUPPORT. The slots of a message signal (43_synth R318, R320): which block stands at which place of the list, and
where its samples and its pause stand in the signal. -/

namespace Sys2Proof.Machine

/-! ## The blocks of a message -/

/-- Two elements for each one: those of element `j` stand at `2j` and `2j + 1`. -/
theorem getElem?_flatMap_pair {α β : Type} (f g : α → β) (l : List α) (j : Nat) :
    (l.flatMap fun a => [f a, g a])[2 * j]? = l[j]?.map f ∧
      (l.flatMap fun a => [f a, g a])[2 * j + 1]? = l[j]?.map g := by
  induction l generalizing j with
  | nil => simp
  | cons a l ih =>
    cases j with
    | zero => simp
    | succ j => exact ih j

/-- START comes first (43_synth R318). -/
theorem msgBlocks_start (n : Nat) (s : Bits) : (msgBlocks n s)[0]? = some (startBits n) := rfl

/-- END comes last. -/
theorem msgBlocks_end (n : Nat) (s : Bits) : (msgBlocks n s)[2 * ceilDiv s.length n + 1]? = some (endBits n) := by
  have h := length_msgBlocks n s
  rw [msgBlocks, List.length_append, List.length_singleton] at h
  rw [msgBlocks, List.getElem?_append_right (by omega), show 2 * ceilDiv s.length n + 1 - _ = 0 by omega]
  rfl

/-- Block `j` and its inverse follow one another (43_synth R318). -/
theorem msgBlocks_payload (n : Nat) (s : Bits) {j : Nat} (hj : j < ceilDiv s.length n) :
    (msgBlocks n s)[2 * j + 1]? = some (blockOf s n j) ∧
      (msgBlocks n s)[2 * j + 2]? = some (invertBits (blockOf s n j)) := by
  have h := length_msgBlocks n s
  rw [msgBlocks, List.length_append, List.length_singleton] at h
  obtain ⟨h1, h2⟩ := getElem?_flatMap_pair id invertBits (splitBits s n) j
  have hb : (splitBits s n)[j]? = some (blockOf s n j) := by simp [splitBits, hj]
  rw [hb] at h1 h2
  rw [msgBlocks, List.getElem?_append_left (by omega), List.getElem?_append_left (by omega)]
  exact ⟨h1, h2⟩

/-! ## The slots of a signal -/

section
variable (t : Tone) (pb pp : Nat)

/-- The first block, its pause, and the other blocks with the draws left to them. -/
theorem renderBlocks_cons_cons (b c : Bits) (l : List Bits) (e : Env) :
    (renderBlocks t pb pp (b :: c :: l) e).1 = (synth t b pb e).1 ++
      (List.replicate pp 0#16 ++ (renderBlocks t pb pp (c :: l) (synth t b pb e).2).1) := List.append_assoc ..

/-- The first slot holds the first block. -/
theorem take_renderBlocks_cons (b : Bits) (l : List Bits) (e : Env) :
    (renderBlocks t pb pp (b :: l) e).1.take pb = (synth t b pb e).1 := by
  cases l with
  | nil => exact List.take_of_length_le (length_synth t b pb e).le
  | cons c l => rw [renderBlocks_cons_cons]; exact List.take_left' (length_synth t b pb e)

/-- A pause follows the first slot where there is a second. -/
theorem pause_renderBlocks_cons (b c : Bits) (l : List Bits) (e : Env) :
    ((renderBlocks t pb pp (b :: c :: l) e).1.drop pb).take pp = List.replicate pp 0#16 := by
  rw [renderBlocks_cons_cons, List.drop_left' (length_synth t b pb e)]
  exact List.take_left' List.length_replicate

/-- What follows the first slot and its pause are the other blocks. -/
theorem drop_renderBlocks_cons (b c : Bits) (l : List Bits) (e : Env) :
    (renderBlocks t pb pp (b :: c :: l) e).1.drop (pb + pp) =
      (renderBlocks t pb pp (c :: l) (synth t b pb e).2).1 := by
  rw [renderBlocks_cons_cons, ← List.append_assoc]
  exact List.drop_left' (by simp)

/-- From slot `k` on, a signal is that of the blocks from block `k` on (43_synth R320). -/
theorem drop_renderBlocks {l : List Bits} {k : Nat} (hk : k < l.length) (e : Env) :
    ∃ e', (renderBlocks t pb pp l e).1.drop (k * (pb + pp)) = (renderBlocks t pb pp (l.drop k) e').1 := by
  induction k generalizing l e with
  | zero => exact ⟨e, by simp⟩
  | succ k ih =>
    match l, hk with
    | b :: c :: l, hk =>
      obtain ⟨e', h⟩ := ih (l := c :: l) (by simpa using hk) (synth t b pb e).2
      refine ⟨e', ?_⟩
      rw [Nat.succ_mul, add_comm, ← List.drop_drop, drop_renderBlocks_cons, h, List.drop_succ_cons]

/-- Slot `k` holds block `k`, for some draws (43_synth R320, R324). -/
theorem renderBlocks_slot {l : List Bits} {k : Nat} {b : Bits} (hb : l[k]? = some b) (e : Env) :
    ∃ e', ((renderBlocks t pb pp l e).1.drop (k * (pb + pp))).take pb = (synth t b pb e').1 := by
  obtain ⟨hk, rfl⟩ := List.getElem?_eq_some_iff.1 hb
  obtain ⟨e', h⟩ := drop_renderBlocks t pb pp hk e
  exact ⟨e', by rw [h, List.drop_eq_getElem_cons hk, take_renderBlocks_cons]⟩

/-- A pause of zeros follows every slot but the last (43_synth R320). -/
theorem renderBlocks_pause {l : List Bits} {k : Nat} (hk : k + 1 < l.length) (e : Env) :
    ((renderBlocks t pb pp l e).1.drop (k * (pb + pp) + pb)).take pp = List.replicate pp 0#16 := by
  obtain ⟨e', h⟩ := drop_renderBlocks t pb pp (Nat.lt_of_succ_lt hk) e
  rw [← List.drop_drop, h, List.drop_eq_getElem_cons (Nat.lt_of_succ_lt hk), List.drop_eq_getElem_cons hk,
    pause_renderBlocks_cons]

end

/-- A message of MSG_BITS bits is as long as that of a packed payload, C samples (43_synth R320). -/
theorem length_message_of_msgBits {s : State} (hc : ConfigInv s) (hv : s.cfgValid = true) {bits : Bits}
    (hb : bits.length = s.derived.msgBits.toNat) : (s.message bits).1.length = s.rbCapNat := by
  have hp : ([] : List Byte).length ≤ s.payloadCapNat := Nat.zero_le _
  rw [length_message, hb, ← length_packBits_active hc hv hp, ← length_message, length_message_packBits hc hv hp]

end Sys2Proof.Machine
end

section
/-! SUPPORT. What SYN_BLOCK and BUILD_SIGNAL store (43_synth R319, R322). -/

namespace Sys2Proof.Machine

variable {s : State}

theorem sending_eq_false (h : s.txState ≠ .sending) : s.sending = false := beq_eq_false_iff_ne.2 h

/-- A command that ends with a signal of `l` samples stored has it in PCMBUF, its length in PCMLEN, and leaves
everything else but the draws alone. -/
theorem signal_stored (hm : Memory.wf s.mem) {r : Out} {q : List Sample × Env} {l : Nat} (hl : q.1.length = l)
    (h32 : l < 2 ^ 32) (hx : r = .next { storePcm q s with err := .ok }) :
    ∃ t, r = .next t ∧ t = { s with mem := t.mem, pcmlen := t.pcmlen, env := t.env, err := .ok } ∧
      t.pcmlen.toNat = l ∧ Memory.readWords t.mem pcmBase l = some (q.1.map sampleWord) ∧ BytesKept s t pcmBase l := by
  subst hl
  exact ⟨_, hx, rfl, toNat_ofNat_word h32, readWords_storePcm hm q, bytesKept_of_store rfl (List.length_map _)⟩

theorem execSynBlock_eq (hs : s.sending = false) (hv : s.cfgValid = true) (hk : s.arg0Nat ≤ 5)
    (hb : s.arg0Nat < 2 → s.blenNat ≤ s.hw.maxBits ∧ s.arg1Nat < ceilDiv s.blenNat s.nfreqNat) {b : Bits} {w : Nat}
    (hr : s.synthBlock = some (b, w)) :
    execSynBlock s = .next { storePcm (synth s.tone b w s.env) s with err := .ok } := by
  rw [execSynBlock, if_neg (by simp [hs]), if_neg (by simp [hv]), if_neg (by omega), if_neg (by omega), hr]
  rfl

theorem execBuildSignal_eq (hs : s.sending = false) (hv : s.cfgValid = true) (hb : s.blenNat ≤ s.hw.maxBits)
    (hl : msgLength s.derived.bitSamples.toNat s.derived.pauseSamples.toNat (ceilDiv s.blenNat s.nfreqNat) ≤
      s.hw.maxPcm)
    {bits : Bits} (hr : s.bbuf s.blenNat = some bits) :
    execBuildSignal s = .next { storePcm (s.message bits) s with err := .ok } := by
  rw [execBuildSignal]
  simp only
  rw [if_neg (by simp [hs]), if_neg (by simp [hv]), if_neg (by omega), hr]
  rfl

/-! ## The kinds of block -/

/-- A block has as many samples as a register says. -/
theorem synthBlock_length_lt {b : Bits} {w : Nat} (h : s.synthBlock = some (b, w)) : w < 2 ^ 32 := by
  have hpause : s.pauseLength < 2 ^ 32 := by
    unfold State.pauseLength
    split_ifs
    · exact s.derived.pfloor.isLt
    · exact s.derived.pauseSamples.isLt
  have hpb := s.derived.bitSamples.isLt
  suffices hall : ∀ bw ∈ s.synthBlock, bw.2 < 2 ^ 32 from hall _ h
  simp only [State.synthBlock]
  split <;> simp [hpb, hpause, -Nat.reducePow]

/-- Kinds 0 and 1: a block of BBUF, or its inverse (43_synth R319). -/
theorem synthBlock_data (hm : Memory.wf s.mem) (h : s.arg0Nat < 2) (hj : s.arg1Nat < ceilDiv s.blenNat s.nfreqNat)
    {bits : Bits} (hb : s.bbuf s.blenNat = some bits) :
    s.synthBlock = some ((List.range s.nfreqNat).map fun i =>
      (bits.getD (s.arg1Nat * s.nfreqNat + i) false) != (s.arg0Nat == 1), s.derived.bitSamples.toNat) := by
  have hblk := bbufBlock_eq hm hb (mul_lt_of_lt_ceilDiv hj).le
  obtain h0 | h1 : s.arg0Nat = 0 ∨ s.arg0Nat = 1 := by omega
  · simp [State.synthBlock, h0, hblk, blockOf]
  · simp [State.synthBlock, h1, hblk, blockOf, invertBits]

/-- Kind 4: a pause of Pp samples, or of the floor where Pp is 0 (43_synth R310). -/
theorem synthBlock_pause (h : s.arg0Nat = 4) : s.synthBlock = some (List.replicate s.nfreqNat false,
    if s.derived.pauseSamples.toNat = 0 then s.derived.pfloor.toNat else s.derived.pauseSamples.toNat) := by
  simp [State.synthBlock, State.pauseLength, h, BitVec.toNat_eq]

end Sys2Proof.Machine
end

section
/-! The obligations of the synthesizer family about messages and commands. -/

open Sys2Proof Sys2Proof.Machine

/-- Settles O44: a message is its blocks, each in a slot of its own with a pause behind it. -/
theorem messageSlots : Obligations.MessageSlots := by
  refine ⟨fun s bits => ?slots, fun s bits hc hv hb => length_message_of_msgBits hc hv hb⟩
  have slot {k : Nat} {b : Bits} (h : (msgBlocks s.nfreqNat bits)[k]? = some b) :=
    renderBlocks_slot s.tone s.derived.bitSamples.toNat s.derived.pauseSamples.toNat h s.env
  refine ⟨length_message s bits, ?start, slot (msgBlocks_end _ _), fun j hj => ?payload, fun t ht => ?pause⟩
  case start => simpa only [State.message, Nat.zero_mul, List.drop_zero] using slot (msgBlocks_start _ _)
  case payload =>
    obtain ⟨hblk, hinv⟩ := msgBlocks_payload s.nfreqNat bits hj
    exact ⟨slot hblk, slot hinv⟩
  case pause => exact renderBlocks_pause _ _ _ (by rw [length_msgBlocks]; omega) _

/-- Settles O45, kind by kind: the block that the command renders is the one named. -/
theorem synBlockCommand : Obligations.SynBlockCommand := by
  intro s b w hm ht hv hkind
  have stored (hk : s.arg0Nat ≤ 5)
      (hb : s.arg0Nat < 2 → s.blenNat ≤ s.hw.maxBits ∧ s.arg1Nat < ceilDiv s.blenNat s.nfreqNat)
      (hr : s.synthBlock = some (b, w)) :=
    signal_stored hm (length_synth _ _ _ _) (synthBlock_length_lt hr)
      (execSynBlock_eq (sending_eq_false ht) hv hk hb hr)
  obtain ⟨h, hl, hj, rfl, bits, hb, rfl⟩ | ⟨h, rfl, rfl⟩ | ⟨h, rfl, rfl⟩ | ⟨h, rfl, rfl⟩ | ⟨h, rfl, hb⟩ := hkind
  case inl => exact stored (by unfold State.arg0Nat; omega) (fun _ => ⟨hl, hj⟩) (synthBlock_data hm h hj hb)
  all_goals refine stored (h.trans_le (by decide)) (fun h' => absurd h' (by unfold State.arg0Nat; omega)) ?_
  case inr.inl => simp [State.synthBlock, State.arg0Nat, h, startBits]
  case inr.inr.inl => simp [State.synthBlock, State.arg0Nat, h, endBits]
  case inr.inr.inr.inl => exact synthBlock_pause h
  case inr.inr.inr.inr => simp [State.synthBlock, State.arg0Nat, h, hb]

/-- Settles O46: the message is stored; its length is the one that was checked against the room in PCMBUF. -/
theorem buildSignalCommand : Obligations.BuildSignalCommand := by
  intro s bits hm ht hv hb hpcm hr l hl
  have hlen : (s.message bits).1.length = l := (length_message s bits).trans (by rw [length_bbuf hm hr]; rfl)
  exact signal_stored hm hlen (hl.trans_lt hpcm) (execBuildSignal_eq (sending_eq_false ht) hv hb hl hr)

end

section
/-! SUPPORT. The enclosures of the synthesizer (43_synth R313, R314): each operation on bounds holds the exact real
number, from one tone up to the shaped sample. -/

open Finset

namespace Sys2Proof.Machine

/-! ## Operations on bounds -/

section
variable {p : ℕ} {x : ℝ}

/-- The real part of a number in a disc. -/
theorem Disc.reIval_holds {z : ℂ} {a : Disc} (ha : a.Holds p z) : a.reIval.Holds p z.re := by
  intro hk
  have h := Complex.abs_re_le_norm (z * 2 ^ p - ((a.re : ℂ) + a.im * Complex.I))
  have e : (z * 2 ^ p - ((a.re : ℂ) + a.im * Complex.I)).re = z.re * 2 ^ p - a.re := by
    rw [show (2 : ℂ) ^ p = ((2 ^ p : ℝ) : ℂ) by push_cast; rfl]
    simp [-Complex.ofReal_pow]
  rw [e] at h
  obtain ⟨h1, h2⟩ := abs_le.1 (h.trans (ha hk))
  simp only [Disc.reIval]
  push_cast
  constructor <;> linarith

/-- The number brought into [-1, 1]. -/
theorem Ival.clip_holds {a : Ival} (ha : a.Holds p x) : (a.clip p).Holds p (max (-1) (min 1 x)) := by
  intro hk
  obtain ⟨h1, h2⟩ := ha hk
  have hP : (0 : ℝ) ≤ 2 ^ p := by positivity
  rw [max_mul_of_nonneg _ _ hP, min_mul_of_nonneg _ _ hP, neg_one_mul, one_mul]
  simp only [Ival.clip, fixOne]
  push_cast
  exact ⟨max_le_max le_rfl (min_le_min le_rfl h1), max_le_max le_rfl (min_le_min le_rfl h2)⟩

/-- The sum over a list, each term between bounds. -/
theorem Ival.foldl_add_holds {α : Type} {l : List α} {φ : α → Ival} {f : α → ℝ} (h : ∀ a ∈ l, (φ a).Holds p (f a)) :
    (l.foldl (fun acc a => acc.add (φ a)) Ival.zero).Holds p (l.map f).sum := by
  induction l using List.reverseRecOn with
  | nil => exact Ival.zero_holds p
  | append_singleton l a ih =>
    rw [List.foldl_append, List.map_append, List.sum_append, List.map_singleton, List.sum_singleton]
    exact Ival.add_holds (ih fun b hb => h b (by simp [hb])) (h a (by simp))

/-- The greatest magnitude of a list, 0 where it is empty (43_synth R314). -/
theorem peakOf_holds {l : List Ival} {f : ℕ → ℝ} (h : TracksReal p l f) :
    (peakOf l).Holds p ((range l.length).fold max 0 fun i => |f i|) := by
  induction l using List.reverseRecOn with
  | nil => exact Ival.zero_holds p
  | append_singleton l a ih =>
    have hl : TracksReal p l f := fun i hi => by
      have := h i (by simp; omega)
      rwa [List.getElem_append_left hi] at this
    have ha : a.Holds p (f l.length) := by simpa using h l.length (by simp)
    rw [peakOf, List.foldl_append, List.length_append, List.length_singleton, range_add_one,
      fold_insert notMem_range_self, max_comm]
    exact Ival.larger_holds (ih hl) (Ival.abs_holds ha)

/-- The greatest of some magnitudes that one of them attains. -/
theorem fold_max_eq_of_attained {w : ℕ} {f : ℕ → ℝ} {peak : ℝ} (hle : ∀ m < w, |f m| ≤ peak)
    (hat : ∃ m < w, |f m| = peak) : (range w).fold max 0 (fun i => |f i|) = peak := by
  obtain ⟨m, hm, rfl⟩ := hat
  refine le_antisymm ((fold_max_le _).2 ⟨abs_nonneg _, fun i hi => hle i (mem_range.1 hi)⟩) ?_
  exact (le_fold_max _).2 (.inr ⟨m, mem_range.2 hm, le_rfl⟩)

end

/-! ## The burst -/

/-- One tone at sample `n` of the burst (43_synth R313). -/
noncomputable def toneAt (w n : ℕ) (kp : ℕ × Phase) : ℝ := Real.cos (2 * Real.pi * kp.1 * n / w + kp.2.angle)

/-- Sample `n` of the burst (43_synth R313). -/
noncomputable def burstAt (w : ℕ) (tones : List (ℕ × Phase)) (n : ℕ) : ℝ := (tones.map (toneAt w n)).sum

/-- The enclosure of sample `n` of the burst. -/
def burstIval (p w : ℕ) (tones : List (ℕ × Phase)) (n : ℕ) : Ival :=
  burstSample p (turnTable p w) w (tones.map fun kp => (kp.1, phasor p kp.2)) n

section
variable {p w : ℕ} (hp : firstPrec ≤ p) (hw : 0 < w)

include hp hw

/-- The table holds every whole multiple of its turn. -/
theorem turnTable_holds (a : ℕ) : ((turnTable p w).getD (a % w) .zero).Holds p
    (Complex.exp ((2 * Real.pi * a / w : ℝ) * Complex.I)) := by
  have e : (turnTable p w).getD (a % w) .zero = unitTurn p a w := by
    simp [turnTable, Array.getD, Nat.mod_lt a hw, unitTurn]
  rw [e]
  exact unitTurn_holds hp a hw

theorem tone_holds (n : ℕ) (kp : ℕ × Phase) :
    (Disc.mul p ((turnTable p w).getD (kp.1 * n % w) .zero) (phasor p kp.2)).reIval.Holds p (toneAt w n kp) := by
  have h := Disc.reIval_holds (Disc.mul_holds (turnTable_holds hp hw (kp.1 * n)) (phasor_holds hp kp.2))
  rw [← Complex.exp_add, ← add_mul, ← Complex.ofReal_add, Complex.exp_ofReal_mul_I_re, Nat.cast_mul, ← mul_assoc] at h
  exact h

theorem burstIval_holds (tones : List (ℕ × Phase)) (n : ℕ) : (burstIval p w tones n).Holds p (burstAt w tones n) := by
  rw [burstIval, burstSample, List.foldl_map]
  exact Ival.foldl_add_holds fun kp _ => tone_holds hp hw n kp

/-- The peak of the burst (43_synth R314). -/
theorem burstPeak_holds {tones : List (ℕ × Phase)} {peak : ℝ} (hle : ∀ m < w, |burstAt w tones m| ≤ peak)
    (hat : ∃ m < w, |burstAt w tones m| = peak) :
    (peakOf ((List.range w).map (burstIval p w tones))).Holds p peak := by
  have h := peakOf_holds (TracksReal.of_range fun n (_ : n < w) => burstIval_holds hp hw tones n)
  rwa [List.length_map, List.length_range, fold_max_eq_of_attained hle hat] at h

end

/-! ## The shaped sample -/

theorem fadeGain_pos (w r n : ℕ) : 0 < (fadeGain w r n).2 := by
  unfold fadeGain
  split_ifs <;> simp <;> omega

/-- The gain as a number (43_synth R314). -/
theorem fadeGain_ratio (w r n : ℕ) : ((fadeGain w r n).1 : ℝ) / (fadeGain w r n).2 =
    if 1 ≤ r ∧ n < r then (n : ℝ) / r else if 1 ≤ r ∧ w - 1 - r < n then ((w - 1 - n : ℕ) : ℝ) / r else 1 := by
  unfold fadeGain
  split_ifs <;> simp

/-- Normalized, faded and clipped (43_synth R314). -/
theorem shapeSample_holds {p : ℕ} {peak x : Ival} {y z : ℝ} (hx : x.Holds p y) (hpeak : peak.Holds p z) {g : ℕ × ℕ}
    (hg : 0 < g.2) : (shapeSample p peak x g).Holds p (max (-1) (min 1 (y / z * (g.1 / g.2)))) := by
  have h := Ival.clip_holds (Ival.scale_holds (Ival.div_holds hx hpeak) g.1 hg)
  rwa [mul_div_assoc] at h

/-- The bounds that sample `n` of a block is read off. -/
def sampleIval (p w fadeDiv : ℕ) (tones : List (ℕ × Phase)) (n : ℕ) : Ival :=
  shapeSample p (peakOf ((List.range w).map (burstIval p w tones))) (burstIval p w tones n) (fadeGain w (w / fadeDiv) n)

theorem synthAt_getElem? {w n : ℕ} (hn : n < w) (fadeDiv : ℕ) (tones : List (ℕ × Phase)) (p : ℕ) :
    (synthAt w fadeDiv tones p)[n]? = some (pcmAt p (sampleIval p w fadeDiv tones n)) := by
  have e : burst p w (tones.map fun kp => (kp.1, phasor p kp.2)) = (List.range w).map (burstIval p w tones) := rfl
  rw [synthAt, e]
  simp [sampleIval, hn]

end Sys2Proof.Machine
end

section
/-! SUPPORT. The outcomes of the synthesizer (43_synth R312, R314, R316, R317): the on bins, which outcomes a sample
has, and where 0 is the only one. -/

namespace Sys2Proof.Machine

/-! ## The on bins -/

/-- The on bins are those of R312. -/
theorem mem_onBins {c : Tone} {b : Bits} {w k : ℕ} : k ∈ onBins c b w ↔
    0 < k ∧ 2 * k < w ∧ ∃ i < b.length, b.getD i false = true ∧ binInChannel c w k i = true := by
  simp only [onBins, List.mem_filter, List.mem_range, Bool.and_eq_true, decide_eq_true_eq, List.any_eq_true, and_assoc]
  exact ⟨fun h => h.2, fun h => ⟨by omega, h⟩⟩

theorem binInChannel_iff {c : Tone} {w k i : ℕ} : binInChannel c w k i = true ↔
    (2 * ((c.f0 : ℤ) + i * c.spacing) - c.spacing) * w ≤ 2 * k * c.fs ∧
      (2 * k * c.fs : ℤ) < (2 * ((c.f0 : ℤ) + i * c.spacing) + c.spacing) * w := by
  simp [binInChannel]

/-- A bin of channel `i` lies below the interval of every higher channel. -/
theorem channel_not_lt {c : Tone} {w k i j : ℕ} (hi : binInChannel c w k i = true) (hj : binInChannel c w k j = true) :
    ¬ i < j := by
  intro hij
  have below := (binInChannel_iff.1 hi).2
  have above := (binInChannel_iff.1 hj).1
  have hij' : ((i : ℤ) + 1) * c.spacing ≤ j * c.spacing := by gcongr; exact_mod_cast hij
  have edge : (2 * ((c.f0 : ℤ) + i * c.spacing) + c.spacing) * w ≤
      (2 * ((c.f0 : ℤ) + j * c.spacing) - c.spacing) * w := by
    gcongr ?_ * _
    linarith
  linarith

theorem onBins_eq_nil {c : Tone} {b : Bits} {w : ℕ} (h : (∀ x ∈ b, x = false) ∨ w ≤ 2) : onBins c b w = [] := by
  refine List.eq_nil_iff_forall_not_mem.2 fun k hk => ?_
  obtain ⟨h0, hw, i, hi, hb, -⟩ := mem_onBins.1 hk
  rcases h with h | h
  · rw [List.getD_eq_getElem _ _ hi, h _ (List.getElem_mem hi)] at hb
    exact Bool.noConfusion hb
  · omega

/-! ## The outcomes of one sample -/

@[simp] theorem exactly_allows {n m : ℤ} : (Choices.exactly n).Allows m ↔ m = n := by
  simp only [Choices.Allows, Choices.exactly]
  omega

theorem pcmLow_range (p : ℕ) (v : ℤ) : -32760 ≤ pcmLow p v ∧ pcmLow p v ≤ 32760 := by
  unfold pcmLow clampPcm
  omega

/-- No outcome leaves the range of a sample (43_synth R316). -/
theorem pcmAt_range {p : ℕ} {z : Ival} {n : ℤ} (h : (pcmAt p z).choices.Allows n) : -32760 ≤ n ∧ n ≤ 32760 := by
  cases hk : z.known with
  | true =>
    rw [pcmAt_of_known hk, between_allows] at h
    have lo := pcmLow_range p z.lo
    have hi := pcmLow_range p z.neg.lo
    omega
  | false =>
    rw [pcmAt_of_unknown hk, between_allows] at h
    omega

/-- The exact 0 is cut off to 0 and nothing else: the band of 0 is open (43_synth R325). -/
theorem pcmAt_zero {p : ℕ} (hp : 20 ≤ p) : (pcmAt p .zero).choices = .exactly 0 := by
  have hlt : (pcmBand p : ℤ) < fixOne p := by
    unfold pcmBand fixOne
    exact_mod_cast Nat.pow_lt_pow_right (by decide) (by omega)
  have h0 : pcmLow p 0 = 0 := by
    have hband : 0 ≤ pcmBand p := by unfold pcmBand; positivity
    have hceil : ceilDivInt (-pcmBand p) (fixOne p) = 0 := by
      rw [ceilDivInt, neg_neg, Int.ediv_eq_zero_of_lt hband hlt, neg_zero]
    rw [pcmLow, zero_mul, zero_sub, truncLow, if_pos (by omega), hceil]
    rfl
  rw [pcmAt_of_known rfl]
  simp [Ival.zero, Ival.neg, h0, Choices.between, Choices.exactly]

/-- Where the gain is 0 the sample is the exact 0 (43_synth R314). -/
theorem shapeSample_of_gain_zero (p : ℕ) (peak x : Ival) {g : ℕ × ℕ} (hg : g.1 = 0) :
    shapeSample p peak x g = .zero := by
  have hc : Ival.zero.clip p = .zero := by simp [Ival.clip, Ival.zero]
  rw [shapeSample, Ival.scale, if_pos hg, hc]

/-- The ramps start from gain 0 at both ends, and do not meet (43_synth R314). -/
theorem fadeGain_ends {w fadeDiv n : ℕ} (hf : 2 ≤ fadeDiv) (hr : 1 ≤ w / fadeDiv) (hn : n = 0 ∨ n = w - 1) :
    (fadeGain w (w / fadeDiv) n).1 = 0 := by
  have h2 : w / fadeDiv ≤ w / 2 := Nat.div_le_div_left hf (by decide)
  unfold fadeGain
  split_ifs with hin hout
  · change n = 0
    omega
  · change w - 1 - n = 0
    omega
  · omega

/-! ## The outcomes of a block -/

theorem synthChoices_of_silent {c : Tone} {b : Bits} {w : ℕ} (h : onBins c b w = []) (phases : List Phase) :
    synthChoices c b w phases = List.replicate w (.exactly 0) := by simp [synthChoices, h]

/-- With a bin on, the outcomes are read at one precision, the first or a higher one. -/
theorem synthChoices_eq {c : Tone} {b : Bits} {w : ℕ} (phases : List Phase) (h : onBins c b w ≠ []) :
    ∃ p, firstPrec ≤ p ∧
      synthChoices c b w phases = (synthAt w c.fadeDiv ((onBins c b w).zip phases) p).map Reading.choices := by
  obtain ⟨p, hp, e⟩ := settle_eq (synthAt w c.fadeDiv ((onBins c b w).zip phases))
  exact ⟨p, hp, by simp [synthChoices, h, e]⟩

section
variable {c : Tone} {b : Bits} {w n : ℕ} (phases : List Phase)

/-- The outcomes of a sample are those of a reading, or only 0. -/
theorem synthChoices_getElem? (hn : n < w) : (synthChoices c b w phases)[n]? = some (.exactly 0) ∨
    ∃ p tones, firstPrec ≤ p ∧
      (synthChoices c b w phases)[n]? = some (pcmAt p (sampleIval p w c.fadeDiv tones n)).choices := by
  by_cases h : onBins c b w = []
  · left
    rw [synthChoices_of_silent h, List.getElem?_replicate, if_pos hn]
  · right
    obtain ⟨p, hp, e⟩ := synthChoices_eq phases h
    exact ⟨p, _, hp, by rw [e, List.getElem?_map, synthAt_getElem? hn]; rfl⟩

/-- Every sample lies in the range of R316. -/
theorem synthChoices_range {d : Choices} (hd : (synthChoices c b w phases)[n]? = some d) {v : ℤ} (hv : d.Allows v) :
    -32760 ≤ v ∧ v ≤ 32760 := by
  have hn : n < w := by simpa using (List.getElem?_eq_some_iff.1 hd).1
  rcases synthChoices_getElem? phases hn with e | ⟨p, tones, -, e⟩
  all_goals obtain rfl := Option.some.inj (hd.symm.trans e)
  · rw [exactly_allows] at hv
    omega
  · exact pcmAt_range hv

/-- Both ends are 0 where there is a ramp (43_synth R317). -/
theorem synthChoices_ends (hf : 2 ≤ c.fadeDiv) (hr : 1 ≤ w / c.fadeDiv) (hn : n = 0 ∨ n = w - 1) :
    (synthChoices c b w phases)[n]? = some (.exactly 0) := by
  have hw : 0 < w := Nat.pos_of_ne_zero fun h => by simp [h] at hr
  rcases synthChoices_getElem? phases (show n < w by omega) with e | ⟨p, tones, hp, e⟩
  · exact e
  · rw [e, sampleIval, shapeSample_of_gain_zero _ _ _ (fadeGain_ends hf hr hn),
      pcmAt_zero (le_trans (by decide) hp)]

end

/-! ## A rendered block -/

/-- The outcome drawn for a choice is one it allows. -/
theorem drawChoices_getElem? {cs : List Choices} {k : ℕ} {d : Choices} (hd : cs[k]? = some d) (e : Env) :
    ∃ v, (drawChoices cs e).1[k]? = some v ∧ d.Allows v := by
  induction cs generalizing k e with
  | nil => simp at hd
  | cons c cs ih =>
    cases k with
    | zero =>
      obtain rfl := Option.some.inj hd
      exact ⟨_, rfl, drawChoice_mem c e⟩
    | succ k => exact ih hd _

/-- The phases drawn for a block (43_synth R324). -/
def blockPhases (c : Tone) (b : Bits) (w : ℕ) (e : Env) : List Phase := (drawPhases (onBins c b w).length e).1

section
variable {c : Tone} {b : Bits} {w n : ℕ} (e : Env)

/-- Each sample is one of the outcomes allowed for it, whatever was drawn (43_synth R317, R324). -/
theorem synth_getElem? (hn : n < w) : ∃ d v, (synthChoices c b w (blockPhases c b w e))[n]? = some d ∧
    (synth c b w e).1[n]? = some v ∧ d.Allows v.toInt ∧ -32760 ≤ v.toInt ∧ v.toInt ≤ 32760 := by
  obtain ⟨d, hd⟩ : ∃ d, (synthChoices c b w (blockPhases c b w e))[n]? = some d :=
    ⟨_, List.getElem?_eq_getElem (by simpa using hn)⟩
  obtain ⟨v, hv, ha⟩ := drawChoices_getElem? hd (drawPhases (onBins c b w).length e).2
  have hr := synthChoices_range _ hd ha
  have hi : (BitVec.ofInt 16 v).toInt = v :=
    BitVec.toInt_ofInt_eq_self (by decide) (by norm_num; omega) (by norm_num; omega)
  exact ⟨d, BitVec.ofInt 16 v, hd, by rw [synth, List.getElem?_map]; exact congrArg _ hv, hi.symm ▸ ha, hi.symm ▸ hr⟩

/-- Both ends are 0 where there is a ramp (43_synth R317). -/
theorem synth_ends (hf : 2 ≤ c.fadeDiv) (hr : 1 ≤ w / c.fadeDiv) (hn : n = 0 ∨ n = w - 1) :
    (synth c b w e).1[n]? = some 0 := by
  have hw : 0 < w := Nat.pos_of_ne_zero fun h => by simp [h] at hr
  obtain ⟨d, v, hd, hv, ha, -⟩ := synth_getElem? (c := c) (b := b) e (show n < w by omega)
  obtain rfl := Option.some.inj (hd.symm.trans (synthChoices_ends _ hf hr hn))
  rw [hv, BitVec.eq_of_toInt_eq (y := 0) (exactly_allows.1 ha)]

/-- Silence where no bin is on (43_synth R314, R317). -/
theorem synth_of_silent (h : onBins c b w = []) : (synth c b w e).1 = List.replicate w 0 := by
  simp [synth, synthChoices_of_silent h, drawChoices_replicate]

end

end Sys2Proof.Machine
end

section
/-! The obligation of the synthesizer family about rendered blocks. -/

open Sys2Proof Sys2Proof.Machine

/-- Settles O43: a sample is drawn from what its reading allows, and the reading is that of an enclosure of the real
sample; where the gain is 0 or no bin is on the reading leaves only 0. -/
theorem synthProperties : Obligations.SynthProperties := by
  refine ⟨fun c b w e hf => ?block, fun c b w k => ?bins, fun c w k i j hi hj => ?channel,
    fun c b w phases h => synthChoices_eq phases h, fun w fadeDiv p tones peak hp => ?enclosed, ?vector⟩
  case block =>
    refine ⟨length_synth c b w e, fun v hv => ?range, fun hr => ?ends, onBins_eq_nil, synth_of_silent e,
      fun k h => ?outcome⟩
    case range =>
      obtain ⟨k, hk, rfl⟩ := List.mem_iff_getElem.1 hv
      obtain ⟨d, v, -, hv, -, hrange⟩ := synth_getElem? e (by simpa using hk)
      rwa [← (List.getElem?_eq_some_iff.1 hv).2] at hrange
    case ends =>
      rw [List.head?_eq_getElem?, List.getLast?_eq_getElem?, length_synth]
      exact ⟨synth_ends e hf hr (.inl rfl), synth_ends e hf hr (.inr rfl)⟩
    case outcome =>
      obtain ⟨d, v, hd, hv, ha, -⟩ := synth_getElem? e (by simpa using h)
      rw [← (List.getElem?_eq_some_iff.1 hv).2] at ha
      exact ⟨d, hd, ha⟩
  case bins => simp only [mem_onBins, binInChannel_iff]
  case channel => exact le_antisymm (not_lt.1 (channel_not_lt hj hi)) (not_lt.1 (channel_not_lt hi hj))
  case enclosed =>
    intro x r g hle hat n hn
    have hw := Nat.zero_lt_of_lt hn
    refine ⟨sampleIval p w fadeDiv tones n, synthAt_getElem? hn _ _ _, ?_⟩
    have h := shapeSample_holds (burstIval_holds hp hw tones n) (burstPeak_holds hp hw hle hat)
      (fadeGain_pos w (w / fadeDiv) n)
    rwa [fadeGain_ratio] at h
  case vector => decide +kernel

end

section
/-! SUPPORT. What the frame-sync detector may find (44_framesync R351 to R356) and what SYNC_TEST stores of it
(R358). -/

namespace Sys2Proof.Machine

variable {s : State} {o w wf wl : List Word}

/-! ## Silence (44_framesync R356) -/

theorem bandEnergy_of_zero (fs n fl fh : Nat) (h : ∀ x ∈ w, x = 0#32) : bandEnergy fs n fl fh w = noEnergy := by
  have h0 : f32Fix 0#32 = 0 := by decide
  have hall : w.all (fun v => f32Fix v = 0) = true :=
    List.all_eq_true.2 fun x hx => decide_eq_true (by rw [h x hx, h0])
  funext p
  rw [bandEnergy, if_pos hall, noEnergy]

@[simp] theorem factorTimes_zero (f : Word) : factorTimes f .zero = .zero := by
  simp [factorTimes, Ival.scale, Ival.zero, ceilDivInt]

/-- No factor makes silence exceed silence. -/
theorem greaterThan_silence (f : Word) :
    (greaterThan noEnergy fun p => factorTimes f (noEnergy p)) = .verdict false := by
  have h : greaterAt (noEnergy firstPrec) (factorTimes f (noEnergy firstPrec)) = ⟨.verdict false, true⟩ := by
    simp [noEnergy, greaterAt]
  rw [greaterThan, settleOne_of_settled (by rw [h]), h]

/-- What a silent window gives: no start, and no energy anywhere. -/
def silentResult : SyncResult :=
  { start := false, stop := false, upFirst := noEnergy, downFirst := noEnergy, upLast := noEnergy,
    downLast := noEnergy }

theorem syncTest_of_silence (c : SyncSetup) (wl : List Word) (e : Env) (h : ∀ x ∈ wf, x = 0#32) :
    syncTest c wf wl e = (silentResult, e) := by
  simp only [syncTest, bandEnergy_of_zero _ _ _ _ h, greaterThan_silence, drawVerdict_verdict]
  rfl

theorem syncOn_of_silence (h : ∀ x ∈ o.take s.stepLenNat, x = 0#32) : s.syncOn o = (silentResult, s.env) :=
  syncTest_of_silence _ _ _ h

theorem analyse_of_silence (ho : s.snapshot = some o) (h : ∀ x ∈ o.take s.stepLenNat, x = 0#32) :
    analyse s = .next s := by
  unfold analyse
  split_ifs
  · rfl
  · rw [ho, withRead_some, syncOn_of_silence h]
    rfl

/-! ## The bands (44_framesync R351) -/

/-- The two bands are the lower and the upper half of the channels: the half has an even number of them, so its width
is halved without a remainder. -/
theorem syncSetup_eq (hc : ConfigInv s) (hv : s.cfgValid = true) :
    let f0 := s.activeProfile.f0.toNat
    let half := s.activeProfile.spacing.toNat * (s.activeProfile.nfreq.toNat / 2)
    s.syncSetup =
      { fs := s.activeProfile.fs.toNat, order := s.activeTuning.bwOrder.toNat
        downLo := f0, downHi := f0 + half, upLo := f0 + half, upHi := f0 + 2 * half
        startFactor := s.activeTuning.startFactor, endFactor := s.activeTuning.endFactor } := by
  intro f0 half
  obtain ⟨-, -, ew, -, -, -, -, -, -, -, -, -, -, -, -, -, -, edn, eup, -⟩ :=
    derivedFit s.hw s.activeProfile s.activeTuning hc.params (hc.valid hv)
  obtain ⟨h8, -⟩ := configValid_blocks (hc.valid hv)
  have hd := hc.derived
  rw [hv, if_pos rfl] at hd
  have hw : s.derived.bpw.toNat = half := by rw [hd, ew]; rfl
  have hdn : s.derived.downCenter.toNat = f0 + half / 2 := by rw [hd, edn]; rfl
  have hup : s.derived.upCenter.toNat = f0 + half + half / 2 := by rw [hd, eup]; rfl
  have heven : 2 ∣ half := Dvd.dvd.mul_left (by omega) _
  clear_value half
  simp only [State.syncSetup, hw, hdn, hup, SyncSetup.mk.injEq, true_and, and_true]
  omega

/-! ## What a sync test finds (44_framesync R355) -/

/-- The energy of a window in the upper band. -/
abbrev SyncSetup.up (c : SyncSetup) (w : List Word) : Nat → Ival := bandEnergy c.fs c.order c.upLo c.upHi w

/-- The energy of a window in the lower band. -/
abbrev SyncSetup.down (c : SyncSetup) (w : List Word) : Nat → Ival := bandEnergy c.fs c.order c.downLo c.downHi w

/-- What `sync(wf, wl)` may find: each verdict is one that its comparison allows, and the last window is looked at only
after a start. -/
structure SyncAllowed (c : SyncSetup) (wf wl : List Word) (r : SyncResult) : Prop where
  start : ∃ k, (greaterThan (c.up wf) fun p => factorTimes c.startFactor (c.down wf p)).Allows k ∧
    (r.start = true ↔ k = 1)
  stop : r.start = true → ∃ k, (greaterThan (c.down wl) fun p => factorTimes c.endFactor (c.up wl p)).Allows k ∧
    (r.stop = true ↔ k = 1)
  first : r.upFirst = c.up wf ∧ r.downFirst = c.down wf
  last : r.start = true → r.upLast = c.up wl ∧ r.downLast = c.down wl
  order : r.stop = true → r.start = true
  failed : r.start = false → r.upLast = noEnergy ∧ r.downLast = noEnergy

theorem drawVerdict_allowed (c : Choices) (e : Env) : ∃ k, c.Allows k ∧ ((drawVerdict c e).1 = true ↔ k = 1) := by
  obtain ⟨k, h1, h2, h⟩ := drawVerdict_mem c e
  exact ⟨k, ⟨h1, h2⟩, h⟩

theorem syncTest_allowed (c : SyncSetup) (wf wl : List Word) (e : Env) :
    SyncAllowed c wf wl (syncTest c wf wl e).1 := by
  obtain ⟨k, hk, hstart⟩ :=
    drawVerdict_allowed (greaterThan (c.up wf) fun p => factorTimes c.startFactor (c.down wf p)) e
  simp only [syncTest]
  split_ifs with h
  · exact ⟨⟨k, hk, iff_of_true rfl (hstart.1 h)⟩, fun _ => drawVerdict_allowed _ _, ⟨rfl, rfl⟩,
      fun _ => ⟨rfl, rfl⟩, fun _ => rfl, nofun⟩
  · exact ⟨⟨k, hk, iff_of_false nofun (mt hstart.2 h)⟩, nofun, ⟨rfl, rfl⟩, nofun, nofun, fun _ => ⟨rfl, rfl⟩⟩

/-! ## What SYNC_TEST stores (44_framesync R358) -/

/-- The state after SYNC_TEST: the four sums, one drawn after the other, and the verdicts. -/
def syncTested (r : SyncResult × Env) (s : State) : State :=
  let uf := drawF32 r.1.upFirst r.2
  let df := drawF32 r.1.downFirst uf.2
  let ul := drawF32 r.1.upLast df.2
  let dl := drawF32 r.1.downLast ul.2
  { s with
    sumUpFirst := uf.1, sumDownFirst := df.1, sumUpLast := ul.1, sumDownLast := dl.1,
    syncStart := r.1.start, syncEnd := r.1.stop, env := dl.2, err := .ok }

theorem execSyncTest_eq (hl : s.listening = false) (hv : s.cfgValid = true) (hb : s.rbValid = true)
    (ho : s.snapshot = some o) : execSyncTest s = .next (syncTested (s.syncOn o) s) := by
  rw [execSyncTest, if_neg (by simp [hl]), if_neg (by simp [hv]), if_neg (by simp [hb]), ho]
  simp only [withRead_some, finish, syncTested]

@[simp] theorem syncTested_syncStart (r : SyncResult × Env) (s : State) : (syncTested r s).syncStart = r.1.start := rfl

@[simp] theorem syncTested_syncEnd (r : SyncResult × Env) (s : State) : (syncTested r s).syncEnd = r.1.stop := rfl

theorem syncTested_frame (r : SyncResult × Env) (s : State) :
    syncTested r s = { s with
      sumUpFirst := (syncTested r s).sumUpFirst, sumDownFirst := (syncTested r s).sumDownFirst,
      sumUpLast := (syncTested r s).sumUpLast, sumDownLast := (syncTested r s).sumDownLast,
      syncStart := (syncTested r s).syncStart, syncEnd := (syncTested r s).syncEnd, env := (syncTested r s).env,
      err := .ok } := by
  simp only [syncTested]

theorem syncTested_silent (e : Env) (s : State) : syncTested (silentResult, e) s =
    { s with sumUpFirst := 0, sumDownFirst := 0, sumUpLast := 0, sumDownLast := 0, syncStart := false, syncEnd := false,
             env := e, err := .ok } := by
  simp only [syncTested, silentResult, drawF32_noEnergy]
  rfl

/-- With no energy in the last window both of its sums are 0. -/
theorem syncTested_noLast {r : SyncResult × Env} (hu : r.1.upLast = noEnergy) (hd : r.1.downLast = noEnergy) :
    (syncTested r s).sumUpLast = 0 ∧ (syncTested r s).sumDownLast = 0 := by
  simp [syncTested, hu, hd]

/-- `x` is a binary32 value that the bounds of `v` at some precision allow as its rounding (93 I6). -/
def SumAllowed (x : Word) (v : Nat → Ival) : Prop :=
  (∃ n, (f32Choices v).Allows n ∧ x = f32Word n) ∧
    ∃ p, firstPrec ≤ p ∧ f32Choices v = (f32At p (v p)).choices

theorem drawF32_allowed (v : Nat → Ival) (e : Env) : SumAllowed (drawF32 v e).1 v := by
  obtain ⟨n, h1, h2, h⟩ := drawF32_mem v e
  exact ⟨⟨n, ⟨h1, h2⟩, h⟩, f32Choices_eq v⟩

theorem syncTested_sums (r : SyncResult × Env) (s : State) :
    SumAllowed (syncTested r s).sumUpFirst r.1.upFirst ∧ SumAllowed (syncTested r s).sumDownFirst r.1.downFirst ∧
      SumAllowed (syncTested r s).sumUpLast r.1.upLast ∧ SumAllowed (syncTested r s).sumDownLast r.1.downLast := by
  simp only [syncTested, drawF32_allowed, and_self]

/-- Bounds that settle a rounding leave its value and the two neighbours. -/
theorem f32At_allows_of_settled {p : Nat} {v : Ival} (hs : (f32At p v).settled = true) {n : Int}
    (hn : (f32At p v).choices.Allows n) : f32Index p v.lo - 1 ≤ n ∧ n ≤ f32Index p v.lo + 1 := by
  unfold f32At at hs hn
  split_ifs at hs hn with hz hk
  · have h0 : f32Index p v.lo = 0 := by rw [hz]; rfl
    simp only [Choices.Allows, Choices.exactly] at hn
    omega
  · have hi : f32Index p v.lo = f32Index p v.hi := by simpa using hs
    rw [← hi, between_allows] at hn
    omega

end Sys2Proof.Machine
end

section
/-! The obligations of the frame-sync family. -/

open Sys2Proof Sys2Proof.Machine

/-- Settles O47: two exact zeros compare false with no draw, so the analysis ends with the state it began with. -/
theorem silenceNeverHits : Obligations.SilenceNeverHits :=
  ⟨fun _ _ _ _ _ p h => congrFun (bandEnergy_of_zero _ _ _ _ h) p, fun c _ wl e h => syncTest_of_silence c wl e h,
    fun _ _ ho h => analyse_of_silence ho h⟩

/-- Settles O48: the command stores what the sync test on the two halves of the channels may find. -/
theorem syncTestCommand : Obligations.SyncTestCommand := by
  intro s o hc hr hv hb ho f0 half up down oldest newest
  have hx := execSyncTest_eq (listening_eq_false hr) hv hb ho
  have hsilent (hz : ∀ x ∈ o, x = 0#32) : s.syncOn o = (silentResult, s.env) :=
    syncOn_of_silence fun x hx => hz x (List.mem_of_mem_take hx)
  have hfound : SyncAllowed s.syncSetup oldest newest (s.syncOn o).1 := syncTest_allowed _ _ _ _
  rw [syncSetup_eq hc hv] at hfound
  generalize s.syncOn o = r at hx hsilent hfound ⊢
  obtain ⟨hstart, hstop, ⟨huf, hdf⟩, hlast, horder, hfailed⟩ := hfound
  obtain ⟨hs1, hs2, hs3, hs4⟩ := syncTested_sums r s
  refine ⟨_, hx, syncTested_frame r s, syncTested_syncStart r s, syncTested_syncEnd r s, hstart, hstop, huf, hdf,
    hlast, horder, fun hf => syncTested_noLast (hfailed hf).1 (hfailed hf).2, ?sums,
    fun p v hs n hn => f32At_allows_of_settled hs hn, fun hz => ?silent⟩
  case sums =>
    simp only [List.forall_mem_cons]
    exact ⟨hs1, hs2, hs3, hs4, nofun⟩
  case silent => rw [hsilent hz, syncTested_silent]

end

section
/-! SUPPORT. The indices of the bit decoder (45_decoder R391 to R398): the frames of a valid configuration, rounded and
clamped quotients, and the values at most one step away. -/

namespace Sys2Proof.Machine

/-! ## The setup of a valid configuration (10_state R70) -/

/-- The decoder's setup shows the quantities of the active configuration. -/
theorem decodeSetup_eq {s : State} (hc : ConfigInv s) (hv : s.cfgValid = true) :
    let q := quantities s.activeProfile s.activeTuning
    s.decodeSetup =
      { pb := q.pb, pp := q.pp, wd := q.wd, hop := q.h, frames := q.f, binLo := q.binLo, binHi := q.binHi
        nblk := s.activeProfile.nblk.toNat, nfreq := s.activeProfile.nfreq.toNat, f0 := s.activeProfile.f0.toNat
        spacing := s.activeProfile.spacing.toNat, fs := s.activeProfile.fs.toNat
        agg := s.activeTuning.agg.toNat } := by
  intro q
  have hd := hc.derived
  rw [hv, if_pos rfl] at hd
  obtain ⟨pb, pp, -, -, -, -, -, -, -, -, wd, hop, frames, lo, hi, -⟩ :=
    derivedFit s.hw s.activeProfile s.activeTuning hc.params (hc.valid hv)
  simp only [State.decodeSetup, hd, pb, pp, wd, hop, frames, lo, hi, q]

/-- MSG_BITS is the number of bits the decoder gives (10_state R70). -/
theorem msgBits_eq {s : State} (hc : ConfigInv s) (hv : s.cfgValid = true) :
    s.derived.msgBits.toNat = s.decodeSetup.nblk * s.decodeSetup.nfreq := by
  have hd := hc.derived
  rw [hv, if_pos rfl] at hd
  obtain ⟨-, -, -, -, -, -, -, -, -, -, -, -, -, -, -, msgBits, -⟩ :=
    derivedFit s.hw s.activeProfile s.activeTuning hc.params (hc.valid hv)
  rw [hd, msgBits]
  rfl

/-- The lines 6 and 12 of 46_orchestrator R442, on the frames and on the room for a spectrogram. -/
theorem configValid_frames {hw : Params} {p : Profile} {u : Tuning} (h : configValid hw p u = true) :
    1 ≤ (quantities p u).h ∧ (quantities p u).f * (quantities p u).nbins ≤ hw.maxSpec := by
  simp only [configValid, Bool.and_eq_true, decide_eq_true_eq, bne_iff_ne, ne_eq, BitVec.toNat_eq] at h
  obtain ⟨hstep0, hstep⟩ : u.stepFactor.toNat ≠ 0 ∧ u.stepFactor.toNat ≤ (quantities p u).wd := by simp_all
  exact ⟨Nat.div_pos hstep (Nat.pos_of_ne_zero hstep0), by tauto⟩

/-- The window is one block, made even (45_decoder R391). -/
theorem quantities_wd (p : Profile) (u : Tuning) :
    (quantities p u).wd = (quantities p u).pb - (quantities p u).pb % 2 := rfl

/-- What the indices of the decoder need of its setup, for a buffer of `cap` elements. -/
structure DecodeSetup.InRange (c : DecodeSetup) (cap : ℕ) : Prop where
  window : 2 ≤ c.wd
  windowInBlock : c.wd ≤ c.pb
  windowInBuffer : c.wd ≤ cap
  hop : 1 ≤ c.hop
  frames : c.frames = (cap - c.wd) / c.hop + 1
  binOrder : c.binLo ≤ c.binHi
  binBound : c.binHi ≤ c.wd / 2
  rate : 0 < c.fs

theorem decodeSetup_inRange {s : State} (hc : ConfigInv s) (hv : s.cfgValid = true) :
    s.decodeSetup.InRange s.rbCapNat := by
  obtain ⟨-, -, hpb, hfs, -, -, -, hbins⟩ := configValid_bounds (hc.valid hv)
  obtain ⟨hcap, -, -, -, -, -, -, hwd, -, -⟩ := quantities_samples_le (hc.valid hv)
  obtain ⟨-, -, ec, -⟩ := derived_of_valid hc hv
  have h2 : 2 ≤ (quantities s.activeProfile s.activeTuning).wd := by
    rw [quantities_wd]
    omega
  rw [decodeSetup_eq hc hv, ec]
  exact ⟨h2, hwd, hwd.trans hcap, (configValid_frames (hc.valid hv)).1, rfl, hbins, Nat.min_le_left _ _,
    Nat.zero_lt_of_lt hfs⟩

/-! ## Rounded and clamped quotients (00_scope R17, 45_decoder R395, R397) -/

theorem roundHalfUp_eq_floor (p : ℕ) {q : ℕ} (hq : 0 < q) : (roundHalfUp p q : ℤ) = ⌊(p : ℚ) / q + 1 / 2⌋ := by
  have e : (p : ℚ) / q + 1 / 2 = (2 * p + q : ℕ) / (2 * q : ℕ) := by
    push_cast
    field_simp
  rw [e, Rat.floor_natCast_div_natCast]
  rfl

theorem le_clampNat (lo hi v : ℕ) : lo ≤ clampNat lo hi v := Nat.le_max_left _ _

theorem clampNat_le {lo hi : ℕ} (h : lo ≤ hi) (v : ℕ) : clampNat lo hi v ≤ hi := max_le h (Nat.min_le_left _ _)

theorem cast_clampNat (lo hi v : ℕ) : (clampNat lo hi v : ℤ) = max (lo : ℤ) (min (hi : ℤ) v) := by simp [clampNat]

/-! ## At most one step away (45_decoder R398) -/

theorem mem_around {lo hi v k : ℕ} : k ∈ around lo hi v ↔ lo ≤ k ∧ k ≤ hi ∧ k ≤ v + 1 ∧ v ≤ k + 1 := by
  simp only [around, List.mem_filterMap, List.mem_range, Option.ite_none_right_eq_some, Option.some.injEq]
  constructor
  · rintro ⟨d, hd, h, rfl⟩
    omega
  · intro h
    exact ⟨k + 1 - v, by omega, by omega, by omega⟩

theorem nodup_around (lo hi v : ℕ) : (around lo hi v).Nodup := by
  refine List.Nodup.filterMap (fun d d' k hd hd' => ?_) List.nodup_range
  simp only [Option.mem_def, Option.ite_none_right_eq_some, Option.some.injEq] at hd hd'
  omega

theorem around_perm (lo hi v : ℕ) :
    (around lo hi v).Perm ((List.range (hi + 1)).filter fun k => decide (lo ≤ k ∧ k ≤ v + 1 ∧ v ≤ k + 1)) := by
  refine (List.perm_ext_iff_of_nodup (nodup_around lo hi v) (List.nodup_range.filter _)).2 fun k => ?_
  simp only [mem_around, List.mem_filter, List.mem_range, decide_eq_true_eq]
  omega

theorem length_around {lo hi v : ℕ} (hlo : lo ≤ v) (hhi : v ≤ hi) :
    1 ≤ (around lo hi v).length ∧ (around lo hi v).length ≤ 3 :=
  ⟨List.length_pos_of_mem (mem_around.2 ⟨hlo, hhi, by omega, by omega⟩), List.length_filterMap_le _ (List.range 3)⟩

section
variable {c : DecodeSetup} {cap : ℕ} (hc : c.InRange cap)
include hc

theorem frame_in_buffer {f : ℕ} (hf : f < c.frames) : f * c.hop + c.wd ≤ cap := by
  have h := hc.windowInBuffer
  rw [hc.frames, Nat.lt_succ_iff, Nat.le_div_iff_mul_le hc.hop] at hf
  omega

theorem one_le_frames : 1 ≤ c.frames := hc.frames ▸ Nat.le_add_left 1 _

theorem blockCentre_lt (t : ℕ) : blockCentre c t < c.frames :=
  lt_of_le_of_lt (clampNat_le (Nat.zero_le _) _) (Nat.sub_one_lt_of_lt (one_le_frames hc))

theorem blockCentre_eq (t : ℕ) : (blockCentre c t : ℤ) =
    max 0 (min ((c.frames : ℤ) - 1) ⌊(2 * t * (c.pb + c.pp) + c.pb - c.wd : ℚ) / (2 * c.hop) + 1 / 2⌋) := by
  have hwd : c.wd ≤ 2 * t * (c.pb + c.pp) + c.pb := hc.windowInBlock.trans (Nat.le_add_left _ _)
  have hhop := hc.hop
  rw [blockCentre, cast_clampNat, roundHalfUp_eq_floor _ (by omega)]
  push_cast [hwd, one_le_frames hc]
  rfl

theorem channelBin_range (i : ℕ) : c.binLo ≤ channelBin c i ∧ channelBin c i ≤ c.binHi :=
  ⟨le_clampNat _ _ _, clampNat_le hc.binOrder _⟩

theorem channelBin_eq (i : ℕ) : (channelBin c i : ℤ) =
    max (c.binLo : ℤ) (min (c.binHi : ℤ) ⌊((c.f0 + i * c.spacing) * c.wd : ℚ) / c.fs + 1 / 2⌋) := by
  rw [channelBin, cast_clampNat, roundHalfUp_eq_floor _ hc.rate]
  push_cast
  rfl

/-- The neighbourhood holds the values of the rule, each as often as it stands in the spectrogram. -/
theorem neighbourhood_perm (spec : List (List Ival)) (f i : ℕ) : (neighbourhood c spec f i).Perm
    (((List.range c.frames).filter fun g => decide (g ≤ f + 1 ∧ f ≤ g + 1)).flatMap fun g =>
      ((List.range (c.binHi + 1)).filter fun k =>
        decide (c.binLo ≤ k ∧ k ≤ channelBin c i + 1 ∧ channelBin c i ≤ k + 1)).map fun k =>
          (spec.getD g []).getD (k - c.binLo) .zero) := by
  have hframes := around_perm 0 (c.frames - 1) f
  simp only [Nat.zero_le, true_and, Nat.sub_add_cancel (one_le_frames hc)] at hframes
  exact hframes.flatMap fun g _ => (around_perm _ _ _).map _

theorem length_neighbourhood (spec : List (List Ival)) {f : ℕ} (hf : f < c.frames) (i : ℕ) :
    1 ≤ (neighbourhood c spec f i).length ∧ (neighbourhood c spec f i).length ≤ 9 := by
  have hframes := length_around (Nat.zero_le f) (Nat.le_sub_one_of_lt hf)
  have hbins := length_around (channelBin_range hc i).1 (channelBin_range hc i).2
  have e : (neighbourhood c spec f i).length =
      (around 0 (c.frames - 1) f).length * (around c.binLo c.binHi (channelBin c i)).length := by
    simp [neighbourhood, List.length_flatMap]
  rw [e]
  exact ⟨Nat.mul_pos hframes.1 hbins.1, Nat.mul_le_mul hframes.2 hbins.2⟩

end

end Sys2Proof.Machine
end

section
/-! The obligation of the decoder family about its indices. -/

open Sys2Proof Sys2Proof.Machine

/-- Settles O49: a valid configuration bounds the frames by the buffer and the bins by the window, and clamping keeps
every centre and bin among them. -/
theorem decoderIndices : Obligations.DecoderIndices := by
  intro s hc hv c
  have h : c.InRange s.rbCapNat := decodeSetup_inRange hc hv
  exact ⟨h.window, h.hop, one_le_frames h, Nat.le_add_left 1 _, h.binBound, fun f => frame_in_buffer h,
    blockCentre_lt h, channelBin_range h, blockCentre_eq h, channelBin_eq h,
    fun spec f i _ => neighbourhood_perm h spec f i, fun spec f i hf => length_neighbourhood h spec hf i⟩

end

section
/-! SUPPORT. What a decode may give (45_decoder R400 to R403): the readings behind its bits and its SPECBUF elements,
each at its place, and the values drawn for them. -/

namespace Sys2Proof.Machine

/-! ## Lists of blocks of one length -/

/-- Blocks of `n` elements end to end: element `i` of block `j` stands at `j n + i`. -/
theorem getElem?_flatMap_block {α β : Type} {f : α → List β} {n : ℕ} {l : List α} (h : ∀ a ∈ l, (f a).length = n)
    (j : ℕ) {i : ℕ} (hi : i < n) : (l.flatMap f)[j * n + i]? = l[j]?.bind fun a => (f a)[i]? := by
  induction l generalizing j with
  | nil => rfl
  | cons a l ih =>
    obtain ⟨ha, hl⟩ := List.forall_mem_cons.1 h
    rw [List.flatMap_cons]
    cases j with
    | zero => simp [List.getElem?_append_left, ha, hi]
    | succ j =>
      have e : (j + 1) * n + i = (f a).length + (j * n + i) := by rw [ha]; ring
      rw [e, List.getElem?_append_right (Nat.le_add_right _ _), Nat.add_sub_cancel_left, ih hl, List.getElem?_cons_succ]

theorem length_flatMap_block {α β : Type} {f : α → List β} {n : ℕ} {l : List α} (h : ∀ a ∈ l, (f a).length = n) :
    (l.flatMap f).length = l.length * n := by
  rw [List.length_flatMap, List.map_congr_left h, List.map_const', List.sum_replicate, smul_eq_mul]

/-! ## The readings -/

/-- The readings of the bits, block by block (45_decoder R401). -/
def bitReadings (c : DecodeSetup) (sp : List (List Ival)) : List Reading :=
  (List.range c.nblk).flatMap fun j => (List.range c.nfreq).map fun i => bitAt c sp j i

/-- The readings of the SPECBUF elements, frame by frame (45_decoder R400). -/
def specReadings (p : ℕ) (sp : List (List Ival)) : List Reading := sp.flatMap fun frame => frame.map (f32At p)

theorem decodeAt_eq (c : DecodeSetup) (x : List ℤ) (p : ℕ) :
    decodeAt c x p = bitReadings c (spectrogram p c x) ++ specReadings p (spectrogram p c x) := rfl

@[simp] theorem length_bitReadings (c : DecodeSetup) (sp : List (List Ival)) :
    (bitReadings c sp).length = c.nblk * c.nfreq := by
  rw [bitReadings, length_flatMap_block (n := c.nfreq) (by simp), List.length_range]

@[simp] theorem length_spectrogram (p : ℕ) (c : DecodeSetup) (x : List ℤ) : (spectrogram p c x).length = c.frames := by
  simp [spectrogram]

theorem length_frame {p : ℕ} {c : DecodeSetup} {x : List ℤ} {frame : List Ival} (h : frame ∈ spectrogram p c x) :
    frame.length = c.nbins := by
  obtain ⟨f, -, rfl⟩ := List.mem_map.1 h
  simp

@[simp] theorem length_specReadings (p : ℕ) (c : DecodeSetup) (x : List ℤ) :
    (specReadings p (spectrogram p c x)).length = c.frames * c.nbins := by
  rw [specReadings, length_flatMap_block (n := c.nbins) fun _ h => by rw [List.length_map, length_frame h],
    length_spectrogram]

theorem bitReadings_getElem? {c : DecodeSetup} (sp : List (List Ival)) {j i : ℕ} (hj : j < c.nblk) (hi : i < c.nfreq) :
    (bitReadings c sp)[j * c.nfreq + i]? = some (bitAt c sp j i) := by
  rw [bitReadings, getElem?_flatMap_block (by simp) j hi]
  simp [hj, hi]

theorem specReadings_getElem? (p : ℕ) {c : DecodeSetup} (x : List ℤ) {f b : ℕ} (hf : f < c.frames) (hb : b < c.nbins) :
    (specReadings p (spectrogram p c x))[f * c.nbins + b]? =
      some (f32At p (((spectrogram p c x).getD f []).getD b .zero)) := by
  have hlen : f < (spectrogram p c x).length := by rwa [length_spectrogram]
  have hframe : b < (spectrogram p c x)[f].length := by rwa [length_frame (List.getElem_mem hlen)]
  rw [specReadings, getElem?_flatMap_block (fun _ h => by rw [List.length_map, length_frame h]) f hb]
  simp only [List.getElem?_eq_getElem hlen, List.getD_eq_getElem _ _ hlen, List.getD_eq_getElem _ _ hframe,
    Option.bind_some, List.getElem?_map, List.getElem?_eq_getElem hframe, Option.map_some]

/-! ## What is allowed -/

/-- A comparison has outcome 0 or 1. -/
theorem greaterAt_binary {l r : Ival} {n : ℤ} (h : (greaterAt l r).choices.Allows n) : n = 0 ∨ n = 1 := by
  unfold greaterAt at h
  split_ifs at h
  · exact .inl (verdict_allows.1 h)
  · exact either_allows.1 h
  · exact .inr (verdict_allows.1 h)
  · exact .inl (verdict_allows.1 h)
  · exact either_allows.1 h

section
variable {c : DecodeSetup} {x : List Word}

/-- On an all-zero buffer nothing is left open (45_decoder R402, corner cases). -/
theorem decodeChoices_of_silence (h : ∀ v ∈ x, f32Fix v = 0) : decodeChoices c x =
    { bits := List.replicate (c.nblk * c.nfreq) (.exactly 0)
      spec := List.replicate (c.frames * c.nbins)
        (.exactly (f32Index firstPrec (fixOne firstPrec / c.nbins : Nat))) } :=
  if_pos (List.all_eq_true.2 fun v hv => decide_eq_true (h v hv))

/-- On any other buffer everything is read at one precision, the first or a higher one. -/
theorem decodeChoices_eq (h : ∃ v ∈ x, f32Fix v ≠ 0) : ∃ p, firstPrec ≤ p ∧
    let sp := spectrogram p c (x.map f32Fix)
    decodeChoices c x =
      { bits := (bitReadings c sp).map Reading.choices, spec := (specReadings p sp).map Reading.choices } := by
  obtain ⟨p, hp, e⟩ := settle_eq (decodeAt c (x.map f32Fix))
  have hx : ¬ x.all (fun w => f32Fix w = 0) = true := by simpa using h
  refine ⟨p, hp, ?_⟩
  simp only [decodeChoices, if_neg hx, e, decodeAt_eq, List.map_append]
  rw [List.take_left' (by simp), List.drop_left' (by simp)]

theorem length_decodeChoices (c : DecodeSetup) (x : List Word) :
    (decodeChoices c x).bits.length = c.nblk * c.nfreq ∧ (decodeChoices c x).spec.length = c.frames * c.nbins := by
  by_cases h : ∀ v ∈ x, f32Fix v = 0
  · simp [decodeChoices_of_silence h]
  · obtain ⟨p, -, e⟩ := decodeChoices_eq (c := c) (x := x) (by simpa using h)
    simp [e]

/-- A bit has outcome 0 or 1. -/
theorem decodeChoices_binary {d : Choices} (hd : d ∈ (decodeChoices c x).bits) {n : ℤ} (hn : d.Allows n) :
    n = 0 ∨ n = 1 := by
  by_cases h : ∀ v ∈ x, f32Fix v = 0
  · rw [decodeChoices_of_silence h] at hd
    rw [List.eq_of_mem_replicate hd, exactly_allows] at hn
    exact .inl hn
  · obtain ⟨p, -, e⟩ := decodeChoices_eq (c := c) (x := x) (by simpa using h)
    simp only [e, bitReadings, List.mem_map, List.mem_flatMap] at hd
    obtain ⟨_, ⟨j, -, i, -, rfl⟩, rfl⟩ := hd
    exact greaterAt_binary hn

end

/-! ## What is drawn -/

/-- The bits and the elements that `decode(x)` may give, each one an outcome of its choices. -/
structure DecodeDrawn (c : DecodeSetup) (x : List Word) (bits : Bits) (spec : List Word) : Prop where
  bitCount : bits.length = c.nblk * c.nfreq
  bit : ∀ {k : ℕ} {d : Choices}, (decodeChoices c x).bits[k]? = some d → ∃ b, bits[k]? = some b ∧ d.Allows b.toNat
  elementCount : spec.length = c.frames * c.nbins
  element : ∀ {k : ℕ} {d : Choices}, (decodeChoices c x).spec[k]? = some d →
    ∃ n, spec[k]? = some (f32Word n) ∧ d.Allows n

theorem decodeBuffer_drawn (c : DecodeSetup) (x : List Word) (e : Env) :
    DecodeDrawn c x (decodeBuffer c x e).1 (decodeBuffer c x e).2.1 where
  bitCount := by simpa [decodeBuffer] using (length_decodeChoices c x).1
  bit := by
    intro k d hd
    obtain ⟨v, hv, ha⟩ := drawChoices_getElem? hd e
    refine ⟨v == 1, by rw [decodeBuffer, List.getElem?_map, hv]; rfl, ?_⟩
    obtain rfl | rfl := decodeChoices_binary (List.mem_of_getElem? hd) ha
    · exact ha
    · exact ha
  elementCount := by simpa [decodeBuffer] using (length_decodeChoices c x).2
  element := by
    intro k d hd
    obtain ⟨n, hn, ha⟩ := drawChoices_getElem? hd (drawChoices (decodeChoices c x).bits e).2
    exact ⟨n, by rw [decodeBuffer, List.getElem?_map, hn]; rfl, ha⟩

section
variable {c : DecodeSetup} {x : List Word} {bits : Bits} {spec : List Word} (h : DecodeDrawn c x bits spec)
include h

theorem DecodeDrawn.bit_getElem (k : ℕ) (hk : k < bits.length) :
    ∃ d, (decodeChoices c x).bits[k]? = some d ∧ d.Allows bits[k].toNat := by
  have hk' : k < (decodeChoices c x).bits.length := by rwa [(length_decodeChoices c x).1, ← h.bitCount]
  obtain ⟨b, hb, ha⟩ := h.bit (List.getElem?_eq_getElem hk')
  obtain ⟨_, rfl⟩ := List.getElem?_eq_some_iff.1 hb
  exact ⟨_, List.getElem?_eq_getElem hk', ha⟩

theorem DecodeDrawn.element_getElem (k : ℕ) (hk : k < spec.length) :
    ∃ d n, (decodeChoices c x).spec[k]? = some d ∧ d.Allows n ∧ spec[k] = f32Word n := by
  have hk' : k < (decodeChoices c x).spec.length := by rwa [(length_decodeChoices c x).2, ← h.elementCount]
  obtain ⟨n, hn, ha⟩ := h.element (List.getElem?_eq_getElem hk')
  exact ⟨_, n, List.getElem?_eq_getElem hk', ha, (List.getElem?_eq_some_iff.1 hn).2⟩

/-- Unless the buffer is all zero, the bits and the elements are what the rules allow (45_decoder R400, R401, R405). -/
theorem DecodeDrawn.allowed (hx : ∃ v ∈ x, f32Fix v ≠ 0) : DecodeAllowed c x bits spec := by
  obtain ⟨p, hp, e⟩ := decodeChoices_eq (c := c) hx
  refine ⟨p, hp, fun j hj i hi => h.bit ?bit, fun f hf b hb => h.element ?element⟩
  case bit => rw [e, List.getElem?_map, bitReadings_getElem? _ hj hi]; rfl
  case element => rw [e, List.getElem?_map, specReadings_getElem? p _ hf hb]; rfl

end

/-- On an all-zero buffer nothing is drawn: every bit is 0 and every element the same (45_decoder R402, corner
cases). -/
theorem decodeBuffer_of_silence (c : DecodeSetup) {x : List Word} (h : ∀ v ∈ x, f32Fix v = 0) (e : Env) :
    decodeBuffer c x e = (List.replicate (c.nblk * c.nfreq) false,
      List.replicate (c.frames * c.nbins) (f32Word (f32Index firstPrec (fixOne firstPrec / c.nbins : Nat))), e) := by
  rw [decodeBuffer, decodeChoices_of_silence h, drawChoices_replicate, drawChoices_replicate]
  simp

theorem weight_zeros (gen : BitVec 17) (n : ℕ) : weight gen (List.replicate n false) = 0 := by
  rw [weight_eq_zero_iff, bitPoly_zeros]
  exact dvd_zero _

end Sys2Proof.Machine
end

section
/-! SUPPORT. What DECODE and a hit store (45_decoder R402, 46_orchestrator R465, R466): bits at a base of their own, the
spectrogram in SPECBUF, and the registers and records that show them. -/

namespace Sys2Proof.Machine

variable {s : State} {x : List Word}

/-! ## Bits and spectrogram in memory -/

/-- The bits of a decode stored from `base` on, then its elements in SPECBUF. -/
def storeDecoded (m : Memory) (base : ℕ) (bits : Bits) (spec : List Word) : Memory :=
  Memory.writeWords (Memory.writeWords m base (bits.map bitWord)) specBase spec

section
variable {m : Memory} (hm : m.wf) (base : ℕ) (bits : Bits) (spec : List Word)

theorem readByte_storeDecoded {k : ℕ} (hb : Outside base bits.length k) (hs : Outside specBase spec.length k) :
    Memory.readByte (storeDecoded m base bits spec) k = Memory.readByte m k := by
  rw [storeDecoded, readByte_writeWords_outside _ _ _ _ hs,
    readByte_writeWords_outside _ _ _ _ (by rwa [List.length_map])]

include hm

theorem readWords_storeDecoded_spec :
    Memory.readWords (storeDecoded m base bits spec) specBase spec.length = some spec :=
  readWords_writeWords (wf_writeWords hm _ _) _ _

variable {base bits spec}

theorem readWords_storeDecoded_bits
    (hd : base + 4 * bits.length ≤ specBase ∨ specBase + 4 * spec.length ≤ base) :
    Memory.readWords (storeDecoded m base bits spec) base bits.length = some (bits.map bitWord) := by
  have h := readWords_writeWords hm base (bits.map bitWord)
  rw [List.length_map] at h
  rw [storeDecoded, readWords_writeWords_disjoint (wf_writeWords hm _ _) _ _ _ _ hd, h]

theorem readWords_storeDecoded_disjoint {a n : ℕ} (hb : a + 4 * n ≤ base) (hs : a + 4 * n ≤ specBase) :
    Memory.readWords (storeDecoded m base bits spec) a n = Memory.readWords m a n := by
  rw [storeDecoded, readWords_writeWords_disjoint (wf_writeWords hm _ _) _ _ _ _ (.inl hs),
    readWords_writeWords_disjoint hm _ _ _ _ (.inl hb)]

end

/-- The regions have room for what a decode gives (20_memory R123, 46_orchestrator R442). -/
theorem decode_room (hc : ConfigInv s) (hv : s.cfgValid = true) :
    s.decodeSetup.nblk * s.decodeSetup.nfreq ≤ 2 ^ 18 ∧ s.decodeSetup.frames * s.decodeSetup.nbins ≤ 2 ^ 23 := by
  obtain ⟨-, -, -, -, hbits⟩ := configInv_bounds hc hv
  obtain ⟨-, -, -, -, -, hspec⟩ := wellFormed_bounds hc.params
  obtain ⟨-, hframes⟩ := configValid_frames (hc.valid hv)
  refine ⟨hbits, le_trans ?_ hspec⟩
  rw [decodeSetup_eq hc hv]
  exact hframes

/-! ## DECODE -/

/-- The state after DECODE. -/
def decoded (r : Bits × List Word × Env) (s : State) : State :=
  { s with
    mem := storeDecoded s.mem bbufBase r.1 r.2.1, blen := s.derived.msgBits
    crcWeight := BitVec.ofNat 32 (weight s.hw.gen r.1), crcOk := crcOkFlag (weight s.hw.gen r.1), env := r.2.2
    err := .ok }

theorem execDecode_eq (hl : s.listening = false) (hv : s.cfgValid = true) (hb : s.rbValid = true)
    (hx : s.snapshot = some x) : execDecode s = .next (decoded (decodeBuffer s.decodeSetup x s.env) s) := by
  rw [execDecode, if_neg (by simp [hl]), if_neg (by simp [hv]), if_neg (by simp [hb]), hx]
  rfl

/-! ## A hit -/

/-- A buffer of zeros starts nothing (44_framesync R356), also where some of the zeros are `-0.0`. -/
theorem syncOn_start_of_zero (h : ∀ v ∈ x, f32Fix v = 0) : (s.syncOn x).1.start = false := by
  have hall : ((firstOf x s.stepLenNat).all fun v => f32Fix v = 0) = true :=
    List.all_eq_true.2 fun v hv => decide_eq_true (h v (List.mem_of_mem_take hv))
  have hzero (fs n fl fh : ℕ) : bandEnergy fs n fl fh (firstOf x s.stepLenNat) = noEnergy := by
    funext p
    rw [bandEnergy, if_pos hall, noEnergy]
  simp only [State.syncOn, syncTest, hzero, greaterThan_silence, drawVerdict_verdict]
  rfl

/-- The state a hit has decoded into, before the session ends or goes on (46_orchestrator R465). -/
def hitDecoded (r : Bits × List Word × Env) (s : State) : State :=
  { s with
    mem := storeDecoded s.mem rxbitsBase r.1 r.2.1, rxBlen := s.derived.msgBits
    rxWeight := BitVec.ofNat 32 (weight s.hw.gen r.1)
    evq := s.evq ++ [messageEvent (crcOkFlag (weight s.hw.gen r.1)) (unpackBits r.1) (drawLatency r.2.2).1] ++
      if s.ctrlSpectrumEn then [spectrumEvent (crcOkFlag (weight s.hw.gen r.1)) s.derived.decFrames] else []
    env := (drawLatency r.2.2).2 }

theorem decodeAndEmit_eq (x : List Word) (s : State) : decodeAndEmit x s =
    (crcOkFlag (weight s.hw.gen (decodeBuffer s.decodeSetup x s.env).1),
      hitDecoded (decodeBuffer s.decodeSetup x s.env) s) := by
  simp only [decodeAndEmit, hitDecoded]
  split_ifs
  · simp only [emit, List.append_assoc]
    rfl
  · simp only [emit, List.append_nil]
    rfl

/-- The state after a hit (46_orchestrator R465, R466). -/
def hitState (r : Bits × List Word × Env) (s : State) : State :=
  afterHit (crcOkFlag (weight s.hw.gen r.1), hitDecoded r s)

/-- A hit reads its draws from the environment that the sync test left, and everything else from the state. -/
theorem afterHit_decodeAndEmit (x : List Word) (s : State) (e : Env) :
    afterHit (decodeAndEmit x { s with env := e }) = hitState (decodeBuffer s.decodeSetup x e) s := by
  rw [decodeAndEmit_eq]
  rfl

theorem analyse_of_hit (hs : s.derived.syncThresh.toNat ≤ s.rbSteps.toNat) (hx : s.snapshot = some x)
    (hstart : (s.syncOn x).1.start = true) (hstop : (s.syncOn x).1.stop = true) :
    analyse s = .next (hitState (decodeBuffer s.decodeSetup x (s.syncOn x).2) s) := by
  rw [analyse, if_neg (not_lt.2 hs), hx, withRead_some]
  simp only [hstart, hstop, and_self, if_true, afterHit_decodeAndEmit]

variable (s) (r : Bits × List Word × Env)

/-- What follows the decode of a hit touches neither memory nor what was decoded. -/
theorem hitState_decoded : (hitState r s).mem = (hitDecoded r s).mem ∧
    (hitState r s).rxWeight = (hitDecoded r s).rxWeight ∧ (hitState r s).evq = (hitDecoded r s).evq := by
  unfold hitState afterHit
  split_ifs <;> exact ⟨rfl, rfl, rfl⟩

theorem hitState_frame : hitState r s = { s with
    mem := (hitState r s).mem, rxBlen := s.derived.msgBits, rxWeight := (hitState r s).rxWeight
    evq := (hitState r s).evq, env := (hitState r s).env, rbSteps := (hitState r s).rbSteps
    rbValid := (hitState r s).rbValid, captureOpen := (hitState r s).captureOpen, stopReq := (hitState r s).stopReq
    cancelReq := (hitState r s).cancelReq, rxState := (hitState r s).rxState } := by
  unfold hitState afterHit
  split_ifs <;> rfl

variable {r s}

/-- A correct CRC outside continuous mode ends the session (46_orchestrator R466). -/
theorem hitState_of_end (h : weight s.hw.gen r.1 = 0 ∧ s.ctrlContinuous = false) :
    hitState r s = endSession .stopped (hitDecoded r s) :=
  if_pos ⟨(crcOkFlag_iff _).2 h.1, h.2⟩

/-- Otherwise the agent counts its steps again (46_orchestrator R466). -/
theorem hitState_of_goOn (h : ¬ (weight s.hw.gen r.1 = 0 ∧ s.ctrlContinuous = false)) :
    hitState r s = { hitDecoded r s with rbSteps := 0 } :=
  if_neg fun ⟨hok, hcont⟩ => h ⟨(crcOkFlag_iff _).1 hok, hcont⟩

/-- Whole bytes unpack without complaint (40_bitframer R208). -/
theorem unpackBits_wellFormed {bits : Bits} (h16 : 16 ≤ bits.length) (h8 : bits.length % 8 = 0) :
    (unpackBits bits).2 = false := by
  obtain ⟨d, c, rfl, hc⟩ : ∃ d c : Bits, d ++ c = bits ∧ c.length = 16 :=
    ⟨_, _, List.take_append_drop (bits.length - 16) bits, by rw [List.length_drop]; omega⟩
  have hd : d.length % 8 = 0 := by
    rw [List.length_append] at h8
    omega
  rw [unpackBits_append d hc, hd]
  rfl

/-- The bits of a message are whole bytes (46_orchestrator R442). -/
theorem msgBits_bytes (hc : ConfigInv s) (hv : s.cfgValid = true) :
    16 ≤ s.derived.msgBits.toNat ∧ s.derived.msgBits.toNat % 8 = 0 := by
  obtain ⟨h8, -, h16, -⟩ := configValid_blocks (hc.valid hv)
  rw [msgBits_eq hc hv]
  exact ⟨h16, Nat.mod_eq_zero_of_dvd (Dvd.dvd.mul_left (Nat.dvd_of_mod_eq_zero h8) _)⟩

end Sys2Proof.Machine
end

section
/-! The obligations of the decoder family about DECODE and about a hit. -/

open Sys2Proof Sys2Proof.Machine

/-- Settles O50: what is stored is drawn from what the decode allows, the two buffers do not overlap, and on silence
there is nothing to draw. -/
theorem decodeCommand : Obligations.DecodeCommand := by
  intro s x hm hc hr hv hb hx
  obtain ⟨roomBits, roomSpec⟩ := decode_room hc hv
  have hrun := execDecode_eq (listening_eq_false hr) hv hb hx
  have drawn := decodeBuffer_drawn s.decodeSetup x s.env
  have hsilent (hz : ∀ v ∈ x, v = 0#32) :=
    decodeBuffer_of_silence s.decodeSetup (x := x) (fun v hv => by rw [hz v hv]; decide) s.env
  generalize decodeBuffer s.decodeSetup x s.env = r at hrun drawn hsilent
  have hlen : r.1.length = s.derived.msgBits.toNat := drawn.bitCount.trans (msgBits_eq hc hv).symm
  have hbelow : bbufBase + 4 * r.1.length ≤ specBase := by
    rw [drawn.bitCount, bbufBase, specBase]
    omega
  have hweight := toNat_weightWord s.hw.gen r.1
  refine ⟨decoded r s, r.1, r.2.1, hrun, rfl, hlen, ?stored, drawn.bit_getElem, drawn.elementCount,
    drawn.element_getElem, readWords_storeDecoded_spec hm _ _ _, drawn.allowed, hweight, crcOkFlag_iff _,
    fun k => readByte_storeDecoded _ _ _, fun hz => ?silent⟩
  case stored =>
    have h := readWords_storeDecoded_bits hm (.inl hbelow) (spec := r.2.1)
    rw [hlen] at h
    simp [State.bbuf, decoded, h, Function.comp_def]
  case silent =>
    rw [hsilent hz]
    exact ⟨fun b => List.eq_of_mem_replicate, (crcOkFlag_iff _).2 (weight_zeros _ _), rfl,
      fun v => List.eq_of_mem_replicate⟩

/-- Settles O59: silence starts nothing, so what is stored and emitted is drawn from what the rules allow; the ending
turns on the CRC and on the mode alone. -/
theorem hitEmitsMessage : Obligations.HitEmitsMessage := by
  intro s o hm hc hv ho hsteps hstart hstop
  have sounding : ∃ v ∈ o, f32Fix v ≠ 0 := by
    by_contra hz
    rw [syncOn_start_of_zero (by simpa using hz)] at hstart
    exact Bool.noConfusion hstart
  obtain ⟨roomBits, roomSpec⟩ := decode_room hc hv
  obtain ⟨-, hcap, -⟩ := configInv_bounds hc hv
  have hrun := analyse_of_hit hsteps ho hstart hstop
  have drawn := decodeBuffer_drawn s.decodeSetup o (s.syncOn o).2
  generalize decodeBuffer s.decodeSetup o (s.syncOn o).2 = r at hrun drawn
  obtain ⟨hmem, hweight, hevq⟩ := hitState_decoded s r
  have hlen : r.1.length = s.derived.msgBits.toNat := drawn.bitCount.trans (msgBits_eq hc hv).symm
  obtain ⟨h16, h8⟩ := msgBits_bytes hc hv
  have hmal := unpackBits_wellFormed (hlen ▸ h16) (hlen ▸ h8)
  have habove : specBase + 4 * r.2.1.length ≤ rxbitsBase := by
    rw [drawn.elementCount, specBase, rxbitsBase]
    omega
  have hring : rbBase + 4 * s.rbCapNat ≤ specBase := by
    rw [rbBase, specBase]
    omega
  refine ⟨hitState r s, r.1, (drawLatency r.2.2).1, hrun, hitState_frame s r, hlen, ?bits, drawn.bit_getElem,
    ⟨r.2.1, drawn.elementCount, ?spec, drawn.allowed sounding, drawn.element_getElem⟩, fun k hb hs => ?frame, ?ring,
    ?weight, ?events, fun h => ?ends, fun h => ?goesOn⟩
  case bits => exact hmem ▸ readWords_storeDecoded_bits hm (.inr habove)
  case spec => exact hmem ▸ readWords_storeDecoded_spec hm _ _ _
  case frame =>
    rw [hmem]
    exact readByte_storeDecoded _ _ _ hb (drawn.elementCount ▸ hs)
  case ring =>
    rw [hitState_frame, State.rb]
    exact hmem ▸ readWords_storeDecoded_disjoint hm (hring.trans (by decide)) hring
  case weight => rw [hweight]; exact toNat_weightWord _ _
  case events =>
    rw [hevq, hitDecoded, messageEvent, hmal]
    rfl
  case ends =>
    rw [hitState_of_end h]
    exact ⟨rfl, rfl, rfl, rfl, rfl, rfl⟩
  case goesOn =>
    rw [hitState_of_goOn h]
    exact ⟨rfl, rfl, rfl, rfl, rfl, rfl⟩

end

section
/-! SUPPORT. The agents, the ports and the event queue stay in agreement (46_orchestrator R440, R460, R462, R470, R480):
the moves that touch none of them, then the commands and the agents' own steps. -/

namespace Sys2Proof.Machine

variable {s t : State}

/-- The part of the state that `AgentInv` speaks of, everything else as after reset. -/
def State.agentView (s : State) : State :=
  { State.resetWith s.hw with
    rxState := s.rxState, txState := s.txState, cfgValid := s.cfgValid, rbValid := s.rbValid, stopReq := s.stopReq
    cancelReq := s.cancelReq, syncStart := s.syncStart, syncEnd := s.syncEnd, evq := s.evq
    captureOpen := s.captureOpen, handoff := s.handoff }

theorem agentInv_agentView : AgentInv s.agentView ↔ AgentInv s := ⟨fun h => { h with }, fun h => { h with }⟩

theorem agentInv_congr (ha : AgentInv s) (h : t.agentView = s.agentView) : AgentInv t :=
  agentInv_agentView.1 (h ▸ agentInv_agentView.2 ha)

theorem agentInv_raised (ha : AgentInv s) (c : ErrCode) : AgentInv { s with err := c } := agentInv_congr ha rfl

theorem agentInv_env (ha : AgentInv s) (e : Env) : AgentInv { s with env := e } := agentInv_congr ha rfl

/-- Only a start test that holds is followed by an end test (44_framesync R358). -/
theorem syncOn_stop_imp_start (o : List Word) : (s.syncOn o).1.stop = true → (s.syncOn o).1.start = true := by
  simp only [State.syncOn, syncTest]
  split_ifs <;> simp

theorem evq_lt_of_not_full (ha : AgentInv s) (hq : s.evqFull = false) : s.evq.length < s.hw.evqDepth :=
  lt_of_le_of_ne ha.queue (by simpa [State.evqFull] using hq)

/-- Outside Listening no request stands. -/
theorem requests_of_not_listening (ha : AgentInv s) (h : s.listening = false) :
    s.stopReq = false ∧ s.cancelReq = false := by
  simpa [h] using ha.requests

theorem exec_keeps_agentInv {i : Instr} (ha : AgentInv s) (h : exec i s = .next t) : AgentInv t := by
  cases i with
  | cfgCommit =>
    obtain ⟨c, -, rfl⟩ | ⟨hl, -, -, rfl⟩ := execCfgCommit_next h
    · exact agentInv_raised ha c
    · exact { ha with
        listeningBuffer := fun h => absurd (hl.symm.trans h) Bool.false_ne_true, bufferConfig := nofun }
  | rbInit =>
    obtain ⟨c, -, rfl⟩ | ⟨-, hv, rfl⟩ := execRbInit_next h
    · exact agentInv_raised ha c
    · exact { ha with listeningBuffer := fun _ => rfl, bufferConfig := fun _ => hv }
  | syncTest =>
    obtain ⟨c, -, rfl⟩ | ⟨-, -, -, o, -, ht⟩ := execSyncTest_next h
    · exact agentInv_raised ha c
    · have hso := syncOn_stop_imp_start (s := s) o
      rw [ht]
      generalize (s.syncOn o).1 = r at hso
      exact { ha with syncOrder := hso }
  | rxStart =>
    obtain ⟨c, -, rfl⟩ | ⟨hq, hl, -, hv, ⟨-, rfl⟩ | ⟨-, rfl⟩⟩ := execRxStart_next h
    · exact agentInv_raised ha c
    · exact { ha with
        captureOpen := rfl, requests := fun _ => rfl, listeningBuffer := fun _ => rfl, bufferConfig := fun _ => hv }
    · exact { ha with
        captureOpen := ha.captureOpen.trans (listening_eq_false hl), requests := by simp
        listeningBuffer := nofun, bufferConfig := nofun
        queue := by simpa using evq_lt_of_not_full ha hq }
  | rxStop =>
    obtain ⟨c, -, rfl⟩ | ⟨hl, rfl⟩ | ⟨-, rfl⟩ := execRxStop_next h
    · exact agentInv_raised ha c
    · exact { ha with requests := fun _ => beq_iff_eq.2 hl }
    · exact agentInv_raised ha .ok
  | rxCancel =>
    obtain ⟨c, -, rfl⟩ | ⟨hl, rfl⟩ | ⟨hl, rfl⟩ := execRxCancel_next h
    · exact agentInv_raised ha c
    · exact { ha with requests := fun _ => beq_iff_eq.2 hl }
    · have hl : s.listening = false := listening_eq_false (by rintro e; simp [e] at hl)
      obtain ⟨hs, hc⟩ := requests_of_not_listening ha hl
      exact { ha with
        captureOpen := ha.captureOpen.trans hl, requests := by simp [hs, hc], listeningBuffer := nofun }
  | txSend =>
    obtain ⟨c, -, rfl⟩ | ⟨-, -, -, p, -, rfl⟩ := execTxSend_next h
    · exact agentInv_raised ha c
    · exact { ha with handoff := rfl }
  | evqPop =>
    obtain ⟨c, -, rfl⟩ | ⟨e, rest, hq, rfl⟩ := execEvqPop_next h
    · exact agentInv_raised ha c
    · have hle := ha.queue
      rw [hq, List.length_cons] at hle
      exact { ha with queue := Nat.le_of_succ_le hle }
  | _ => rw [exec_frame h]; exact agentInv_congr ha rfl

/-- The end of a session closes the capture source and drops the requests and the buffer (46_orchestrator R462). -/
theorem agentInv_endSession (ha : AgentInv s) {r : RxState} (hr : r ≠ .listening) : AgentInv (endSession r s) :=
  { ha with
    captureOpen := (beq_eq_false_iff_ne.2 hr).symm, requests := by simp [endSession]
    listeningBuffer := fun h => absurd (beq_iff_eq.1 h) hr, bufferConfig := nofun }

/-- A hit emits at most the two records that an enabled RX step has room for (46_orchestrator R460, R465). -/
theorem agentInv_hitState (ha : AgentInv s) (hroom : s.evq.length + 2 ≤ s.hw.evqDepth)
    (r : Bits × List Word × Env) : AgentInv (hitState r s) := by
  have hd : AgentInv (hitDecoded r s) := by
    refine { ha with queue := le_trans ?_ hroom }
    simp only [hitDecoded, List.length_append]
    split_ifs <;> simp
  by_cases hend : weight s.hw.gen r.1 = 0 ∧ s.ctrlContinuous = false
  · rw [hitState_of_end hend]
    exact agentInv_endSession hd (by decide)
  · rw [hitState_of_goOn hend]
    exact agentInv_congr hd rfl

theorem analyse_keeps_agentInv (ha : AgentInv s) (hroom : s.evq.length + 2 ≤ s.hw.evqDepth)
    (h : analyse s = .next t) : AgentInv t := by
  obtain ⟨-, rfl⟩ | ⟨-, o, -, ⟨-, rfl⟩ | ⟨-, -, rfl⟩⟩ := analyse_next h
  · exact ha
  · exact agentInv_env ha _
  · rw [afterHit_decodeAndEmit]
    exact agentInv_hitState ha hroom _

theorem rxEnabled_iff : s.rxEnabled = true ↔ s.rxState = .listening ∧ s.evq.length + 2 ≤ s.hw.evqDepth := by
  simp [State.rxEnabled, State.listening]

theorem rxStep_keeps_agentInv (ha : AgentInv s) (h : rxStep s = .next t) : AgentInv t := by
  obtain ⟨hen, ⟨-, rfl⟩ | ⟨-, -, rfl⟩ | ⟨-, -, -, rfl⟩ | ⟨-, -, -, hx⟩⟩ := rxStep_next h
  · exact agentInv_endSession ha (by decide)
  · exact agentInv_endSession ha (by decide)
  · exact agentInv_congr ha rfl
  · have hadd : AgentInv (ringAdd ((drawCapRead s.stepLenNat s.env).1.map sampleF32)
        { s with env := (drawCapRead s.stepLenNat s.env).2 }) := agentInv_congr ha rfl
    exact analyse_keeps_agentInv hadd (rxEnabled_iff.1 hen).2 hx

theorem moveEffect_keeps_agentInv {m : Move} (h : MoveEffect m s t) (ha : AgentInv s) : AgentInv t := by
  cases h with
  | command _ h => exact exec_keeps_agentInv ha h
  | illegal => exact agentInv_raised ha _
  | register => rw [writeRegister_frame]; exact agentInv_congr ha rfl
  | element => exact agentInv_congr ha rfl
  | rx h => exact rxStep_keeps_agentInv ha h
  | playDone h =>
    rw [(playDone_next h).2]
    exact { ha with handoff := rfl }
  | reset => exact agentInv_congr (resetWith_agentInv s.hw) rfl
  | outside => exact agentInv_congr ha rfl

end Sys2Proof.Machine
end

section
/-! The obligation of the orchestrator family about the agents. -/

open Sys2Proof Sys2Proof.Machine

/-- Settles O9, move by move. -/
theorem stepKeepsAgents : Obligations.StepKeepsAgents := fun _ _ ha h =>
  step_induction h ha fun _ rest e => moveEffect_keeps_agentInv e (agentInv_pending ha rest)

end

section
/-! SUPPORT. The equation of each orchestrator command that completes (46_orchestrator R441, R444, R447, R448). -/

namespace Sys2Proof.Machine

variable {s : State}

theorem execCfgCommit_busy (h : s.rxState = .listening ∨ s.txState = .sending) :
    execCfgCommit s = raise .busy s := by
  rw [execCfgCommit, if_pos (by simpa [State.listening, State.sending] using h)]

theorem execCfgCommit_of_idle (hr : s.rxState ≠ .listening) (ht : s.txState ≠ .sending) : execCfgCommit s =
    if configValid s.hw s.profile s.tuning = false then raise .configError s else finish (commit s) := by
  rw [execCfgCommit, if_neg (by simp [listening_eq_false hr, sending_eq_false ht])]

/-- FREQ shows `f0 + i Δ` for the channels and 0 beyond them (10_state R67). -/
theorem freqTable_getD (p : Profile) {i : Nat} (hi : i < 256) : (freqTable p).getD i 0 =
    if i < p.nfreq.toNat then BitVec.ofNat 32 (p.f0.toNat + i * p.spacing.toNat) else 0 := by
  simp [freqTable, hi]

/-- The state of RX_START past its checks, before it looks at the answer of `cap_open` (46_orchestrator R444). -/
def rxPrepared (s : State) : State :=
  { ringClear s with stopReq := false, cancelReq := false, env := (drawCapOpen s.env).2 }

theorem execRxStart_badState (hq : s.evq.length ≠ s.hw.evqDepth)
    (h : s.rxState = .listening ∨ s.rxState = .cancelled) : execRxStart s = raise .badState s := by
  rw [execRxStart, if_neg (by simpa [State.evqFull] using hq), if_pos h]

theorem execRxStart_of_checked (hq : s.evq.length ≠ s.hw.evqDepth) (hl : s.rxState ≠ .listening)
    (hc : s.rxState ≠ .cancelled) (hv : s.cfgValid = true) : execRxStart s =
      if (drawCapOpen s.env).1 then finish { rxPrepared s with rxState := .listening, captureOpen := true }
      else finish (emit captureErrorEvent { rxPrepared s with rbValid := false, rxState := .stopped }) := by
  rw [execRxStart, if_neg (by simpa [State.evqFull] using hq), if_neg (by simp [hl, hc]), if_neg (by simp [hv])]
  rfl

theorem execTxSend_eq (ht : s.sending = false) (hv : s.cfgValid = true) (hp : s.plenNat ≤ s.payloadCapNat)
    {p : List Byte} (hr : s.pbuf s.plenNat = some p) : execTxSend s =
      let q := s.message (packBits s.hw.gen s.nfreqNat s.payloadCapNat p)
      .next { storePcm q s with handoff := some q.1, txState := .sending, err := .ok } := by
  rw [execTxSend, if_neg (by simp [ht]), if_neg (by simp [hv]), if_neg (not_lt.2 hp), hr]
  rfl

theorem execEvqPop_nil (h : s.evq = []) : execEvqPop s = raise .badState s := by rw [execEvqPop, h]

theorem execEvqPop_cons {e : Event} {rest : List Event} (h : s.evq = e :: rest) :
    execEvqPop s = finish { s with evq := rest } := by rw [execEvqPop, h]

/-- EVQ_COUNT shows the length of the queue (10_state R64). -/
theorem toNat_evqCount (h : s.evq.length < 2 ^ 32) : (s.readRegister 0x040).toNat = s.evq.length := toNat_ofNat_word h

/-- The event registers of a queue of one record (10_state R64). -/
theorem eventRegisters_of_singleton {e : Event} (h : s.evq = [e]) :
    s.readRegister 0x044 = e.typeWord ∧ s.readRegister 0x040 = 1 := by
  simp [State.readRegister, State.headWord, h]

theorem playDone_of_sending (h : s.txState = .sending) :
    playDone s = .next { s with txState := .idle, handoff := none } := by
  rw [playDone, if_pos (by simp [State.sending, h])]

theorem playDone_of_not_sending (h : s.txState ≠ .sending) : playDone s = .refused .noPlayback := by
  rw [playDone, if_neg (by simp [sending_eq_false h])]

end Sys2Proof.Machine
end

section
/-! The obligations of the orchestrator family about its commands. -/

open Sys2Proof Sys2Proof.Machine

/-- Settles O51: the three ends of the command, and the rule's example evaluated. -/
theorem cfgCommitCommand : Obligations.CfgCommitCommand := by
  refine ⟨fun s h => execCfgCommit_busy h, fun s hr ht hv => ?invalid, fun s hr ht hv => ?valid, by decide⟩
  case invalid => exact (execCfgCommit_of_idle hr ht).trans (if_pos hv)
  case valid =>
    refine ⟨{ commit s with err := .ok }, (execCfgCommit_of_idle hr ht).trans (if_neg (by simp [hv])), rfl,
      fun i hi => ?_⟩
    rw [readRegister_freq _ hi]
    exact freqTable_getD s.profile hi

/-- Settles O53: the zero-fill comes before the answer of `cap_open`, so both answers leave it. -/
theorem rxStartCommand : Obligations.RxStartCommand := by
  intro s hm hq hl hc hv
  have hrun := execRxStart_of_checked hq hl hc hv
  have hkept (t : State) (ht : t.mem = (ringClear s).mem) : BytesKept s t rbBase s.rbCapNat :=
    bytesKept_of_store ht List.length_replicate
  cases hopen : (drawCapOpen s.env).1 with
  | true =>
    rw [hopen, if_pos rfl] at hrun
    exact ⟨_, hrun, rfl, rb_ringClear hm, hkept _ rfl, fun _ => ⟨rfl, rfl, rfl, rfl⟩, nofun⟩
  | false =>
    rw [hopen, if_neg Bool.false_ne_true] at hrun
    refine ⟨_, hrun, rfl, rb_ringClear hm, hkept _ rfl, nofun, fun _ => ⟨rfl, rfl, rfl, rfl, fun he => ?_⟩⟩
    rw [← (by decide : captureErrorEvent.typeWord = 0x00030002#32)]
    exact eventRegisters_of_singleton (congrArg (· ++ [captureErrorEvent]) he)

/-- Settles O54, state by state. -/
theorem rxStopCancelCommands : Obligations.RxStopCancelCommands := by
  intro s
  refine ⟨fun h => ⟨?stopped, ?cancelled, fun hq => ?started⟩, fun h => ?listening, fun h => ?atRest⟩
  case stopped => simp only [exec, execRxStop, h, raise]
  case cancelled => simp only [exec, execRxCancel, h, raise]
  case started => exact execRxStart_badState hq (.inr h)
  case listening => simp only [exec, execRxStop, execRxCancel, h, finish, and_self]
  case atRest => obtain h | h := h <;> simp only [exec, execRxStop, execRxCancel, h, finish, and_self]

/-- Settles O55: a payload that fits is rendered to C samples, and PCMBUF keeps what was handed over. -/
theorem txSendCommand : Obligations.TxSendCommand := by
  intro s p hm hc ht hv hp hr q
  have hlen : q.length = s.rbCapNat := length_message_packBits hc hv ((length_pbuf hm hr).trans_le hp)
  have hpcm : BitVec.ofNat 32 q.length = s.derived.rbCap := by
    rw [hlen, State.rbCapNat, BitVec.ofNat_toNat, BitVec.setWidth_eq]
  refine ⟨_, execTxSend_eq (sending_eq_false ht) hv hp hr, ?frame, hlen, ?stored, ?kept⟩
  case frame => rw [← hpcm]; rfl
  case stored => exact hlen ▸ readWords_storePcm hm _
  case kept => exact bytesKept_of_store rfl ((List.length_map _).trans hlen)

/-- Settles O56: each of the three moves changes what its rule names. -/
theorem nopPopPlayDone : Obligations.NopPopPlayDone := by
  refine ⟨fun s => rfl, fun s he => execEvqPop_nil he, fun s e rest he => ?pop,
    fun s => ⟨playDone_of_sending, playDone_of_not_sending⟩⟩
  case pop =>
    refine ⟨{ s with evq := rest, err := .ok }, execEvqPop_cons he, rfl, fun hl => ?_⟩
    have hlen : s.evq.length = rest.length + 1 := he ▸ List.length_cons
    rw [toNat_evqCount hl, toNat_evqCount (s := { s with evq := rest, err := .ok }) (by dsimp only; omega), hlen]

end

section
/-! SUPPORT. One RX step, case by case (46_orchestrator R460, R462 to R464). -/

namespace Sys2Proof.Machine

variable {s t : State}

theorem analyse_ne_refused (s : State) (f : Refusal) : analyse s ≠ .refused f := by
  simp [analyse, ite_eq_iff, withRead_eq_refused]

/-- Below the threshold the `add` was all (46_orchestrator R464). -/
theorem analyse_of_below (h : s.rbSteps.toNat < s.derived.syncThresh.toNat) : analyse s = .next s := if_pos h

/-- A test that does not hit costs its draws (46_orchestrator R464). -/
theorem analyse_of_miss (hs : s.derived.syncThresh.toNat ≤ s.rbSteps.toNat) {o : List Word} (ho : s.snapshot = some o)
    (hmiss : ¬ ((s.syncOn o).1.start = true ∧ (s.syncOn o).1.stop = true)) :
    analyse s = .next { s with env := (s.syncOn o).2 } := by
  rw [analyse, if_neg (not_lt.2 hs), ho, withRead_some, if_neg hmiss]

theorem rxStep_not_enabled_iff : rxStep s = .refused .rxNotEnabled ↔ s.rxEnabled = false := by
  refine ⟨fun h => ?_, fun h => if_pos h⟩
  by_contra hen
  rw [rxStep, if_neg hen] at h
  simp [ite_eq_iff, analyse_ne_refused] at h

section
variable (hen : s.rxEnabled = true)
include hen

theorem rxStep_of_cancel (hc : s.cancelReq = true) : rxStep s = .next (endSession .cancelled s) := by
  rw [rxStep, if_neg (by simp [hen]), if_pos hc]

theorem rxStep_of_stop (hc : s.cancelReq = false) (hs : s.stopReq = true) :
    rxStep s = .next (endSession .stopped s) := by
  rw [rxStep, if_neg (by simp [hen]), if_neg (by simp [hc]), if_pos hs]

/-- With no request the step turns on the length of the answer of `cap_read` (46_orchestrator R462, R463). -/
theorem rxStep_of_answer (hc : s.cancelReq = false) (hs : s.stopReq = false) {q : List Sample} {e : Env}
    (hd : drawCapRead s.stepLenNat s.env = (q, e)) :
    (q.length < s.stepLenNat → rxStep s = .next { s with env := e }) ∧
    (s.stepLenNat < q.length → rxStep s = .refused .captureTooLong) ∧
    (q.length = s.stepLenNat → rxStep s = analyse (ringAdd (q.map sampleF32) { s with env := e })) := by
  rw [rxStep, if_neg (by simp [hen]), if_neg (by simp [hc]), if_neg (by simp [hs]), hd]
  refine ⟨fun h => ?_, fun h => if_pos h, fun h => ?_⟩
  · exact (if_neg (not_lt.2 h.le)).trans (if_pos h)
  · exact (if_neg (not_lt.2 h.le)).trans (if_neg (not_lt.2 h.ge))

end

end Sys2Proof.Machine
end

section
/-! The obligation of the orchestrator family about the RX step. -/

open Sys2Proof Sys2Proof.Machine

/-- Settles O58: a delivered and an undelivered answer are each one draw, and the step turns on its length. -/
theorem rxStepRule : Obligations.RxStepRule := by
  refine ⟨fun s => ?enabled, fun s hl hroom => ?step, fun s => ⟨analyse_of_below, fun _ hs ho => analyse_of_miss hs ho⟩⟩
  case enabled => rw [rxStep_not_enabled_iff, ← rxEnabled_iff, Bool.not_eq_true]
  case step =>
    have hen := rxEnabled_iff.2 ⟨hl, hroom⟩
    refine ⟨rxStep_of_cancel hen, rxStep_of_stop hen, fun q rest hc hs hd => ?delivered, fun hc hs hd => ?free⟩
    case delivered =>
      obtain ⟨short, long, full⟩ := rxStep_of_answer hen hc hs (q := q) (e := { s.env with capRead := rest })
        (by simp [drawCapRead, hd])
      exact ⟨short, long, fun h hbelow => (full h).trans (analyse_of_below hbelow), full⟩
    case free =>
      obtain ⟨short, -, full⟩ := rxStep_of_answer hen hc hs (q := (Config.freeCapRead s.env.count).take s.stepLenNat)
        (e := { s.env with count := s.env.count + 1 }) (by simp [drawCapRead, hd])
      exact ⟨_, rfl, short, full⟩

end

section
/-! SUPPORT. Which moves change RX_STATE or TX_STATE (46_orchestrator R440). -/

namespace Sys2Proof.Machine

variable {s t : State}

/-- Of the commands RX_START and RX_CANCEL move RX, from Initialized or Stopped (46_orchestrator R444, R446). -/
theorem exec_moves_rx {i : Instr} (h : exec i s = .next t) (hne : t.rxState ≠ s.rxState) :
    (s.rxState = .initialized ∨ s.rxState = .stopped) ∧
      ((i = .rxStart ∧ (t.rxState = .listening ∨ t.rxState = .stopped)) ∨
        (i = .rxCancel ∧ t.rxState = .cancelled)) := by
  cases i with
  | rxStart =>
    obtain ⟨c, -, rfl⟩ | ⟨-, hl, hc, -, hanswer⟩ := execRxStart_next h
    · exact absurd rfl hne
    · refine ⟨by cases hs : s.rxState <;> simp_all, .inl ⟨rfl, ?_⟩⟩
      obtain ⟨-, rfl⟩ | ⟨-, rfl⟩ := hanswer
      exacts [.inl rfl, .inr rfl]
  | rxCancel =>
    obtain ⟨c, -, rfl⟩ | ⟨-, rfl⟩ | ⟨hs, rfl⟩ := execRxCancel_next h
    · exact absurd rfl hne
    · exact absurd rfl hne
    · exact ⟨hs, .inr ⟨rfl, rfl⟩⟩
  | _ => rw [exec_frame h] at hne; exact absurd rfl hne

/-- Of the commands TX_SEND moves TX, from Idle (46_orchestrator R447). -/
theorem exec_moves_tx {i : Instr} (h : exec i s = .next t) (hne : t.txState ≠ s.txState) :
    i = .txSend ∧ s.txState = .idle := by
  cases i with
  | txSend =>
    refine ⟨rfl, ?_⟩
    obtain ⟨c, -, rfl⟩ | ⟨hs, -⟩ := execTxSend_next h
    · exact absurd rfl hne
    · cases htx : s.txState <;> simp_all [State.sending]
  | _ => rw [exec_frame h] at hne; exact absurd rfl hne

/-- From `s` to `t` a hit has emitted a MESSAGE that is correct, outside continuous mode (46_orchestrator R466). -/
def CorrectHit (s t : State) : Prop :=
  s.ctrlContinuous = false ∧ t.rxWeight = 0 ∧
    ∃ e l, t.evq = s.evq ++ e :: l ∧ e.type = .message ∧ e.crcOk = true

/-- A hit moves RX only on a correct MESSAGE outside continuous mode. -/
theorem hitState_moves_rx {r : Bits × List Word × Env} (hne : (hitState r s).rxState ≠ s.rxState) :
    (hitState r s).rxState = .stopped ∧ CorrectHit s (hitState r s) := by
  by_cases hend : weight s.hw.gen r.1 = 0 ∧ s.ctrlContinuous = false
  · rw [hitState_of_end hend]
    refine ⟨rfl, hend.2, ?_, _, _, List.append_assoc _ _ _, rfl, (crcOkFlag_iff _).2 hend.1⟩
    simp only [endSession, hitDecoded, hend.1]
    rfl
  · rw [hitState_of_goOn hend] at hne
    exact absurd rfl hne

theorem analyse_moves_rx (h : analyse s = .next t) (hne : t.rxState ≠ s.rxState) :
    t.rxState = .stopped ∧ CorrectHit s t := by
  obtain ⟨-, rfl⟩ | ⟨-, o, -, ⟨-, rfl⟩ | ⟨-, -, rfl⟩⟩ := analyse_next h
  · exact absurd rfl hne
  · exact absurd rfl hne
  · rw [afterHit_decodeAndEmit] at hne ⊢
    exact hitState_moves_rx hne

/-- An RX step leaves Listening on a request, cancel before stop, or on a correct MESSAGE (46_orchestrator R462,
R466). -/
theorem rxStep_moves_rx (h : rxStep s = .next t) (hne : t.rxState ≠ s.rxState) :
    s.rxState = .listening ∧
      ((s.cancelReq = true ∧ t.rxState = .cancelled) ∨
        (s.cancelReq = false ∧ t.rxState = .stopped ∧ (s.stopReq = true ∨ CorrectHit s t))) := by
  obtain ⟨hen, hend⟩ := rxStep_next h
  refine ⟨(rxEnabled_iff.1 hen).1, ?_⟩
  obtain ⟨hc, rfl⟩ | ⟨hc, hs, rfl⟩ | ⟨-, -, -, rfl⟩ | ⟨hc, -, -, ha⟩ := hend
  · exact .inl ⟨hc, rfl⟩
  · exact .inr ⟨hc, rfl, .inl hs⟩
  · exact absurd rfl hne
  · obtain ⟨hstop, hhit⟩ := analyse_moves_rx ha hne
    exact .inr ⟨hc, hstop, .inr hhit⟩

/-- RX moves by RX_START, by RX_CANCEL and by an RX step (46_orchestrator R440). -/
theorem moveEffect_moves_rx {m : Move} (h : MoveEffect m s t) (hr : m ≠ .reset) (hne : t.rxState ≠ s.rxState) :
    (∃ w i, m = .write 32 0x0000000C#32 w ∧ decodeWord w = .ok i ∧ exec i s = .next t) ∨
      (m = .rx ∧ rxStep s = .next t) := by
  cases h with
  | command hi h => exact .inl ⟨_, _, rfl, hi, h⟩
  | register => rw [writeRegister_frame] at hne; exact absurd rfl hne
  | rx h => exact .inr ⟨rfl, h⟩
  | playDone h => rw [playDone_frame h] at hne; exact absurd rfl hne
  | reset => exact absurd rfl hr
  | _ => exact absurd rfl hne

/-- TX moves by TX_SEND and by `play_done` (46_orchestrator R440). -/
theorem moveEffect_moves_tx {m : Move} (h : MoveEffect m s t) (hr : m ≠ .reset) (hne : t.txState ≠ s.txState) :
    (m = .write 32 0x0000000C#32 (encode .txSend) ∧ s.txState = .idle) ∨ (m = .playDone ∧ s.txState = .sending) := by
  cases h with
  | command hi h =>
    obtain ⟨rfl, hs⟩ := exec_moves_tx h hne
    exact .inl ⟨by rw [decodeWord_eq_ok_iff.1 hi], hs⟩
  | register => rw [writeRegister_frame] at hne; exact absurd rfl hne
  | rx h => rw [rxStep_frame h] at hne; exact absurd rfl hne
  | playDone h => exact .inr ⟨rfl, beq_iff_eq.1 (playDone_next h).1⟩
  | reset => exact absurd rfl hr
  | _ => exact absurd rfl hne

end Sys2Proof.Machine
end

section
/-! The obligation of the orchestrator family about the state machines. -/

open Sys2Proof Sys2Proof.Machine

/-- Settles O57: the commands and the RX step that move RX each start from the states of their row, none of which is
Cancelled. -/
theorem stateMachines : Obligations.StateMachines := by
  intro s t m rest hp h hr
  have heffect := step_effect hp h
  have hrx (hne : t.rxState ≠ s.rxState) := moveEffect_moves_rx heffect hr hne
  have htx (hne : t.txState ≠ s.txState) := moveEffect_moves_tx heffect hr hne
  refine ⟨fun hne => ?rows, fun hs => ?terminal, htx⟩
  case rows =>
    obtain ⟨w, i, rfl, hi, hx⟩ | ⟨rfl, hx⟩ := hrx hne
    · obtain rfl := decodeWord_eq_ok_iff.1 hi
      obtain ⟨hs, ⟨rfl, ht⟩ | ⟨rfl, ht⟩⟩ := exec_moves_rx hx hne
      · exact .inl ⟨rfl, hs, ht⟩
      · exact .inr (.inl ⟨rfl, hs, ht⟩)
    · obtain ⟨hs, ⟨hc, ht⟩ | ⟨hc, ht, hwhy⟩⟩ := rxStep_moves_rx hx hne
      · exact .inr (.inr ⟨rfl, hs, .inr ht, by simp [ht, show s.cancelReq = true from hc], by simp [ht]⟩)
      · exact .inr (.inr ⟨rfl, hs, .inl ht, by simp [ht, show s.cancelReq = false from hc], fun _ => hwhy⟩)
  case terminal =>
    by_contra hne
    rw [← hs] at hne
    obtain ⟨w, i, -, -, hx⟩ | ⟨-, hx⟩ := hrx hne
    · obtain hs' | hs' := (exec_moves_rx hx hne).1 <;> exact RxState.noConfusion (hs.symm.trans hs')
    · exact RxState.noConfusion (hs.symm.trans (rxStep_moves_rx hx hne).1)

end

section
/-! SUPPORT. A command's checks stand in the order of the codes' priority (46_orchestrator R449, 60_exceptions R506). -/

namespace Sys2Proof.Machine

/-- Past its checks a command completes with OK or stops at an unwritten operand. -/
def EndsOk (o : Out) : Prop := (∃ t, o = .next t ∧ t.err = .ok) ∨ ∃ a, o = .fault (.unwrittenElement a)

/-- `o` raises the error `e` found in `s`, or ends without one. -/
def Follows (e : Option ErrCode) (s : State) (o : Out) : Prop :=
  (∀ c, e = some c → o = raise c s) ∧ (e = none → EndsOk o)

section
variable {s : State}

theorem follows_raise (c : ErrCode) : Follows (some c) s (raise c s) := ⟨fun _ h => Option.some.inj h ▸ rfl, nofun⟩

theorem follows_finish (t : State) : Follows none s (finish t) := ⟨nofun, fun _ => .inl ⟨_, rfl, rfl⟩⟩

theorem follows_withRead {α : Type} (b : Nat) (r : Option α) {k : α → State} :
    Follows none s (withRead b r fun x => finish (k x)) := by
  cases r with
  | none => exact ⟨nofun, fun _ => .inr ⟨b, rfl⟩⟩
  | some x => exact follows_finish (k x)

/-- One check: the condition of the code and that of the command agree, and the rest follows. -/
theorem follows_check {p q : Prop} [Decidable p] [Decidable q] (hpq : q ↔ p) {c : ErrCode} {e : Option ErrCode}
    {o : Out} (h : Follows e s o) : Follows (if q then some c else e) s (if p then raise c s else o) := by
  by_cases hp : p
  · rw [if_pos hp, if_pos (hpq.2 hp)]
    exact follows_raise c
  · rw [if_neg hp, if_neg (mt hpq.1 hp)]
    exact h

end

/-- A command follows the first error of its classes: its checks are those of the classes that it is in, in their
order. -/
theorem exec_follows_firstError (i : Instr) (s : State) : Follows (firstError s i) s (exec i s) := by
  have invalid (b : Bool) : (!b) = true ↔ b = false := (Bool.not_eq_true' b).to_iff
  cases i <;> simp only [firstError, busyWhen, badStateWhen, configErrorWhen, noBufferWhen, badArgumentWhen,
    tooLargeWhen, Bool.false_eq_true, if_false, exec]
  case nop | byteToBits => exact follows_finish _
  case cfgCommit => exact follows_check Bool.or_eq_true_iff (follows_check (invalid _) (follows_finish _))
  case bitsToByte => exact follows_check (by simp [State.blenNat]) (follows_withRead _ _)
  case unpack | crcParity | crcCheck => exact follows_check decide_eq_true_iff (follows_withRead _ _)
  case pack => exact follows_check (invalid _) (follows_check decide_eq_true_iff (follows_withRead _ _))
  case split => exact follows_check (invalid _) (follows_check (by simp [State.blenNat]) (follows_withRead _ _))
  case invert =>
    exact follows_check (invalid _)
      (follows_check (by simp [noSuchBlock, State.blenNat, State.arg0Nat]) (follows_withRead _ _))
  case rbInit => exact follows_check Iff.rfl (follows_check (invalid _) (follows_finish _))
  case rbSnapshot => exact follows_check Iff.rfl (follows_check (invalid _) (follows_withRead _ _))
  case rbAdd | rbFirst | rbLast =>
    exact follows_check Iff.rfl (follows_check (invalid _) (follows_check decide_eq_true_iff (follows_withRead _ _)))
  case synBlock =>
    rw [execSynBlock, ← ite_or (5 < s.arg0Nat)]
    exact follows_check Iff.rfl (follows_check (invalid _)
      (follows_check (by simp [noSuchBlock, State.blenNat, State.arg0Nat, State.arg1Nat]) (follows_withRead _ _)))
  case buildSignal =>
    exact follows_check Iff.rfl (follows_check (invalid _)
      (follows_check (by simp [State.blenNat]) (follows_withRead _ _)))
  case syncTest | decode =>
    exact follows_check Iff.rfl (follows_check (invalid _) (follows_check (invalid _) (follows_withRead _ _)))
  case rxStart =>
    refine follows_check Iff.rfl (follows_check (by simp) (follows_check (invalid _) ?_))
    dsimp only
    split_ifs
    all_goals exact follows_finish _
  case rxStop | rxCancel =>
    cases hs : s.rxState <;> simp only [execRxStop, execRxCancel, hs]
    case cancelled => exact follows_raise _
    all_goals exact follows_finish _
  case txSend =>
    exact follows_check Iff.rfl (follows_check (invalid _) (follows_check decide_eq_true_iff (follows_withRead _ _)))
  case evqPop =>
    cases hq : s.evq with
    | nil =>
      rw [execEvqPop_nil hq]
      exact follows_raise _
    | cons e rest =>
      rw [execEvqPop_cons hq]
      exact follows_finish _

end Sys2Proof.Machine
end

section
/-! The obligation of the orchestrator family about the error codes. -/

open Sys2Proof Sys2Proof.Machine

/-- Settles O16, command by command. -/
theorem errorPriority : Obligations.ErrorPriority := exec_follows_firstError

end

section
/-! SUPPORT. The live profile and tuning registers steer CFG_COMMIT alone (70_reset R561): every other command, an RX
step and `play_done` answer the same from a state that differs in them. -/

namespace Sys2Proof.Machine

variable (p : Profile) (u : Tuning)

/-- `s` with other values of the live profile and tuning registers (10_state R60, R61). -/
def State.withLive (s : State) : State := { s with profile := p, tuning := u }

@[simp] theorem withLive_rxState (s : State) : (s.withLive p u).rxState = s.rxState := rfl

@[simp] theorem withLive_evq (s : State) : (s.withLive p u).evq = s.evq := rfl

@[simp] theorem withLive_syncOn (s : State) : (s.withLive p u).syncOn = s.syncOn := rfl

theorem withLive_env (s : State) (e : Env) :
    { s.withLive p u with env := e } = { s with env := e }.withLive p u := rfl

/-- A command that does not commit reads the active configuration, never the live registers, and keeps them: where it
ends the two states agree field by field. -/
theorem exec_withLive {i : Instr} (hi : i ≠ .cfgCommit) (s : State) :
    exec i (s.withLive p u) = onNext (State.withLive p u) (exec i s) := by
  cases i with
  | cfgCommit => exact absurd rfl hi
  | nop | byteToBits => rfl
  | rxStop => simp only [exec, execRxStop, withLive_rxState]; cases s.rxState <;> rfl
  | rxCancel => simp only [exec, execRxCancel, withLive_rxState]; cases s.rxState <;> rfl
  | evqPop => simp only [exec, execEvqPop, withLive_evq]; cases s.evq <;> rfl
  | syncTest =>
    simp only [exec, execSyncTest, apply_ite (onNext _), onNext_withRead, withLive_syncOn, finish, onNext_next]
    simp only [State.withLive]
    rfl
  | _ =>
    simp only [exec, execBitsToByte, execPack, execUnpack, execSplit, execInvert, execCrcParity, execCrcCheck,
      execRbInit, execRbAdd, execRbSnapshot, execRbFirst, execRbLast, execSynBlock, execBuildSignal, execDecode,
      execRxStart, execTxSend, apply_ite (onNext _), onNext_withRead]
    rfl

theorem afterHit_withLive (x : List Word) (s : State) :
    afterHit (decodeAndEmit x (s.withLive p u)) = (afterHit (decodeAndEmit x s)).withLive p u := by
  simp only [decodeAndEmit_eq, afterHit, apply_ite (State.withLive p u)]
  rfl

theorem analyse_withLive (s : State) :
    analyse (s.withLive p u) = onNext (State.withLive p u) (analyse s) := by
  simp only [analyse, apply_ite (onNext _), onNext_withRead, onNext_next, withLive_syncOn, withLive_env,
    afterHit_withLive]
  rfl

theorem rxStep_withLive (s : State) :
    rxStep (s.withLive p u) = onNext (State.withLive p u) (rxStep s) := by
  simp only [rxStep, apply_ite (onNext _), ← analyse_withLive]
  rfl

theorem playDone_withLive (s : State) :
    playDone (s.withLive p u) = onNext (State.withLive p u) (playDone s) := by
  simp only [playDone, apply_ite (onNext _)]
  rfl

/-- A commit that succeeds was not made while Listening, and it drops the ring buffer (46_orchestrator R441). -/
theorem execCfgCommit_drops_ring {s t : State} (h : execCfgCommit s = .next t) (hok : t.err = .ok) :
    t.listening = false ∧ t.rbValid = false := by
  obtain ⟨c, hc, rfl⟩ | ⟨hl, -, -, rfl⟩ := execCfgCommit_next h
  · exact absurd hok hc
  · exact ⟨hl, rfl⟩

theorem execRbAdd_noBuffer {s : State} (hl : s.listening = false) (hb : s.rbValid = false) :
    execRbAdd s = raise .noBuffer s := by
  rw [execRbAdd, if_neg (by simp [hl]), if_pos hb]

end Sys2Proof.Machine
end

section
/-! SUPPORT. The words of CTRL and STATUS after reset (70_reset R550). -/

namespace Sys2Proof.Machine

theorem resetWith_ctrlWord (hw : Params) : (State.resetWith hw).ctrlWord = 0 := by
  simp [State.ctrlWord]

theorem resetWith_statusWord (hw : Params) : (State.resetWith hw).statusWord = 0 := by
  have hidle : (State.resetWith hw).sending = false := sending_eq_false nofun
  simp [State.statusWord, State.irq, hidle, ErrCode.byte, RxState.field]

end Sys2Proof.Machine
end

section
/-! The obligations of the exceptions and reset families. -/

open Sys2Proof Sys2Proof.Machine

/-- Settles O15: a command either raises its first error, which changes ERR alone, or completes with OK. -/
theorem raiseIsPrecise : Obligations.RaiseIsPrecise := by
  refine ⟨fun _ _ => rfl, fun i s t h => ?_⟩
  obtain ⟨hraise, hend⟩ := exec_follows_firstError i s
  cases hf : firstError s i with
  | some c =>
    obtain rfl := raise_eq_next.1 ((hraise c hf).symm.trans h)
    exact .inr rfl
  | none =>
    obtain ⟨t', ht, hok⟩ | ⟨a, ha⟩ := hend hf
    · exact .inl (Host.Outcome.next.inj (ht.symm.trans h) ▸ hok)
    · cases h.symm.trans ha

/-- Settles O20: the live registers pass through whatever does not commit, and a commit drops the ring buffer. -/
theorem liveRegistersInert : Obligations.LiveRegistersInert := by
  refine ⟨fun i s p u hi => ?_, fun s p u => ?_, fun s p u => ?_, fun s h => execCfgCommit_busy h,
    fun s t h hok => ?_⟩
  · have hx := exec_withLive p u hi s
    cases he : exec i s <;> rw [he] at hx <;> exact hx
  · have hx := rxStep_withLive p u s
    cases he : rxStep s <;> rw [he] at hx <;> exact hx
  · have hx := playDone_withLive p u s
    cases he : playDone s <;> rw [he] at hx <;> exact hx
  · obtain ⟨hl, hb⟩ := execCfgCommit_drops_ring h hok
    exact ⟨hb, execRbAdd_noBuffer hl hb⟩

/-- Settles O5: each register evaluated, CTRL and STATUS through their fields. -/
theorem resetValues : Obligations.ResetValues := by
  refine ⟨fun hw => ⟨List.map_inj_left.1 ?named, fun i hi => ?derived, fun i hi => ?freq, rfl, rfl, rfl, rfl, rfl,
    rfl, readByte_nil⟩, fun s => ⟨resetInput s, rfl, rfl⟩⟩
  case named =>
    have hctrl : (State.resetWith hw).readRegister 0x004 = 0 := resetWith_ctrlWord hw
    have hstatus : (State.resetWith hw).readRegister 0x008 = 0 := resetWith_statusWord hw
    simp only [List.map_cons, hctrl, hstatus]
    rfl
  case derived => interval_cases i <;> rfl
  case freq => rw [readRegister_freq _ hi, resetWith_freq, List.getD_replicate _ hi]

/-- Settles O6: nothing is pending, RX is not Listening, TX is not Sending, and the interrupt is masked. -/
theorem resetWaits : Obligations.ResetWaits := fun _ =>
  ⟨step_nil rfl, rxStep_not_enabled_iff.2 rfl, playDone_of_not_sending nofun, rfl, rfl⟩

end
